-- ==== Sys2Proof/Word.lean ====
section
/-! DEFINITION. The widths of the block's quantities (00_scope R6, R8). -/
namespace Sys2Proof

/-- A surface register, a command word or a bus operand: `WORD = 32` bits (R35, R91, R100). -/
abbrev Word := BitVec 32

/-- A Pin identifier, a MODE or PULL operand, `WAKE`, `FVAL`: 8 bits (R22, R27, R92, R120). -/
abbrev Byte := BitVec 8

/-- One bit for each of the sixteen pins of a port (R34, R52). -/
abbrev Half := BitVec 16

/-- A TimeUnit, `DIN` and `DOUT`: 64 bits, unsigned (R29, R92). -/
abbrev TimeUnit := BitVec 64

end Sys2Proof
end

