-- ==== Sys2Proof/Syntax.lean ====
section
/-! DEFINITION. The surface registers by name (30_encoding R101) and the instructions: the eight commands (R95), the five bus
transactions (R100) and the three interrupt port transactions (R102), one constructor for each row of the opcode table. -/
namespace Sys2Proof

/-- A surface register, by name (R36 to R52). Where two layouts give one ordinal two names (R101), the constructor stands for
the one the variant has. `p` is a port index; `Reg.wf` says it is 0 to 15. -/
inductive Reg
  | clkenSyscfg | clkenPwr | flashAcr | oscCtl | pllCfg | pllCtl | clkCfg
  | clkenTim | timPsc | timArr | timEgr | timCr | timDier | timSr | clkenGpio
  /-- `PCTL_LO[p]` (PACKED4) or `PMODE[p]` (SPLIT). -/
  | ctlA (p : Nat)
  /-- `PCTL_HI[p]` (PACKED4) or `PPULL[p]` (SPLIT). -/
  | ctlB (p : Nat)
  /-- `POTYPE[p]` (SPLIT only). -/
  | outType (p : Nat)
  /-- `PSET[p]` (SEPARATE) or `PBSR[p]` (COMBINED). -/
  | outSet (p : Nat)
  /-- `PRST[p]` (SEPARATE only). -/
  | outReset (p : Nat)
  /-- `PIN_IN[p]`. -/
  | pinIn (p : Nat)
  deriving DecidableEq, Repr

/-- An instruction: a command of the command port, or a transaction of the bus port or of the interrupt port. -/
inductive Instr
  /-- `CONFIGURE pin, mode, pull` (R122). -/
  | configure (pin mode pull : Byte)
  /-- `SET pin, level` (R129). -/
  | set (pin : Byte) (level : Bool)
  /-- `GET pin` (R131). -/
  | get (pin : Byte)
  /-- `HIGH pin` (R132). -/
  | high (pin : Byte)
  /-- `LOW pin` (R133). -/
  | low (pin : Byte)
  /-- `DEVICEINIT` (R140). -/
  | deviceinit
  /-- `TICKS` (R184). -/
  | ticks
  /-- `SLEEPTICKS d`, the operand in `DIN` (R185). -/
  | sleepticks (duration : TimeUnit)
  /-- `r.Get()` (R62). -/
  | busGet (r : Reg)
  /-- `r.Set(v)` (R63). -/
  | busSet (r : Reg) (v : Word)
  /-- `r.SetBits(m)` (R64). -/
  | busSetBits (r : Reg) (m : Word)
  /-- `r.ClearBits(m)` (R65). -/
  | busClearBits (r : Reg) (m : Word)
  /-- `r.HasBits(m)` (R66). -/
  | busHasBits (r : Reg) (m : Word)
  /-- `intc.Register(irq, TICKISR)` (R207). -/
  | intcRegister (irq : Nat)
  /-- `handle.SetPriority(p)` (R208). -/
  | intcSetPriority (p : Nat)
  /-- `handle.Enable()` (R209). -/
  | intcEnable
  deriving DecidableEq, Repr

/-- The request lines of the bus port, `(BOP, REG, WDATA)` (R100), or of the interrupt port, `(IOP, ARG)` (R102). The spec gives
`REG`, an enumeration (R101), no width: 8 lines are the model's choice, enough for every ordinal (log 37). -/
inductive PortLines
  | bus (bop : BitVec 3) (reg : Byte) (wdata : Word)
  | intc (iop : BitVec 2) (arg : Nat)
  deriving DecidableEq, Repr

/-- An instruction in its encoded form: `CW` and `DIN` on the command port (R91), or request lines of another port. -/
inductive Transfer
  | command (cw : Word) (din : TimeUnit)
  | port (lines : PortLines)
  deriving DecidableEq, Repr

end Sys2Proof
end

