-- ==== Sys2Proof/WellFormed.lean ====
section
/-! DEFINITION. Which instructions are well formed: a register name must have a port index the enumeration has (30_encoding
R101). Every pin, mode, pull, level and duration is an operand the encodings admit (R92, R97). -/
namespace Sys2Proof

/-- "`p` is a port index 0 to 15" (R101). -/
def Reg.wf : Reg → Bool
  | .ctlA p | .ctlB p | .outType p | .outSet p | .outReset p | .pinIn p => p < 16
  | _ => true

/-- The register a transaction names is one of the enumeration (R101); a command has no such operand. -/
def Instr.wf : Instr → Bool
  | .busGet r | .busSet r _ | .busSetBits r _ | .busClearBits r _ | .busHasBits r _ => r.wf
  | .configure _ _ _ | .set _ _ | .get _ | .high _ | .low _ | .deviceinit | .ticks | .sleepticks _
  | .intcRegister _ | .intcSetPriority _ | .intcEnable => true

end Sys2Proof
end

