-- ==== Sys2Proof/Decode.lean ====
section
/-! DEFINITION. The decoder of the three ports, total and rejecting by name (30_encoding R91 to R102), and after it the encoder
from the same tables. -/
namespace Sys2Proof

/-- Why a transfer is no instruction. -/
inductive DecodeError
  /-- `OP` is 0x0 or 0x9 to 0xF (R97). -/
  | illegalOp
  /-- A bit the format shows as 0 is 1 (R97). -/
  | reservedBit
  /-- `BOP` 101, 110, 111 (R100) or `IOP` 11 (R102). -/
  | neverIssued
  /-- `REG` is an ordinal no register has (R101). -/
  | unusedOrdinal
  deriving DecidableEq, Repr

/-- The ordinal of a register name (R101). -/
def Reg.ordinal : Reg → Nat
  | .clkenSyscfg => 0 | .clkenPwr => 1 | .flashAcr => 2 | .oscCtl => 3 | .pllCfg => 4
  | .pllCtl => 5 | .clkCfg => 6 | .clkenTim => 7 | .timPsc => 8 | .timArr => 9
  | .timEgr => 10 | .timCr => 11 | .timDier => 12 | .timSr => 13 | .clkenGpio => 14
  | .ctlA p => 16 + 8 * p
  | .ctlB p => 16 + 8 * p + 1
  | .outType p => 16 + 8 * p + 2
  | .outSet p => 16 + 8 * p + 3
  | .outReset p => 16 + 8 * p + 4
  | .pinIn p => 16 + 8 * p + 5

/-- The per-port register of slot `k` (R101): slots 6 and 7 are unused. -/
def Reg.ofSlot (p : Nat) : Nat → Option Reg
  | 0 => some (.ctlA p)
  | 1 => some (.ctlB p)
  | 2 => some (.outType p)
  | 3 => some (.outSet p)
  | 4 => some (.outReset p)
  | 5 => some (.pinIn p)
  | _ => none

/-- The register of an ordinal (R101): "Ordinals 15 and `16 + 8p + 6`, `16 + 8p + 7` are unused". -/
def Reg.ofOrdinal (n : Nat) : Option Reg :=
  match n with
  | 0 => some .clkenSyscfg | 1 => some .clkenPwr | 2 => some .flashAcr | 3 => some .oscCtl
  | 4 => some .pllCfg | 5 => some .pllCtl | 6 => some .clkCfg | 7 => some .clkenTim
  | 8 => some .timPsc | 9 => some .timArr | 10 => some .timEgr | 11 => some .timCr
  | 12 => some .timDier | 13 => some .timSr | 14 => some .clkenGpio
  | _ =>
    if 16 ≤ n ∧ n < 144 then Reg.ofSlot ((n - 16) / 8) ((n - 16) % 8) else none

/-- `OP = CW[31:28]` (R95). -/
def opField (cw : Word) : BitVec 4 := cw.extractLsb' 28 4
/-- `CW[27:24]`, zero in every format (R91). -/
def zeroField (cw : Word) : BitVec 4 := cw.extractLsb' 24 4
/-- `PIN = CW[23:16]` (R92). -/
def pinField (cw : Word) : Byte := cw.extractLsb' 16 8
/-- `MODE = CW[15:8]` (R92). -/
def modeField (cw : Word) : Byte := cw.extractLsb' 8 8
/-- `PULL = CW[7:0]` (R92). -/
def pullField (cw : Word) : Byte := cw.extractLsb' 0 8
/-- `CW[7:1]`, zero in every format but `PC` (R91). -/
def pullHigh (cw : Word) : BitVec 7 := cw.extractLsb' 1 7

/-- `ok` where the condition a format states on its zero bits holds, the rejection otherwise (R97). -/
def requireZero (zero : Bool) (i : Instr) : Except DecodeError Instr :=
  if zero then .ok i else .error .reservedBit

/-- Decoding of a command word by the opcode map (R91, R95, R97). `din` is the operand of format `D` and ignored by the
others. -/
def decodeCommand (cw : Word) (din : TimeUnit) : Except DecodeError Instr :=
  let pin := pinField cw
  let mode := modeField cw
  let pull := pullField cw
  let z := zeroField cw == 0
  match (opField cw).toNat with
  | 1 => requireZero z (.configure pin mode pull)
  | 2 => requireZero (z && mode == 0 && pullHigh cw == 0) (.set pin (cw.getLsbD 0))
  | 3 => requireZero (z && mode == 0 && pull == 0) (.get pin)
  | 4 => requireZero (z && mode == 0 && pull == 0) (.high pin)
  | 5 => requireZero (z && mode == 0 && pull == 0) (.low pin)
  | 6 => requireZero (z && pin == 0 && mode == 0 && pull == 0) .deviceinit
  | 7 => requireZero (z && pin == 0 && mode == 0 && pull == 0) .ticks
  | 8 => requireZero (z && pin == 0 && mode == 0 && pull == 0) (.sleepticks din)
  | _ => .error .illegalOp

/-- The register of the `REG` lines, or the rejection. -/
def decodeReg (reg : Byte) (mk : Reg → Instr) : Except DecodeError Instr :=
  match Reg.ofOrdinal reg.toNat with
  | some r => .ok (mk r)
  | none => .error .unusedOrdinal

/-- Decoding of the bus port (R100) and of the interrupt port (R102). -/
def decodePort : PortLines → Except DecodeError Instr
  | .bus bop reg wdata =>
    match bop.toNat with
    | 0 => decodeReg reg (fun r => .busGet r)
    | 1 => decodeReg reg (fun r => .busSet r wdata)
    | 2 => decodeReg reg (fun r => .busSetBits r wdata)
    | 3 => decodeReg reg (fun r => .busClearBits r wdata)
    | 4 => decodeReg reg (fun r => .busHasBits r wdata)
    | _ => .error .neverIssued
  | .intc iop arg =>
    match iop.toNat with
    | 0 => .ok (.intcRegister arg)
    | 1 => .ok (.intcSetPriority arg)
    | 2 => .ok .intcEnable
    | _ => .error .neverIssued

/-- The decoder, total on every transfer. -/
def decode : Transfer → Except DecodeError Instr
  | .command cw din => decodeCommand cw din
  | .port lines => decodePort lines

/-- A command word from its fields (R91). -/
def packCommand (op : BitVec 4) (pin mode pull : Byte) : Word :=
  op ++ 0#4 ++ pin ++ mode ++ pull

/-- `LEVEL` in bit 0 of the byte `CW[7:0]` (R92). -/
def levelByte (level : Bool) : Byte := if level then 1 else 0

/-- The command word of a command (R95); a port transaction has none and gives the illegal word 0. -/
def Instr.commandWord : Instr → Word
  | .configure pin mode pull => packCommand 1 pin mode pull
  | .set pin level => packCommand 2 pin 0 (levelByte level)
  | .get pin => packCommand 3 pin 0 0
  | .high pin => packCommand 4 pin 0 0
  | .low pin => packCommand 5 pin 0 0
  | .deviceinit => packCommand 6 0 0 0
  | .ticks => packCommand 7 0 0 0
  | .sleepticks _ => packCommand 8 0 0 0
  | .busGet _ | .busSet _ _ | .busSetBits _ _ | .busClearBits _ _ | .busHasBits _ _
  | .intcRegister _ | .intcSetPriority _ | .intcEnable => 0

/-- The data operand of a command: `DURATION` for SLEEPTICKS (R92), the given word where the format ignores `DIN` (R91). -/
def Instr.dataOperand (ignored : TimeUnit) : Instr → TimeUnit
  | .sleepticks d => d
  | _ => ignored

/-- The `REG` lines of a register (R101). -/
def Reg.lines (r : Reg) : Byte := BitVec.ofNat 8 r.ordinal

/-- The encoder, from the same tables; a field an operation ignores is written as zero. -/
def encode : Instr → Transfer
  | .busGet r => .port (.bus 0 r.lines 0)
  | .busSet r v => .port (.bus 1 r.lines v)
  | .busSetBits r m => .port (.bus 2 r.lines m)
  | .busClearBits r m => .port (.bus 3 r.lines m)
  | .busHasBits r m => .port (.bus 4 r.lines m)
  | .intcRegister irq => .port (.intc 0 irq)
  | .intcSetPriority p => .port (.intc 1 p)
  | .intcEnable => .port (.intc 2 0)
  | .configure pin mode pull => .command (Instr.configure pin mode pull).commandWord 0
  | .set pin level => .command (Instr.set pin level).commandWord 0
  | .get pin => .command (Instr.get pin).commandWord 0
  | .high pin => .command (Instr.high pin).commandWord 0
  | .low pin => .command (Instr.low pin).commandWord 0
  | .deviceinit => .command Instr.deviceinit.commandWord 0
  | .ticks => .command Instr.ticks.commandWord 0
  | .sleepticks d => .command (Instr.sleepticks d).commandWord d

/-- One row of the opcode map (R95). -/
structure CommandRow where
  mnemonic : String
  pattern : Word
  mask : Word
  deriving DecidableEq, Repr

/-- The eight rows of the opcode map (R95), beside which the field-by-field decoder is held in a statement. -/
def commandTable : List CommandRow :=
  [⟨"CONFIGURE", 0x10000000, 0xFF000000⟩, ⟨"SET", 0x20000000, 0xFF00FFFE⟩,
   ⟨"GET", 0x30000000, 0xFF00FFFF⟩, ⟨"HIGH", 0x40000000, 0xFF00FFFF⟩,
   ⟨"LOW", 0x50000000, 0xFF00FFFF⟩, ⟨"DEVICEINIT", 0x60000000, 0xFFFFFFFF⟩,
   ⟨"TICKS", 0x70000000, 0xFFFFFFFF⟩, ⟨"SLEEPTICKS", 0x80000000, 0xFFFFFFFF⟩]

/-- A row matches a word: `(CW & mask) = match` (R95). -/
def CommandRow.hits (row : CommandRow) (cw : Word) : Bool := cw &&& row.mask == row.pattern

/-- The transfer of a table word: 32 bits are `CW` with `DIN = 0`; up to 8 bits are a row of the bus port (`BOP`, the other
lines 0), but for 2 bits, which are a row of the interrupt port (log 27). -/
def tableTransfer (nbits w : Nat) : Option Transfer :=
  if w < 2 ^ nbits then
    if nbits = 32 then some (.command (BitVec.ofNat 32 w) 0)
    else if nbits = 2 then some (.port (.intc (BitVec.ofNat 2 w) 0))
    else if nbits ≤ 8 ∧ w < 8 then some (.port (.bus (BitVec.ofNat 3 w) 0 0))
    else none
  else none

/-- The instruction the decoder reads from a word numbered as the opcode table numbers it. -/
def decodeTableWord (nbits w : Nat) : Option Instr :=
  match tableTransfer nbits w with
  | some t => (decode t).toOption
  | none => none

end Sys2Proof
end

