-- ==== Sys2Proof/Config.lean ====
section
/-! DEFINITION. The variant record `V` of 00_scope R6 with the constraints of R7, the constants the spec decides, and the free
values: opaque constants with no body, which no proof can evaluate. -/
namespace Sys2Proof

/-- `PINLAYOUT` (R6, R51). -/
inductive PinLayout
  | packed4 | split
  deriving DecidableEq, Repr, Inhabited

/-- `BSRKIND` (R6, R52). -/
inductive BsrKind
  | separate | combined
  deriving DecidableEq, Repr, Inhabited

/-- A field encoder of the SPLIT layout, "total functions from the 8-bit MODE or PULL operand to a field value" (R127), as
data: the default of R127, a slice of the operand, or a table with a row for each operand (a missing row is 0, log 26). -/
inductive Encoder
  | standard
  | table (rows : List Word)
  deriving DecidableEq, Repr, Inhabited

/-- The masks `MASK.*` (R6, R36 to R52). `cgPort` holds `MASK.CG_PORT[p]` at index `p`. -/
structure Masks where
  cgSyscfg : Word
  cgPwr : Word
  latency : Word
  oscOn : Word
  oscRdy : Word
  pllIdiv : Word
  pllMul : Word
  pllOdiv : Word
  pllOen : Word
  pllOn : Word
  pllRdy : Word
  ahbPre : Word
  sw : Word
  sws : Word
  apbPre : Word
  cgTim : Word
  ug : Word
  cen : Word
  uie : Word
  uif : Word
  cgPort : List Word
  deriving DecidableEq, Repr, Inhabited

/-- The field values `*_VAL`, "each already shifted into its field's position" (R6). -/
structure FieldValues where
  latency : Word
  pllFields : Word
  ahbPre : Word
  apbPre : Word
  swPll : Word
  swsPll : Word
  timPsc : Word
  timArr : Word
  deriving DecidableEq, Repr, Inhabited

/-- `ENV_FAIR` (R6): which of the five assumptions (a) to (e) of R263 are made of the environment and the two agents. What each
says of a run stands in Safety.lean; no step reads them (log 33). -/
structure EnvFair where
  oscReady : Bool
  pllReady : Bool
  switched : Bool
  updates : Bool
  agents : Bool
  deriving DecidableEq, Repr, Inhabited

/-- The variant record `V` (R6): "fixed before reset and never changed". `legalModes` and `legalPulls` are the enumerations of
a SPLIT layout whose encoders are tables (R128, log 14); `outputModes` are the MODE operands that make a pin an output, which
the premise of R135 needs (the model's own field, log 25); `regmap` maps a register's ordinal to its address where it is
listed. -/
structure Variant where
  ports : Half
  tickw : Nat
  pinLayout : PinLayout
  bsrKind : BsrKind
  modeW : Nat
  pullW : Nat
  otypeW : Nat
  encMode : Encoder
  encOtype : Encoder
  encPull : Encoder
  legalModes : List Byte
  legalPulls : List Byte
  outputModes : List Byte
  regmap : List (Nat × Nat)
  mask : Masks
  val : FieldValues
  tickIrq : Nat
  tickPrio : Nat
  fSys : Nat
  hostMayClearWake : Bool
  envFair : EnvFair
  deriving DecidableEq, Repr, Inhabited

/-- `NOPIN`, the "no pin" sentinel (R6, R120). -/
def noPin : Byte := 0xFF

/-- `US_PER_TICK`, the "ticks_to_microseconds_ratio" (R6). -/
def usPerTick : Nat := 1000

/-- `MASK.PLL_FIELDS`: the union of the three PLL field masks (R40, R147). -/
def Masks.pllFields (m : Masks) : Word := m.pllIdiv ||| m.pllMul ||| m.pllOdiv

/-- `MASK.CG_PORT[p]` (R50). -/
def Masks.gate (m : Masks) (p : Nat) : Word := m.cgPort.getD p 0

/-- Port `p` is physically present: `p ∈ PORTS` (R6, R121). -/
def Variant.portPresent (v : Variant) (p : Nat) : Bool := v.ports.getLsbD p

/-- The variant has the register: the per-port registers exist for present ports only, `POTYPE` in SPLIT only and `PRST` in
SEPARATE only (R51, R52, R101). -/
def Variant.hasReg (v : Variant) : Reg → Bool
  | .ctlA p | .ctlB p | .outSet p | .pinIn p => v.portPresent p
  | .outType p => v.portPresent p && v.pinLayout == .split
  | .outReset p => v.portPresent p && v.bsrKind == .separate
  | _ => true

/-- The hardware-owned bits of a register (R35): `OSC_RDY` (R39), `PLL_RDY` (R41), `SWS` (R42), `UIF` (R49), and bits 15 to 0 of
`PIN_IN` (R52). -/
def Variant.hardwareOwned (v : Variant) : Reg → Word
  | .oscCtl => v.mask.oscRdy
  | .pllCtl => v.mask.pllRdy
  | .clkCfg => v.mask.sws
  | .timSr => v.mask.uif
  | .pinIn _ => 0x0000FFFF
  | _ => 0

/-- "masks with exactly one bit set" (R7). -/
def oneBit (m : Word) : Bool := m != 0 && m &&& (m - 1) == 0

/-- `VAL & ~MASK = 0` (R7). -/
def inside (val mask : Word) : Bool := val &&& ~~~mask == 0

/-- The low `n` bits of a word. -/
def lowOnes (n : Nat) : Word := BitVec.ofNat 32 (2 ^ n - 1)

/-- The fields of the registers that are not per port, each with its register (R36 to R50). -/
def Variant.chipFields (v : Variant) : List (Reg × Word) :=
  [(.clkenSyscfg, v.mask.cgSyscfg), (.clkenPwr, v.mask.cgPwr), (.flashAcr, v.mask.latency),
   (.oscCtl, v.mask.oscOn), (.oscCtl, v.mask.oscRdy),
   (.pllCfg, v.mask.pllIdiv), (.pllCfg, v.mask.pllMul), (.pllCfg, v.mask.pllOdiv),
   (.pllCfg, v.mask.pllOen), (.pllCtl, v.mask.pllOn), (.pllCtl, v.mask.pllRdy)] ++
  [(.clkCfg, v.mask.ahbPre), (.clkCfg, v.mask.sw), (.clkCfg, v.mask.sws), (.clkCfg, v.mask.apbPre),
   (.clkenTim, v.mask.cgTim), (.timPsc, lowOnes 32), (.timArr, lowOnes 32), (.timEgr, v.mask.ug),
   (.timCr, v.mask.cen), (.timDier, v.mask.uie), (.timSr, v.mask.uif)]

/-- The fields of one present port: its gate bit and, as one mask each, the used bits of its registers (R50 to R52). -/
def Variant.portFields (v : Variant) (p : Nat) : List (Reg × Word) :=
  let packed := v.pinLayout == .packed4
  let separate := v.bsrKind == .separate
  [(.clkenGpio, v.mask.gate p),
   (.ctlA p, if packed then lowOnes 32 else lowOnes (16 * v.modeW)),
   (.ctlB p, if packed then lowOnes 32 else lowOnes (16 * v.pullW)),
   (.outSet p, if separate then lowOnes 16 else lowOnes 32),
   (.pinIn p, lowOnes 16)] ++
  (if packed then [] else [(.outType p, lowOnes (16 * v.otypeW))]) ++
  (if separate then [(.outReset p, lowOnes 16)] else [])

/-- Every named field of the variant with its register. -/
def Variant.fields (v : Variant) : List (Reg × Word) :=
  v.chipFields ++ ((List.range 16).filter v.portPresent).flatMap v.portFields

/-- The physical register of a name: its listed address, else a register of its own (`REGMAP`, R6, R73). -/
def Variant.physical (v : Variant) (r : Reg) : Nat ⊕ Nat :=
  match v.regmap.lookup r.ordinal with
  | some a => .inl a
  | none => .inr r.ordinal

/-- Two fields of one physical register have disjoint masks (R7). -/
def Variant.apart (v : Variant) (f g : Reg × Word) : Bool :=
  v.physical f.1 != v.physical g.1 || f.2 &&& g.2 == 0

/-- Every field is apart from every later one of the list. -/
def Variant.allApart (v : Variant) : List (Reg × Word) → Bool
  | [] => true
  | f :: rest => rest.all (v.apart f) && v.allApart rest

/-- An encoder's values fit a field of `w` bits (R7, R127). -/
def Encoder.fits (e : Encoder) (w : Nat) : Bool :=
  match e with
  | .standard => true
  | .table rows => rows.all (fun x => inside x (lowOnes w))

/-- The single-bit fields, "every field named `bit`" (R7). -/
def Masks.singleBits (m : Masks) : List Word :=
  [m.cgSyscfg, m.cgPwr, m.oscOn, m.oscRdy, m.pllOen, m.pllOn, m.pllRdy, m.cgTim, m.ug, m.cen, m.uie, m.uif]

/-- The multi-bit fields that are given by a mask. -/
def Masks.multiBits (m : Masks) : List Word :=
  [m.latency, m.pllIdiv, m.pllMul, m.pllOdiv, m.ahbPre, m.sw, m.sws, m.apbPre]

/-- Every `*_VAL` lies inside its field's mask (R7). -/
def Variant.valuesInside (v : Variant) : Bool :=
  inside v.val.latency v.mask.latency && inside v.val.pllFields v.mask.pllFields &&
  inside v.val.ahbPre v.mask.ahbPre && inside v.val.apbPre v.mask.apbPre &&
  inside v.val.swPll v.mask.sw && inside v.val.swsPll v.mask.sws

/-- "Constraints every variant record must meet" (R7), with `TICKW ≥ 1` (R6) and SPLIT fields of sixteen pins in one word
(R51). -/
def Variant.wf (v : Variant) : Bool :=
  1 ≤ v.tickw && v.mask.singleBits.all oneBit && v.mask.multiBits.all (· != 0) &&
  ((List.range 16).filter v.portPresent).all (fun p => oneBit (v.mask.gate p)) &&
  v.valuesInside && v.allApart v.fields &&
  (1 ≤ v.modeW && 16 * v.modeW ≤ 32) && (1 ≤ v.pullW && 16 * v.pullW ≤ 32) &&
  (1 ≤ v.otypeW && 16 * v.otypeW ≤ 32) &&
  v.encMode.fits v.modeW && v.encPull.fits v.pullW && v.encOtype.fits v.otypeW

/-- The example variant `V_EX` of 95_test_vectors section 0, "the spec invented for these vectors". Section 0 gives no `F_SYS` and
no `ENV_FAIR`: `fSys` 0 and all five assumptions of fairness made are the model's choice, and so is MODE 0x03, its "output
push-pull", as the one entry of `outputModes` (log 1). -/
def Variant.example : Variant :=
  { ports := 0x0007, tickw := 32, pinLayout := .packed4, bsrKind := .combined,
    modeW := 2, pullW := 2, otypeW := 1, encMode := .standard, encOtype := .standard, encPull := .standard,
    legalModes := [], legalPulls := [], outputModes := [0x03],
    regmap := [],
    mask :=
      { cgSyscfg := 0x00000001, cgPwr := 0x10000000, latency := 0x00000007,
        oscOn := 0x00000100, oscRdy := 0x00000400,
        pllIdiv := 0x00000070, pllMul := 0x00007F00, pllOdiv := 0xE0000000, pllOen := 0x10000000,
        pllOn := 0x01000000, pllRdy := 0x02000000,
        ahbPre := 0x00000F00, sw := 0x00000007, sws := 0x00000038, apbPre := 0x00007000,
        cgTim := 1, ug := 1, cen := 1, uie := 1, uif := 1,
        cgPort := (List.range 16).map (BitVec.twoPow 32) },
    val :=
      { latency := 0x00000002, pllFields := 0x20000800, ahbPre := 0, apbPre := 0x00004000,
        swPll := 0x00000002, swsPll := 0x00000010, timPsc := 0x0000003F, timArr := 0x000003E7 },
    tickIrq := 15, tickPrio := 0xC0, fSys := 0, hostMayClearWake := true,
    envFair := ⟨true, true, true, true, true⟩ }

namespace Config

/-- Free value (log 1): a variant record, about which nothing is known. -/
opaque drawnVariant : Variant

/-- The variant of `State.reset`: any record that meets R7. Where the drawn one does not, the spec's example stands in, so that
the record is always lawful; every lawful record is a possible value. -/
def variant : Variant := if drawnVariant.wf then drawnVariant else Variant.example

/-- Free value (log 8, log 7, log 22): the `n`-th drawn word. -/
opaque freeWord : Nat → Word

/-- Free value (log 9): the `n`-th drawn bit, whether a forced update event sets `UIF` (`UG_SETS_UIF`, R56 (b)). -/
opaque freeBit : Nat → Bool

/-- Free value (log 22): the `n`-th drawn natural number. -/
opaque freeNat : Nat → Nat

/-- Free value (log 22): the `n`-th drawn contents of the surface registers, in any form. -/
opaque freeSurface : Nat → List (Nat × Word)

/-- Free value (log 22): the `n`-th drawn contents of the output latches, in any form. -/
opaque freeLatches : Nat → List (Nat × Half)

end Config

end Sys2Proof
end

