-- ==== Sys2Proof/Machine/State.lean ====
section
/-! DEFINITION. The state of the machine as plain data (10_state), the reasons a step can stop, and the state after reset (R58,
R240). -/
namespace Sys2Proof.Machine

/-- Values by key in ONE canonical form (`Cells.wf`, in Ops.lean): keys strictly rising, no value equal to what an unlisted key
reads as, which is 0 (log 3, log 4). -/
abbrev Cells (w : Nat) := List (Nat × BitVec w)

/-- `LIFE` (R25). -/
inductive Life
  | uninitialized | configured | running
  deriving DecidableEq, Repr

/-- `SEQ`, the sequencer step register, this hardware's program counter: a closed enumeration (R26). -/
inductive Seq
  | idle
  | s1a | s1b | s2a | s2b | s3a | s3w | s4a | s4b | s4c | s4d | s4w | s5a | s5b | s6a | s6b | s6w | s7a | s7b
  | t1 | t2a | t2b | t3 | t4 | t5 | t6a | t6b | t7
  | p0 | p1 | p2 | p3 | p4 | p5 | p6 | p7
  | w0 | w1
  | g0 | g1
  | k0
  | l0 | l1
  | halt
  deriving DecidableEq, Repr

/-- `ISEQ`, the interrupt service's own step register (R26, R179). -/
inductive ISeq
  | idle | i0 | i1 | i2 | i3
  deriving DecidableEq, Repr

/-- The agents (R10, R82). -/
inductive Agent
  | fg | isr | env
  deriving DecidableEq, Repr

/-- One response of a command (R94, R264). -/
structure Response where
  status : BitVec 2
  dout : TimeUnit
  deriving DecidableEq, Repr

/-- What happens in a step that is not left to the default: a turn of the block, an interrupt entry, or a move of ENV or of the
host (R53 to R57, R210, R216, R265). A move whose condition does not hold changes nothing (log 2). -/
inductive Move
  /-- The block's next step: the ISR's while `IN_ISR`, else FG's (R28). -/
  | core
  /-- The ISR agent takes the tick interrupt, if entry is enabled (R210). -/
  | enter
  /-- The facility invokes the handler with the flag clear, and it returns (R216). -/
  | spurious
  /-- ENV gives `OSC_RDY` a value (R53). -/
  | oscReady (b : Bool)
  /-- ENV gives `PLL_RDY` a value (R54). -/
  | pllReady (b : Bool)
  /-- ENV gives the field `SWS` a value, in position (R55). -/
  | swStatus (w : Word)
  /-- The timer performs a periodic update event, if it counts (R56 (a)). -/
  | updateEvent
  /-- ENV drives the input bits of a port (R57). -/
  | pinInput (p : Nat) (w : Word)
  /-- The host raises `CMD_VALID` with a command word and a data operand (R90, R265 (1)). -/
  | offer (cw : Word) (din : TimeUnit)
  /-- The host writes 0 to `WAKE`, if `HOST_MAY_CLEAR_WAKE` (R22, R265 (3)). -/
  | clearWake
  /-- The host resets the block (R240, R265 (4)). -/
  | reset
  deriving DecidableEq, Repr

/-- What an entry of the event record records (R82): a transaction with its register and operand, or a step of ENV. -/
inductive Action
  | transaction (i : Instr)
  | env (m : Move)
  deriving DecidableEq, Repr

/-- One entry of the event record (R82): the agent, what it did, and the value returned (the word for GET, 0 or 1 for
HASBITS). -/
structure Event where
  agent : Agent
  op : Action
  returned : Option Word
  deriving DecidableEq, Repr

/-- The whole state. Every field but the last group is the spec's; a Bool is a register of 1 bit. -/
structure State where
  /-- `V` (R6). -/
  cfg : Variant
  /-- `TICK`, below `2 ^ TICKW` (R21). -/
  tick : Nat
  /-- `WAKE` (R22). -/
  wake : Byte
  /-- `SL_START`, below `2 ^ TICKW` (R23). -/
  slStart : Nat
  /-- `SL_TARGET` (R24). -/
  slTarget : Nat
  /-- `LIFE` (R25). -/
  life : Life
  /-- `SEQ` (R26). -/
  seq : Seq
  /-- `ISEQ` (R26). -/
  iseq : ISeq
  /-- `FATAL` (R27). -/
  fatal : Bool
  /-- `FCAUSE` (R27, R201). -/
  fcause : BitVec 2
  /-- `FVAL` (R27). -/
  fval : Byte
  /-- `IN_ISR` (R28). -/
  inIsr : Bool
  /-- `CW` (R29). -/
  cw : Word
  /-- `DIN` (R29). -/
  din : TimeUnit
  /-- `DOUT` (R29). -/
  dout : TimeUnit
  /-- `STATUS` (R29). -/
  status : BitVec 2
  /-- `BUSY` (R29). -/
  busy : Bool
  /-- `H_REG` (R33). -/
  hReg : Bool
  /-- `H_IRQ` (R33). -/
  hIrq : Nat
  /-- `H_PRIO` (R33). -/
  hPrio : Nat
  /-- `H_EN` (R33). -/
  hEn : Bool
  /-- The timer's active prescaler (R34 (a)). -/
  activePsc : Word
  /-- `OLAT[p]` (R34 (c), R52), by port index. -/
  olat : Cells 16
  /-- The surface registers (R35 to R52), by ordinal (R101); a trigger register has no entry of its own (log 8). -/
  surface : Cells 32
  /-- `CMD_VALID` (R90). -/
  cmdValid : Bool
  /-- The host's `CW[31:0]` inputs (R90). -/
  cwIn : Word
  /-- The host's `DIN[63:0]` inputs (R90). -/
  dinIn : TimeUnit
  /-- A transaction on the request lines of the bus or interrupt port that is still to be performed (R100, R102, log 6). -/
  portReq : Option PortLines
  /-- `RDATA` (R100, log 7). -/
  rdata : Word
  /-- The pins declared loop-back-wired, by port index (R135, log 25). -/
  wired : Cells 16
  /-- The pins that a completed CONFIGURE has made outputs (R135, log 25): a fact about the pins, not kept by the block. -/
  asOutput : Cells 16
  /-- The pins a SET has completed on since reset (R135, log 25): a fact about the pins, not kept by the block. -/
  driven : Cells 16
  /-- The moves to come, the next one first (log 2): the model's own field. -/
  moves : List Move
  /-- How many free values have been drawn (log 32): the model's own field. -/
  draws : Nat
  /-- The event record, oldest first (R82). -/
  record : List Event
  /-- The responses, oldest first (R264). -/
  responses : List Response
  deriving DecidableEq, Repr

/-- Why the machine stops with a fault. -/
inductive Fault
  /-- The halted state (R203): raised by every turn of the block, and every transaction, while `FATAL = 1` or `SEQ = HALT`. The
  spec's own fault; safe. -/
  | halted
  /-- Raised by the five bus instructions on a register the variant does not have (R101, log 16). Safe. -/
  | absentRegister
  /-- Raised by a turn of FG where `SEQ` is inside a command and `CW` is no command word, a state no run reaches (log 24).
  Safe. -/
  | seqWithoutCommand
  deriving DecidableEq, Repr

/-- Why the machine gives a step no meaning. -/
inductive Refusal
  /-- An instruction whose arm of `exec` has no meaning yet. Safe. -/
  | notModelled (mnemonic : String)
  /-- Raised by CONFIGURE at `P0` where MODE or PULL is outside the variant's enumeration (R128, U3, log 14). The spec's own
  refusal; safe. -/
  | outsideEnumeration
  /-- Raised by a port step whose request lines are no transaction (R100, R101, R102, log 17). Safe. -/
  | neverIssued
  deriving DecidableEq, Repr

/-- The state after reset on variant `v`: the values of R58; 0 where R58 leaves the value unspecified (log 3); nothing offered,
nothing recorded, no moves to come (log 2, log 6, log 23). -/
def State.resetOf (v : Variant) : State :=
  { cfg := v, tick := 0, wake := 0, slStart := 0, slTarget := 0,
    life := .uninitialized, seq := .idle, iseq := .idle,
    fatal := false, fcause := 0, fval := 0, inIsr := false,
    cw := 0, din := 0, dout := 0, status := 0, busy := false,
    hReg := false, hIrq := 0, hPrio := 0, hEn := false,
    activePsc := 0, olat := [], surface := [],
    cmdValid := false, cwIn := 0, dinIn := 0, portReq := none, rdata := 0,
    wired := [], asOutput := [], driven := [], moves := [], draws := 0, record := [], responses := [] }

/-- The machine right after reset (R58, R240), on a variant about which nothing is known but R7 (log 1). -/
def State.reset : State := State.resetOf Config.variant

end Sys2Proof.Machine
end

