-- ==== Sys2Proof/Machine/Operands.lean ====
section
/-! DEFINITION. Operands: the pin's port and offset, the words a pin command writes, the field positions and encoders, and the
arithmetic of the tick unit (40_pin R121 to R130, 42_tick R184 to R190). -/
namespace Sys2Proof.Machine

/-- `port = PIN div 16` (R92, R121). -/
def portOf (pin : Byte) : Nat := pin.toNat / 16

/-- `offset = PIN mod 16` (R92, R121). -/
def offsetOf (pin : Byte) : Nat := pin.toNat % 16

/-- `onehot(k) = 1 << k` (R8). -/
def onehot (k : Nat) : Word := 1#32 <<< k

/-- `fmask(w) = 2^w - 1` (R122). -/
def fmask (w : Nat) : Word := BitVec.ofNat 32 (2 ^ w - 1)

/-- The control register of a packed field (R123): `PCTL_LO` for offsets 0 to 7, `PCTL_HI` for 8 to 15. -/
def packedReg (pin : Byte) : Reg :=
  if offsetOf pin < 8 then .ctlA (portOf pin) else .ctlB (portOf pin)

/-- `pos = 4 * (offset mod 8)` (R123). -/
def packedPos (pin : Byte) : Nat := 4 * (offsetOf pin % 8)

/-- The mask of a packed field, `0xF << pos` (R122). -/
def packedMask (pin : Byte) : Word := 0xF#32 <<< packedPos pin

/-- `zext_32(MODE[3:0]) << pos` (R122). -/
def packedValue (pin mode : Byte) : Word := (mode.setWidth 32 &&& 0xF) <<< packedPos pin

/-- `fmask(w) << (w * offset)`: a SPLIT field's mask (R122, R126). -/
def splitMask (w : Nat) (pin : Byte) : Word := fmask w <<< (w * offsetOf pin)

/-- `ENC(op) << (w * offset)`: a SPLIT field's value (R122, R126). -/
def splitValue (w : Nat) (pin : Byte) (field : Word) : Word := field <<< (w * offsetOf pin)

/-- The value an encoder gives an operand for a field of `w` bits, whose default is the slice of the operand from bit `lo` up
(R127). -/
def encoderValue (e : Encoder) (lo w : Nat) (operand : Byte) : Word :=
  match e with
  | .standard => (operand.setWidth 32 >>> lo) &&& fmask w
  | .table rows => rows.getD operand.toNat 0

/-- `ENC_MODE(MODE)`, by default `MODE[MODE_W-1:0]` (R127). -/
def modeCode (v : Variant) (mode : Byte) : Word := encoderValue v.encMode 0 v.modeW mode

/-- `ENC_PULL(PULL)`, by default `PULL[PULL_W-1:0]` (R127). -/
def pullCode (v : Variant) (pull : Byte) : Word := encoderValue v.encPull 0 v.pullW pull

/-- `ENC_OTYPE(MODE)`, by default `MODE[MODE_W+OTYPE_W-1:MODE_W]` (R127). -/
def otypeCode (v : Variant) (mode : Byte) : Word := encoderValue v.encOtype v.modeW v.otypeW mode

/-- MODE is inside a SPLIT variant's enumeration (R128): with the default encoders no bit above the two fields is 1
(`MODE[7:3] = 0` with the default widths); with a table the variant's list says (log 14). -/
def modeDefined (v : Variant) (mode : Byte) : Bool :=
  match v.encMode, v.encOtype with
  | .standard, .standard => mode >>> (v.modeW + v.otypeW) == 0
  | _, _ => v.legalModes.contains mode

/-- PULL is inside a SPLIT variant's enumeration (R128): `PULL[7:2] = 0` with the default encoder and width. -/
def pullDefined (v : Variant) (pull : Byte) : Bool :=
  match v.encPull with
  | .standard => pull >>> v.pullW == 0
  | .table _ => v.legalPulls.contains pull

/-- The operands are inside the variant's enumerations (R128): `MODE[7:4] = 0` for PACKED4, whatever PULL is; both members for
SPLIT. -/
def configurable (v : Variant) (mode pull : Byte) : Bool :=
  match v.pinLayout with
  | .packed4 => mode.extractLsb' 4 4 == 0
  | .split => modeDefined v mode && pullDefined v pull

/-- The bit of a pin in a word with one bit for each pin of its port. -/
def pinBit (pin : Byte) : Half := 1#16 <<< offsetOf pin

/-- `setword(port, offset, level)` (R130): the register and the word of SET, HIGH and LOW. -/
def setword (k : BsrKind) (pin : Byte) (level : Bool) : Reg × Word :=
  match k, level with
  | .separate, true => (.outSet (portOf pin), onehot (offsetOf pin))
  | .separate, false => (.outReset (portOf pin), onehot (offsetOf pin))
  | .combined, true => (.outSet (portOf pin), onehot (offsetOf pin))
  | .combined, false => (.outSet (portOf pin), onehot (offsetOf pin + 16))

/-- A latch after a word with set bits and reset bits (R52); an offset with both bits takes the bit of `free` (log 10). -/
def combineLatch (old set reset free : Half) : Half :=
  let both := set &&& reset
  let sure := (old ||| set) &&& ~~~reset
  if both = 0 then sure else (sure &&& ~~~both) ||| (free &&& both)

/-- `zext_64` of a boolean (R131). -/
def boolWord (b : Bool) : TimeUnit := if b then 1 else 0

/-- `(TICK + 1) mod 2^TICKW` (R181). -/
def tickSucc (tickw t : Nat) : Nat := (t + 1) % 2 ^ tickw

/-- `zext_64(t) * US_PER_TICK`, modulo `2^64` (R184). -/
def microseconds (t : Nat) : TimeUnit := BitVec.ofNat 64 (t * usPerTick)

/-- `SL_TARGET = ceildiv(DURATION, 1000)` in unbounded naturals (R186). -/
def sleepTarget (d : TimeUnit) : Nat := (d.toNat + (usPerTick - 1)) / usPerTick

/-- `elapsed = (t - SL_START) mod 2^TICKW`, the unsigned difference (R187). -/
def elapsed (tickw t start : Nat) : Nat := (t + (2 ^ tickw - start % 2 ^ tickw)) % 2 ^ tickw

end Sys2Proof.Machine
end

