-- ==== Sys2Proof/Machine/Ops.lean ====
section
/-! DEFINITION. The named operations: values by key, the five surface operations with their trigger effects (20_memory), the three
interrupt port operations (60_exceptions), the sequencer, the command interface, taking Fatal, and interrupt entry and return. -/
namespace Sys2Proof.Machine

/-- What a key reads as; an unlisted key reads as 0 (log 3). -/
def Cells.read {w : Nat} (m : Cells w) (a : Nat) : BitVec w :=
  match m with
  | [] => 0
  | (b, x) :: rest => if a = b then x else Cells.read rest a

/-- The write that keeps the canonical form: a value of 0 is not listed. -/
def Cells.write {w : Nat} (m : Cells w) (a : Nat) (v : BitVec w) : Cells w :=
  match m with
  | [] => if v = 0 then [] else [(a, v)]
  | (b, x) :: rest =>
    if a < b then (if v = 0 then (b, x) :: rest else (a, v) :: (b, x) :: rest)
    else if a = b then (if v = 0 then rest else (a, v) :: rest)
    else (b, x) :: Cells.write rest a v

/-- The canonical form: keys strictly rising, no value 0. -/
def Cells.wf {w : Nat} (m : Cells w) : Bool :=
  match m with
  | [] => true
  | (a, v) :: rest => v != 0 && rest.all (fun c => decide (a < c.1)) && Cells.wf rest

/-- Any contents, brought into the canonical form (the first entry of a key wins). -/
def Cells.normal {w : Nat} (m : List (Nat × BitVec w)) : Cells w :=
  m.foldr (fun c acc => Cells.write acc c.1 c.2) []

/-- The stored word of a surface register. -/
def State.peek (s : State) (r : Reg) : Word := Cells.read s.surface r.ordinal

/-- Storing a word in a surface register, with no other effect. -/
def State.poke (s : State) (r : Reg) (v : Word) : State :=
  { s with surface := Cells.write s.surface r.ordinal v }

/-- Giving the field of mask `m` of a register the value `v`, in position: the way ENV changes a hardware-owned field. -/
def State.pokeField (s : State) (r : Reg) (m v : Word) : State :=
  s.poke r ((s.peek r &&& ~~~m) ||| (v &&& m))

/-- `OLAT[p]` (R34 (c)). -/
def State.latch (s : State) (p : Nat) : Half := Cells.read s.olat p

/-- The word a store of `v` in a register leaves there. The block only reads a hardware-owned bit, which keeps the value ENV last
gave it (R35, R62); `UIF` it may clear but not set (R49, log 11). -/
def State.landed (s : State) (r : Reg) (v : Word) : Word :=
  match r with
  | .timSr => v &&& ~~~(s.cfg.mask.uif &&& ~~~(s.peek .timSr))
  | r => (v &&& ~~~(s.cfg.hardwareOwned r)) ||| (s.peek r &&& s.cfg.hardwareOwned r)

/-- A store by the block (R63 to R65). -/
def State.store (s : State) (r : Reg) (v : Word) : State := s.poke r (s.landed r v)

/-- The pins of port `p` that meet the premises of R135: declared loop-back-wired, made outputs by a completed CONFIGURE, the port
gate set (log 25). -/
def State.loopBack (s : State) (p : Nat) : Half :=
  if s.peek .clkenGpio &&& s.cfg.mask.gate p = 0 then 0 else Cells.read s.wired p &&& Cells.read s.asOutput p

/-- The pins of port `p` whose input bit ENV keeps at the latch: the premises of R135 hold, and a SET has completed. -/
def State.tied (s : State) (p : Nat) : Half := s.loopBack p &&& Cells.read s.driven p

/-- ENV brings the input bits of a port's tied pins to the latch (R135, log 25). -/
def State.follow (s : State) (p : Nat) : State :=
  let w := (s.tied p).setWidth 32
  if w = 0 then s else s.pokeField (.pinIn p) w ((s.latch p).setWidth 32)

/-- ENV does so for every port that has a wired pin. -/
def State.settle (s : State) : State := s.wired.foldl (fun t c => t.follow c.1) s

/-- A write of `OLAT[p]`; the tied pins follow it. -/
def State.setLatch (s : State) (p : Nat) (v : Half) : State :=
  { s with olat := Cells.write s.olat p v }.follow p

/-- CONFIGURE begins to write the pin's fields: until it completes the pin is no configured output (R135, R256, log 25). -/
def State.release (s : State) (pin : Byte) : State :=
  let p := portOf pin
  { s with asOutput := Cells.write s.asOutput p (Cells.read s.asOutput p &&& ~~~(pinBit pin)) }

/-- CONFIGURE has completed: the pin is an output where its mode says so, and where a SET has completed before, ENV keeps its input
bit at the latch again (R135, log 25). -/
def State.configured (s : State) (pin mode : Byte) : State :=
  let p := portOf pin
  if s.cfg.outputModes.contains mode then
    { s with asOutput := Cells.write s.asOutput p (Cells.read s.asOutput p ||| pinBit pin) }.follow p
  else s

/-- A SET of the pin completes (R135). -/
def State.drive (s : State) (pin : Byte) : State :=
  let p := portOf pin
  { s with driven := Cells.write s.driven p (Cells.read s.driven p ||| pinBit pin) }

/-- What a write of a port's pin control register or of the port gates means for the pins of R135: after a stand-alone write of a
control register its pins are no configured outputs (log 25); after a write of the gates ENV goes by the new gates. -/
def State.disturb (s : State) (r : Reg) : State :=
  match r with
  | .ctlA p | .ctlB p | .outType p => { s with asOutput := Cells.write s.asOutput p 0 }
  | .clkenGpio => s.settle
  | _ => s

/-- The value a read of a register finds (R62). A trigger register's is unspecified: a free value (R46, R52, U9, log 8). -/
def State.readReg (s : State) (r : Reg) : Word :=
  match r with
  | .timEgr | .outSet _ | .outReset _ => Config.freeWord s.draws
  | r => s.peek r

/-- An update event with its flag (R56): `UIF <- 1` and the active prescaler takes the programmed value. -/
def State.updateEvent (s : State) : State :=
  { s.poke .timSr (s.peek .timSr ||| s.cfg.mask.uif) with activePsc := s.peek .timPsc }

/-- The forced update event (R56 (b), R175): the active prescaler takes the programmed value, and whether `UIF` is set is a free
bit (`UG_SETS_UIF`, log 9). -/
def State.forcedUpdate (s : State) : State :=
  if Config.freeBit s.draws then s.updateEvent else { s with activePsc := s.peek .timPsc }

/-- The effect of a whole-word write (R63): the triggers of `TIM_EGR` (R46) and of the set and reset registers (R52), else the
stored word. The free bits of a word with the set and the reset bit of one offset are a draw of their own (log 10). -/
def State.writeReg (s : State) (r : Reg) (v : Word) : State :=
  match r with
  | .timEgr => if v &&& s.cfg.mask.ug = 0 then s else s.forcedUpdate
  | .outSet p =>
    match s.cfg.bsrKind with
    | .separate => s.setLatch p (s.latch p ||| v.setWidth 16)
    | .combined =>
      s.setLatch p (combineLatch (s.latch p) (v.setWidth 16) (v.extractLsb' 16 16)
        ((Config.freeWord (s.draws + 2)).setWidth 16))
  | .outReset p =>
    match s.cfg.bsrKind with
    | .separate => s.setLatch p (s.latch p &&& ~~~(v.setWidth 16))
    | .combined => s
  | r => s.store r v

/-- A write has an effect of its own on these registers, and their stored word is never read (R72). -/
def isTrigger : Reg → Bool
  | .timEgr | .outSet _ | .outReset _ => true
  | _ => false

/-- A transaction is over: its response stands on `RDATA`, it is in the event record (R82), and the free values it may have
used are spent (log 32). -/
def State.issued (s : State) (a : Agent) (op : Instr) (returned : Option Word) (rdata : Word) : State :=
  { s with rdata := rdata, draws := s.draws + 3, record := s.record ++ [⟨a, .transaction op, returned⟩] }

/-- The free value on `RDATA` where R100 leaves it unspecified (log 7). -/
def State.anyRdata (s : State) : Word := Config.freeWord (s.draws + 1)

/-- `r.Get()` (R62): the word, and the state after. -/
def State.busGet (s : State) (a : Agent) (r : Reg) : Word × State :=
  let w := s.readReg r
  (w, s.issued a (.busGet r) (some w) w)

/-- `r.Set(v)` (R63). -/
def State.busSet (s : State) (a : Agent) (r : Reg) (v : Word) : State :=
  (s.writeReg r v).issued a (.busSet r v) none s.anyRdata

/-- `r.SetBits(m)` (R64): `r <- r | m`; on a trigger register "the effect is that of writing 1 to the bits of `m`". -/
def State.busSetBits (s : State) (a : Agent) (r : Reg) (m : Word) : State :=
  let t := if isTrigger r then s.writeReg r m else s.store r (s.readReg r ||| m)
  t.issued a (.busSetBits r m) none s.anyRdata

/-- `r.ClearBits(m)` (R65): `r <- r & ~m`. On a trigger register the model writes the free word read without the bits of `m`
(log 8); that word and the free latch bits of log 10 are two draws, so that neither decides the other. -/
def State.busClearBits (s : State) (a : Agent) (r : Reg) (m : Word) : State :=
  let t := if isTrigger r then s.writeReg r (s.readReg r &&& ~~~m) else s.store r (s.readReg r &&& ~~~m)
  t.issued a (.busClearBits r m) none s.anyRdata

/-- `r.HasBits(m)` (R66): true exactly when `(r & m) != 0`; the answer is bit 0 of `RDATA`, whose other bits are free. -/
def State.busHasBits (s : State) (a : Agent) (r : Reg) (m : Word) : Bool × State :=
  let b := s.readReg r &&& m != 0
  let bit : Word := if b then 1 else 0
  (b, s.issued a (.busHasBits r m) (some bit) ((s.anyRdata &&& ~~~1) ||| bit))

/-- `intc.Register(irq, TICKISR)` (R207). -/
def State.intcRegister (s : State) (a : Agent) (irq : Nat) : State :=
  { s with hReg := true, hIrq := irq, record := s.record ++ [⟨a, .transaction (.intcRegister irq), none⟩] }

/-- `handle.SetPriority(p)` (R208). -/
def State.intcSetPriority (s : State) (a : Agent) (p : Nat) : State :=
  { s with hPrio := p, record := s.record ++ [⟨a, .transaction (.intcSetPriority p), none⟩] }

/-- `handle.Enable()` (R209). -/
def State.intcEnable (s : State) (a : Agent) : State :=
  { s with hEn := true, record := s.record ++ [⟨a, .transaction .intcEnable, none⟩] }

/-- `SEQ <- step` (R9). -/
def State.goto (s : State) (q : Seq) : State := { s with seq := q }

/-- `STATUS` codes (R29). -/
def statusOk : BitVec 2 := 0
/-- `STATUS` codes (R29). -/
def statusIllegal : BitVec 2 := 1
/-- `STATUS` codes (R29). -/
def statusRefused : BitVec 2 := 2

/-- `respond(status, data)` (R94), in one step. -/
def State.respond (s : State) (status : BitVec 2) (data : TimeUnit) : State :=
  { s with status := status, dout := data, busy := false, seq := .idle,
           responses := s.responses ++ [⟨status, data⟩] }

/-- The latching of a command at acceptance (R93): `CW`, `DIN`, `BUSY`; the offer is consumed (R78, log 23). -/
def State.latchCommand (s : State) (cw : Word) (din : TimeUnit) : State :=
  { s with cw := cw, din := din, busy := true, cmdValid := false }

/-- Acceptance of command `i` (R93): the latches, and `SEQ` at its first micro-step. While `BUSY = 1` it is not accepted. -/
def State.accept (s : State) (i : Instr) (first : Seq) : State :=
  if s.busy then s else (s.latchCommand i.commandWord (i.dataOperand s.dinIn)).goto first

/-- A command that completes in the step that accepts it, with `STATUS = status` and data 0 (R97, R141). -/
def State.turnAway (s : State) (cw : Word) (din : TimeUnit) (status : BitVec 2) : State :=
  if s.busy then s else (s.latchCommand cw din).respond status 0

/-- `FCAUSE` codes (R201). -/
def causeNoPin : BitVec 2 := 1
/-- `FCAUSE` codes (R201). -/
def causeBadPort : BitVec 2 := 2

/-- `raise Fatal(cause, pin)` (R27, R202), the one synchronous exception: nothing else changes. -/
def State.raiseFatal (s : State) (cause : BitVec 2) (pin : Byte) : State :=
  { s with fatal := true, fcause := cause, fval := pin, seq := .halt }

/-- Interrupt entry (R210, R211): nothing is saved. -/
def State.enterIsr (s : State) : State := { s with inIsr := true, iseq := .i0 }

/-- The return of TICKISR (R213): nothing is restored. -/
def State.leaveIsr (s : State) : State := { s with inIsr := false, iseq := .idle }

end Sys2Proof.Machine
end

