-- ==== Sys2Proof/Machine/Flags.lean ====
section
/-! DEFINITION. Every flag condition: the halted state, interrupt line and entry, acceptance, the timer's counting, and the two
guards of a foreground step (10_state R27 to R30, 60_exceptions R203 to R212, 40_pin R121). -/
namespace Sys2Proof.Machine

/-- The outcome of a step of this machine. -/
abbrev Result := Host.Outcome State Fault Refusal

/-- A field of a stored register is not all zero. -/
def State.flag (s : State) (r : Reg) (m : Word) : Bool := s.peek r &&& m != 0

/-- `UIF` (R49). -/
def State.uif (s : State) : Bool := s.flag .timSr s.cfg.mask.uif

/-- `UIE` (R48). -/
def State.uie (s : State) : Bool := s.flag .timDier s.cfg.mask.uie

/-- The request line, the level `UIF & UIE` (R205). -/
def State.irqLine (s : State) : Bool := s.uif && s.uie

/-- The handler can be invoked: registered, enabled, not running, not halted (R203, R210, R212). -/
def State.invocable (s : State) : Bool := s.hReg && s.hEn && !s.inIsr && !s.fatal

/-- Interrupt entry is enabled: the six conditions of R210. -/
def State.entryEnabled (s : State) : Bool := s.invocable && s.irqLine

/-- The timer counts: `CG_TIM = 1` and `CEN = 1` (R56 (a)). -/
def State.timerCounts (s : State) : Bool :=
  s.flag .clkenTim s.cfg.mask.cgTim && s.flag .timCr s.cfg.mask.cen

/-- The halted state (R203). -/
def State.halted (s : State) : Bool := s.fatal || s.seq == .halt

/-- The conditions of acceptance but `CMD_VALID` (R93). -/
def State.mayAccept (s : State) : Bool := !s.busy && !s.fatal && s.seq == .idle && !s.inIsr

/-- The agent whose turn it is (R28). -/
def State.agent (s : State) : Agent := if s.inIsr then .isr else .fg

/-- A step of FG: none in the halted state (R203), none while the interrupt service runs (R28), where the command waits. -/
def foreground (s : State) (k : State → Result) : Result :=
  if s.halted then .fault .halted else if s.inIsr then .next s else k s

/-- A transaction of the block on one of its ports: none in the halted state (R203). -/
def portStep (s : State) (k : State → Result) : Result :=
  if s.halted then .fault .halted else k s

/-- The validity check, the first micro-step of every pin command (R121): sentinel first, then port presence. -/
def pinCheck (pin : Byte) (s : State) (k : State → Result) : Result :=
  if pin = noPin then .next (s.raiseFatal causeNoPin pin)
  else if s.cfg.portPresent (portOf pin) then k s
  else .next (s.raiseFatal causeBadPort pin)

end Sys2Proof.Machine
end

