-- ==== Sys2Proof/Machine/Bus.lean ====
section
/-! DEFINITION. The five bus transactions and the three interrupt port transactions as instructions of their own (20_memory R62 to
R66, 60_exceptions R207 to R209). -/
namespace Sys2Proof.Machine

/-- A bus transaction on a register the variant has (R101, log 16). -/
def busStep (r : Reg) (s : State) (k : State → State) : Result :=
  portStep s fun s => if s.cfg.hasReg r then .next (k s) else .fault .absentRegister

/-- `BUS.GET` (R62): the word stands on `RDATA`. -/
def execBusGet (r : Reg) (s : State) : Result := busStep r s fun s => (s.busGet s.agent r).2

/-- `BUS.SET` (R63). -/
def execBusSet (r : Reg) (v : Word) (s : State) : Result :=
  busStep r s fun s => (s.busSet s.agent r v).disturb r

/-- `BUS.SETBITS` (R64). -/
def execBusSetBits (r : Reg) (m : Word) (s : State) : Result :=
  busStep r s fun s => (s.busSetBits s.agent r m).disturb r

/-- `BUS.CLEARBITS` (R65). -/
def execBusClearBits (r : Reg) (m : Word) (s : State) : Result :=
  busStep r s fun s => (s.busClearBits s.agent r m).disturb r

/-- `BUS.HASBITS` (R66): the answer stands in `RDATA[0]`. -/
def execBusHasBits (r : Reg) (m : Word) (s : State) : Result :=
  busStep r s fun s => (s.busHasBits s.agent r m).2

/-- `INTC.REGISTER` (R207). -/
def execIntcRegister (irq : Nat) (s : State) : Result := portStep s fun s => .next (s.intcRegister s.agent irq)

/-- `INTC.SETPRIORITY` (R208). -/
def execIntcSetPriority (p : Nat) (s : State) : Result :=
  portStep s fun s => .next (s.intcSetPriority s.agent p)

/-- `INTC.ENABLE` (R209). -/
def execIntcEnable (s : State) : Result := portStep s fun s => .next (s.intcEnable s.agent)

end Sys2Proof.Machine
end

