-- ==== Sys2Proof/Machine/Pin.lean ====
section
/-! DEFINITION. The Pin unit: CONFIGURE, SET, GET, HIGH, LOW, one micro-step a step (40_pin). -/
namespace Sys2Proof.Machine

/-- Step `P1`, the port clock gate (R124); ENV goes by the new gates (R135). -/
def configureGate (pin : Byte) (s : State) : State :=
  ((s.busSetBits .fg .clkenGpio (s.cfg.mask.gate (portOf pin))).disturb .clkenGpio).goto .p2

/-- Steps `P2`, `P3` of the PACKED4 layout (R122, R125). -/
def configurePacked (pin mode : Byte) (s : State) : State :=
  match s.seq with
  | .p2 => ((s.release pin).busClearBits .fg (packedReg pin) (packedMask pin)).goto .p3
  | .p3 => ((s.busSetBits .fg (packedReg pin) (packedValue pin mode)).configured pin mode).respond statusOk 0
  | _ => s

/-- Steps `P2` to `P7` of the SPLIT layout (R122, R126): mode, pull, output type, each by the field write idiom. -/
def configureSplit (pin mode pull : Byte) (s : State) : State :=
  let v := s.cfg
  let p := portOf pin
  match s.seq with
  | .p2 => ((s.release pin).busClearBits .fg (.ctlA p) (splitMask v.modeW pin)).goto .p3
  | .p3 => (s.busSetBits .fg (.ctlA p) (splitValue v.modeW pin (modeCode v mode))).goto .p4
  | .p4 => (s.busClearBits .fg (.ctlB p) (splitMask v.pullW pin)).goto .p5
  | .p5 => (s.busSetBits .fg (.ctlB p) (splitValue v.pullW pin (pullCode v pull))).goto .p6
  | .p6 => (s.busClearBits .fg (.outType p) (splitMask v.otypeW pin)).goto .p7
  | .p7 =>
    ((s.busSetBits .fg (.outType p) (splitValue v.otypeW pin (otypeCode v mode))).configured pin mode).respond
      statusOk 0
  | _ => s

/-- The micro-steps of CONFIGURE after `P1`, by layout. -/
def configureFields (pin mode pull : Byte) (s : State) : State :=
  match s.cfg.pinLayout with
  | .packed4 => configurePacked pin mode s
  | .split => configureSplit pin mode pull s

/-- `CONFIGURE pin, mode, pull` (R122): `P0` checks the pin (R121), then refuses operands outside the enumerations (R128). -/
def execConfigure (pin mode pull : Byte) (s : State) : Result :=
  foreground s fun s =>
    match s.seq with
    | .idle => .next (s.accept (.configure pin mode pull) .p0)
    | .p0 =>
      pinCheck pin s fun s =>
        if configurable s.cfg mode pull then .next (s.goto .p1) else .refused .outsideEnumeration
    | .p1 => .next (configureGate pin s)
    | _ => .next (configureFields pin mode pull s)

/-- The micro-steps `W0`, `W1` of SET, HIGH and LOW (R129): one whole-word Set and nothing else. On a pin that meets the
premises of R135 ENV's input bit follows the latch from here on. -/
def drivePin (i : Instr) (pin : Byte) (level : Bool) (s : State) : Result :=
  foreground s fun s =>
    match s.seq with
    | .idle => .next (s.accept i .w0)
    | .w0 => pinCheck pin s fun s => .next (s.goto .w1)
    | .w1 =>
      let target := setword s.cfg.bsrKind pin level
      .next (((s.drive pin).busSet .fg target.1 target.2).respond statusOk 0)
    | _ => .next s

/-- `SET pin, level` (R129). -/
def execSet (pin : Byte) (level : Bool) (s : State) : Result := drivePin (.set pin level) pin level s

/-- `HIGH pin` (R132). -/
def execHigh (pin : Byte) (s : State) : Result := drivePin (.high pin) pin true s

/-- `LOW pin` (R133). -/
def execLow (pin : Byte) (s : State) : Result := drivePin (.low pin) pin false s

/-- `GET pin` (R131): bit `offset` of the word read, in `DOUT[0]`. -/
def execGet (pin : Byte) (s : State) : Result :=
  foreground s fun s =>
    match s.seq with
    | .idle => .next (s.accept (.get pin) .g0)
    | .g0 => pinCheck pin s fun s => .next (s.goto .g1)
    | .g1 =>
      let got := s.busGet .fg (.pinIn (portOf pin))
      .next (got.2.respond statusOk (boolWord (got.1.getLsbD (offsetOf pin))))
    | _ => .next s

end Sys2Proof.Machine
end

