-- ==== Sys2Proof/Machine/Clock.lean ====
section
/-! DEFINITION. The Clock unit: the sequencer program S1 to S7 of DEVICEINIT, one row of R142 a case (41_clock). -/
namespace Sys2Proof.Machine

/-- A busy-wait on a one-bit flag (R146, R149): one HasBits a visit, no timeout; the step stays until the flag is seen. -/
def State.pollFlag (s : State) (r : Reg) (m : Word) (next : Seq) : State :=
  let seen := s.busHasBits .fg r m
  if seen.1 then seen.2.goto next else seen.2

/-- A busy-wait on a multi-bit field (R152): one Get a visit, compared with the value waited for. -/
def State.pollField (s : State) (r : Reg) (m value : Word) (next : Seq) : State :=
  let got := s.busGet .fg r
  if got.1 &&& m = value then got.2.goto next else got.2

/-- The micro-steps `S1a` to `S7b` (R142); `S7b` also sets `LIFE <- Configured` (R156). -/
def clockStep (s : State) : State :=
  let m := s.cfg.mask
  let v := s.cfg.val
  match s.seq with
  | .s1a => (s.busSetBits .fg .clkenSyscfg m.cgSyscfg).goto .s1b
  | .s1b => (s.busSetBits .fg .clkenPwr m.cgPwr).goto .s2a
  | .s2a => (s.busClearBits .fg .flashAcr m.latency).goto .s2b
  | .s2b => (s.busSetBits .fg .flashAcr v.latency).goto .s3a
  | .s3a => (s.busSetBits .fg .oscCtl m.oscOn).goto .s3w
  | .s3w => s.pollFlag .oscCtl m.oscRdy .s4a
  | .s4a => (s.busClearBits .fg .pllCfg m.pllFields).goto .s4b
  | .s4b => (s.busSetBits .fg .pllCfg v.pllFields).goto .s4c
  | .s4c => (s.busSetBits .fg .pllCtl m.pllOn).goto .s4d
  | .s4d => (s.busSetBits .fg .pllCfg m.pllOen).goto .s4w
  | .s4w => s.pollFlag .pllCtl m.pllRdy .s5a
  | .s5a => (s.busClearBits .fg .clkCfg m.ahbPre).goto .s5b
  | .s5b => (s.busSetBits .fg .clkCfg v.ahbPre).goto .s6a
  | .s6a => (s.busClearBits .fg .clkCfg m.sw).goto .s6b
  | .s6b => (s.busSetBits .fg .clkCfg v.swPll).goto .s6w
  | .s6w => s.pollField .clkCfg m.sws v.swsPll .s7a
  | .s7a => (s.busClearBits .fg .clkCfg m.apbPre).goto .s7b
  | .s7b => { (s.busSetBits .fg .clkCfg v.apbPre).goto .t1 with life := .configured }
  | _ => s

end Sys2Proof.Machine
end

