-- ==== Sys2Proof/Machine/Tick.lean ====
section
/-! DEFINITION. The Tick unit: the sequencer program T1 to T7, the command DEVICEINIT as a whole, the interrupt service TICKISR,
TICKS and SLEEPTICKS (42_tick). -/
namespace Sys2Proof.Machine

/-- The micro-steps `T1` to `T7` (R171); `T7` also sets `LIFE <- Running` and responds (R178). -/
def timerStep (s : State) : State :=
  let m := s.cfg.mask
  let v := s.cfg.val
  match s.seq with
  | .t1 => (s.busSetBits .fg .clkenTim m.cgTim).goto .t2a
  | .t2a => (s.busSet .fg .timPsc v.timPsc).goto .t2b
  | .t2b => (s.busSet .fg .timArr v.timArr).goto .t3
  | .t3 => (s.busSetBits .fg .timEgr m.ug).goto .t4
  | .t4 => (s.busSetBits .fg .timCr m.cen).goto .t5
  | .t5 => (s.busSetBits .fg .timDier m.uie).goto .t6a
  | .t6a => (s.intcRegister .fg s.cfg.tickIrq).goto .t6b
  | .t6b => (s.intcSetPriority .fg s.cfg.tickPrio).goto .t7
  | .t7 => { (s.intcEnable .fg).respond statusOk 0 with life := .running }
  | _ => s

/-- `DEVICEINIT` (R140): accepted in `Uninitialized`; in any other state it answers REFUSED at once (R141, log 12). -/
def execDeviceinit (s : State) : Result :=
  foreground s fun s =>
    match s.seq with
    | .idle =>
      if s.life = .uninitialized then .next (s.accept .deviceinit .s1a)
      else .next (s.turnAway Instr.deviceinit.commandWord s.dinIn statusRefused)
    | .t1 | .t2a | .t2b | .t3 | .t4 | .t5 | .t6a | .t6b | .t7 => .next (timerStep s)
    | _ => .next (clockStep s)

/-- `TICKISR`, one micro-step (R179 to R182); the return is R213. -/
def isrStep (s : State) : State :=
  match s.iseq with
  | .i0 =>
    let seen := s.busHasBits .isr .timSr s.cfg.mask.uif
    if seen.1 then { seen.2 with iseq := .i1 } else seen.2.leaveIsr
  | .i1 => { s.busClearBits .isr .timSr s.cfg.mask.uif with iseq := .i2 }
  | .i2 => { s with tick := tickSucc s.cfg.tickw s.tick, iseq := .i3 }
  | .i3 => { s with wake := 1 }.leaveIsr
  | .idle => s.leaveIsr

/-- `TICKS` (R184): one atomic read of `TICK`. -/
def execTicks (s : State) : Result :=
  foreground s fun s =>
    match s.seq with
    | .idle => .next (s.accept .ticks .k0)
    | .k0 => .next (s.respond statusOk (microseconds s.tick))
    | _ => .next s

/-- `SLEEPTICKS d` (R185): `L0` samples, `L1` spins while `elapsed < SL_TARGET` (R187). -/
def execSleepticks (d : TimeUnit) (s : State) : Result :=
  foreground s fun s =>
    match s.seq with
    | .idle => .next (s.accept (.sleepticks d) .l0)
    | .l0 => .next { s with slTarget := sleepTarget d, slStart := s.tick, seq := .l1 }
    | .l1 =>
      if elapsed s.cfg.tickw s.tick s.slStart < s.slTarget then .next s
      else .next (s.respond statusOk 0)
    | _ => .next s

end Sys2Proof.Machine
end

