-- ==== Sys2Proof/Machine/Dispatch.lean ====
section
/-! DEFINITION. One arm for each instruction: a command's next micro-step, or a transaction. -/
namespace Sys2Proof.Machine

def exec (i : Instr) (s : State) : Host.Outcome State Fault Refusal :=
  match i with
  | .configure pin mode pull => Sys2Proof.Machine.execConfigure pin mode pull s
  | .set pin level => Sys2Proof.Machine.execSet pin level s
  | .get pin => Sys2Proof.Machine.execGet pin s
  | .high pin => Sys2Proof.Machine.execHigh pin s
  | .low pin => Sys2Proof.Machine.execLow pin s
  | .deviceinit => Sys2Proof.Machine.execDeviceinit s
  | .ticks => Sys2Proof.Machine.execTicks s
  | .sleepticks duration => Sys2Proof.Machine.execSleepticks duration s
  | .busGet r => Sys2Proof.Machine.execBusGet r s
  | .busSet r v => Sys2Proof.Machine.execBusSet r v s
  | .busSetBits r m => Sys2Proof.Machine.execBusSetBits r m s
  | .busClearBits r m => Sys2Proof.Machine.execBusClearBits r m s
  | .busHasBits r m => Sys2Proof.Machine.execBusHasBits r m s
  | .intcRegister irq => Sys2Proof.Machine.execIntcRegister irq s
  | .intcSetPriority p => Sys2Proof.Machine.execIntcSetPriority p s
  | .intcEnable => Sys2Proof.Machine.execIntcEnable s

end Sys2Proof.Machine
end

