-- ==== Sys2Proof/Machine/Env.lean ====
section
/-! DEFINITION. The moves of ENV and of the host (10_state R53 to R57, 70_reset_and_hazards R240, R265). -/
namespace Sys2Proof.Machine

/-- A word with every bit equal to `b`. -/
def allBits (b : Bool) : Word := if b then BitVec.allOnes 32 else 0

/-- Reset in the middle of a run (R240): the values of R58; everything R58 leaves unspecified is a free value (log 22); the
variant, the host's inputs, the wiring and the moves to come are not the block's and stay. -/
def State.hostReset (s : State) : State :=
  let d := s.draws
  { State.resetOf s.cfg with
    slStart := Config.freeNat d % 2 ^ s.cfg.tickw
    slTarget := Config.freeNat (d + 1)
    fcause := BitVec.ofNat 2 (Config.freeNat (d + 2))
    fval := BitVec.ofNat 8 (Config.freeNat (d + 3))
    cw := Config.freeWord d
    din := BitVec.ofNat 64 (Config.freeNat (d + 4))
    hIrq := Config.freeNat (d + 5)
    hPrio := Config.freeNat (d + 6)
    activePsc := Config.freeWord (d + 1)
    olat := Cells.normal (Config.freeLatches d)
    surface := Cells.normal (Config.freeSurface d)
    rdata := Config.freeWord (d + 2)
    cmdValid := s.cmdValid, cwIn := s.cwIn, dinIn := s.dinIn
    wired := s.wired, moves := s.moves, draws := d + 7 }

/-- A step of ENV is entered in the event record (R82, log 29). -/
def State.noted (s : State) (m : Move) : State := { s with record := s.record ++ [⟨.env, .env m, none⟩] }

/-- A periodic update event (R56 (a)); none while the timer does not count. -/
def State.periodicUpdate (s : State) : State :=
  if s.timerCounts then s.updateEvent.noted .updateEvent else s

/-- ENV drives `PIN_IN[p]` of a present port (R57), but for the bits of the tied pins (R135). -/
def State.drivePins (s : State) (p : Nat) (w : Word) : State :=
  if s.cfg.portPresent p then
    (s.pokeField (.pinIn p) (~~~((s.tied p).setWidth 32)) w).noted (.pinInput p w)
  else s

/-- The host clears `WAKE` where it may (R22). -/
def State.clearWake (s : State) : State :=
  if s.cfg.hostMayClearWake then { s with wake := 0 }.noted .clearWake else s

/-- The host offers a command on the input pins (R90, log 23). -/
def State.offer (s : State) (cw : Word) (din : TimeUnit) : State :=
  { s with cmdValid := true, cwIn := cw, dinIn := din }.noted (.offer cw din)

/-- Interrupt entry where it is enabled (R210). -/
def State.takeEntry (s : State) : State := if s.entryEnabled then s.enterIsr else s

/-- A service invoked with the flag clear, "an ENV-triggered stutter" (R216), whole in one step: the handler tests the flag at `I0`
and returns (R179), and no tick can come of it. With the flag set there is none: only R210 enters then (log 31). -/
def State.spuriousService (s : State) : State :=
  if s.invocable && !s.uif then isrStep (s.noted .spurious).enterIsr else s

/-- The state after a move that is not a turn of the block. -/
def applyMove (m : Move) (s : State) : State :=
  match m with
  | .core => s
  | .enter => s.takeEntry
  | .spurious => s.spuriousService
  | .oscReady b => (s.pokeField .oscCtl s.cfg.mask.oscRdy (allBits b)).noted (.oscReady b)
  | .pllReady b => (s.pokeField .pllCtl s.cfg.mask.pllRdy (allBits b)).noted (.pllReady b)
  | .swStatus w => (s.pokeField .clkCfg s.cfg.mask.sws w).noted (.swStatus w)
  | .updateEvent => s.periodicUpdate
  | .pinInput p w => s.drivePins p w
  | .offer cw din => s.offer cw din
  | .clearWake => s.clearWake
  | .reset => s.hostReset

end Sys2Proof.Machine
end

