-- ==== Sys2Proof/Machine/Agents.lean ====
section
/-! DEFINITION. What an agent's turn is: FG fetching and running the command, the interrupt service, a transaction on a port's
request lines, and the choice among the moves to come (00_scope R10, 20_memory R75, 30_encoding R93, 60_exceptions R210). -/
namespace Sys2Proof.Machine

/-- An illegal word completes at once with `STATUS = ILLEGAL` and changes nothing else (R97, log 13). -/
def rejectWord (s : State) : State := s.turnAway s.cwIn s.dinIn statusIllegal

/-- FG idle: with a command offered it is decoded and run, its first step being its acceptance (R93); else nothing happens
(log 30). -/
def idleTurn (s : State) : Result :=
  if s.cmdValid then
    match decodeCommand s.cwIn s.dinIn with
    | .ok i => exec i s
    | .error _ => .next (rejectWord s)
  else .next s

/-- FG inside a command: the next micro-step of the command in `CW` (R26). -/
def busyTurn (s : State) : Result :=
  match decodeCommand s.cw s.din with
  | .ok i => exec i s
  | .error _ => .fault .seqWithoutCommand

/-- A turn of the block (R28): the halted state has none (R203), the interrupt service goes before FG. -/
def coreTurn (s : State) : Result :=
  if s.halted then .fault .halted
  else if s.inIsr then .next (isrStep s)
  else if s.seq = .idle then idleTurn s
  else busyTurn s

/-- The next move: a turn of the block, or a move of ENV, the host or the interrupt. With none to come, an enabled entry is
taken, else the block has its turn (log 2). -/
def moveTurn (s : State) : Result :=
  match s.moves with
  | [] => if s.entryEnabled then .next s.enterIsr else coreTurn s
  | .core :: rest => coreTurn { s with moves := rest }
  | m :: rest => .next (applyMove m { s with moves := rest })

/-- A transaction on the request lines is performed (R100, R102, log 6); lines that are no transaction are refused (log 17). -/
def portTurn (lines : PortLines) (s : State) : Result :=
  match decodePort lines with
  | .ok i => exec i { s with portReq := none }
  | .error _ => .refused .neverIssued

/-- The host offers a command to an idle block whose turn is next. -/
def State.placeCommand (s : State) (cw : Word) (din : TimeUnit) : State :=
  { s with cmdValid := true, cwIn := cw, dinIn := din, busy := false, seq := .idle, fatal := false,
           inIsr := false, iseq := .idle, portReq := none, moves := .core :: s.moves }

/-- A transaction stands on the request lines of a block that is not halted. -/
def State.placeLines (s : State) (lines : PortLines) : State :=
  { s with portReq := some lines, fatal := false, seq := if s.seq = .halt then .idle else s.seq }

/-- A transfer placed where the next step takes it from (log 5). -/
def State.place (s : State) : Transfer → State
  | .command cw din => s.placeCommand cw din
  | .port lines => s.placeLines lines

end Sys2Proof.Machine
end

