-- ==== Sys2Proof/Machine/Step.lean ====
section
/-! DEFINITION. One step of the machine, and the placing of an instruction where the next step takes it from. -/
namespace Sys2Proof.Machine

/-- One step: the transaction on the request lines where there is one, else the next move. -/
def step (s : State) : Host.Outcome State Fault Refusal :=
  match s.portReq with
  | some lines => portTurn lines s
  | none => moveTurn s

/-- `s` with the instruction of the table word `w` where `step` takes it from (log 5, log 27). -/
def State.withFetchWord (s : State) (nbits w : Nat) : State :=
  match tableTransfer nbits w with
  | some t => s.place t
  | none => s

end Sys2Proof.Machine
end

