-- ==== Sys2Proof/Safety.lean ====
section
/-! DEFINITION. The terms claims are stated in: what belongs to a command, the event record read as a history, the sequencer
program as a table, the invariants of the machine, and the end of a run with its observation. -/
namespace Sys2Proof.Machine

/-- The instruction's mnemonic in the opcode table. -/
def mnemonicOf : Instr → String
  | .configure _ _ _ => "CONFIGURE"
  | .set _ _ => "SET"
  | .get _ => "GET"
  | .high _ => "HIGH"
  | .low _ => "LOW"
  | .deviceinit => "DEVICEINIT"
  | .ticks => "TICKS"
  | .sleepticks _ => "SLEEPTICKS"
  | .busGet _ => "BUS.GET"
  | .busSet _ _ => "BUS.SET"
  | .busSetBits _ _ => "BUS.SETBITS"
  | .busClearBits _ _ => "BUS.CLEARBITS"
  | .busHasBits _ _ => "BUS.HASBITS"
  | .intcRegister _ => "INTC.REGISTER"
  | .intcSetPriority _ => "INTC.SETPRIORITY"
  | .intcEnable => "INTC.ENABLE"

/-- The instruction is one of the eight commands (R95). -/
def isCommand : Instr → Bool
  | .configure _ _ _ | .set _ _ | .get _ | .high _ | .low _ | .deviceinit | .ticks | .sleepticks _ => true
  | .busGet _ | .busSet _ _ | .busSetBits _ _ | .busClearBits _ _ | .busHasBits _ _
  | .intcRegister _ | .intcSetPriority _ | .intcEnable => false

/-- A command's first micro-step (R26). -/
def firstStep : Instr → Seq
  | .configure _ _ _ => .p0
  | .set _ _ | .high _ | .low _ => .w0
  | .get _ => .g0
  | .deviceinit => .s1a
  | .ticks => .k0
  | .sleepticks _ => .l0
  | .busGet _ | .busSet _ _ | .busSetBits _ _ | .busClearBits _ _ | .busHasBits _ _
  | .intcRegister _ | .intcSetPriority _ | .intcEnable => .idle

/-- The place of a DEVICEINIT micro-step in the sequencer program, 1 to 27; 0 for every other value of `SEQ` (R142, R171). -/
def rank : Seq → Nat
  | .s1a => 1 | .s1b => 2 | .s2a => 3 | .s2b => 4 | .s3a => 5 | .s3w => 6 | .s4a => 7 | .s4b => 8 | .s4c => 9
  | .s4d => 10 | .s4w => 11 | .s5a => 12 | .s5b => 13 | .s6a => 14 | .s6b => 15 | .s6w => 16 | .s7a => 17 | .s7b => 18
  | .t1 => 19 | .t2a => 20 | .t2b => 21 | .t3 => 22 | .t4 => 23 | .t5 => 24 | .t6a => 25 | .t6b => 26 | .t7 => 27
  | _ => 0

/-- `SEQ` is a micro-step of the command, in the variant's layout (R26). -/
def inCommand (layout : PinLayout) (i : Instr) (q : Seq) : Bool :=
  match i with
  | .configure _ _ _ =>
    match layout with
    | .packed4 => q == .p0 || q == .p1 || q == .p2 || q == .p3
    | .split =>
      q == .p0 || q == .p1 || q == .p2 || q == .p3 || q == .p4 || q == .p5 || q == .p6 || q == .p7
  | .set _ _ | .high _ | .low _ => q == .w0 || q == .w1
  | .get _ => q == .g0 || q == .g1
  | .deviceinit => 1 ≤ rank q
  | .ticks => q == .k0
  | .sleepticks _ => q == .l0 || q == .l1
  | .busGet _ | .busSet _ _ | .busSetBits _ _ | .busClearBits _ _ | .busHasBits _ _
  | .intcRegister _ | .intcSetPriority _ | .intcEnable => false

/-- The pin operand of a pin command. -/
def pinOperand : Instr → Option Byte
  | .configure pin _ _ | .set pin _ | .get pin | .high pin | .low pin => some pin
  | .deviceinit | .ticks | .sleepticks _ => none
  | .busGet _ | .busSet _ _ | .busSetBits _ _ | .busClearBits _ _ | .busHasBits _ _
  | .intcRegister _ | .intcSetPriority _ | .intcEnable => none

/-- The micro-steps of one command one after the other, with no other agent between them. -/
def execRun (i : Instr) : Nat → State → Result
  | 0, s => .next s
  | n + 1, s =>
    match exec i s with
    | .next t => execRun i n t
    | .fault f => .fault f
    | .refused r => .refused r

/-- One row of the sequencer program (R142, R171): the value of `SEQ`, the one operation issued, the successor, and whether
the step is a busy-wait. -/
structure InitRow where
  at_ : Seq
  op : Instr
  next : Seq
  waits : Bool
  deriving DecidableEq, Repr

/-- The sequencer program of DEVICEINIT, R142 then R171, as the tables give it. -/
def initProgram (v : Variant) : List InitRow :=
  [⟨.s1a, .busSetBits .clkenSyscfg v.mask.cgSyscfg, .s1b, false⟩,
   ⟨.s1b, .busSetBits .clkenPwr v.mask.cgPwr, .s2a, false⟩,
   ⟨.s2a, .busClearBits .flashAcr v.mask.latency, .s2b, false⟩,
   ⟨.s2b, .busSetBits .flashAcr v.val.latency, .s3a, false⟩,
   ⟨.s3a, .busSetBits .oscCtl v.mask.oscOn, .s3w, false⟩,
   ⟨.s3w, .busHasBits .oscCtl v.mask.oscRdy, .s4a, true⟩,
   ⟨.s4a, .busClearBits .pllCfg v.mask.pllFields, .s4b, false⟩,
   ⟨.s4b, .busSetBits .pllCfg v.val.pllFields, .s4c, false⟩,
   ⟨.s4c, .busSetBits .pllCtl v.mask.pllOn, .s4d, false⟩] ++
  [⟨.s4d, .busSetBits .pllCfg v.mask.pllOen, .s4w, false⟩,
   ⟨.s4w, .busHasBits .pllCtl v.mask.pllRdy, .s5a, true⟩,
   ⟨.s5a, .busClearBits .clkCfg v.mask.ahbPre, .s5b, false⟩,
   ⟨.s5b, .busSetBits .clkCfg v.val.ahbPre, .s6a, false⟩,
   ⟨.s6a, .busClearBits .clkCfg v.mask.sw, .s6b, false⟩,
   ⟨.s6b, .busSetBits .clkCfg v.val.swPll, .s6w, false⟩,
   ⟨.s6w, .busGet .clkCfg, .s7a, true⟩,
   ⟨.s7a, .busClearBits .clkCfg v.mask.apbPre, .s7b, false⟩,
   ⟨.s7b, .busSetBits .clkCfg v.val.apbPre, .t1, false⟩] ++
  [⟨.t1, .busSetBits .clkenTim v.mask.cgTim, .t2a, false⟩,
   ⟨.t2a, .busSet .timPsc v.val.timPsc, .t2b, false⟩,
   ⟨.t2b, .busSet .timArr v.val.timArr, .t3, false⟩,
   ⟨.t3, .busSetBits .timEgr v.mask.ug, .t4, false⟩,
   ⟨.t4, .busSetBits .timCr v.mask.cen, .t5, false⟩,
   ⟨.t5, .busSetBits .timDier v.mask.uie, .t6a, false⟩,
   ⟨.t6a, .intcRegister v.tickIrq, .t6b, false⟩,
   ⟨.t6b, .intcSetPriority v.tickPrio, .t7, false⟩,
   ⟨.t7, .intcEnable, .idle, false⟩]

/-- A waiting step of bring-up whose condition does not hold (R146, R149, R152). -/
def State.unanswered (s : State) : Prop :=
  (s.seq = .s3w ∧ s.peek .oscCtl &&& s.cfg.mask.oscRdy = 0) ∨
  (s.seq = .s4w ∧ s.peek .pllCtl &&& s.cfg.mask.pllRdy = 0) ∨
  (s.seq = .s6w ∧ s.peek .clkCfg &&& s.cfg.mask.sws ≠ s.cfg.val.swsPll)

/-- The operations of a DEVICEINIT in progress at `q`, in the order the program gives: each non-waiting step once, each waiting
step any number of times (at least once before it is left), nothing else (R157). -/
inductive BringUpTrace (v : Variant) : List Instr → Seq → Prop
  | start : BringUpTrace v [] .s1a
  | move (ops : List Instr) (row : InitRow) : BringUpTrace v ops row.at_ → row ∈ initProgram v →
      BringUpTrace v (ops ++ [row.op]) row.next
  | wait (ops : List Instr) (row : InitRow) : BringUpTrace v ops row.at_ → row ∈ initProgram v → row.waits = true →
      BringUpTrace v (ops ++ [row.op]) row.at_

/-- The transaction an action is, if it is one (R82). -/
def Action.instr : Action → Option Instr
  | .transaction i => some i
  | .env _ => none

/-- The foreground's operations in the event record, oldest first (R82). -/
def State.fgOps (s : State) : List Instr :=
  (s.record.filter (fun e => e.agent == .fg)).filterMap (fun e => e.op.instr)

/-- The services of TICKISR since reset that found `UIF = 1`: each has exactly one step `I1` (R180, R183). -/
def State.services (s : State) : Nat :=
  s.record.countP (fun e => e.agent == .isr && e.op == .transaction (.busClearBits .timSr s.cfg.mask.uif))

/-- The input bits of the tied pins equal their latches' (R135). -/
def State.looped (s : State) : Bool :=
  s.wired.all fun c =>
    s.peek (.pinIn c.1) &&& (s.tied c.1).setWidth 32 == (s.latch c.1).setWidth 32 &&& (s.tied c.1).setWidth 32

/-- Invariant of form: every list in the canonical form, `TICK` and `SL_START` within `TICKW` bits (R21, R23), and the loop-back
of R135. -/
def State.formed (s : State) : Prop :=
  Cells.wf s.surface = true ∧ Cells.wf s.olat = true ∧ Cells.wf s.wired = true ∧
  Cells.wf s.asOutput = true ∧ Cells.wf s.driven = true ∧ s.looped = true ∧
  s.tick < 2 ^ s.cfg.tickw ∧ s.slStart < 2 ^ s.cfg.tickw

/-- Invariant of the step registers: `IN_ISR` with `ISEQ` (R28), `FATAL` with `HALT` (R27, R202), `BUSY` with `IDLE` (R94), no
`STATUS` 3 (R29), the cause and value of a fatal error (R201), `WAKE` 0 or 1 (R22), and `SEQ` inside the command that `CW`
holds (R26). -/
def State.sequenced (s : State) : Prop :=
  (s.inIsr = true ↔ s.iseq ≠ .idle) ∧ (s.fatal = true ↔ s.seq = .halt) ∧ (s.busy = true ↔ s.seq ≠ .idle) ∧
  s.status ≠ 3 ∧ (s.wake = 0 ∨ s.wake = 1) ∧
  (s.fatal = true →
    (s.fcause = causeNoPin ∨ s.fcause = causeBadPort) ∧
    ∃ i, decodeCommand s.cw s.din = .ok i ∧ pinOperand i = some s.fval) ∧
  (s.seq ≠ .idle → s.seq ≠ .halt →
    ∃ i, decodeCommand s.cw s.din = .ok i ∧ inCommand s.cfg.pinLayout i s.seq = true)

/-- Invariant of the lifecycle (R25, R189, R210): `Configured` exactly within `T1` to `T7`, `Uninitialized` within `S1a` to
`S7b`; before `Running` the interrupt is not enabled, no service runs and `TICK` and `WAKE` are 0. -/
def State.staged (s : State) : Prop :=
  s.portReq = none ∧
  (s.life = .configured ↔ 19 ≤ rank s.seq) ∧
  (1 ≤ rank s.seq → rank s.seq ≤ 18 → s.life = .uninitialized) ∧
  (s.life = .running → s.hReg = true ∧ s.hEn = true) ∧
  (26 ≤ rank s.seq → s.hReg = true) ∧
  (s.life ≠ .running → s.hEn = false ∧ s.inIsr = false ∧ s.tick = 0 ∧ s.wake = 0)

/-- The DEVICEINIT micro-step of rank `k` has been performed. -/
def State.past (s : State) (k : Nat) : Prop := s.life = .running ∨ k < rank s.seq

/-- A field of a register holds a value. -/
def State.holds (s : State) (r : Reg) (m v : Word) : Prop := s.peek r &&& m = v

/-- What bring-up and timer initialisation have established so far, and for ever after (R156, R178): each field from the step
that writes it, and zero within the window of a field write (R67, R256). -/
def State.broughtUp (s : State) : Prop :=
  let m := s.cfg.mask
  let v := s.cfg.val
  s.cfg.wf = true ∧
  ((s.past 1 → s.holds .clkenSyscfg m.cgSyscfg m.cgSyscfg) ∧ (s.past 2 → s.holds .clkenPwr m.cgPwr m.cgPwr) ∧
   (s.seq = .s2b → s.holds .flashAcr m.latency 0) ∧ (s.past 4 → s.holds .flashAcr m.latency v.latency) ∧
   (s.past 5 → s.holds .oscCtl m.oscOn m.oscOn)) ∧
  ((s.seq = .s4b → s.holds .pllCfg m.pllFields 0) ∧ (s.past 8 → s.holds .pllCfg m.pllFields v.pllFields) ∧
   (s.past 9 → s.holds .pllCtl m.pllOn m.pllOn) ∧ (s.past 10 → s.holds .pllCfg m.pllOen m.pllOen)) ∧
  ((s.seq = .s5b → s.holds .clkCfg m.ahbPre 0) ∧ (s.past 13 → s.holds .clkCfg m.ahbPre v.ahbPre) ∧
   (s.seq = .s6b → s.holds .clkCfg m.sw 0) ∧ (s.past 15 → s.holds .clkCfg m.sw v.swPll) ∧
   (s.seq = .s7b → s.holds .clkCfg m.apbPre 0) ∧ (s.past 18 → s.holds .clkCfg m.apbPre v.apbPre)) ∧
  ((s.past 19 → s.holds .clkenTim m.cgTim m.cgTim) ∧ (s.past 20 → s.peek .timPsc = v.timPsc) ∧
   (s.past 21 → s.peek .timArr = v.timArr) ∧ (s.past 23 → s.holds .timCr m.cen m.cen) ∧
   (s.past 24 → s.holds .timDier m.uie m.uie)) ∧
  ((s.past 25 → s.hReg = true ∧ s.hIrq = s.cfg.tickIrq) ∧ (s.past 26 → s.hPrio = s.cfg.tickPrio) ∧
   (s.past 27 → s.hEn = true))

/-- `TICK` counts the services (R183): with the one between `I1` and `I2` added, they agree modulo `2^TICKW`. -/
def State.counted (s : State) : Prop :=
  (s.tick + if s.iseq = .i2 then 1 else 0) % 2 ^ s.cfg.tickw = s.services % 2 ^ s.cfg.tickw

/-- The order law (R157): while a DEVICEINIT is in progress, the foreground's record ends with its operations so far, in the
program's order. -/
def State.ordered (s : State) : Prop :=
  1 ≤ rank s.seq → ∃ before ops, s.fgOps = before ++ ops ∧ BringUpTrace s.cfg ops s.seq

/-! ### Runs (R264) and the fairness of the environment (R263) -/

/-- The step that makes the move `m`, before the moves the state lists. -/
def fire (m : Move) (s : State) : Result := step { s with moves := m :: s.moves }

/-- The move is the host's issue of a command or its reset of the block. -/
def Move.ofHost : Move → Bool
  | .offer _ _ | .reset => true
  | .core | .enter | .spurious | .oscReady _ | .pllReady _ | .swStatus _ | .updateEvent | .pinInput _ _ | .clearWake => false

/-- A run may begin here (R264): no command is offered or in progress, and nothing stands on the ports. -/
def State.rests (s : State) : Bool := !s.busy && s.seq == .idle && !s.cmdValid && s.portReq == none

/-- A run up to `s`, from the start state `s₀`, under the commands issued so far, each issued "after the previous one responded"
(R264); between them the block, the interrupt and ENV move in any order. -/
inductive Played (s₀ : State) : List (Word × TimeUnit) → State → Prop
  | start : s₀.rests = true → Played s₀ [] s₀
  | issue (cs : List (Word × TimeUnit)) (s t : State) (cw : Word) (din : TimeUnit) : Played s₀ cs s →
      s.responses.length = s₀.responses.length + cs.length → fire (.offer cw din) s = .next t →
      Played s₀ (cs ++ [(cw, din)]) t
  | other (cs : List (Word × TimeUnit)) (s t : State) (m : Move) : Played s₀ cs s → m.ofHost = false →
      fire m s = .next t → Played s₀ cs t

/-- The run under the commands `cs` ends at `t` (R264): "at the step in which the last command of the list responds (`BUSY = 0`,
`SEQ = IDLE`) with `IN_ISR = 0`". -/
def RunEnds (s₀ : State) (cs : List (Word × TimeUnit)) (t : State) : Prop :=
  ∃ s, Played s₀ cs s ∧ s.responses.length < s₀.responses.length + cs.length ∧ fire .core s = .next t ∧
    t.responses.length = s₀.responses.length + cs.length ∧ t.busy = false ∧ t.seq = .idle ∧ t.inIsr = false

/-- A run under the commands `cs` is a fault (R264): it "reaches `SEQ = HALT`", whichever of them it has come to. -/
def RunFaults (s₀ : State) (cs : List (Word × TimeUnit)) : Prop :=
  ∃ issued rest s, cs = issued ++ rest ∧ Played s₀ issued s ∧ s.seq = .halt

/-- An infinite run: the states and the moves between them, in any order the agents take. -/
structure Trace where
  state : Nat → State
  move : Nat → Move

/-- The trace is a run of the machine, with no transaction on a port but the block's own. -/
def Trace.runs (r : Trace) : Prop :=
  ∀ n, (r.state n).portReq = none ∧ fire (r.move n) (r.state n) = .next (r.state (n + 1))

/-- A run under the commands `cs` is a hang (R264): "some command never responds (infinite, no end state)", whichever of them it
has come to. -/
def RunHangs (s₀ : State) (cs : List (Word × TimeUnit)) : Prop :=
  ∃ (issued rest : List (Word × TimeUnit)) (r : Trace), cs = issued ++ rest ∧ Played s₀ issued (r.state 0) ∧ r.runs ∧
    ∀ n, (r.move n).ofHost = false ∧ (r.state n).seq ≠ .halt ∧
      (r.state n).responses.length < s₀.responses.length + issued.length

/-- At `n` the foreground visits the busy-wait `q` and the polled field of `reg` reads `v`. -/
def Trace.sees (r : Trace) (n : Nat) (q : Seq) (reg : Reg) (m v : Word) : Prop :=
  r.move n = .core ∧ (r.state n).inIsr = false ∧ (r.state n).seq = q ∧ (r.state n).peek reg &&& m = v

/-- From every state waiting at `q` in which the enabling field of `reg₀` has its value, the value waited for is eventually
seen, unless the host resets the block first. -/
def Trace.answers (r : Trace) (q : Seq) (reg₀ : Reg) (m₀ v₀ : Word) (reg : Reg) (m v : Word) : Prop :=
  ∀ n, (r.state n).seq = q → (r.state n).peek reg₀ &&& m₀ = v₀ →
    ∃ k, n ≤ k ∧ (r.sees k q reg m v ∨ r.move k = .reset)

/-- `ENV_FAIR` (R263), each assumption where the variant record names it: (a) "after `OSC_ON = 1`, `OSC_RDY` is eventually
observed 1 by `S3w`", (b) likewise `PLL_RDY` by `S4w`, (c) likewise `SWS = SWS_PLL_VAL` by `S6w`, (d) while the timer counts update
events recur for ever, (e) FG and ISR are weakly fair: an agent with a step to take for ever takes one. -/
def Trace.fair (r : Trace) : Prop :=
  let e := (r.state 0).cfg.envFair
  let m := (r.state 0).cfg.mask
  let v := (r.state 0).cfg.val
  (e.oscReady = true → r.answers .s3w .oscCtl m.oscOn m.oscOn .oscCtl m.oscRdy m.oscRdy) ∧
  (e.pllReady = true → r.answers .s4w .pllCtl m.pllOn m.pllOn .pllCtl m.pllRdy m.pllRdy) ∧
  (e.switched = true → r.answers .s6w .clkCfg m.sw v.swPll .clkCfg m.sws v.swsPll) ∧
  (e.updates = true → ∀ n, ∃ k, n ≤ k ∧
    ((r.state k).timerCounts = false ∨ r.move k = .updateEvent)) ∧
  (e.agents = true →
    (∀ n, ∃ k, n ≤ k ∧ ((r.state k).halted = true ∨ (r.state k).inIsr = true ∨ r.move k = .core)) ∧
    (∀ n, ∃ k, n ≤ k ∧ (((r.state k).entryEnabled = false ∧ (r.state k).inIsr = false) ∨ (r.state k).halted = true ∨
      ((r.state k).entryEnabled = true ∧ r.move k = .enter) ∨ ((r.state k).inIsr = true ∧ r.move k = .core))))

/-- The observation of a run (R264). -/
structure Observation where
  responses : List Response
  record : List Event
  tick : Nat
  wake : Byte
  life : Life
  fatal : Bool
  fcause : BitVec 2
  fval : Byte
  surface : Cells 32
  olat : Cells 16
  deriving DecidableEq, Repr

/-- The entry is observed (R264): of the record, the "FG and ISR transactions on the bus and interrupt ports", but for the one test
of a service that finds the flag clear, which is there "without changing any observable" (R216, log 31). -/
def State.shows (s : State) (e : Event) : Bool :=
  e.agent != .env && e != ⟨.isr, .transaction (.busHasBits .timSr s.cfg.mask.uif), some 0⟩

/-- What a run from `s₀` shows when it has come to `s` (R264): the responses and the observed entries of the record since its
start, and the values at the end. -/
def State.observe (s₀ s : State) : Observation :=
  { responses := s.responses.drop s₀.responses.length,
    record := (s.record.drop s₀.record.length).filter s.shows,
    tick := s.tick, wake := s.wake, life := s.life, fatal := s.fatal, fcause := s.fcause, fval := s.fval,
    surface := s.surface, olat := s.olat }

/-- The state no command writes: the variant, `TICK`, `WAKE`, the interrupt context, the host's inputs, the request lines, the
wiring and the moves to come. -/
def keptByCommands (s t : State) : Prop :=
  t.cfg = s.cfg ∧ t.tick = s.tick ∧ t.wake = s.wake ∧ t.iseq = s.iseq ∧ t.inIsr = s.inIsr ∧
  t.cwIn = s.cwIn ∧ t.dinIn = s.dinIn ∧ t.portReq = s.portReq ∧ t.wired = s.wired ∧ t.moves = s.moves

/-- What the loop-back of R135 supposes of the pins. -/
def keptPins (s t : State) : Prop := t.asOutput = s.asOutput ∧ t.driven = s.driven

/-- No input bit but those ENV keeps at their latch afterwards (R135). -/
def keptInputs (s t : State) : Prop :=
  ∀ p o, (t.tied p).getLsbD o = false → (t.peek (.pinIn p)).getLsbD o = (s.peek (.pinIn p)).getLsbD o

/-- The state no command but DEVICEINIT and SLEEPTICKS writes beside it. -/
def keptUnits (s t : State) : Prop :=
  t.life = s.life ∧ t.slStart = s.slStart ∧ t.slTarget = s.slTarget ∧ t.hReg = s.hReg ∧ t.hIrq = s.hIrq ∧
  t.hPrio = s.hPrio ∧ t.hEn = s.hEn ∧ t.activePsc = s.activePsc

/-- The command latches change only at acceptance (R93). -/
def keptLatches (s t : State) : Prop :=
  s.seq ≠ .idle → t.cw = s.cw ∧ t.din = s.din ∧ t.cmdValid = s.cmdValid

/-- The fatal record. -/
def keptFatal (s t : State) : Prop := t.fatal = s.fatal ∧ t.fcause = s.fcause ∧ t.fval = s.fval

/-- The command interface but for `SEQ`. -/
def keptResponse (s t : State) : Prop :=
  t.busy = s.busy ∧ t.status = s.status ∧ t.dout = s.dout ∧ t.responses = s.responses

end Sys2Proof.Machine
end

