-- ==== Sys2Proof/Certificates/Slice0/Obligations.lean ====
section
/-! DEFINITION. The statements for the provers. Where a statement rests on a choice of the model and not on a rule, its docstring
names the entry of the assumption log. -/
open Sys2Proof Sys2Proof.Machine

/-! ### Encodings (30_encoding) -/

/-- R91, R92, R95, R100 to R102: no bit of an encoding is dropped, for all sixteen instructions and every operand. -/
def Obligations.DecodeInvertsEncode : Prop :=
  ∀ i : Instr, i.wf = true → decode (encode i) = .ok i

/-- R91, R92, R97, R100 to R102: a word that decodes is the encoding of what it decodes to, so no two words mean the same command;
so are the request lines of the two ports, but for the lines an operation ignores, which the encoder leaves 0. -/
def Obligations.EncodeInvertsDecode : Prop :=
  (∀ (cw : Word) (din : TimeUnit) (i : Instr), decodeCommand cw din = .ok i →
    isCommand i = true ∧ i.commandWord = cw ∧ i.dataOperand din = din) ∧
  (∀ (bop : BitVec 3) (reg : Byte) (wdata : Word) (i : Instr), decodePort (.bus bop reg wdata) = .ok i →
    isCommand i = false ∧ i.wf = true ∧ encode i = .port (.bus bop reg (if bop = 0 then 0 else wdata))) ∧
  (∀ (iop : BitVec 2) (arg : Nat) (i : Instr), decodePort (.intc iop arg) = .ok i →
    isCommand i = false ∧ encode i = .port (.intc iop (if iop = 2 then 0 else arg)))

/-- R95: "A word decodes to a command exactly when `(CW & mask) = match`", to the command of that row, and the rows are
pairwise disjoint. -/
def Obligations.DecodesExactlyByTheOpcodeMap : Prop :=
  ∀ (cw : Word) (din : TimeUnit),
    ((∃ i, decodeCommand cw din = .ok i) ↔ ∃ row ∈ commandTable, cw &&& row.mask = row.pattern) ∧
    (∀ row ∈ commandTable, cw &&& row.mask = row.pattern →
      ∃ i, decodeCommand cw din = .ok i ∧ mnemonicOf i = row.mnemonic) ∧
    (∀ row ∈ commandTable, ∀ other ∈ commandTable,
      cw &&& row.mask = row.pattern → cw &&& other.mask = other.pattern → row = other)

/-- R91, R92, R100 to R103: words written out from the formats. -/
def Obligations.SampleWordsDecode : Prop :=
  decodeCommand 0x10050300 0 = .ok (.configure 0x05 0x03 0x00) ∧
  decodeCommand 0x200F0001 0 = .ok (.set 0x0F true) ∧
  decodeCommand 0x302D0000 0 = .ok (.get 0x2D) ∧
  decodeCommand 0x60000000 0 = .ok .deviceinit ∧
  decodeCommand 0x80000000 2500 = .ok (.sleepticks 2500) ∧
  decodePort (.bus 0b010 3 0x100) = .ok (.busSetBits .oscCtl 0x100) ∧
  decodePort (.bus 0b001 27 0x80000) = .ok (.busSet (.outSet 1) 0x80000) ∧
  decodePort (.intc 0b01 0xC0) = .ok (.intcSetPriority 0xC0)

/-! ### Acceptance, completion and the step (30_encoding R93, R94, R97) -/

/-- The model's step: the command offered, the command in progress and the transaction on the request lines run by `exec`, with
only the move consumed or the lines cleared around it (log 2, log 5, log 6). -/
def Obligations.StepRunsTheDecodedInstruction : Prop :=
  (∀ (s : State) (rest : List Move) (i : Instr), s.portReq = none →
    (s.moves = .core :: rest ∨ s.moves = [] ∧ rest = [] ∧ s.entryEnabled = false) →
    s.mayAccept = true → s.cmdValid = true → decodeCommand s.cwIn s.dinIn = .ok i →
    step s = exec i { s with moves := rest }) ∧
  (∀ (s : State) (rest : List Move) (i : Instr), s.portReq = none →
    (s.moves = .core :: rest ∨ s.moves = [] ∧ rest = [] ∧ s.entryEnabled = false) →
    s.fatal = false → s.inIsr = false → s.seq ≠ .idle → s.seq ≠ .halt → decodeCommand s.cw s.din = .ok i →
    step s = exec i { s with moves := rest }) ∧
  (∀ (s : State) (lines : PortLines) (i : Instr), s.portReq = some lines → decodePort lines = .ok i →
    step s = exec i { s with portReq := none })

/-- R93: an offered command is latched and `SEQ` set to its first micro-step, in every `LIFE` state (DEVICEINIT in
`Uninitialized`). That the offer is withdrawn then is log 23. -/
def Obligations.OfferedCommandIsAccepted : Prop :=
  ∀ (s : State) (rest : List Move) (i : Instr), s.portReq = none → s.moves = .core :: rest →
    s.mayAccept = true → s.cmdValid = true → decodeCommand s.cwIn s.dinIn = .ok i →
    (i = .deviceinit → s.life = .uninitialized) →
    step s = .next { s with
      moves := rest, cw := s.cwIn, din := s.dinIn, busy := true, cmdValid := false, seq := firstStep i }

/-- R93: "while `BUSY = 1` no command is accepted": a turn of the block leaves the latches and the offer as they are. -/
def Obligations.BusyBlockAcceptsNothing : Prop :=
  ∀ (s t : State) (rest : List Move), s.portReq = none → s.moves = .core :: rest → s.busy = true →
    step s = .next t →
    t.cw = s.cw ∧ t.din = s.din ∧ t.cmdValid = s.cmdValid ∧ t.cwIn = s.cwIn ∧ t.dinIn = s.dinIn

/-- R97: a word no row of R95 matches completes at once with `respond(ILLEGAL, 0)` and changes no other state. The latches take
the word, as at every acceptance (R93, log 13). -/
def Obligations.IllegalWordCompletesAtOnce : Prop :=
  ∀ (s : State) (rest : List Move), s.portReq = none → s.moves = .core :: rest →
    s.mayAccept = true → s.cmdValid = true →
    (∀ row ∈ commandTable, s.cwIn &&& row.mask ≠ row.pattern) →
    step s = .next { s with
      moves := rest, cw := s.cwIn, din := s.dinIn, cmdValid := false, status := 1, dout := 0,
      responses := s.responses ++ [⟨1, 0⟩] }

/-! ### The five surface operations (20_memory) -/

/-- R62: GET returns the current word and changes no state but the response lines and the record; what a trigger register reads
as is free (log 8). -/
def Obligations.BusGetReturnsTheWord : Prop :=
  ∀ (r : Reg) (s : State), s.halted = false → s.cfg.hasReg r = true →
    ∃ w : Word,
      exec (.busGet r) s = .next { s with
        rdata := w, draws := s.draws + 3, record := s.record ++ [⟨s.agent, .transaction (.busGet r), some w⟩] } ∧
      (isTrigger r = false → w = s.peek r)

/-- R63: SET gives a register that is not a trigger the whole word, and no other register. That its hardware-owned bits stay what
ENV last made them (R35, R62), and that `UIF` can be cleared so but not set (R49), is read from the rules: log 11. That new gates
bring the input bits of the pins tied by them to their latches (R135) is the model's choice: log 25. -/
def Obligations.BusSetWritesTheWholeWord : Prop :=
  ∀ (r : Reg) (v : Word) (s : State), s.formed → s.halted = false → s.cfg.hasReg r = true → isTrigger r = false →
    ∃ t, exec (.busSet r v) s = .next t ∧
      t.peek r &&& ~~~(s.cfg.hardwareOwned r) = v &&& ~~~(s.cfg.hardwareOwned r) ∧
      (s.cfg.hardwareOwned r = 0 → t.peek r = v) ∧
      (r ≠ .timSr → t.peek r &&& s.cfg.hardwareOwned r = s.peek r &&& s.cfg.hardwareOwned r) ∧
      (r = .timSr → t.peek r &&& s.cfg.hardwareOwned r = s.peek r &&& v &&& s.cfg.hardwareOwned r) ∧
      (∀ q, q ≠ r → (r = .clkenGpio → ∀ p, q ≠ .pinIn p) → t.peek q = s.peek q) ∧
      (r = .clkenGpio → keptInputs s t) ∧ (∀ p, t.latch p = s.latch p) ∧ t.activePsc = s.activePsc

/-- R52: a whole-word write to a set or reset register: "a 1 in a set bit `o` makes `OLAT[p][o] <- 1`; a 1 in a reset bit `o`
makes `OLAT[p][o] <- 0`; 0 bits change nothing". An offset with both bits is open (log 10). -/
def Obligations.SetAndResetBitsDriveTheLatch : Prop :=
  ∀ (p : Nat) (v : Word) (s : State), s.formed → s.halted = false → s.cfg.portPresent p = true →
    (s.cfg.bsrKind = .separate →
      ∃ t u, exec (.busSet (.outSet p) v) s = .next t ∧ exec (.busSet (.outReset p) v) s = .next u ∧
        ∀ o, o < 16 →
          (t.latch p).getLsbD o = ((s.latch p).getLsbD o || v.getLsbD o) ∧
          (u.latch p).getLsbD o = ((s.latch p).getLsbD o && !v.getLsbD o)) ∧
    (s.cfg.bsrKind = .combined →
      ∃ t, exec (.busSet (.outSet p) v) s = .next t ∧
        ∀ o, o < 16 → (v.getLsbD o && v.getLsbD (o + 16)) = false →
          (t.latch p).getLsbD o =
            if v.getLsbD o then true else if v.getLsbD (o + 16) then false else (s.latch p).getLsbD o)

/-- R64: `r <- r | m`, bits outside `m` kept, idempotent; on a trigger register the effect is that of writing 1 to the bits of
`m`. That the hardware-owned bits of the register stay what ENV last made them (R35, R62) is read from the rules: log 11. That new
gates bring the input bits of the pins tied by them to their latches (R135) is the model's choice: log 25. -/
def Obligations.SetBitsOrsTheMask : Prop :=
  ∀ (r : Reg) (m : Word) (s : State), s.formed → s.halted = false → s.cfg.hasReg r = true →
    ∃ t, exec (.busSetBits r m) s = .next t ∧
      (isTrigger r = false →
        t.peek r = s.peek r ||| (m &&& ~~~(s.cfg.hardwareOwned r)) ∧
        (∀ q, q ≠ r → (r = .clkenGpio → ∀ p, q ≠ .pinIn p) → t.peek q = s.peek q) ∧
        (r = .clkenGpio → keptInputs s t) ∧
        ∀ u, exec (.busSetBits r m) t = .next u → u.peek r = t.peek r) ∧
      (isTrigger r = true →
        ∃ u, exec (.busSet r m) s = .next u ∧ t.surface = u.surface ∧ t.olat = u.olat ∧ t.activePsc = u.activePsc)

/-- R65: `r <- r & ~m`, bits outside `m` kept; on `TIM_SR` with `MASK.UIF` it clears the update-interrupt flag. That the
hardware-owned bits of every other register stay what ENV last made them (R35, R62) is read from the rules, log 11; that on a
trigger register it writes some word without the bits of `m` is the model's choice, log 8. -/
def Obligations.ClearBitsClearsTheMask : Prop :=
  ∀ (r : Reg) (m : Word) (s : State), s.formed → s.halted = false → s.cfg.hasReg r = true →
    ∃ t, exec (.busClearBits r m) s = .next t ∧
      (isTrigger r = false →
        t.peek r = s.peek r &&& ~~~(if r = .timSr then m else m &&& ~~~(s.cfg.hardwareOwned r)) ∧
        (∀ q, q ≠ r → t.peek q = s.peek q)) ∧
      (r = .timSr → m = s.cfg.mask.uif → t.uif = false) ∧
      (isTrigger r = true →
        ∃ w u, exec (.busSet r (w &&& ~~~m)) s = .next u ∧ t.surface = u.surface ∧ t.olat = u.olat ∧
          t.activePsc = u.activePsc)

/-- R66: "true exactly when `(r & m) != 0`; changes no state"; the answer is `RDATA[0]` (R100) and stands in the record. -/
def Obligations.HasBitsTestsTheMask : Prop :=
  ∀ (r : Reg) (m : Word) (s : State), s.halted = false → s.cfg.hasReg r = true →
    ∃ (b : Bool) (d : Word), (b = true ↔ s.readReg r &&& m ≠ 0) ∧ d.getLsbD 0 = b ∧
      exec (.busHasBits r m) s = .next { s with
        rdata := d, draws := s.draws + 3,
        record := s.record ++ [⟨s.agent, .transaction (.busHasBits r m), some (if b then 1 else 0)⟩] }

/-- R67: for a core-owned field, after ClearBits of the mask and SetBits of the value the field holds the value whatever it held,
all other bits are unchanged, and in between the field is all zeros. No other register changes, but that of `PIN_IN` nothing is
said where the register is that of the port gates, on which ENV may bring input bits to their latches (R135, log 25). -/
def Obligations.FieldWriteIdiom : Prop :=
  ∀ (r : Reg) (m val : Word) (s : State), s.formed → s.halted = false → s.cfg.hasReg r = true →
    isTrigger r = false → m &&& s.cfg.hardwareOwned r = 0 → val &&& ~~~m = 0 →
    ∃ t u, exec (.busClearBits r m) s = .next t ∧ exec (.busSetBits r val) t = .next u ∧
      t.peek r &&& m = 0 ∧ u.peek r &&& m = val ∧ u.peek r &&& ~~~m = s.peek r &&& ~~~m ∧
      ∀ q, q ≠ r → (r = .clkenGpio → ∀ p, q ≠ .pinIn p) → u.peek q = s.peek q

/-- The frame of the five transactions on register `r` (R62 to R66, R68): no other register, no other port's latch; `TIM_EGR`
may also set `TIM_SR` and load the active prescaler (R46, R56), a latch may carry the input bits of its port's tied pins
along, and new gates those of the pins tied by them (R135, log 25). -/
def Obligations.BusTransactionsFrame : Prop :=
  ∀ (r : Reg) (v : Word) (i : Instr) (s t : State),
    (i = .busGet r ∨ i = .busSet r v ∨ i = .busSetBits r v ∨ i = .busClearBits r v ∨ i = .busHasBits r v) →
    exec i s = .next t →
    keptByCommands s t ∧ keptFatal s t ∧ keptResponse s t ∧ t.seq = s.seq ∧
    t.cw = s.cw ∧ t.din = s.din ∧ t.cmdValid = s.cmdValid ∧
    t.life = s.life ∧ t.slStart = s.slStart ∧ t.slTarget = s.slTarget ∧
    t.hReg = s.hReg ∧ t.hIrq = s.hIrq ∧ t.hPrio = s.hPrio ∧ t.hEn = s.hEn ∧
    (r ≠ .timEgr → t.activePsc = s.activePsc) ∧
    (∀ q, q ≠ r → (r = .timEgr → q ≠ .timSr) →
      (∀ p, r = .outSet p ∨ r = .outReset p ∨ r = .clkenGpio → q ≠ .pinIn p) → t.peek q = s.peek q) ∧
    (s.formed → (∀ p, r ≠ .pinIn p) → keptInputs s t) ∧ t.driven = s.driven ∧
    (i = .busGet r ∨ i = .busHasBits r v ∨ (∀ p, r ≠ .ctlA p) ∧ (∀ p, r ≠ .ctlB p) ∧ (∀ p, r ≠ .outType p) →
      keptPins s t ∧ (i = .busGet r ∨ i = .busHasBits r v ∨ r ≠ .clkenGpio → ∀ p, t.tied p = s.tied p)) ∧
    (∀ p, r ≠ .outSet p → r ≠ .outReset p → t.latch p = s.latch p) ∧
    (i = .busGet r ∨ i = .busHasBits r v → t.surface = s.surface ∧ t.olat = s.olat ∧ t.activePsc = s.activePsc)

/-- R46, R56 (b), R175: a word with `UG`, written to `TIM_EGR` by Set or by SetBits, loads the programmed prescaler and sets `UIF`
or leaves it, both admitted (`UG_SETS_UIF`, log 9), and nothing else of the surface changes; a word without `UG` changes
nothing. -/
def Obligations.ForcedUpdateLoadsThePrescaler : Prop :=
  ∀ (v : Word) (i : Instr) (s : State), (i = .busSet .timEgr v ∨ i = .busSetBits .timEgr v) → s.formed →
    s.halted = false →
    ∃ t, exec i s = .next t ∧ t.olat = s.olat ∧
      (v &&& s.cfg.mask.ug ≠ 0 → t.activePsc = s.peek .timPsc ∧
        (t.peek .timSr = s.peek .timSr ∨ t.peek .timSr = s.peek .timSr ||| s.cfg.mask.uif) ∧
        ∀ q, q ≠ .timSr → t.peek q = s.peek q) ∧
      (v &&& s.cfg.mask.ug = 0 → t.surface = s.surface ∧ t.activePsc = s.activePsc)

/-- The eight transactions stop in the halted state (that a transaction is a step of the halted block too, R203, is log 34), and the
five of the bus on a register the variant does not have (log 16). Request lines are no transaction exactly where `BOP` is 101 to
111, `IOP` is 11, or the ordinal is unused (R100 to R102; the ordinals 144 to 255 exist on the model's 8 `REG` lines alone,
log 37); a step with such lines is refused (log 17). -/
def Obligations.TransactionsStopByName : Prop :=
  (∀ (s : State) (bop : BitVec 3) (reg : Byte) (wdata : Word),
    ((∃ e, decodePort (.bus bop reg wdata) = .error e) ↔
      5 ≤ bop.toNat ∨ reg.toNat = 15 ∨ 144 ≤ reg.toNat ∨ 16 ≤ reg.toNat ∧ 6 ≤ reg.toNat % 8) ∧
    (s.portReq = some (.bus bop reg wdata) → (∃ e, decodePort (.bus bop reg wdata) = .error e) →
      step s = .refused .neverIssued)) ∧
  (∀ (s : State) (iop : BitVec 2) (arg : Nat),
    ((∃ e, decodePort (.intc iop arg) = .error e) ↔ iop = 3) ∧
    (s.portReq = some (.intc iop arg) → iop = 3 → step s = .refused .neverIssued)) ∧
  (∀ (n : Nat) (i : Instr) (s : State), (i = .intcRegister n ∨ i = .intcSetPriority n ∨ i = .intcEnable) →
    s.halted = true → exec i s = .fault .halted) ∧
  ∀ (r : Reg) (v : Word) (i : Instr) (s : State),
    (i = .busGet r ∨ i = .busSet r v ∨ i = .busSetBits r v ∨ i = .busClearBits r v ∨ i = .busHasBits r v) →
    (s.halted = true → exec i s = .fault .halted) ∧
    (s.halted = false → s.cfg.hasReg r = false → exec i s = .fault .absentRegister)

/-! ### The interrupt port (60_exceptions R207 to R209) -/

/-- R207 to R209: the three operations and nothing else; REGISTER "does not enable the interrupt". That SETPRIORITY and ENABLE have
their literal effect also before any REGISTER, where no handle exists (R102), is the model's choice: log 35. -/
def Obligations.InterruptPortTransactions : Prop :=
  ∀ (n : Nat) (s : State), s.halted = false →
    exec (.intcRegister n) s = .next { s with
      hReg := true, hIrq := n, record := s.record ++ [⟨s.agent, .transaction (.intcRegister n), none⟩] } ∧
    exec (.intcSetPriority n) s = .next { s with
      hPrio := n, record := s.record ++ [⟨s.agent, .transaction (.intcSetPriority n), none⟩] } ∧
    exec .intcEnable s = .next { s with
      hEn := true, record := s.record ++ [⟨s.agent, .transaction .intcEnable, none⟩] }

/-! ### Fatal errors (60_exceptions R200 to R203) -/

/-- R121, R202: the validity check of the five pin commands, and `raise Fatal` with nothing else changed. -/
def Obligations.PinCheckRaisesFatal : Prop :=
  ∀ (i : Instr) (pin : Byte) (s : State), pinOperand i = some pin → s.seq = firstStep i →
    s.fatal = false → s.inIsr = false →
    (pin = 0xFF → exec i s = .next { s with fatal := true, fcause := 1, fval := pin, seq := .halt }) ∧
    (pin ≠ 0xFF → s.cfg.ports.getLsbD (pin.toNat / 16) = false →
      exec i s = .next { s with fatal := true, fcause := 2, fval := pin, seq := .halt }) ∧
    (pin ≠ 0xFF → s.cfg.ports.getLsbD (pin.toNat / 16) = true →
      (∀ mode pull, i = .configure pin mode pull → configurable s.cfg mode pull = true) →
      ∃ next, ((∃ mode pull, i = .configure pin mode pull) → next = .p1) ∧
        ((∃ level, i = .set pin level) ∨ i = .high pin ∨ i = .low pin → next = .w1) ∧
        (i = .get pin → next = .g1) ∧ exec i s = .next { s with seq := next })

/-- R201, R27: over every step, only the first micro-step of a pin command raises Fatal, and nothing but reset clears it. -/
def Obligations.OnlyThePinCheckRaisesFatal : Prop :=
  ∀ s t : State, step s = .next t →
    (s.fatal = false → t.fatal = true →
      (s.seq = .p0 ∨ s.seq = .w0 ∨ s.seq = .g0) ∧ s.inIsr = false ∧ t.seq = .halt ∧ t.surface = s.surface ∧
      t.record = s.record ∧ t.busy = s.busy ∧ t.status = s.status ∧ t.dout = s.dout) ∧
    (s.fatal = true → s.moves.head? ≠ some .reset → t.fatal = true ∧ t.fcause = s.fcause ∧ t.fval = s.fval)

/-- R203: while `FATAL = 1` the block has no step, no entry is taken and `TICK` stays; ENV keeps moving; only reset leaves. -/
def Obligations.HaltedBlockOnlyLeavesByReset : Prop :=
  ∀ (s : State), s.fatal = true → s.portReq = none →
    (s.moves = [] → step s = .fault .halted) ∧
    (∀ rest, s.moves = .core :: rest → step s = .fault .halted) ∧
    (∀ m rest, s.moves = m :: rest → m ≠ .core →
      ∃ t, step s = .next t ∧ (m = .reset → t.fatal = false ∧ t.seq = .idle) ∧
        (m ≠ .reset → t.fatal = true ∧ t.seq = s.seq ∧ t.inIsr = s.inIsr ∧ t.iseq = s.iseq ∧ t.tick = s.tick ∧
          (m ≠ .clearWake → t.wake = s.wake)))

/-! ### The Pin unit (40_pin) -/

/-- R122, R124: the last micro-steps of CONFIGURE complete it, and `P1` sets the port's gate bit alone (ENV's input bits of pins
tied under the new gates follow their latches, R135, log 25). -/
def Obligations.ConfigureGatesAndCompletes : Prop :=
  ∀ (pin mode pull : Byte) (s : State), s.formed → s.fatal = false → s.inIsr = false →
    (s.seq = .p1 → ∃ t, exec (.configure pin mode pull) s = .next t ∧ t.seq = .p2 ∧
      t.peek .clkenGpio = s.peek .clkenGpio ||| s.cfg.mask.gate (pin.toNat / 16) ∧
      (∀ q, q ≠ .clkenGpio → (∀ p, q ≠ .pinIn p) → t.peek q = s.peek q) ∧ keptInputs s t) ∧
    ((s.cfg.pinLayout = .packed4 ∧ s.seq = .p3) ∨ (s.cfg.pinLayout = .split ∧ s.seq = .p7) →
      ∃ t, exec (.configure pin mode pull) s = .next t ∧ t.seq = .idle ∧ t.busy = false ∧ t.status = 0 ∧
        t.dout = 0 ∧ t.responses = s.responses ++ [⟨0, 0⟩])

/-- R122, R123, R125 (X3): CONFIGURE on a PACKED4 variant from its acceptance: `reg[pos+3:pos] = MODE[3:0]`, every other bit of
the register as before, the port's gate set, every other register as before, whatever PULL is; of the input bits only the pin's
own and those of the pins then tied may have moved (R135, log 25). -/
def Obligations.ConfigurePackedIsSurgical : Prop :=
  ∀ (pin mode pull : Byte) (s : State), s.formed → s.mayAccept = true → s.cfg.pinLayout = .packed4 →
    pin ≠ 0xFF → s.cfg.ports.getLsbD (pin.toNat / 16) = true → mode.toNat < 16 →
    ∃ t, execRun (.configure pin mode pull) 5 s = .next t ∧
      t.busy = false ∧ t.seq = .idle ∧ t.status = 0 ∧ t.dout = 0 ∧
      ∃ (reg : Reg) (pos : Nat),
        reg = (if pin.toNat % 16 < 8 then .ctlA (pin.toNat / 16) else .ctlB (pin.toNat / 16)) ∧
        pos = 4 * (pin.toNat % 16 % 8) ∧
        (t.peek reg).extractLsb' pos 4 = mode.extractLsb' 0 4 ∧
        (∀ k, k < pos ∨ pos + 4 ≤ k → (t.peek reg).getLsbD k = (s.peek reg).getLsbD k) ∧
        t.peek .clkenGpio = s.peek .clkenGpio ||| s.cfg.mask.gate (pin.toNat / 16) ∧
        (∀ q, q ≠ reg → q ≠ .clkenGpio → (∀ p, q ≠ .pinIn p) → t.peek q = s.peek q) ∧
        ∀ p o, (p ≠ pin.toNat / 16 ∨ o ≠ pin.toNat % 16) → (t.tied p).getLsbD o = false →
          (t.peek (.pinIn p)).getLsbD o = (s.peek (.pinIn p)).getLsbD o

/-- R122, R126, R127: CONFIGURE on a SPLIT variant from its acceptance: the pin's mode, pull and output-type fields equal the
encoders' values and no other bit of the three registers changed. The default encoders are the slices `MODE[MODE_W-1:0]`,
`MODE[MODE_W+OTYPE_W-1:MODE_W]` and `PULL[PULL_W-1:0]`; a table's value is its row (log 26). Of the input bits only the pin's own
and those of the pins then tied may have moved (R135, log 25). -/
def Obligations.ConfigureSplitWritesThreeFields : Prop :=
  ∀ (pin mode pull : Byte) (s : State), s.formed → s.mayAccept = true → s.cfg.wf = true →
    s.cfg.pinLayout = .split → pin ≠ 0xFF → s.cfg.ports.getLsbD (pin.toNat / 16) = true →
    configurable s.cfg mode pull = true →
    ∃ t, execRun (.configure pin mode pull) 9 s = .next t ∧
      t.busy = false ∧ t.seq = .idle ∧ t.status = 0 ∧ t.dout = 0 ∧
      (∀ (reg : Reg) (w lo : Nat) (enc : Encoder) (operand : Byte),
        ((reg, w, lo, enc, operand) = (.ctlA (pin.toNat / 16), s.cfg.modeW, 0, s.cfg.encMode, mode) ∨
         (reg, w, lo, enc, operand) = (.ctlB (pin.toNat / 16), s.cfg.pullW, 0, s.cfg.encPull, pull) ∨
         (reg, w, lo, enc, operand) = (.outType (pin.toNat / 16), s.cfg.otypeW, s.cfg.modeW, s.cfg.encOtype, mode)) →
        (∀ k, k < w → (t.peek reg).getLsbD (w * (pin.toNat % 16) + k) =
          match enc with
          | .standard => operand.getLsbD (lo + k)
          | .table rows => (rows.getD operand.toNat 0).getLsbD k) ∧
        (∀ k, k < w * (pin.toNat % 16) ∨ w * (pin.toNat % 16) + w ≤ k →
          (t.peek reg).getLsbD k = (s.peek reg).getLsbD k)) ∧
      t.peek .clkenGpio = s.peek .clkenGpio ||| s.cfg.mask.gate (pin.toNat / 16) ∧
      (∀ q, q ≠ .ctlA (pin.toNat / 16) → q ≠ .ctlB (pin.toNat / 16) → q ≠ .outType (pin.toNat / 16) →
        q ≠ .clkenGpio → (∀ p, q ≠ .pinIn p) → t.peek q = s.peek q) ∧
      ∀ p o, (p ≠ pin.toNat / 16 ∨ o ≠ pin.toNat % 16) → (t.tied p).getLsbD o = false →
        (t.peek (.pinIn p)).getLsbD o = (s.peek (.pinIn p)).getLsbD o

/-- R128: an operand outside the enumerations is refused at `P0`, after the validity check; PULL is never refused for PACKED4. With
the default encoders the enumerations are the operands with no 1 above the fields; with a table the variant's lists are
(log 14). -/
def Obligations.ConfigureRefusesOutsideTheEnumeration : Prop :=
  ∀ (pin mode pull : Byte) (s : State), s.seq = .p0 → s.fatal = false → s.inIsr = false →
    pin ≠ 0xFF → s.cfg.ports.getLsbD (pin.toNat / 16) = true →
    (s.cfg.pinLayout = .packed4 →
      (exec (.configure pin mode pull) s = .refused .outsideEnumeration ↔ 16 ≤ mode.toNat)) ∧
    (s.cfg.pinLayout = .split →
      (exec (.configure pin mode pull) s = .refused .outsideEnumeration ↔
        ¬ ((if s.cfg.encMode = .standard ∧ s.cfg.encOtype = .standard then
              mode.toNat < 2 ^ (s.cfg.modeW + s.cfg.otypeW) else mode ∈ s.cfg.legalModes) ∧
           (if s.cfg.encPull = .standard then pull.toNat < 2 ^ s.cfg.pullW else pull ∈ s.cfg.legalPulls))))

/-- R129, R130, R132, R133: `W1` of SET, HIGH and LOW issues exactly one Set, of the word of R130, and responds;
`OLAT[port][offset] <- LEVEL` (R52), all other latch bits unchanged, no surface register written. That ENV brings the pin's input
bit to the level where the premises of R135 hold, as the model has them as data, and leaves every other input bit alone then, is the
model's choice: log 25. -/
def Obligations.DrivingAPinWritesOneLatchBit : Prop :=
  ∀ (i : Instr) (pin : Byte) (level : Bool) (s : State),
    (i = .set pin level ∨ i = .high pin ∧ level = true ∨ i = .low pin ∧ level = false) →
    s.formed → s.seq = .w1 → s.fatal = false → s.inIsr = false →
    ∃ (t : State) (reg : Reg) (word : Word), exec i s = .next t ∧
      (reg, word) =
        (match s.cfg.bsrKind, level with
         | .separate, true => (.outSet (pin.toNat / 16), BitVec.twoPow 32 (pin.toNat % 16))
         | .separate, false => (.outReset (pin.toNat / 16), BitVec.twoPow 32 (pin.toNat % 16))
         | .combined, true => (.outSet (pin.toNat / 16), BitVec.twoPow 32 (pin.toNat % 16))
         | .combined, false => (.outSet (pin.toNat / 16), BitVec.twoPow 32 (pin.toNat % 16 + 16))) ∧
      t.record = s.record ++ [⟨.fg, .transaction (.busSet reg word), none⟩] ∧
      (t.latch (pin.toNat / 16)).getLsbD (pin.toNat % 16) = level ∧
      (∀ o, o ≠ pin.toNat % 16 →
        (t.latch (pin.toNat / 16)).getLsbD o = (s.latch (pin.toNat / 16)).getLsbD o) ∧
      (∀ p, p ≠ pin.toNat / 16 → t.latch p = s.latch p) ∧
      (∀ q, q ≠ .pinIn (pin.toNat / 16) → t.peek q = s.peek q) ∧
      (∀ o, o ≠ pin.toNat % 16 →
        (t.peek (.pinIn (pin.toNat / 16))).getLsbD o = (s.peek (.pinIn (pin.toNat / 16))).getLsbD o) ∧
      (t.peek (.pinIn (pin.toNat / 16))).getLsbD (pin.toNat % 16) =
        (if (s.loopBack (pin.toNat / 16)).getLsbD (pin.toNat % 16) then level
         else (s.peek (.pinIn (pin.toNat / 16))).getLsbD (pin.toNat % 16)) ∧
      t.seq = .idle ∧ t.busy = false ∧ t.status = 0 ∧ t.dout = 0

/-- R104: "`HIGH pin` behaves exactly as `SET pin, 1` and `LOW pin` exactly as `SET pin, 0`", in every state after acceptance;
at acceptance only the latched word differs. -/
def Obligations.HighAndLowAreSet : Prop :=
  ∀ (pin : Byte) (s : State),
    (s.seq ≠ .idle → exec (.high pin) s = exec (.set pin true) s ∧ exec (.low pin) s = exec (.set pin false) s) ∧
    (∀ t, exec (.high pin) s = .next t → ∃ u, exec (.set pin true) s = .next u ∧ t = { u with cw := t.cw }) ∧
    (∀ t, exec (.low pin) s = .next t → ∃ u, exec (.set pin false) s = .next u ∧ t = { u with cw := t.cw })

/-- R131: `G1` reads `PIN_IN` once and answers the bit at the pin's offset; no register changes. -/
def Obligations.GetAnswersTheInputBit : Prop :=
  ∀ (pin : Byte) (s : State), s.seq = .g1 → s.fatal = false → s.inIsr = false →
    ∀ w : Word, w = s.peek (.pinIn (pin.toNat / 16)) →
      exec (.get pin) s = .next { s with
        rdata := w, draws := s.draws + 3,
        record := s.record ++ [⟨.fg, .transaction (.busGet (.pinIn (pin.toNat / 16))), some w⟩],
        status := 0, dout := if w.getLsbD (pin.toNat % 16) then 1 else 0, busy := false, seq := .idle,
        responses := s.responses ++ [⟨0, if w.getLsbD (pin.toNat % 16) then 1 else 0⟩] }

/-- R135: on a pin that is loop-back-wired, made an output by a completed CONFIGURE and has its port gate set, SET, then GET,
observes the level set, from the acceptance of the one to the response of the other, and ENV keeps the input bit at the latch
from the SET on (StepKeepsTheForm says so of every step). A SET ties no other pin, and no pin without those premises, whose input
bit stays ENV's (R134). When a later CONFIGURE of the pin completes and makes it an output again, ENV keeps the input bit at
the latch again. The premises as data are log 25. -/
def Obligations.LoopBackReadsTheLevelSet : Prop :=
  (∀ (pin : Byte) (level : Bool) (s : State), s.formed → s.mayAccept = true → pin ≠ 0xFF →
    s.cfg.ports.getLsbD (pin.toNat / 16) = true →
    ∃ t, execRun (.set pin level) 3 s = .next t ∧
      (∀ p o, (p ≠ pin.toNat / 16 ∨ o ≠ pin.toNat % 16) → (t.tied p).getLsbD o = (s.tied p).getLsbD o) ∧
      ((Cells.read s.wired (pin.toNat / 16)).getLsbD (pin.toNat % 16) = true ∧
        (Cells.read s.asOutput (pin.toNat / 16)).getLsbD (pin.toNat % 16) = true ∧
        s.peek .clkenGpio &&& s.cfg.mask.gate (pin.toNat / 16) ≠ 0 →
        (t.tied (pin.toNat / 16)).getLsbD (pin.toNat % 16) = true ∧
        (t.peek (.pinIn (pin.toNat / 16))).getLsbD (pin.toNat % 16) = level ∧
        ∃ u, execRun (.get pin) 3 t = .next u ∧ u.status = 0 ∧ u.dout = if level then 1 else 0) ∧
      (¬ ((Cells.read s.wired (pin.toNat / 16)).getLsbD (pin.toNat % 16) = true ∧
        (Cells.read s.asOutput (pin.toNat / 16)).getLsbD (pin.toNat % 16) = true ∧
        s.peek .clkenGpio &&& s.cfg.mask.gate (pin.toNat / 16) ≠ 0) →
        (t.tied (pin.toNat / 16)).getLsbD (pin.toNat % 16) = false ∧ ∀ q, t.peek q = s.peek q)) ∧
  ∀ (pin mode pull : Byte) (s : State), s.formed → s.fatal = false → s.inIsr = false →
    (s.cfg.pinLayout = .packed4 ∧ s.seq = .p3 ∨ s.cfg.pinLayout = .split ∧ s.seq = .p7) →
    mode ∈ s.cfg.outputModes → (Cells.read s.wired (pin.toNat / 16)).getLsbD (pin.toNat % 16) = true →
    (Cells.read s.driven (pin.toNat / 16)).getLsbD (pin.toNat % 16) = true →
    s.peek .clkenGpio &&& s.cfg.mask.gate (pin.toNat / 16) ≠ 0 →
    ∃ t, exec (.configure pin mode pull) s = .next t ∧ (t.tied (pin.toNat / 16)).getLsbD (pin.toNat % 16) = true ∧
      (t.peek (.pinIn (pin.toNat / 16))).getLsbD (pin.toNat % 16) = (t.latch (pin.toNat / 16)).getLsbD (pin.toNat % 16)

/-- The frame of CONFIGURE (R68, R122): the registers its micro-step writes, named from the layout, and the command interface;
every other register, every latch and the rest of the state is unchanged. That the pin named counts as no output from `P2` to the
last micro-step, and that the input bits of tied pins move at `P1` and at the last micro-step and nowhere else, is the model's
choice about the premises of R135: log 25. -/
def Obligations.ConfigureFrame : Prop :=
  ∀ (pin mode pull : Byte) (s t : State), exec (.configure pin mode pull) s = .next t →
    keptByCommands s t ∧ keptUnits s t ∧ keptLatches s t ∧ (s.seq ≠ .p0 → keptFatal s t) ∧
    (s.seq ≠ .idle → ¬ (s.cfg.pinLayout = .packed4 ∧ s.seq = .p3) → ¬ (s.cfg.pinLayout = .split ∧ s.seq = .p7) →
      keptResponse s t) ∧
    (∀ p, t.latch p = s.latch p) ∧ t.driven = s.driven ∧
    (s.seq ≠ .p2 → ¬ (s.cfg.pinLayout = .packed4 ∧ s.seq = .p3) → ¬ (s.cfg.pinLayout = .split ∧ s.seq = .p7) →
      t.asOutput = s.asOutput ∧ (s.seq ≠ .p1 → ∀ p, t.tied p = s.tied p)) ∧
    (s.formed → ∀ p o, (p ≠ portOf pin ∨ o ≠ offsetOf pin) →
      (Cells.read t.asOutput p).getLsbD o = (Cells.read s.asOutput p).getLsbD o ∧
      (s.seq ≠ .p1 → (t.tied p).getLsbD o = (s.tied p).getLsbD o ∧
        (t.peek (.pinIn p)).getLsbD o = (s.peek (.pinIn p)).getLsbD o)) ∧
    (s.formed → keptInputs s t) ∧
    (∀ q, ¬ (s.seq = .p1 ∧ (q = .clkenGpio ∨ ∃ p, q = .pinIn p)) →
      ¬ (s.cfg.pinLayout = .packed4 ∧ (s.seq = .p2 ∨ s.seq = .p3) ∧ q = packedReg pin) →
      ¬ (s.cfg.pinLayout = .split ∧ (s.seq = .p2 ∨ s.seq = .p3) ∧ q = .ctlA (portOf pin)) →
      ¬ (s.cfg.pinLayout = .split ∧ (s.seq = .p4 ∨ s.seq = .p5) ∧ q = .ctlB (portOf pin)) →
      ¬ (s.cfg.pinLayout = .split ∧ (s.seq = .p6 ∨ s.seq = .p7) ∧ q = .outType (portOf pin)) →
      ¬ (s.cfg.pinLayout = .packed4 ∧ s.seq = .p3 ∧ q = .pinIn (portOf pin)) →
      ¬ (s.cfg.pinLayout = .split ∧ s.seq = .p7 ∧ q = .pinIn (portOf pin)) →
      t.peek q = s.peek q)

/-- The frame of SET, HIGH, LOW and GET (R129, R131, R136): no surface register (ENV's input bit of the driven pin follows under
R135, log 25), no latch but the driven pin's (none for GET), no pin tied or untied but the driven one, and nothing of the other
units. -/
def Obligations.PinAccessFrame : Prop :=
  ∀ (i : Instr) (pin : Byte) (level : Bool) (s t : State),
    (i = .set pin level ∨ i = .high pin ∨ i = .low pin ∨ i = .get pin) → exec i s = .next t →
    keptByCommands s t ∧ keptUnits s t ∧ keptLatches s t ∧ t.asOutput = s.asOutput ∧
    (∀ q, q ≠ .pinIn (portOf pin) → t.peek q = s.peek q) ∧
    (i = .get pin ∨ s.seq ≠ .w1 → t.surface = s.surface ∧ t.driven = s.driven) ∧
    (s.formed → ∀ p o, (p ≠ portOf pin ∨ o ≠ offsetOf pin) →
      (Cells.read t.driven p).getLsbD o = (Cells.read s.driven p).getLsbD o ∧ (t.tied p).getLsbD o = (s.tied p).getLsbD o ∧
      (t.peek (.pinIn p)).getLsbD o = (s.peek (.pinIn p)).getLsbD o) ∧
    (s.seq ≠ firstStep i → keptFatal s t) ∧ (s.seq ≠ .idle → s.seq ≠ .w1 → s.seq ≠ .g1 → keptResponse s t) ∧
    (i = .get pin ∨ s.seq ≠ .w1 → t.olat = s.olat) ∧
    (∀ p, p ≠ portOf pin → t.latch p = s.latch p) ∧
    (s.formed → ∀ o, o ≠ offsetOf pin → (t.latch (portOf pin)).getLsbD o = (s.latch (portOf pin)).getLsbD o)

/-! ### DEVICEINIT (41_clock, 42_tick section 1) -/

/-- R142, R171: each micro-step issues the one operation of its row, with that operation's own effect, and goes to the row's
successor; a waiting step stays while its condition fails; `S7b` and `T7` move `LIFE` (R156, R178), `T7` responds. -/
def Obligations.DeviceinitFollowsTheProgram : Prop :=
  ∀ (s : State), s.fatal = false → s.inIsr = false → ∀ row ∈ initProgram s.cfg, s.seq = row.at_ →
    ∃ t u, exec .deviceinit s = .next t ∧ exec row.op s = .next u ∧
      t.record = u.record ∧ t.surface = u.surface ∧ t.olat = u.olat ∧ t.activePsc = u.activePsc ∧
      t.hReg = u.hReg ∧ t.hIrq = u.hIrq ∧ t.hPrio = u.hPrio ∧ t.hEn = u.hEn ∧
      t.seq =
        (if (s.seq = .s3w ∧ s.peek .oscCtl &&& s.cfg.mask.oscRdy = 0) ∨
            (s.seq = .s4w ∧ s.peek .pllCtl &&& s.cfg.mask.pllRdy = 0) ∨
            (s.seq = .s6w ∧ s.peek .clkCfg &&& s.cfg.mask.sws ≠ s.cfg.val.swsPll)
          then s.seq else row.next) ∧
      t.life = (if s.seq = .s7b then .configured else if s.seq = .t7 then .running else s.life) ∧
      (s.seq = .t7 → t.busy = false ∧ t.status = 0 ∧ t.dout = 0 ∧ t.responses = s.responses ++ [⟨0, 0⟩]) ∧
      (s.seq ≠ .t7 → keptResponse s t)

/-- The frame of DEVICEINIT (R68, R81, R140): besides what DeviceinitFollowsTheProgram gives it, nothing; the fatal record, the
sleep registers and the latches of the ports are never touched. -/
def Obligations.DeviceinitFrame : Prop :=
  ∀ s t : State, exec .deviceinit s = .next t →
    keptByCommands s t ∧ keptPins s t ∧ keptLatches s t ∧ keptFatal s t ∧ t.slStart = s.slStart ∧
    t.slTarget = s.slTarget ∧ t.olat = s.olat ∧ (s.seq ≠ .t3 → t.activePsc = s.activePsc) ∧
    (∀ q, (∀ row ∈ initProgram s.cfg, row.at_ = s.seq → ∀ m, row.op ≠ .busSet q m ∧ row.op ≠ .busSetBits q m ∧
        row.op ≠ .busClearBits q m) → (s.seq = .t3 → q ≠ .timSr) → t.peek q = s.peek q)

/-- R158: a waiting step whose condition never holds repeats for ever: after any number of micro-steps nothing has moved, no flag
is set and no timeout comes; the run can be a hang (R264), whatever commands were to follow. R263: in a run that is fair in the
sense of `ENV_FAIR` (a), (b), (c), where the variant names it, the wait ends, unless the host resets the block first. What (a) to
(c) mean of an infinite run is the model's choice, log 33, and so is that a hang is any infinite run, fair or not, log 36. -/
def Obligations.UnansweredWaitNeverEnds : Prop :=
  (∀ (s₀ s : State) (issued rest : List (Word × TimeUnit)), Played s₀ issued s →
    s.responses.length < s₀.responses.length + issued.length → s.portReq = none → s.sequenced → s.inIsr = false →
    s.unanswered → RunHangs s₀ (issued ++ rest)) ∧
  (∀ r : Trace, r.runs → r.fair → (r.state 0).sequenced → (r.state 0).cfg.wf = true →
    ((r.state 0).cfg.envFair.oscReady = true → (r.state 0).seq = .s3w →
      (r.state 0).holds .oscCtl (r.state 0).cfg.mask.oscOn (r.state 0).cfg.mask.oscOn →
      ∃ k, (r.state (k + 1)).seq = .s4a ∨ r.move k = .reset) ∧
    ((r.state 0).cfg.envFair.pllReady = true → (r.state 0).seq = .s4w →
      (r.state 0).holds .pllCtl (r.state 0).cfg.mask.pllOn (r.state 0).cfg.mask.pllOn →
      ∃ k, (r.state (k + 1)).seq = .s5a ∨ r.move k = .reset) ∧
    ((r.state 0).cfg.envFair.switched = true → (r.state 0).seq = .s6w →
      (r.state 0).holds .clkCfg (r.state 0).cfg.mask.sw (r.state 0).cfg.val.swPll →
      ∃ k, (r.state (k + 1)).seq = .s7a ∨ r.move k = .reset)) ∧
  ∀ (n : Nat) (s : State), s.fatal = false → s.inIsr = false → s.unanswered →
    ∃ t, execRun .deviceinit n s = .next t ∧ t.seq = s.seq ∧ t.fatal = false ∧ t.busy = s.busy ∧
      t.life = s.life ∧ t.surface = s.surface ∧ t.record.length = s.record.length + n

/-- R140, R156, R178: with the two ready flags and the switch status up, DEVICEINIT from its acceptance completes in 28 steps,
whatever the registers held, with the post-state of both halves. -/
def Obligations.DeviceinitCompletesWhenReady : Prop :=
  ∀ s : State, s.formed → s.cfg.wf = true → s.mayAccept = true → s.life = .uninitialized →
    s.peek .oscCtl &&& s.cfg.mask.oscRdy ≠ 0 → s.peek .pllCtl &&& s.cfg.mask.pllRdy ≠ 0 →
    s.peek .clkCfg &&& s.cfg.mask.sws = s.cfg.val.swsPll →
    ∃ t, execRun .deviceinit 28 s = .next t ∧
      t.life = .running ∧ t.seq = .idle ∧ t.busy = false ∧ t.status = 0 ∧ t.dout = 0 ∧
      t.tick = s.tick ∧ t.wake = s.wake ∧ t.hReg = true ∧ t.hIrq = s.cfg.tickIrq ∧ t.hPrio = s.cfg.tickPrio ∧
      t.hEn = true ∧ t.peek .timPsc = s.cfg.val.timPsc ∧ t.peek .timArr = s.cfg.val.timArr ∧
      t.activePsc = s.cfg.val.timPsc ∧
      t.holds .clkenSyscfg s.cfg.mask.cgSyscfg s.cfg.mask.cgSyscfg ∧ t.holds .clkenPwr s.cfg.mask.cgPwr s.cfg.mask.cgPwr ∧
      t.holds .oscCtl s.cfg.mask.oscOn s.cfg.mask.oscOn ∧ t.holds .pllCtl s.cfg.mask.pllOn s.cfg.mask.pllOn ∧
      t.holds .pllCfg s.cfg.mask.pllOen s.cfg.mask.pllOen ∧ t.holds .clkenTim s.cfg.mask.cgTim s.cfg.mask.cgTim ∧
      t.holds .timCr s.cfg.mask.cen s.cfg.mask.cen ∧ t.holds .timDier s.cfg.mask.uie s.cfg.mask.uie ∧
      t.peek .flashAcr &&& s.cfg.mask.latency = s.cfg.val.latency ∧
      t.peek .pllCfg &&& s.cfg.mask.pllFields = s.cfg.val.pllFields ∧
      t.peek .clkCfg &&& s.cfg.mask.sw = s.cfg.val.swPll ∧
      t.peek .clkCfg &&& s.cfg.mask.ahbPre = s.cfg.val.ahbPre ∧
      t.peek .clkCfg &&& s.cfg.mask.apbPre = s.cfg.val.apbPre

/-- R141: a second DEVICEINIT answers REFUSED at once and changes no other state. That the model gives the hardware's answer and
not a refusal is log 12. -/
def Obligations.SecondDeviceinitAnswersRefused : Prop :=
  ∀ s : State, s.mayAccept = true → s.life ≠ .uninitialized →
    exec .deviceinit s = .next { s with
      cw := 0x60000000, din := s.dinIn, cmdValid := false, status := 2, dout := 0,
      responses := s.responses ++ [⟨2, 0⟩] }

/-! ### TICKISR, TICKS and SLEEPTICKS (42_tick) -/

/-- R179 to R182: four turns of the block from `I0` with `UIF = 1` count one tick, clear `UIF` and no other bit, set `WAKE` and
return; with `UIF = 0` one turn returns and nothing but the record and the response lines changes. -/
def Obligations.TickisrCountsOneTick : Prop :=
  ∀ (s : State) (rest : List Move), s.formed → s.inIsr = true → s.iseq = .i0 → s.halted = false → s.portReq = none →
    (s.uif = true → s.moves = [.core, .core, .core, .core] ++ rest →
      ∃ t, Host.Core.run Sys2Proof.core 4 s = .next t ∧
        t.tick = (s.tick + 1) % 2 ^ s.cfg.tickw ∧ t.wake = 1 ∧ t.inIsr = false ∧ t.iseq = .idle ∧
        t.peek .timSr = s.peek .timSr &&& ~~~s.cfg.mask.uif ∧ t.moves = rest) ∧
    (s.uif = false → s.moves = .core :: rest →
      ∃ d, step s = .next { s with
        moves := rest, inIsr := false, iseq := .idle, rdata := d, draws := s.draws + 3,
        record := s.record ++ [⟨.isr, .transaction (.busHasBits .timSr s.cfg.mask.uif), some 0⟩] })

/-- R179, R255: a service returns in at most four turns of the block, from every one of its steps. -/
def Obligations.TickisrReturnsWithinFourTurns : Prop :=
  ∀ (s : State) (rest : List Move), s.inIsr = true → s.halted = false → s.portReq = none →
    s.moves = [.core, .core, .core, .core] ++ rest →
    ∃ n t, n ≤ 4 ∧ Host.Core.run Sys2Proof.core n s = .next t ∧ t.inIsr = false ∧ t.iseq = .idle

/-- R81, R211, R219: a turn of the interrupt context touches only `TIM_SR`, `TICK`, `WAKE` (and its own step registers): the
foreground resumes where it stopped. -/
def Obligations.ServiceLeavesTheForegroundAlone : Prop :=
  ∀ (s t : State) (rest : List Move), s.inIsr = true → s.portReq = none → s.moves = .core :: rest → step s = .next t →
    t.seq = s.seq ∧ t.slStart = s.slStart ∧ t.slTarget = s.slTarget ∧ t.cw = s.cw ∧ t.din = s.din ∧
    t.cmdValid = s.cmdValid ∧ keptResponse s t ∧ keptFatal s t ∧ t.life = s.life ∧
    t.hReg = s.hReg ∧ t.hIrq = s.hIrq ∧ t.hPrio = s.hPrio ∧ t.hEn = s.hEn ∧ t.activePsc = s.activePsc ∧
    t.fgOps = s.fgOps ∧ t.olat = s.olat ∧ keptPins s t ∧ (∀ q, q ≠ .timSr → t.peek q = s.peek q)

/-- R219: no command writes `TICK`, `WAKE` or `TIM_SR`; the one change of `TIM_SR` under a command is the timer's own forced
update event at `T3` (R175). -/
def Obligations.CommandsNeverWriteTheTimerStatus : Prop :=
  ∀ (i : Instr) (s t : State), isCommand i = true → exec i s = .next t →
    t.tick = s.tick ∧ t.wake = s.wake ∧
    (t.peek .timSr = s.peek .timSr ∨
      i = .deviceinit ∧ s.seq = .t3 ∧ (s.formed → t.peek .timSr = s.peek .timSr ||| s.cfg.mask.uif))

/-- R184: TICKS answers `zext_64(TICK) * 1000`, modulo `2^64`, and changes nothing but the command interface. -/
def Obligations.TicksAnswersMicroseconds : Prop :=
  ∀ s : State, s.seq = .k0 → s.fatal = false → s.inIsr = false →
    exec .ticks s = .next { s with
      status := 0, dout := BitVec.ofNat 64 s.tick * 1000, busy := false, seq := .idle,
      responses := s.responses ++ [⟨0, BitVec.ofNat 64 s.tick * 1000⟩] }

/-- R186: `L0` samples `SL_TARGET`, the least number of ticks that is not below the duration, and `SL_START`. -/
def Obligations.SleepSamplesTheCeiling : Prop :=
  ∀ (d : TimeUnit) (s : State), s.seq = .l0 → s.fatal = false → s.inIsr = false →
    ∃ n : Nat,
      exec (.sleepticks d) s = .next { s with slTarget := n, slStart := s.tick, seq := .l1 } ∧
      d.toNat ≤ n * 1000 ∧ (∀ k, d.toNat ≤ k * 1000 → n ≤ k)

/-- R187: `L1` spins while the unsigned difference is below the target and else responds; a target of `2^TICKW` or more never
completes. -/
def Obligations.SleepSpinsOnTheUnsignedDifference : Prop :=
  ∀ (d : TimeUnit) (s : State), s.seq = .l1 → s.fatal = false → s.inIsr = false →
    ((((s.tick : Int) - (s.slStart : Int)) % (2 : Int) ^ s.cfg.tickw < (s.slTarget : Int) →
      exec (.sleepticks d) s = .next s) ∧
     ((s.slTarget : Int) ≤ ((s.tick : Int) - (s.slStart : Int)) % (2 : Int) ^ s.cfg.tickw →
      exec (.sleepticks d) s = .next { s with
        status := 0, dout := 0, busy := false, seq := .idle, responses := s.responses ++ [⟨0, 0⟩] })) ∧
    (2 ^ s.cfg.tickw ≤ s.slTarget → exec (.sleepticks d) s = .next s)

/-- R188 (a): when SLEEPTICKS completes, at least `SL_TARGET` services that counted a tick have happened since the state in which
`L0` was due, whatever ENV, the host (but for reset) and the interrupt did in between. -/
def Obligations.SleepIsNeverShort : Prop :=
  ∀ (n : Nat) (s t u : State), s.formed → s.sequenced → s.staged → s.counted → s.seq = .l0 → Move.reset ∉ s.moves →
    Host.Core.run Sys2Proof.core n s = .next t → t.responses = s.responses → step t = .next u →
    u.responses ≠ t.responses →
    u.status = 0 ∧ sleepTarget s.din ≤ u.services - s.services

/-- R191: fewer than `2^TICKW` increments between two readings are counted exactly by the unsigned difference. -/
def Obligations.DifferenceCountsTheIncrements : Prop :=
  ∀ (w t n : Nat), t < 2 ^ w → n < 2 ^ w → elapsed w ((tickSucc w)^[n] t) t = n

/-- R21, R22, R181, R182: over every step, `TICK` changes only at `I2` of a service, by one modulo `2^TICKW`, or at reset; `WAKE`
only at `I3` of a service, to 1, or to 0 by the host where it may, or at reset. -/
def Obligations.OnlyTheServiceWritesTickAndWake : Prop :=
  ∀ s t : State, step s = .next t →
    (t.tick ≠ s.tick →
      (s.inIsr = true ∧ s.iseq = .i2 ∧ t.tick = (s.tick + 1) % 2 ^ s.cfg.tickw) ∨
      (s.moves.head? = some .reset ∧ t.tick = 0)) ∧
    (t.wake ≠ s.wake →
      (s.inIsr = true ∧ s.iseq = .i3 ∧ t.wake = 1) ∨
      (s.moves.head? = some .clearWake ∧ s.cfg.hostMayClearWake = true ∧ t.wake = 0) ∨
      (s.moves.head? = some .reset ∧ t.wake = 0))

/-! ### The interrupt (60_exceptions) and ENV (10_state) -/

/-- R210, R211: entry is enabled exactly under the six conditions; its effect is `IN_ISR <- 1`, `ISEQ <- I0` and nothing else. Over
every step, `IN_ISR` rises only by such an entry (the move, or the default where no move is listed, log 2). R216: a service invoked
with the flag clear is a stutter: it is over in its step, counts no tick and changes no observable of a run. That the record holds
its test of the flag beside an entry for the invocation is the model's choice: log 31. -/
def Obligations.InterruptEntryUnderSixConditions : Prop :=
  (∀ s t : State, step s = .next t → s.inIsr = false → t.inIsr = true →
    t = { s with moves := s.moves.tail, inIsr := true, iseq := .i0 } ∧
    (s.moves = [] ∨ s.moves.head? = some .enter) ∧ s.hReg = true ∧ s.hEn = true ∧ s.fatal = false ∧
    s.peek .timSr &&& s.cfg.mask.uif ≠ 0 ∧ s.peek .timDier &&& s.cfg.mask.uie ≠ 0) ∧
  (∀ (s : State) (rest : List Move), s.portReq = none → s.moves = .enter :: rest →
    ((s.hReg = true ∧ s.hEn = true ∧ s.peek .timSr &&& s.cfg.mask.uif ≠ 0 ∧ s.peek .timDier &&& s.cfg.mask.uie ≠ 0 ∧
      s.inIsr = false ∧ s.fatal = false) →
        step s = .next { s with moves := rest, inIsr := true, iseq := .i0 }) ∧
    (¬ (s.hReg = true ∧ s.hEn = true ∧ s.peek .timSr &&& s.cfg.mask.uif ≠ 0 ∧
        s.peek .timDier &&& s.cfg.mask.uie ≠ 0 ∧ s.inIsr = false ∧ s.fatal = false) →
        step s = .next { s with moves := rest })) ∧
  ∀ (s : State) (rest : List Move), s.portReq = none → s.moves = .spurious :: rest →
    ((s.hReg = true ∧ s.hEn = true ∧ s.peek .timSr &&& s.cfg.mask.uif = 0 ∧ s.inIsr = false ∧ s.fatal = false) →
      ∃ t, step s = .next t ∧
        t = { s with
          moves := rest, iseq := .idle, rdata := t.rdata, draws := s.draws + 3,
          record := s.record ++
            [⟨.env, .env .spurious, none⟩, ⟨.isr, .transaction (.busHasBits .timSr s.cfg.mask.uif), some 0⟩] } ∧
        ∀ s₀ : State, s₀.record.length ≤ s.record.length → State.observe s₀ t = State.observe s₀ s) ∧
    (¬ (s.hReg = true ∧ s.hEn = true ∧ s.peek .timSr &&& s.cfg.mask.uif = 0 ∧ s.inIsr = false ∧ s.fatal = false) →
      step s = .next { s with moves := rest })

/-- The moves of ENV and of the host and what they leave alone. R53 to R55: `OSC_RDY`, `PLL_RDY` and `SWS` take any value, nothing
else changes (that they may at any time is log 20). R57: the input bits of a present port take any value, but for the tied pins
(R135, log 25). R56 (a): a periodic update event sets `UIF` and loads the prescaler while `CG_TIM = 1` and `CEN = 1`; else there is
none. R90, R265 (1): an offer sets `CMD_VALID` and the two inputs (that it overwrites an earlier one is log 23). R22, R265 (3): the
host's clearing makes `WAKE` 0 where `HOST_MAY_CLEAR_WAKE`. Each that happens is entered in the record (R82, log 29). -/
def Obligations.PeriodicUpdateEvents : Prop :=
  (∀ (s : State) (rest : List Move) (m : Move) (r : Reg) (mask w : Word), s.formed → s.portReq = none →
    s.moves = m :: rest →
    ((∃ b, m = .oscReady b ∧ r = .oscCtl ∧ mask = s.cfg.mask.oscRdy ∧ w = if b then mask else 0) ∨
     (∃ b, m = .pllReady b ∧ r = .pllCtl ∧ mask = s.cfg.mask.pllRdy ∧ w = if b then mask else 0) ∨
     (m = .swStatus w ∧ r = .clkCfg ∧ mask = s.cfg.mask.sws) ∨
     (∃ p, m = .pinInput p w ∧ s.cfg.ports.getLsbD p = true ∧ r = .pinIn p ∧ mask = ~~~((s.tied p).setWidth 32))) →
    ∃ t, step s = .next t ∧ t.peek r &&& mask = w &&& mask ∧ t.peek r &&& ~~~mask = s.peek r &&& ~~~mask ∧
      (∀ q, q ≠ r → t.peek q = s.peek q) ∧
      t = { s with moves := rest, surface := t.surface, record := s.record ++ [⟨.env, .env m, none⟩] }) ∧
  (∀ (s : State) (rest : List Move) (p : Nat) (w : Word), s.portReq = none → s.moves = .pinInput p w :: rest →
    s.cfg.ports.getLsbD p = false → step s = .next { s with moves := rest }) ∧
  (∀ (s : State) (rest : List Move), s.formed → s.portReq = none → s.moves = .updateEvent :: rest →
    (s.peek .clkenTim &&& s.cfg.mask.cgTim ≠ 0 ∧ s.peek .timCr &&& s.cfg.mask.cen ≠ 0 →
      ∃ t, step s = .next t ∧ t.peek .timSr = s.peek .timSr ||| s.cfg.mask.uif ∧
        (∀ q, q ≠ .timSr → t.peek q = s.peek q) ∧
        t = { s with
          moves := rest, surface := t.surface, activePsc := s.peek .timPsc,
          record := s.record ++ [⟨.env, .env .updateEvent, none⟩] }) ∧
    (¬ (s.peek .clkenTim &&& s.cfg.mask.cgTim ≠ 0 ∧ s.peek .timCr &&& s.cfg.mask.cen ≠ 0) →
      step s = .next { s with moves := rest })) ∧
  (∀ (s : State) (rest : List Move) (cw : Word) (din : TimeUnit), s.portReq = none → s.moves = .offer cw din :: rest →
    step s = .next { s with
      moves := rest, cmdValid := true, cwIn := cw, dinIn := din,
      record := s.record ++ [⟨.env, .env (.offer cw din), none⟩] }) ∧
  ∀ (s : State) (rest : List Move), s.portReq = none → s.moves = .clearWake :: rest →
    (s.cfg.hostMayClearWake = true →
      step s = .next { s with moves := rest, wake := 0, record := s.record ++ [⟨.env, .env .clearWake, none⟩] }) ∧
    (s.cfg.hostMayClearWake = false → step s = .next { s with moves := rest })

/-- R6: over every step, the variant record never changes. -/
def Obligations.VariantNeverChanges : Prop :=
  ∀ s t : State, step s = .next t → t.cfg = s.cfg

/-- R25: over every step from a state that meets the lifecycle invariant, `LIFE` moves only to `Configured` at `S7b`, to `Running`
at `T7`, or back at reset. -/
def Obligations.LifecycleTransitions : Prop :=
  ∀ s t : State, s.staged → step s = .next t → t.life ≠ s.life →
    (s.life = .uninitialized ∧ s.seq = .s7b ∧ t.life = .configured) ∨
    (s.life = .configured ∧ s.seq = .t7 ∧ t.life = .running) ∨
    (s.moves.head? = some .reset ∧ t.life = .uninitialized)

/-! ### Reset and the invariants -/

/-- R58, R240: the values reset leaves, at power-up and at a reset in mid run. -/
def Obligations.ResetLeavesTheValuesOfTheTable : Prop :=
  ∀ t : State,
    (t = State.reset ∨ ∃ s rest, s.portReq = none ∧ s.moves = .reset :: rest ∧ step s = .next t) →
    t.tick = 0 ∧ t.wake = 0 ∧ t.life = .uninitialized ∧ t.seq = .idle ∧ t.iseq = .idle ∧ t.fatal = false ∧
    t.inIsr = false ∧ t.busy = false ∧ t.status = 0 ∧ t.dout = 0 ∧ t.hReg = false ∧ t.hEn = false

/-- The state after reset meets every invariant below. -/
def Obligations.ResetMeetsTheInvariants : Prop :=
  State.reset.formed ∧ State.reset.sequenced ∧ State.reset.staged ∧ State.reset.broughtUp ∧
  State.reset.counted ∧ State.reset.ordered

/-- Every step keeps the canonical form of the lists (log 4), `TICK` and `SL_START` within `TICKW` bits (R21, R23), and the input
bits of the tied pins equal to their latches (R135, log 25). -/
def Obligations.StepKeepsTheForm : Prop :=
  ∀ s t : State, s.formed → step s = .next t → t.formed

/-- Every step keeps the agreement of the step registers: R27, R28, R29, R94, R201, and `SEQ` inside the command in `CW` (R26). -/
def Obligations.StepKeepsTheSequencer : Prop :=
  ∀ s t : State, s.sequenced → step s = .next t → t.sequenced

/-- Every step keeps the lifecycle's agreement with the sequencer and the interrupt: R25, R189, R210. -/
def Obligations.StepKeepsTheLifecycle : Prop :=
  ∀ s t : State, s.staged → step s = .next t → t.staged

/-- R156, R178: every step keeps what bring-up and timer initialisation have established; from `Running` on, every field they wrote
holds its value, whatever ENV, the host and the pin commands do. -/
def Obligations.StepKeepsTheBringUp : Prop :=
  ∀ s t : State, s.formed → s.staged → s.broughtUp → step s = .next t → t.broughtUp

/-- R183: "`TICK` (modulo `2^TICKW`) equals the number of TICKISR services since reset that found `UIF = 1`": kept by every
step. -/
def Obligations.StepKeepsTheTickCount : Prop :=
  ∀ s t : State, s.sequenced → s.staged → s.counted → step s = .next t → t.counted

/-- R157: the order law, kept by every step. -/
def Obligations.StepKeepsTheBringUpOrder : Prop :=
  ∀ s t : State, s.portReq = none → s.ordered → step s = .next t → t.ordered

/-- No run gets stuck: from a state that meets the invariants a step answers a next state, but for the halted state (R203) and the
refusal of R128. -/
def Obligations.StepNeverGetsStuck : Prop :=
  ∀ s : State, s.sequenced → s.portReq = none →
    (∃ t, step s = .next t) ∨ (s.fatal = true ∧ step s = .fault .halted) ∨
    (s.seq = .p0 ∧ step s = .refused .outsideEnumeration)
end

