-- ==== Sys2Proof/Laws/Cells.lean ====
section
/-! SUPPORT. The laws of values by key: a read after a write, and that every operation keeps the canonical form. -/
namespace Sys2Proof.Machine

variable {w : Nat}

@[simp] theorem Cells.read_nil (a : Nat) : Cells.read ([] : Cells w) a = 0 := rfl

/-- Below every listed key nothing is listed. -/
theorem Cells.read_below (m : Cells w) (a : Nat) (h : m.all (fun c => decide (a < c.1)) = true) :
    Cells.read m a = 0 := by
  induction m with
  | nil => rfl
  | cons c rest ih =>
    obtain ⟨b, x⟩ := c
    simp only [List.all_cons, Bool.and_eq_true, decide_eq_true_eq] at h
    rw [Cells.read, if_neg (by omega), ih h.2]

/-- Keys below a bound: the bound can be lowered. -/
theorem Cells.above_trans (m : Cells w) (a b : Nat) (hab : a < b) (h : m.all (fun c => decide (b < c.1)) = true) :
    m.all (fun c => decide (a < c.1)) = true := by
  simp only [List.all_eq_true, decide_eq_true_eq] at h ⊢
  intro c hc
  have := h c hc
  omega

/-- A write lists no key but its own and the old ones. -/
theorem Cells.write_above (m : Cells w) (a b : Nat) (v : BitVec w) (hb : b < a)
    (h : m.all (fun c => decide (b < c.1)) = true) :
    (Cells.write m a v).all (fun c => decide (b < c.1)) = true := by
  induction m with
  | nil =>
    unfold Cells.write
    split <;> simp [hb]
  | cons c rest ih =>
    obtain ⟨d, x⟩ := c
    simp only [List.all_cons, Bool.and_eq_true, decide_eq_true_eq] at h
    unfold Cells.write
    repeat' split
    all_goals simp [h.1, h.2, hb]
    all_goals simpa using ih h.2

/-- The canonical form of a list with a first entry. -/
theorem Cells.wf_cons (a : Nat) (v : BitVec w) (rest : Cells w) :
    Cells.wf ((a, v) :: rest) = true ↔
      v ≠ 0 ∧ rest.all (fun c => decide (a < c.1)) = true ∧ Cells.wf rest = true := by
  rw [Cells.wf, Bool.and_eq_true, Bool.and_eq_true, bne_iff_ne, and_assoc]

/-- A write keeps the canonical form. -/
theorem Cells.write_wf (m : Cells w) (a : Nat) (v : BitVec w) (h : Cells.wf m = true) :
    Cells.wf (Cells.write m a v) = true := by
  induction m with
  | nil =>
    unfold Cells.write
    split
    · rfl
    · exact (Cells.wf_cons _ _ _).2 ⟨‹_›, rfl, rfl⟩
  | cons c rest ih =>
    obtain ⟨b, x⟩ := c
    have hbx := (Cells.wf_cons _ _ _).1 h
    obtain ⟨hx, hab, hr⟩ := hbx
    unfold Cells.write
    split
    · rename_i hlt
      split
      · exact h
      · refine (Cells.wf_cons _ _ _).2 ⟨‹_›, ?_, h⟩
        rw [List.all_cons, Bool.and_eq_true]
        exact ⟨decide_eq_true hlt, Cells.above_trans rest a b hlt hab⟩
    · rename_i hlt
      split
      · rename_i heq
        subst heq
        split
        · exact hr
        · exact (Cells.wf_cons _ _ _).2 ⟨‹_›, hab, hr⟩
      · rename_i hne
        exact (Cells.wf_cons _ _ _).2 ⟨hx, Cells.write_above rest a b v (by omega) hab, ih hr⟩

/-- Reading the key written gives the value written. -/
@[simp] theorem Cells.read_write_same (m : Cells w) (a : Nat) (v : BitVec w) (h : Cells.wf m = true) :
    Cells.read (Cells.write m a v) a = v := by
  induction m with
  | nil =>
    unfold Cells.write
    split <;> simp_all [Cells.read]
  | cons c rest ih =>
    obtain ⟨b, x⟩ := c
    simp only [Cells.wf, Bool.and_eq_true] at h
    unfold Cells.write
    split
    · rename_i hlt
      split
      · rename_i hv
        rw [Cells.read, if_neg (by omega), Cells.read_below rest a (Cells.above_trans rest a b hlt h.1.2), hv]
      · simp [Cells.read]
    · split
      · rename_i heq
        subst heq
        split
        · rename_i hv
          rw [Cells.read_below rest a h.1.2, hv]
        · simp [Cells.read]
      · rename_i hne
        rw [Cells.read, if_neg hne, ih h.2]

/-- A write leaves every other key alone. -/
theorem Cells.read_write_other (m : Cells w) (a b : Nat) (v : BitVec w) (h : b ≠ a) :
    Cells.read (Cells.write m a v) b = Cells.read m b := by
  induction m with
  | nil =>
    unfold Cells.write
    split <;> simp [Cells.read, h]
  | cons c rest ih =>
    obtain ⟨d, x⟩ := c
    unfold Cells.write
    repeat' split
    all_goals simp_all [Cells.read]

/-- Any contents become canonical. -/
theorem Cells.normal_wf (m : List (Nat × BitVec w)) : Cells.wf (Cells.normal m) = true := by
  induction m with
  | nil => rfl
  | cons c rest ih => exact Cells.write_wf _ _ _ ih

/-- Equal readings of canonical contents are equal contents. -/
theorem Cells.ext_read (m n : Cells w) (hm : Cells.wf m = true) (hn : Cells.wf n = true)
    (h : ∀ a, Cells.read m a = Cells.read n a) : m = n := by
  induction m generalizing n with
  | nil =>
    cases n with
    | nil => rfl
    | cons c rest =>
      have := h c.1
      simp [Cells.wf] at hn
      simp [Cells.read] at this
      exact absurd this.symm hn.1.1
  | cons c rest ih =>
    obtain ⟨a, x⟩ := c
    simp only [Cells.wf, Bool.and_eq_true, bne_iff_ne, ne_eq] at hm
    cases n with
    | nil =>
      have := h a
      simp [Cells.read] at this
      exact absurd this hm.1.1
    | cons d rest' =>
      obtain ⟨b, y⟩ := d
      simp only [Cells.wf, Bool.and_eq_true, bne_iff_ne, ne_eq] at hn
      have hab : a = b := by
        rcases Nat.lt_trichotomy a b with hlt | heq | hgt
        · have h1 := h a
          simp only [Cells.read, if_pos, if_neg (Nat.ne_of_lt hlt)] at h1
          rw [Cells.read_below rest' a (Cells.above_trans rest' a b hlt hn.1.2)] at h1
          exact absurd h1 hm.1.1
        · exact heq
        · have h1 := h b
          simp only [Cells.read, if_pos, if_neg (Nat.ne_of_lt hgt)] at h1
          rw [Cells.read_below rest b (Cells.above_trans rest b a hgt hm.1.2)] at h1
          exact absurd h1.symm hn.1.1
      subst hab
      have hxy : x = y := by simpa [Cells.read] using h a
      subst hxy
      rw [ih rest' hm.2 hn.2 ?_]
      intro k
      by_cases hk : k = a
      · subst hk
        rw [Cells.read_below rest k hm.1.2, Cells.read_below rest' k hn.1.2]
      · simpa [Cells.read, hk] using h k

end Sys2Proof.Machine
end

