-- ==== Sys2Proof/Laws/State.lean ====
section
/-! SUPPORT. One lemma for each field and each update of State, true by rfl, so that no later proof unfolds a record update. -/
namespace Sys2Proof.Machine

/-! ### `State.goto` -/

@[simp] theorem State.goto_cfg (s : State) (q : Seq) : (s.goto q).cfg = s.cfg := rfl
@[simp] theorem State.goto_tick (s : State) (q : Seq) : (s.goto q).tick = s.tick := rfl
@[simp] theorem State.goto_wake (s : State) (q : Seq) : (s.goto q).wake = s.wake := rfl
@[simp] theorem State.goto_slStart (s : State) (q : Seq) : (s.goto q).slStart = s.slStart := rfl
@[simp] theorem State.goto_slTarget (s : State) (q : Seq) : (s.goto q).slTarget = s.slTarget := rfl
@[simp] theorem State.goto_life (s : State) (q : Seq) : (s.goto q).life = s.life := rfl
@[simp] theorem State.goto_seq (s : State) (q : Seq) : (s.goto q).seq = q := rfl
@[simp] theorem State.goto_iseq (s : State) (q : Seq) : (s.goto q).iseq = s.iseq := rfl
@[simp] theorem State.goto_fatal (s : State) (q : Seq) : (s.goto q).fatal = s.fatal := rfl
@[simp] theorem State.goto_fcause (s : State) (q : Seq) : (s.goto q).fcause = s.fcause := rfl
@[simp] theorem State.goto_fval (s : State) (q : Seq) : (s.goto q).fval = s.fval := rfl
@[simp] theorem State.goto_inIsr (s : State) (q : Seq) : (s.goto q).inIsr = s.inIsr := rfl
@[simp] theorem State.goto_cw (s : State) (q : Seq) : (s.goto q).cw = s.cw := rfl
@[simp] theorem State.goto_din (s : State) (q : Seq) : (s.goto q).din = s.din := rfl
@[simp] theorem State.goto_dout (s : State) (q : Seq) : (s.goto q).dout = s.dout := rfl
@[simp] theorem State.goto_status (s : State) (q : Seq) : (s.goto q).status = s.status := rfl
@[simp] theorem State.goto_busy (s : State) (q : Seq) : (s.goto q).busy = s.busy := rfl
@[simp] theorem State.goto_hReg (s : State) (q : Seq) : (s.goto q).hReg = s.hReg := rfl
@[simp] theorem State.goto_hIrq (s : State) (q : Seq) : (s.goto q).hIrq = s.hIrq := rfl
@[simp] theorem State.goto_hPrio (s : State) (q : Seq) : (s.goto q).hPrio = s.hPrio := rfl
@[simp] theorem State.goto_hEn (s : State) (q : Seq) : (s.goto q).hEn = s.hEn := rfl
@[simp] theorem State.goto_activePsc (s : State) (q : Seq) : (s.goto q).activePsc = s.activePsc := rfl
@[simp] theorem State.goto_olat (s : State) (q : Seq) : (s.goto q).olat = s.olat := rfl
@[simp] theorem State.goto_surface (s : State) (q : Seq) : (s.goto q).surface = s.surface := rfl
@[simp] theorem State.goto_cmdValid (s : State) (q : Seq) : (s.goto q).cmdValid = s.cmdValid := rfl
@[simp] theorem State.goto_cwIn (s : State) (q : Seq) : (s.goto q).cwIn = s.cwIn := rfl
@[simp] theorem State.goto_dinIn (s : State) (q : Seq) : (s.goto q).dinIn = s.dinIn := rfl
@[simp] theorem State.goto_portReq (s : State) (q : Seq) : (s.goto q).portReq = s.portReq := rfl
@[simp] theorem State.goto_rdata (s : State) (q : Seq) : (s.goto q).rdata = s.rdata := rfl
@[simp] theorem State.goto_wired (s : State) (q : Seq) : (s.goto q).wired = s.wired := rfl
@[simp] theorem State.goto_asOutput (s : State) (q : Seq) : (s.goto q).asOutput = s.asOutput := rfl
@[simp] theorem State.goto_driven (s : State) (q : Seq) : (s.goto q).driven = s.driven := rfl
@[simp] theorem State.goto_moves (s : State) (q : Seq) : (s.goto q).moves = s.moves := rfl
@[simp] theorem State.goto_draws (s : State) (q : Seq) : (s.goto q).draws = s.draws := rfl
@[simp] theorem State.goto_record (s : State) (q : Seq) : (s.goto q).record = s.record := rfl
@[simp] theorem State.goto_responses (s : State) (q : Seq) : (s.goto q).responses = s.responses := rfl

/-! ### `State.respond` -/

@[simp] theorem State.respond_cfg (s : State) (c : BitVec 2) (d : TimeUnit) : (s.respond c d).cfg = s.cfg := rfl
@[simp] theorem State.respond_tick (s : State) (c : BitVec 2) (d : TimeUnit) : (s.respond c d).tick = s.tick := rfl
@[simp] theorem State.respond_wake (s : State) (c : BitVec 2) (d : TimeUnit) : (s.respond c d).wake = s.wake := rfl
@[simp] theorem State.respond_slStart (s : State) (c : BitVec 2) (d : TimeUnit) : (s.respond c d).slStart = s.slStart := rfl
@[simp] theorem State.respond_slTarget (s : State) (c : BitVec 2) (d : TimeUnit) : (s.respond c d).slTarget = s.slTarget := rfl
@[simp] theorem State.respond_life (s : State) (c : BitVec 2) (d : TimeUnit) : (s.respond c d).life = s.life := rfl
@[simp] theorem State.respond_seq (s : State) (c : BitVec 2) (d : TimeUnit) : (s.respond c d).seq = .idle := rfl
@[simp] theorem State.respond_iseq (s : State) (c : BitVec 2) (d : TimeUnit) : (s.respond c d).iseq = s.iseq := rfl
@[simp] theorem State.respond_fatal (s : State) (c : BitVec 2) (d : TimeUnit) : (s.respond c d).fatal = s.fatal := rfl
@[simp] theorem State.respond_fcause (s : State) (c : BitVec 2) (d : TimeUnit) : (s.respond c d).fcause = s.fcause := rfl
@[simp] theorem State.respond_fval (s : State) (c : BitVec 2) (d : TimeUnit) : (s.respond c d).fval = s.fval := rfl
@[simp] theorem State.respond_inIsr (s : State) (c : BitVec 2) (d : TimeUnit) : (s.respond c d).inIsr = s.inIsr := rfl
@[simp] theorem State.respond_cw (s : State) (c : BitVec 2) (d : TimeUnit) : (s.respond c d).cw = s.cw := rfl
@[simp] theorem State.respond_din (s : State) (c : BitVec 2) (d : TimeUnit) : (s.respond c d).din = s.din := rfl
@[simp] theorem State.respond_dout (s : State) (c : BitVec 2) (d : TimeUnit) : (s.respond c d).dout = d := rfl
@[simp] theorem State.respond_status (s : State) (c : BitVec 2) (d : TimeUnit) : (s.respond c d).status = c := rfl
@[simp] theorem State.respond_busy (s : State) (c : BitVec 2) (d : TimeUnit) : (s.respond c d).busy = false := rfl
@[simp] theorem State.respond_hReg (s : State) (c : BitVec 2) (d : TimeUnit) : (s.respond c d).hReg = s.hReg := rfl
@[simp] theorem State.respond_hIrq (s : State) (c : BitVec 2) (d : TimeUnit) : (s.respond c d).hIrq = s.hIrq := rfl
@[simp] theorem State.respond_hPrio (s : State) (c : BitVec 2) (d : TimeUnit) : (s.respond c d).hPrio = s.hPrio := rfl
@[simp] theorem State.respond_hEn (s : State) (c : BitVec 2) (d : TimeUnit) : (s.respond c d).hEn = s.hEn := rfl
@[simp] theorem State.respond_activePsc (s : State) (c : BitVec 2) (d : TimeUnit) : (s.respond c d).activePsc = s.activePsc := rfl
@[simp] theorem State.respond_olat (s : State) (c : BitVec 2) (d : TimeUnit) : (s.respond c d).olat = s.olat := rfl
@[simp] theorem State.respond_surface (s : State) (c : BitVec 2) (d : TimeUnit) : (s.respond c d).surface = s.surface := rfl
@[simp] theorem State.respond_cmdValid (s : State) (c : BitVec 2) (d : TimeUnit) : (s.respond c d).cmdValid = s.cmdValid := rfl
@[simp] theorem State.respond_cwIn (s : State) (c : BitVec 2) (d : TimeUnit) : (s.respond c d).cwIn = s.cwIn := rfl
@[simp] theorem State.respond_dinIn (s : State) (c : BitVec 2) (d : TimeUnit) : (s.respond c d).dinIn = s.dinIn := rfl
@[simp] theorem State.respond_portReq (s : State) (c : BitVec 2) (d : TimeUnit) : (s.respond c d).portReq = s.portReq := rfl
@[simp] theorem State.respond_rdata (s : State) (c : BitVec 2) (d : TimeUnit) : (s.respond c d).rdata = s.rdata := rfl
@[simp] theorem State.respond_wired (s : State) (c : BitVec 2) (d : TimeUnit) : (s.respond c d).wired = s.wired := rfl
@[simp] theorem State.respond_asOutput (s : State) (c : BitVec 2) (d : TimeUnit) : (s.respond c d).asOutput = s.asOutput := rfl
@[simp] theorem State.respond_driven (s : State) (c : BitVec 2) (d : TimeUnit) : (s.respond c d).driven = s.driven := rfl
@[simp] theorem State.respond_moves (s : State) (c : BitVec 2) (d : TimeUnit) : (s.respond c d).moves = s.moves := rfl
@[simp] theorem State.respond_draws (s : State) (c : BitVec 2) (d : TimeUnit) : (s.respond c d).draws = s.draws := rfl
@[simp] theorem State.respond_record (s : State) (c : BitVec 2) (d : TimeUnit) : (s.respond c d).record = s.record := rfl
@[simp] theorem State.respond_responses (s : State) (c : BitVec 2) (d : TimeUnit) : (s.respond c d).responses = s.responses ++ [⟨c, d⟩] := rfl

/-! ### `State.latchCommand` -/

@[simp] theorem State.latchCommand_cfg (s : State) (w : Word) (d : TimeUnit) : (s.latchCommand w d).cfg = s.cfg := rfl
@[simp] theorem State.latchCommand_tick (s : State) (w : Word) (d : TimeUnit) : (s.latchCommand w d).tick = s.tick := rfl
@[simp] theorem State.latchCommand_wake (s : State) (w : Word) (d : TimeUnit) : (s.latchCommand w d).wake = s.wake := rfl
@[simp] theorem State.latchCommand_slStart (s : State) (w : Word) (d : TimeUnit) : (s.latchCommand w d).slStart = s.slStart := rfl
@[simp] theorem State.latchCommand_slTarget (s : State) (w : Word) (d : TimeUnit) : (s.latchCommand w d).slTarget = s.slTarget := rfl
@[simp] theorem State.latchCommand_life (s : State) (w : Word) (d : TimeUnit) : (s.latchCommand w d).life = s.life := rfl
@[simp] theorem State.latchCommand_seq (s : State) (w : Word) (d : TimeUnit) : (s.latchCommand w d).seq = s.seq := rfl
@[simp] theorem State.latchCommand_iseq (s : State) (w : Word) (d : TimeUnit) : (s.latchCommand w d).iseq = s.iseq := rfl
@[simp] theorem State.latchCommand_fatal (s : State) (w : Word) (d : TimeUnit) : (s.latchCommand w d).fatal = s.fatal := rfl
@[simp] theorem State.latchCommand_fcause (s : State) (w : Word) (d : TimeUnit) : (s.latchCommand w d).fcause = s.fcause := rfl
@[simp] theorem State.latchCommand_fval (s : State) (w : Word) (d : TimeUnit) : (s.latchCommand w d).fval = s.fval := rfl
@[simp] theorem State.latchCommand_inIsr (s : State) (w : Word) (d : TimeUnit) : (s.latchCommand w d).inIsr = s.inIsr := rfl
@[simp] theorem State.latchCommand_cw (s : State) (w : Word) (d : TimeUnit) : (s.latchCommand w d).cw = w := rfl
@[simp] theorem State.latchCommand_din (s : State) (w : Word) (d : TimeUnit) : (s.latchCommand w d).din = d := rfl
@[simp] theorem State.latchCommand_dout (s : State) (w : Word) (d : TimeUnit) : (s.latchCommand w d).dout = s.dout := rfl
@[simp] theorem State.latchCommand_status (s : State) (w : Word) (d : TimeUnit) : (s.latchCommand w d).status = s.status := rfl
@[simp] theorem State.latchCommand_busy (s : State) (w : Word) (d : TimeUnit) : (s.latchCommand w d).busy = true := rfl
@[simp] theorem State.latchCommand_hReg (s : State) (w : Word) (d : TimeUnit) : (s.latchCommand w d).hReg = s.hReg := rfl
@[simp] theorem State.latchCommand_hIrq (s : State) (w : Word) (d : TimeUnit) : (s.latchCommand w d).hIrq = s.hIrq := rfl
@[simp] theorem State.latchCommand_hPrio (s : State) (w : Word) (d : TimeUnit) : (s.latchCommand w d).hPrio = s.hPrio := rfl
@[simp] theorem State.latchCommand_hEn (s : State) (w : Word) (d : TimeUnit) : (s.latchCommand w d).hEn = s.hEn := rfl
@[simp] theorem State.latchCommand_activePsc (s : State) (w : Word) (d : TimeUnit) : (s.latchCommand w d).activePsc = s.activePsc := rfl
@[simp] theorem State.latchCommand_olat (s : State) (w : Word) (d : TimeUnit) : (s.latchCommand w d).olat = s.olat := rfl
@[simp] theorem State.latchCommand_surface (s : State) (w : Word) (d : TimeUnit) : (s.latchCommand w d).surface = s.surface := rfl
@[simp] theorem State.latchCommand_cmdValid (s : State) (w : Word) (d : TimeUnit) : (s.latchCommand w d).cmdValid = false := rfl
@[simp] theorem State.latchCommand_cwIn (s : State) (w : Word) (d : TimeUnit) : (s.latchCommand w d).cwIn = s.cwIn := rfl
@[simp] theorem State.latchCommand_dinIn (s : State) (w : Word) (d : TimeUnit) : (s.latchCommand w d).dinIn = s.dinIn := rfl
@[simp] theorem State.latchCommand_portReq (s : State) (w : Word) (d : TimeUnit) : (s.latchCommand w d).portReq = s.portReq := rfl
@[simp] theorem State.latchCommand_rdata (s : State) (w : Word) (d : TimeUnit) : (s.latchCommand w d).rdata = s.rdata := rfl
@[simp] theorem State.latchCommand_wired (s : State) (w : Word) (d : TimeUnit) : (s.latchCommand w d).wired = s.wired := rfl
@[simp] theorem State.latchCommand_asOutput (s : State) (w : Word) (d : TimeUnit) : (s.latchCommand w d).asOutput = s.asOutput := rfl
@[simp] theorem State.latchCommand_driven (s : State) (w : Word) (d : TimeUnit) : (s.latchCommand w d).driven = s.driven := rfl
@[simp] theorem State.latchCommand_moves (s : State) (w : Word) (d : TimeUnit) : (s.latchCommand w d).moves = s.moves := rfl
@[simp] theorem State.latchCommand_draws (s : State) (w : Word) (d : TimeUnit) : (s.latchCommand w d).draws = s.draws := rfl
@[simp] theorem State.latchCommand_record (s : State) (w : Word) (d : TimeUnit) : (s.latchCommand w d).record = s.record := rfl
@[simp] theorem State.latchCommand_responses (s : State) (w : Word) (d : TimeUnit) : (s.latchCommand w d).responses = s.responses := rfl

/-! ### `State.raiseFatal` -/

@[simp] theorem State.raiseFatal_cfg (s : State) (c : BitVec 2) (p : Byte) : (s.raiseFatal c p).cfg = s.cfg := rfl
@[simp] theorem State.raiseFatal_tick (s : State) (c : BitVec 2) (p : Byte) : (s.raiseFatal c p).tick = s.tick := rfl
@[simp] theorem State.raiseFatal_wake (s : State) (c : BitVec 2) (p : Byte) : (s.raiseFatal c p).wake = s.wake := rfl
@[simp] theorem State.raiseFatal_slStart (s : State) (c : BitVec 2) (p : Byte) : (s.raiseFatal c p).slStart = s.slStart := rfl
@[simp] theorem State.raiseFatal_slTarget (s : State) (c : BitVec 2) (p : Byte) : (s.raiseFatal c p).slTarget = s.slTarget := rfl
@[simp] theorem State.raiseFatal_life (s : State) (c : BitVec 2) (p : Byte) : (s.raiseFatal c p).life = s.life := rfl
@[simp] theorem State.raiseFatal_seq (s : State) (c : BitVec 2) (p : Byte) : (s.raiseFatal c p).seq = .halt := rfl
@[simp] theorem State.raiseFatal_iseq (s : State) (c : BitVec 2) (p : Byte) : (s.raiseFatal c p).iseq = s.iseq := rfl
@[simp] theorem State.raiseFatal_fatal (s : State) (c : BitVec 2) (p : Byte) : (s.raiseFatal c p).fatal = true := rfl
@[simp] theorem State.raiseFatal_fcause (s : State) (c : BitVec 2) (p : Byte) : (s.raiseFatal c p).fcause = c := rfl
@[simp] theorem State.raiseFatal_fval (s : State) (c : BitVec 2) (p : Byte) : (s.raiseFatal c p).fval = p := rfl
@[simp] theorem State.raiseFatal_inIsr (s : State) (c : BitVec 2) (p : Byte) : (s.raiseFatal c p).inIsr = s.inIsr := rfl
@[simp] theorem State.raiseFatal_cw (s : State) (c : BitVec 2) (p : Byte) : (s.raiseFatal c p).cw = s.cw := rfl
@[simp] theorem State.raiseFatal_din (s : State) (c : BitVec 2) (p : Byte) : (s.raiseFatal c p).din = s.din := rfl
@[simp] theorem State.raiseFatal_dout (s : State) (c : BitVec 2) (p : Byte) : (s.raiseFatal c p).dout = s.dout := rfl
@[simp] theorem State.raiseFatal_status (s : State) (c : BitVec 2) (p : Byte) : (s.raiseFatal c p).status = s.status := rfl
@[simp] theorem State.raiseFatal_busy (s : State) (c : BitVec 2) (p : Byte) : (s.raiseFatal c p).busy = s.busy := rfl
@[simp] theorem State.raiseFatal_hReg (s : State) (c : BitVec 2) (p : Byte) : (s.raiseFatal c p).hReg = s.hReg := rfl
@[simp] theorem State.raiseFatal_hIrq (s : State) (c : BitVec 2) (p : Byte) : (s.raiseFatal c p).hIrq = s.hIrq := rfl
@[simp] theorem State.raiseFatal_hPrio (s : State) (c : BitVec 2) (p : Byte) : (s.raiseFatal c p).hPrio = s.hPrio := rfl
@[simp] theorem State.raiseFatal_hEn (s : State) (c : BitVec 2) (p : Byte) : (s.raiseFatal c p).hEn = s.hEn := rfl
@[simp] theorem State.raiseFatal_activePsc (s : State) (c : BitVec 2) (p : Byte) : (s.raiseFatal c p).activePsc = s.activePsc := rfl
@[simp] theorem State.raiseFatal_olat (s : State) (c : BitVec 2) (p : Byte) : (s.raiseFatal c p).olat = s.olat := rfl
@[simp] theorem State.raiseFatal_surface (s : State) (c : BitVec 2) (p : Byte) : (s.raiseFatal c p).surface = s.surface := rfl
@[simp] theorem State.raiseFatal_cmdValid (s : State) (c : BitVec 2) (p : Byte) : (s.raiseFatal c p).cmdValid = s.cmdValid := rfl
@[simp] theorem State.raiseFatal_cwIn (s : State) (c : BitVec 2) (p : Byte) : (s.raiseFatal c p).cwIn = s.cwIn := rfl
@[simp] theorem State.raiseFatal_dinIn (s : State) (c : BitVec 2) (p : Byte) : (s.raiseFatal c p).dinIn = s.dinIn := rfl
@[simp] theorem State.raiseFatal_portReq (s : State) (c : BitVec 2) (p : Byte) : (s.raiseFatal c p).portReq = s.portReq := rfl
@[simp] theorem State.raiseFatal_rdata (s : State) (c : BitVec 2) (p : Byte) : (s.raiseFatal c p).rdata = s.rdata := rfl
@[simp] theorem State.raiseFatal_wired (s : State) (c : BitVec 2) (p : Byte) : (s.raiseFatal c p).wired = s.wired := rfl
@[simp] theorem State.raiseFatal_asOutput (s : State) (c : BitVec 2) (p : Byte) : (s.raiseFatal c p).asOutput = s.asOutput := rfl
@[simp] theorem State.raiseFatal_driven (s : State) (c : BitVec 2) (p : Byte) : (s.raiseFatal c p).driven = s.driven := rfl
@[simp] theorem State.raiseFatal_moves (s : State) (c : BitVec 2) (p : Byte) : (s.raiseFatal c p).moves = s.moves := rfl
@[simp] theorem State.raiseFatal_draws (s : State) (c : BitVec 2) (p : Byte) : (s.raiseFatal c p).draws = s.draws := rfl
@[simp] theorem State.raiseFatal_record (s : State) (c : BitVec 2) (p : Byte) : (s.raiseFatal c p).record = s.record := rfl
@[simp] theorem State.raiseFatal_responses (s : State) (c : BitVec 2) (p : Byte) : (s.raiseFatal c p).responses = s.responses := rfl

/-! ### `State.enterIsr` -/

@[simp] theorem State.enterIsr_cfg (s : State) : (s.enterIsr).cfg = s.cfg := rfl
@[simp] theorem State.enterIsr_tick (s : State) : (s.enterIsr).tick = s.tick := rfl
@[simp] theorem State.enterIsr_wake (s : State) : (s.enterIsr).wake = s.wake := rfl
@[simp] theorem State.enterIsr_slStart (s : State) : (s.enterIsr).slStart = s.slStart := rfl
@[simp] theorem State.enterIsr_slTarget (s : State) : (s.enterIsr).slTarget = s.slTarget := rfl
@[simp] theorem State.enterIsr_life (s : State) : (s.enterIsr).life = s.life := rfl
@[simp] theorem State.enterIsr_seq (s : State) : (s.enterIsr).seq = s.seq := rfl
@[simp] theorem State.enterIsr_iseq (s : State) : (s.enterIsr).iseq = .i0 := rfl
@[simp] theorem State.enterIsr_fatal (s : State) : (s.enterIsr).fatal = s.fatal := rfl
@[simp] theorem State.enterIsr_fcause (s : State) : (s.enterIsr).fcause = s.fcause := rfl
@[simp] theorem State.enterIsr_fval (s : State) : (s.enterIsr).fval = s.fval := rfl
@[simp] theorem State.enterIsr_inIsr (s : State) : (s.enterIsr).inIsr = true := rfl
@[simp] theorem State.enterIsr_cw (s : State) : (s.enterIsr).cw = s.cw := rfl
@[simp] theorem State.enterIsr_din (s : State) : (s.enterIsr).din = s.din := rfl
@[simp] theorem State.enterIsr_dout (s : State) : (s.enterIsr).dout = s.dout := rfl
@[simp] theorem State.enterIsr_status (s : State) : (s.enterIsr).status = s.status := rfl
@[simp] theorem State.enterIsr_busy (s : State) : (s.enterIsr).busy = s.busy := rfl
@[simp] theorem State.enterIsr_hReg (s : State) : (s.enterIsr).hReg = s.hReg := rfl
@[simp] theorem State.enterIsr_hIrq (s : State) : (s.enterIsr).hIrq = s.hIrq := rfl
@[simp] theorem State.enterIsr_hPrio (s : State) : (s.enterIsr).hPrio = s.hPrio := rfl
@[simp] theorem State.enterIsr_hEn (s : State) : (s.enterIsr).hEn = s.hEn := rfl
@[simp] theorem State.enterIsr_activePsc (s : State) : (s.enterIsr).activePsc = s.activePsc := rfl
@[simp] theorem State.enterIsr_olat (s : State) : (s.enterIsr).olat = s.olat := rfl
@[simp] theorem State.enterIsr_surface (s : State) : (s.enterIsr).surface = s.surface := rfl
@[simp] theorem State.enterIsr_cmdValid (s : State) : (s.enterIsr).cmdValid = s.cmdValid := rfl
@[simp] theorem State.enterIsr_cwIn (s : State) : (s.enterIsr).cwIn = s.cwIn := rfl
@[simp] theorem State.enterIsr_dinIn (s : State) : (s.enterIsr).dinIn = s.dinIn := rfl
@[simp] theorem State.enterIsr_portReq (s : State) : (s.enterIsr).portReq = s.portReq := rfl
@[simp] theorem State.enterIsr_rdata (s : State) : (s.enterIsr).rdata = s.rdata := rfl
@[simp] theorem State.enterIsr_wired (s : State) : (s.enterIsr).wired = s.wired := rfl
@[simp] theorem State.enterIsr_asOutput (s : State) : (s.enterIsr).asOutput = s.asOutput := rfl
@[simp] theorem State.enterIsr_driven (s : State) : (s.enterIsr).driven = s.driven := rfl
@[simp] theorem State.enterIsr_moves (s : State) : (s.enterIsr).moves = s.moves := rfl
@[simp] theorem State.enterIsr_draws (s : State) : (s.enterIsr).draws = s.draws := rfl
@[simp] theorem State.enterIsr_record (s : State) : (s.enterIsr).record = s.record := rfl
@[simp] theorem State.enterIsr_responses (s : State) : (s.enterIsr).responses = s.responses := rfl

/-! ### `State.leaveIsr` -/

@[simp] theorem State.leaveIsr_cfg (s : State) : (s.leaveIsr).cfg = s.cfg := rfl
@[simp] theorem State.leaveIsr_tick (s : State) : (s.leaveIsr).tick = s.tick := rfl
@[simp] theorem State.leaveIsr_wake (s : State) : (s.leaveIsr).wake = s.wake := rfl
@[simp] theorem State.leaveIsr_slStart (s : State) : (s.leaveIsr).slStart = s.slStart := rfl
@[simp] theorem State.leaveIsr_slTarget (s : State) : (s.leaveIsr).slTarget = s.slTarget := rfl
@[simp] theorem State.leaveIsr_life (s : State) : (s.leaveIsr).life = s.life := rfl
@[simp] theorem State.leaveIsr_seq (s : State) : (s.leaveIsr).seq = s.seq := rfl
@[simp] theorem State.leaveIsr_iseq (s : State) : (s.leaveIsr).iseq = .idle := rfl
@[simp] theorem State.leaveIsr_fatal (s : State) : (s.leaveIsr).fatal = s.fatal := rfl
@[simp] theorem State.leaveIsr_fcause (s : State) : (s.leaveIsr).fcause = s.fcause := rfl
@[simp] theorem State.leaveIsr_fval (s : State) : (s.leaveIsr).fval = s.fval := rfl
@[simp] theorem State.leaveIsr_inIsr (s : State) : (s.leaveIsr).inIsr = false := rfl
@[simp] theorem State.leaveIsr_cw (s : State) : (s.leaveIsr).cw = s.cw := rfl
@[simp] theorem State.leaveIsr_din (s : State) : (s.leaveIsr).din = s.din := rfl
@[simp] theorem State.leaveIsr_dout (s : State) : (s.leaveIsr).dout = s.dout := rfl
@[simp] theorem State.leaveIsr_status (s : State) : (s.leaveIsr).status = s.status := rfl
@[simp] theorem State.leaveIsr_busy (s : State) : (s.leaveIsr).busy = s.busy := rfl
@[simp] theorem State.leaveIsr_hReg (s : State) : (s.leaveIsr).hReg = s.hReg := rfl
@[simp] theorem State.leaveIsr_hIrq (s : State) : (s.leaveIsr).hIrq = s.hIrq := rfl
@[simp] theorem State.leaveIsr_hPrio (s : State) : (s.leaveIsr).hPrio = s.hPrio := rfl
@[simp] theorem State.leaveIsr_hEn (s : State) : (s.leaveIsr).hEn = s.hEn := rfl
@[simp] theorem State.leaveIsr_activePsc (s : State) : (s.leaveIsr).activePsc = s.activePsc := rfl
@[simp] theorem State.leaveIsr_olat (s : State) : (s.leaveIsr).olat = s.olat := rfl
@[simp] theorem State.leaveIsr_surface (s : State) : (s.leaveIsr).surface = s.surface := rfl
@[simp] theorem State.leaveIsr_cmdValid (s : State) : (s.leaveIsr).cmdValid = s.cmdValid := rfl
@[simp] theorem State.leaveIsr_cwIn (s : State) : (s.leaveIsr).cwIn = s.cwIn := rfl
@[simp] theorem State.leaveIsr_dinIn (s : State) : (s.leaveIsr).dinIn = s.dinIn := rfl
@[simp] theorem State.leaveIsr_portReq (s : State) : (s.leaveIsr).portReq = s.portReq := rfl
@[simp] theorem State.leaveIsr_rdata (s : State) : (s.leaveIsr).rdata = s.rdata := rfl
@[simp] theorem State.leaveIsr_wired (s : State) : (s.leaveIsr).wired = s.wired := rfl
@[simp] theorem State.leaveIsr_asOutput (s : State) : (s.leaveIsr).asOutput = s.asOutput := rfl
@[simp] theorem State.leaveIsr_driven (s : State) : (s.leaveIsr).driven = s.driven := rfl
@[simp] theorem State.leaveIsr_moves (s : State) : (s.leaveIsr).moves = s.moves := rfl
@[simp] theorem State.leaveIsr_draws (s : State) : (s.leaveIsr).draws = s.draws := rfl
@[simp] theorem State.leaveIsr_record (s : State) : (s.leaveIsr).record = s.record := rfl
@[simp] theorem State.leaveIsr_responses (s : State) : (s.leaveIsr).responses = s.responses := rfl

/-! ### `State.poke` -/

@[simp] theorem State.poke_cfg (s : State) (r : Reg) (v : Word) : (s.poke r v).cfg = s.cfg := rfl
@[simp] theorem State.poke_tick (s : State) (r : Reg) (v : Word) : (s.poke r v).tick = s.tick := rfl
@[simp] theorem State.poke_wake (s : State) (r : Reg) (v : Word) : (s.poke r v).wake = s.wake := rfl
@[simp] theorem State.poke_slStart (s : State) (r : Reg) (v : Word) : (s.poke r v).slStart = s.slStart := rfl
@[simp] theorem State.poke_slTarget (s : State) (r : Reg) (v : Word) : (s.poke r v).slTarget = s.slTarget := rfl
@[simp] theorem State.poke_life (s : State) (r : Reg) (v : Word) : (s.poke r v).life = s.life := rfl
@[simp] theorem State.poke_seq (s : State) (r : Reg) (v : Word) : (s.poke r v).seq = s.seq := rfl
@[simp] theorem State.poke_iseq (s : State) (r : Reg) (v : Word) : (s.poke r v).iseq = s.iseq := rfl
@[simp] theorem State.poke_fatal (s : State) (r : Reg) (v : Word) : (s.poke r v).fatal = s.fatal := rfl
@[simp] theorem State.poke_fcause (s : State) (r : Reg) (v : Word) : (s.poke r v).fcause = s.fcause := rfl
@[simp] theorem State.poke_fval (s : State) (r : Reg) (v : Word) : (s.poke r v).fval = s.fval := rfl
@[simp] theorem State.poke_inIsr (s : State) (r : Reg) (v : Word) : (s.poke r v).inIsr = s.inIsr := rfl
@[simp] theorem State.poke_cw (s : State) (r : Reg) (v : Word) : (s.poke r v).cw = s.cw := rfl
@[simp] theorem State.poke_din (s : State) (r : Reg) (v : Word) : (s.poke r v).din = s.din := rfl
@[simp] theorem State.poke_dout (s : State) (r : Reg) (v : Word) : (s.poke r v).dout = s.dout := rfl
@[simp] theorem State.poke_status (s : State) (r : Reg) (v : Word) : (s.poke r v).status = s.status := rfl
@[simp] theorem State.poke_busy (s : State) (r : Reg) (v : Word) : (s.poke r v).busy = s.busy := rfl
@[simp] theorem State.poke_hReg (s : State) (r : Reg) (v : Word) : (s.poke r v).hReg = s.hReg := rfl
@[simp] theorem State.poke_hIrq (s : State) (r : Reg) (v : Word) : (s.poke r v).hIrq = s.hIrq := rfl
@[simp] theorem State.poke_hPrio (s : State) (r : Reg) (v : Word) : (s.poke r v).hPrio = s.hPrio := rfl
@[simp] theorem State.poke_hEn (s : State) (r : Reg) (v : Word) : (s.poke r v).hEn = s.hEn := rfl
@[simp] theorem State.poke_activePsc (s : State) (r : Reg) (v : Word) : (s.poke r v).activePsc = s.activePsc := rfl
@[simp] theorem State.poke_olat (s : State) (r : Reg) (v : Word) : (s.poke r v).olat = s.olat := rfl
@[simp] theorem State.poke_surface (s : State) (r : Reg) (v : Word) : (s.poke r v).surface = Cells.write s.surface r.ordinal v := rfl
@[simp] theorem State.poke_cmdValid (s : State) (r : Reg) (v : Word) : (s.poke r v).cmdValid = s.cmdValid := rfl
@[simp] theorem State.poke_cwIn (s : State) (r : Reg) (v : Word) : (s.poke r v).cwIn = s.cwIn := rfl
@[simp] theorem State.poke_dinIn (s : State) (r : Reg) (v : Word) : (s.poke r v).dinIn = s.dinIn := rfl
@[simp] theorem State.poke_portReq (s : State) (r : Reg) (v : Word) : (s.poke r v).portReq = s.portReq := rfl
@[simp] theorem State.poke_rdata (s : State) (r : Reg) (v : Word) : (s.poke r v).rdata = s.rdata := rfl
@[simp] theorem State.poke_wired (s : State) (r : Reg) (v : Word) : (s.poke r v).wired = s.wired := rfl
@[simp] theorem State.poke_asOutput (s : State) (r : Reg) (v : Word) : (s.poke r v).asOutput = s.asOutput := rfl
@[simp] theorem State.poke_driven (s : State) (r : Reg) (v : Word) : (s.poke r v).driven = s.driven := rfl
@[simp] theorem State.poke_moves (s : State) (r : Reg) (v : Word) : (s.poke r v).moves = s.moves := rfl
@[simp] theorem State.poke_draws (s : State) (r : Reg) (v : Word) : (s.poke r v).draws = s.draws := rfl
@[simp] theorem State.poke_record (s : State) (r : Reg) (v : Word) : (s.poke r v).record = s.record := rfl
@[simp] theorem State.poke_responses (s : State) (r : Reg) (v : Word) : (s.poke r v).responses = s.responses := rfl

/-! ### `State.issued` -/

@[simp] theorem State.issued_cfg (s : State) (a : Agent) (op : Instr) (x : Option Word) (d : Word) : (s.issued a op x d).cfg = s.cfg := rfl
@[simp] theorem State.issued_tick (s : State) (a : Agent) (op : Instr) (x : Option Word) (d : Word) : (s.issued a op x d).tick = s.tick := rfl
@[simp] theorem State.issued_wake (s : State) (a : Agent) (op : Instr) (x : Option Word) (d : Word) : (s.issued a op x d).wake = s.wake := rfl
@[simp] theorem State.issued_slStart (s : State) (a : Agent) (op : Instr) (x : Option Word) (d : Word) : (s.issued a op x d).slStart = s.slStart := rfl
@[simp] theorem State.issued_slTarget (s : State) (a : Agent) (op : Instr) (x : Option Word) (d : Word) : (s.issued a op x d).slTarget = s.slTarget := rfl
@[simp] theorem State.issued_life (s : State) (a : Agent) (op : Instr) (x : Option Word) (d : Word) : (s.issued a op x d).life = s.life := rfl
@[simp] theorem State.issued_seq (s : State) (a : Agent) (op : Instr) (x : Option Word) (d : Word) : (s.issued a op x d).seq = s.seq := rfl
@[simp] theorem State.issued_iseq (s : State) (a : Agent) (op : Instr) (x : Option Word) (d : Word) : (s.issued a op x d).iseq = s.iseq := rfl
@[simp] theorem State.issued_fatal (s : State) (a : Agent) (op : Instr) (x : Option Word) (d : Word) : (s.issued a op x d).fatal = s.fatal := rfl
@[simp] theorem State.issued_fcause (s : State) (a : Agent) (op : Instr) (x : Option Word) (d : Word) : (s.issued a op x d).fcause = s.fcause := rfl
@[simp] theorem State.issued_fval (s : State) (a : Agent) (op : Instr) (x : Option Word) (d : Word) : (s.issued a op x d).fval = s.fval := rfl
@[simp] theorem State.issued_inIsr (s : State) (a : Agent) (op : Instr) (x : Option Word) (d : Word) : (s.issued a op x d).inIsr = s.inIsr := rfl
@[simp] theorem State.issued_cw (s : State) (a : Agent) (op : Instr) (x : Option Word) (d : Word) : (s.issued a op x d).cw = s.cw := rfl
@[simp] theorem State.issued_din (s : State) (a : Agent) (op : Instr) (x : Option Word) (d : Word) : (s.issued a op x d).din = s.din := rfl
@[simp] theorem State.issued_dout (s : State) (a : Agent) (op : Instr) (x : Option Word) (d : Word) : (s.issued a op x d).dout = s.dout := rfl
@[simp] theorem State.issued_status (s : State) (a : Agent) (op : Instr) (x : Option Word) (d : Word) : (s.issued a op x d).status = s.status := rfl
@[simp] theorem State.issued_busy (s : State) (a : Agent) (op : Instr) (x : Option Word) (d : Word) : (s.issued a op x d).busy = s.busy := rfl
@[simp] theorem State.issued_hReg (s : State) (a : Agent) (op : Instr) (x : Option Word) (d : Word) : (s.issued a op x d).hReg = s.hReg := rfl
@[simp] theorem State.issued_hIrq (s : State) (a : Agent) (op : Instr) (x : Option Word) (d : Word) : (s.issued a op x d).hIrq = s.hIrq := rfl
@[simp] theorem State.issued_hPrio (s : State) (a : Agent) (op : Instr) (x : Option Word) (d : Word) : (s.issued a op x d).hPrio = s.hPrio := rfl
@[simp] theorem State.issued_hEn (s : State) (a : Agent) (op : Instr) (x : Option Word) (d : Word) : (s.issued a op x d).hEn = s.hEn := rfl
@[simp] theorem State.issued_activePsc (s : State) (a : Agent) (op : Instr) (x : Option Word) (d : Word) : (s.issued a op x d).activePsc = s.activePsc := rfl
@[simp] theorem State.issued_olat (s : State) (a : Agent) (op : Instr) (x : Option Word) (d : Word) : (s.issued a op x d).olat = s.olat := rfl
@[simp] theorem State.issued_surface (s : State) (a : Agent) (op : Instr) (x : Option Word) (d : Word) : (s.issued a op x d).surface = s.surface := rfl
@[simp] theorem State.issued_cmdValid (s : State) (a : Agent) (op : Instr) (x : Option Word) (d : Word) : (s.issued a op x d).cmdValid = s.cmdValid := rfl
@[simp] theorem State.issued_cwIn (s : State) (a : Agent) (op : Instr) (x : Option Word) (d : Word) : (s.issued a op x d).cwIn = s.cwIn := rfl
@[simp] theorem State.issued_dinIn (s : State) (a : Agent) (op : Instr) (x : Option Word) (d : Word) : (s.issued a op x d).dinIn = s.dinIn := rfl
@[simp] theorem State.issued_portReq (s : State) (a : Agent) (op : Instr) (x : Option Word) (d : Word) : (s.issued a op x d).portReq = s.portReq := rfl
@[simp] theorem State.issued_rdata (s : State) (a : Agent) (op : Instr) (x : Option Word) (d : Word) : (s.issued a op x d).rdata = d := rfl
@[simp] theorem State.issued_wired (s : State) (a : Agent) (op : Instr) (x : Option Word) (d : Word) : (s.issued a op x d).wired = s.wired := rfl
@[simp] theorem State.issued_asOutput (s : State) (a : Agent) (op : Instr) (x : Option Word) (d : Word) : (s.issued a op x d).asOutput = s.asOutput := rfl
@[simp] theorem State.issued_driven (s : State) (a : Agent) (op : Instr) (x : Option Word) (d : Word) : (s.issued a op x d).driven = s.driven := rfl
@[simp] theorem State.issued_moves (s : State) (a : Agent) (op : Instr) (x : Option Word) (d : Word) : (s.issued a op x d).moves = s.moves := rfl
@[simp] theorem State.issued_draws (s : State) (a : Agent) (op : Instr) (x : Option Word) (d : Word) : (s.issued a op x d).draws = s.draws + 3 := rfl
@[simp] theorem State.issued_record (s : State) (a : Agent) (op : Instr) (x : Option Word) (d : Word) : (s.issued a op x d).record = s.record ++ [⟨a, .transaction op, x⟩] := rfl
@[simp] theorem State.issued_responses (s : State) (a : Agent) (op : Instr) (x : Option Word) (d : Word) : (s.issued a op x d).responses = s.responses := rfl

/-! ### `State.intcRegister` -/

@[simp] theorem State.intcRegister_cfg (s : State) (a : Agent) (n : Nat) : (s.intcRegister a n).cfg = s.cfg := rfl
@[simp] theorem State.intcRegister_tick (s : State) (a : Agent) (n : Nat) : (s.intcRegister a n).tick = s.tick := rfl
@[simp] theorem State.intcRegister_wake (s : State) (a : Agent) (n : Nat) : (s.intcRegister a n).wake = s.wake := rfl
@[simp] theorem State.intcRegister_slStart (s : State) (a : Agent) (n : Nat) : (s.intcRegister a n).slStart = s.slStart := rfl
@[simp] theorem State.intcRegister_slTarget (s : State) (a : Agent) (n : Nat) : (s.intcRegister a n).slTarget = s.slTarget := rfl
@[simp] theorem State.intcRegister_life (s : State) (a : Agent) (n : Nat) : (s.intcRegister a n).life = s.life := rfl
@[simp] theorem State.intcRegister_seq (s : State) (a : Agent) (n : Nat) : (s.intcRegister a n).seq = s.seq := rfl
@[simp] theorem State.intcRegister_iseq (s : State) (a : Agent) (n : Nat) : (s.intcRegister a n).iseq = s.iseq := rfl
@[simp] theorem State.intcRegister_fatal (s : State) (a : Agent) (n : Nat) : (s.intcRegister a n).fatal = s.fatal := rfl
@[simp] theorem State.intcRegister_fcause (s : State) (a : Agent) (n : Nat) : (s.intcRegister a n).fcause = s.fcause := rfl
@[simp] theorem State.intcRegister_fval (s : State) (a : Agent) (n : Nat) : (s.intcRegister a n).fval = s.fval := rfl
@[simp] theorem State.intcRegister_inIsr (s : State) (a : Agent) (n : Nat) : (s.intcRegister a n).inIsr = s.inIsr := rfl
@[simp] theorem State.intcRegister_cw (s : State) (a : Agent) (n : Nat) : (s.intcRegister a n).cw = s.cw := rfl
@[simp] theorem State.intcRegister_din (s : State) (a : Agent) (n : Nat) : (s.intcRegister a n).din = s.din := rfl
@[simp] theorem State.intcRegister_dout (s : State) (a : Agent) (n : Nat) : (s.intcRegister a n).dout = s.dout := rfl
@[simp] theorem State.intcRegister_status (s : State) (a : Agent) (n : Nat) : (s.intcRegister a n).status = s.status := rfl
@[simp] theorem State.intcRegister_busy (s : State) (a : Agent) (n : Nat) : (s.intcRegister a n).busy = s.busy := rfl
@[simp] theorem State.intcRegister_hReg (s : State) (a : Agent) (n : Nat) : (s.intcRegister a n).hReg = true := rfl
@[simp] theorem State.intcRegister_hIrq (s : State) (a : Agent) (n : Nat) : (s.intcRegister a n).hIrq = n := rfl
@[simp] theorem State.intcRegister_hPrio (s : State) (a : Agent) (n : Nat) : (s.intcRegister a n).hPrio = s.hPrio := rfl
@[simp] theorem State.intcRegister_hEn (s : State) (a : Agent) (n : Nat) : (s.intcRegister a n).hEn = s.hEn := rfl
@[simp] theorem State.intcRegister_activePsc (s : State) (a : Agent) (n : Nat) : (s.intcRegister a n).activePsc = s.activePsc := rfl
@[simp] theorem State.intcRegister_olat (s : State) (a : Agent) (n : Nat) : (s.intcRegister a n).olat = s.olat := rfl
@[simp] theorem State.intcRegister_surface (s : State) (a : Agent) (n : Nat) : (s.intcRegister a n).surface = s.surface := rfl
@[simp] theorem State.intcRegister_cmdValid (s : State) (a : Agent) (n : Nat) : (s.intcRegister a n).cmdValid = s.cmdValid := rfl
@[simp] theorem State.intcRegister_cwIn (s : State) (a : Agent) (n : Nat) : (s.intcRegister a n).cwIn = s.cwIn := rfl
@[simp] theorem State.intcRegister_dinIn (s : State) (a : Agent) (n : Nat) : (s.intcRegister a n).dinIn = s.dinIn := rfl
@[simp] theorem State.intcRegister_portReq (s : State) (a : Agent) (n : Nat) : (s.intcRegister a n).portReq = s.portReq := rfl
@[simp] theorem State.intcRegister_rdata (s : State) (a : Agent) (n : Nat) : (s.intcRegister a n).rdata = s.rdata := rfl
@[simp] theorem State.intcRegister_wired (s : State) (a : Agent) (n : Nat) : (s.intcRegister a n).wired = s.wired := rfl
@[simp] theorem State.intcRegister_asOutput (s : State) (a : Agent) (n : Nat) : (s.intcRegister a n).asOutput = s.asOutput := rfl
@[simp] theorem State.intcRegister_driven (s : State) (a : Agent) (n : Nat) : (s.intcRegister a n).driven = s.driven := rfl
@[simp] theorem State.intcRegister_moves (s : State) (a : Agent) (n : Nat) : (s.intcRegister a n).moves = s.moves := rfl
@[simp] theorem State.intcRegister_draws (s : State) (a : Agent) (n : Nat) : (s.intcRegister a n).draws = s.draws := rfl
@[simp] theorem State.intcRegister_record (s : State) (a : Agent) (n : Nat) : (s.intcRegister a n).record = s.record ++ [⟨a, .transaction (.intcRegister n), none⟩] := rfl
@[simp] theorem State.intcRegister_responses (s : State) (a : Agent) (n : Nat) : (s.intcRegister a n).responses = s.responses := rfl

/-! ### `State.intcSetPriority` -/

@[simp] theorem State.intcSetPriority_cfg (s : State) (a : Agent) (n : Nat) : (s.intcSetPriority a n).cfg = s.cfg := rfl
@[simp] theorem State.intcSetPriority_tick (s : State) (a : Agent) (n : Nat) : (s.intcSetPriority a n).tick = s.tick := rfl
@[simp] theorem State.intcSetPriority_wake (s : State) (a : Agent) (n : Nat) : (s.intcSetPriority a n).wake = s.wake := rfl
@[simp] theorem State.intcSetPriority_slStart (s : State) (a : Agent) (n : Nat) : (s.intcSetPriority a n).slStart = s.slStart := rfl
@[simp] theorem State.intcSetPriority_slTarget (s : State) (a : Agent) (n : Nat) : (s.intcSetPriority a n).slTarget = s.slTarget := rfl
@[simp] theorem State.intcSetPriority_life (s : State) (a : Agent) (n : Nat) : (s.intcSetPriority a n).life = s.life := rfl
@[simp] theorem State.intcSetPriority_seq (s : State) (a : Agent) (n : Nat) : (s.intcSetPriority a n).seq = s.seq := rfl
@[simp] theorem State.intcSetPriority_iseq (s : State) (a : Agent) (n : Nat) : (s.intcSetPriority a n).iseq = s.iseq := rfl
@[simp] theorem State.intcSetPriority_fatal (s : State) (a : Agent) (n : Nat) : (s.intcSetPriority a n).fatal = s.fatal := rfl
@[simp] theorem State.intcSetPriority_fcause (s : State) (a : Agent) (n : Nat) : (s.intcSetPriority a n).fcause = s.fcause := rfl
@[simp] theorem State.intcSetPriority_fval (s : State) (a : Agent) (n : Nat) : (s.intcSetPriority a n).fval = s.fval := rfl
@[simp] theorem State.intcSetPriority_inIsr (s : State) (a : Agent) (n : Nat) : (s.intcSetPriority a n).inIsr = s.inIsr := rfl
@[simp] theorem State.intcSetPriority_cw (s : State) (a : Agent) (n : Nat) : (s.intcSetPriority a n).cw = s.cw := rfl
@[simp] theorem State.intcSetPriority_din (s : State) (a : Agent) (n : Nat) : (s.intcSetPriority a n).din = s.din := rfl
@[simp] theorem State.intcSetPriority_dout (s : State) (a : Agent) (n : Nat) : (s.intcSetPriority a n).dout = s.dout := rfl
@[simp] theorem State.intcSetPriority_status (s : State) (a : Agent) (n : Nat) : (s.intcSetPriority a n).status = s.status := rfl
@[simp] theorem State.intcSetPriority_busy (s : State) (a : Agent) (n : Nat) : (s.intcSetPriority a n).busy = s.busy := rfl
@[simp] theorem State.intcSetPriority_hReg (s : State) (a : Agent) (n : Nat) : (s.intcSetPriority a n).hReg = s.hReg := rfl
@[simp] theorem State.intcSetPriority_hIrq (s : State) (a : Agent) (n : Nat) : (s.intcSetPriority a n).hIrq = s.hIrq := rfl
@[simp] theorem State.intcSetPriority_hPrio (s : State) (a : Agent) (n : Nat) : (s.intcSetPriority a n).hPrio = n := rfl
@[simp] theorem State.intcSetPriority_hEn (s : State) (a : Agent) (n : Nat) : (s.intcSetPriority a n).hEn = s.hEn := rfl
@[simp] theorem State.intcSetPriority_activePsc (s : State) (a : Agent) (n : Nat) : (s.intcSetPriority a n).activePsc = s.activePsc := rfl
@[simp] theorem State.intcSetPriority_olat (s : State) (a : Agent) (n : Nat) : (s.intcSetPriority a n).olat = s.olat := rfl
@[simp] theorem State.intcSetPriority_surface (s : State) (a : Agent) (n : Nat) : (s.intcSetPriority a n).surface = s.surface := rfl
@[simp] theorem State.intcSetPriority_cmdValid (s : State) (a : Agent) (n : Nat) : (s.intcSetPriority a n).cmdValid = s.cmdValid := rfl
@[simp] theorem State.intcSetPriority_cwIn (s : State) (a : Agent) (n : Nat) : (s.intcSetPriority a n).cwIn = s.cwIn := rfl
@[simp] theorem State.intcSetPriority_dinIn (s : State) (a : Agent) (n : Nat) : (s.intcSetPriority a n).dinIn = s.dinIn := rfl
@[simp] theorem State.intcSetPriority_portReq (s : State) (a : Agent) (n : Nat) : (s.intcSetPriority a n).portReq = s.portReq := rfl
@[simp] theorem State.intcSetPriority_rdata (s : State) (a : Agent) (n : Nat) : (s.intcSetPriority a n).rdata = s.rdata := rfl
@[simp] theorem State.intcSetPriority_wired (s : State) (a : Agent) (n : Nat) : (s.intcSetPriority a n).wired = s.wired := rfl
@[simp] theorem State.intcSetPriority_asOutput (s : State) (a : Agent) (n : Nat) : (s.intcSetPriority a n).asOutput = s.asOutput := rfl
@[simp] theorem State.intcSetPriority_driven (s : State) (a : Agent) (n : Nat) : (s.intcSetPriority a n).driven = s.driven := rfl
@[simp] theorem State.intcSetPriority_moves (s : State) (a : Agent) (n : Nat) : (s.intcSetPriority a n).moves = s.moves := rfl
@[simp] theorem State.intcSetPriority_draws (s : State) (a : Agent) (n : Nat) : (s.intcSetPriority a n).draws = s.draws := rfl
@[simp] theorem State.intcSetPriority_record (s : State) (a : Agent) (n : Nat) : (s.intcSetPriority a n).record = s.record ++ [⟨a, .transaction (.intcSetPriority n), none⟩] := rfl
@[simp] theorem State.intcSetPriority_responses (s : State) (a : Agent) (n : Nat) : (s.intcSetPriority a n).responses = s.responses := rfl

/-! ### `State.intcEnable` -/

@[simp] theorem State.intcEnable_cfg (s : State) (a : Agent) : (s.intcEnable a).cfg = s.cfg := rfl
@[simp] theorem State.intcEnable_tick (s : State) (a : Agent) : (s.intcEnable a).tick = s.tick := rfl
@[simp] theorem State.intcEnable_wake (s : State) (a : Agent) : (s.intcEnable a).wake = s.wake := rfl
@[simp] theorem State.intcEnable_slStart (s : State) (a : Agent) : (s.intcEnable a).slStart = s.slStart := rfl
@[simp] theorem State.intcEnable_slTarget (s : State) (a : Agent) : (s.intcEnable a).slTarget = s.slTarget := rfl
@[simp] theorem State.intcEnable_life (s : State) (a : Agent) : (s.intcEnable a).life = s.life := rfl
@[simp] theorem State.intcEnable_seq (s : State) (a : Agent) : (s.intcEnable a).seq = s.seq := rfl
@[simp] theorem State.intcEnable_iseq (s : State) (a : Agent) : (s.intcEnable a).iseq = s.iseq := rfl
@[simp] theorem State.intcEnable_fatal (s : State) (a : Agent) : (s.intcEnable a).fatal = s.fatal := rfl
@[simp] theorem State.intcEnable_fcause (s : State) (a : Agent) : (s.intcEnable a).fcause = s.fcause := rfl
@[simp] theorem State.intcEnable_fval (s : State) (a : Agent) : (s.intcEnable a).fval = s.fval := rfl
@[simp] theorem State.intcEnable_inIsr (s : State) (a : Agent) : (s.intcEnable a).inIsr = s.inIsr := rfl
@[simp] theorem State.intcEnable_cw (s : State) (a : Agent) : (s.intcEnable a).cw = s.cw := rfl
@[simp] theorem State.intcEnable_din (s : State) (a : Agent) : (s.intcEnable a).din = s.din := rfl
@[simp] theorem State.intcEnable_dout (s : State) (a : Agent) : (s.intcEnable a).dout = s.dout := rfl
@[simp] theorem State.intcEnable_status (s : State) (a : Agent) : (s.intcEnable a).status = s.status := rfl
@[simp] theorem State.intcEnable_busy (s : State) (a : Agent) : (s.intcEnable a).busy = s.busy := rfl
@[simp] theorem State.intcEnable_hReg (s : State) (a : Agent) : (s.intcEnable a).hReg = s.hReg := rfl
@[simp] theorem State.intcEnable_hIrq (s : State) (a : Agent) : (s.intcEnable a).hIrq = s.hIrq := rfl
@[simp] theorem State.intcEnable_hPrio (s : State) (a : Agent) : (s.intcEnable a).hPrio = s.hPrio := rfl
@[simp] theorem State.intcEnable_hEn (s : State) (a : Agent) : (s.intcEnable a).hEn = true := rfl
@[simp] theorem State.intcEnable_activePsc (s : State) (a : Agent) : (s.intcEnable a).activePsc = s.activePsc := rfl
@[simp] theorem State.intcEnable_olat (s : State) (a : Agent) : (s.intcEnable a).olat = s.olat := rfl
@[simp] theorem State.intcEnable_surface (s : State) (a : Agent) : (s.intcEnable a).surface = s.surface := rfl
@[simp] theorem State.intcEnable_cmdValid (s : State) (a : Agent) : (s.intcEnable a).cmdValid = s.cmdValid := rfl
@[simp] theorem State.intcEnable_cwIn (s : State) (a : Agent) : (s.intcEnable a).cwIn = s.cwIn := rfl
@[simp] theorem State.intcEnable_dinIn (s : State) (a : Agent) : (s.intcEnable a).dinIn = s.dinIn := rfl
@[simp] theorem State.intcEnable_portReq (s : State) (a : Agent) : (s.intcEnable a).portReq = s.portReq := rfl
@[simp] theorem State.intcEnable_rdata (s : State) (a : Agent) : (s.intcEnable a).rdata = s.rdata := rfl
@[simp] theorem State.intcEnable_wired (s : State) (a : Agent) : (s.intcEnable a).wired = s.wired := rfl
@[simp] theorem State.intcEnable_asOutput (s : State) (a : Agent) : (s.intcEnable a).asOutput = s.asOutput := rfl
@[simp] theorem State.intcEnable_driven (s : State) (a : Agent) : (s.intcEnable a).driven = s.driven := rfl
@[simp] theorem State.intcEnable_moves (s : State) (a : Agent) : (s.intcEnable a).moves = s.moves := rfl
@[simp] theorem State.intcEnable_draws (s : State) (a : Agent) : (s.intcEnable a).draws = s.draws := rfl
@[simp] theorem State.intcEnable_record (s : State) (a : Agent) : (s.intcEnable a).record = s.record ++ [⟨a, .transaction .intcEnable, none⟩] := rfl
@[simp] theorem State.intcEnable_responses (s : State) (a : Agent) : (s.intcEnable a).responses = s.responses := rfl

/-! ### `State.offer` -/

@[simp] theorem State.offer_cfg (s : State) (w : Word) (d : TimeUnit) : (s.offer w d).cfg = s.cfg := rfl
@[simp] theorem State.offer_tick (s : State) (w : Word) (d : TimeUnit) : (s.offer w d).tick = s.tick := rfl
@[simp] theorem State.offer_wake (s : State) (w : Word) (d : TimeUnit) : (s.offer w d).wake = s.wake := rfl
@[simp] theorem State.offer_slStart (s : State) (w : Word) (d : TimeUnit) : (s.offer w d).slStart = s.slStart := rfl
@[simp] theorem State.offer_slTarget (s : State) (w : Word) (d : TimeUnit) : (s.offer w d).slTarget = s.slTarget := rfl
@[simp] theorem State.offer_life (s : State) (w : Word) (d : TimeUnit) : (s.offer w d).life = s.life := rfl
@[simp] theorem State.offer_seq (s : State) (w : Word) (d : TimeUnit) : (s.offer w d).seq = s.seq := rfl
@[simp] theorem State.offer_iseq (s : State) (w : Word) (d : TimeUnit) : (s.offer w d).iseq = s.iseq := rfl
@[simp] theorem State.offer_fatal (s : State) (w : Word) (d : TimeUnit) : (s.offer w d).fatal = s.fatal := rfl
@[simp] theorem State.offer_fcause (s : State) (w : Word) (d : TimeUnit) : (s.offer w d).fcause = s.fcause := rfl
@[simp] theorem State.offer_fval (s : State) (w : Word) (d : TimeUnit) : (s.offer w d).fval = s.fval := rfl
@[simp] theorem State.offer_inIsr (s : State) (w : Word) (d : TimeUnit) : (s.offer w d).inIsr = s.inIsr := rfl
@[simp] theorem State.offer_cw (s : State) (w : Word) (d : TimeUnit) : (s.offer w d).cw = s.cw := rfl
@[simp] theorem State.offer_din (s : State) (w : Word) (d : TimeUnit) : (s.offer w d).din = s.din := rfl
@[simp] theorem State.offer_dout (s : State) (w : Word) (d : TimeUnit) : (s.offer w d).dout = s.dout := rfl
@[simp] theorem State.offer_status (s : State) (w : Word) (d : TimeUnit) : (s.offer w d).status = s.status := rfl
@[simp] theorem State.offer_busy (s : State) (w : Word) (d : TimeUnit) : (s.offer w d).busy = s.busy := rfl
@[simp] theorem State.offer_hReg (s : State) (w : Word) (d : TimeUnit) : (s.offer w d).hReg = s.hReg := rfl
@[simp] theorem State.offer_hIrq (s : State) (w : Word) (d : TimeUnit) : (s.offer w d).hIrq = s.hIrq := rfl
@[simp] theorem State.offer_hPrio (s : State) (w : Word) (d : TimeUnit) : (s.offer w d).hPrio = s.hPrio := rfl
@[simp] theorem State.offer_hEn (s : State) (w : Word) (d : TimeUnit) : (s.offer w d).hEn = s.hEn := rfl
@[simp] theorem State.offer_activePsc (s : State) (w : Word) (d : TimeUnit) : (s.offer w d).activePsc = s.activePsc := rfl
@[simp] theorem State.offer_olat (s : State) (w : Word) (d : TimeUnit) : (s.offer w d).olat = s.olat := rfl
@[simp] theorem State.offer_surface (s : State) (w : Word) (d : TimeUnit) : (s.offer w d).surface = s.surface := rfl
@[simp] theorem State.offer_cmdValid (s : State) (w : Word) (d : TimeUnit) : (s.offer w d).cmdValid = true := rfl
@[simp] theorem State.offer_cwIn (s : State) (w : Word) (d : TimeUnit) : (s.offer w d).cwIn = w := rfl
@[simp] theorem State.offer_dinIn (s : State) (w : Word) (d : TimeUnit) : (s.offer w d).dinIn = d := rfl
@[simp] theorem State.offer_portReq (s : State) (w : Word) (d : TimeUnit) : (s.offer w d).portReq = s.portReq := rfl
@[simp] theorem State.offer_rdata (s : State) (w : Word) (d : TimeUnit) : (s.offer w d).rdata = s.rdata := rfl
@[simp] theorem State.offer_wired (s : State) (w : Word) (d : TimeUnit) : (s.offer w d).wired = s.wired := rfl
@[simp] theorem State.offer_asOutput (s : State) (w : Word) (d : TimeUnit) : (s.offer w d).asOutput = s.asOutput := rfl
@[simp] theorem State.offer_driven (s : State) (w : Word) (d : TimeUnit) : (s.offer w d).driven = s.driven := rfl
@[simp] theorem State.offer_moves (s : State) (w : Word) (d : TimeUnit) : (s.offer w d).moves = s.moves := rfl
@[simp] theorem State.offer_draws (s : State) (w : Word) (d : TimeUnit) : (s.offer w d).draws = s.draws := rfl
@[simp] theorem State.offer_record (s : State) (w : Word) (d : TimeUnit) : (s.offer w d).record = s.record ++ [⟨.env, .env (.offer w d), none⟩] := rfl
@[simp] theorem State.offer_responses (s : State) (w : Word) (d : TimeUnit) : (s.offer w d).responses = s.responses := rfl

/-! ### `State.store` -/

@[simp] theorem State.store_cfg (s : State) (r : Reg) (v : Word) : (s.store r v).cfg = s.cfg := rfl
@[simp] theorem State.store_tick (s : State) (r : Reg) (v : Word) : (s.store r v).tick = s.tick := rfl
@[simp] theorem State.store_wake (s : State) (r : Reg) (v : Word) : (s.store r v).wake = s.wake := rfl
@[simp] theorem State.store_slStart (s : State) (r : Reg) (v : Word) : (s.store r v).slStart = s.slStart := rfl
@[simp] theorem State.store_slTarget (s : State) (r : Reg) (v : Word) : (s.store r v).slTarget = s.slTarget := rfl
@[simp] theorem State.store_life (s : State) (r : Reg) (v : Word) : (s.store r v).life = s.life := rfl
@[simp] theorem State.store_seq (s : State) (r : Reg) (v : Word) : (s.store r v).seq = s.seq := rfl
@[simp] theorem State.store_iseq (s : State) (r : Reg) (v : Word) : (s.store r v).iseq = s.iseq := rfl
@[simp] theorem State.store_fatal (s : State) (r : Reg) (v : Word) : (s.store r v).fatal = s.fatal := rfl
@[simp] theorem State.store_fcause (s : State) (r : Reg) (v : Word) : (s.store r v).fcause = s.fcause := rfl
@[simp] theorem State.store_fval (s : State) (r : Reg) (v : Word) : (s.store r v).fval = s.fval := rfl
@[simp] theorem State.store_inIsr (s : State) (r : Reg) (v : Word) : (s.store r v).inIsr = s.inIsr := rfl
@[simp] theorem State.store_cw (s : State) (r : Reg) (v : Word) : (s.store r v).cw = s.cw := rfl
@[simp] theorem State.store_din (s : State) (r : Reg) (v : Word) : (s.store r v).din = s.din := rfl
@[simp] theorem State.store_dout (s : State) (r : Reg) (v : Word) : (s.store r v).dout = s.dout := rfl
@[simp] theorem State.store_status (s : State) (r : Reg) (v : Word) : (s.store r v).status = s.status := rfl
@[simp] theorem State.store_busy (s : State) (r : Reg) (v : Word) : (s.store r v).busy = s.busy := rfl
@[simp] theorem State.store_hReg (s : State) (r : Reg) (v : Word) : (s.store r v).hReg = s.hReg := rfl
@[simp] theorem State.store_hIrq (s : State) (r : Reg) (v : Word) : (s.store r v).hIrq = s.hIrq := rfl
@[simp] theorem State.store_hPrio (s : State) (r : Reg) (v : Word) : (s.store r v).hPrio = s.hPrio := rfl
@[simp] theorem State.store_hEn (s : State) (r : Reg) (v : Word) : (s.store r v).hEn = s.hEn := rfl
@[simp] theorem State.store_activePsc (s : State) (r : Reg) (v : Word) : (s.store r v).activePsc = s.activePsc := rfl
@[simp] theorem State.store_olat (s : State) (r : Reg) (v : Word) : (s.store r v).olat = s.olat := rfl
@[simp] theorem State.store_cmdValid (s : State) (r : Reg) (v : Word) : (s.store r v).cmdValid = s.cmdValid := rfl
@[simp] theorem State.store_cwIn (s : State) (r : Reg) (v : Word) : (s.store r v).cwIn = s.cwIn := rfl
@[simp] theorem State.store_dinIn (s : State) (r : Reg) (v : Word) : (s.store r v).dinIn = s.dinIn := rfl
@[simp] theorem State.store_portReq (s : State) (r : Reg) (v : Word) : (s.store r v).portReq = s.portReq := rfl
@[simp] theorem State.store_rdata (s : State) (r : Reg) (v : Word) : (s.store r v).rdata = s.rdata := rfl
@[simp] theorem State.store_wired (s : State) (r : Reg) (v : Word) : (s.store r v).wired = s.wired := rfl
@[simp] theorem State.store_asOutput (s : State) (r : Reg) (v : Word) : (s.store r v).asOutput = s.asOutput := rfl
@[simp] theorem State.store_driven (s : State) (r : Reg) (v : Word) : (s.store r v).driven = s.driven := rfl
@[simp] theorem State.store_moves (s : State) (r : Reg) (v : Word) : (s.store r v).moves = s.moves := rfl
@[simp] theorem State.store_draws (s : State) (r : Reg) (v : Word) : (s.store r v).draws = s.draws := rfl
@[simp] theorem State.store_record (s : State) (r : Reg) (v : Word) : (s.store r v).record = s.record := rfl
@[simp] theorem State.store_responses (s : State) (r : Reg) (v : Word) : (s.store r v).responses = s.responses := rfl

/-! ### `State.release` -/

@[simp] theorem State.release_cfg (s : State) (pin : Byte) : (s.release pin).cfg = s.cfg := rfl
@[simp] theorem State.release_tick (s : State) (pin : Byte) : (s.release pin).tick = s.tick := rfl
@[simp] theorem State.release_wake (s : State) (pin : Byte) : (s.release pin).wake = s.wake := rfl
@[simp] theorem State.release_slStart (s : State) (pin : Byte) : (s.release pin).slStart = s.slStart := rfl
@[simp] theorem State.release_slTarget (s : State) (pin : Byte) : (s.release pin).slTarget = s.slTarget := rfl
@[simp] theorem State.release_life (s : State) (pin : Byte) : (s.release pin).life = s.life := rfl
@[simp] theorem State.release_seq (s : State) (pin : Byte) : (s.release pin).seq = s.seq := rfl
@[simp] theorem State.release_iseq (s : State) (pin : Byte) : (s.release pin).iseq = s.iseq := rfl
@[simp] theorem State.release_fatal (s : State) (pin : Byte) : (s.release pin).fatal = s.fatal := rfl
@[simp] theorem State.release_fcause (s : State) (pin : Byte) : (s.release pin).fcause = s.fcause := rfl
@[simp] theorem State.release_fval (s : State) (pin : Byte) : (s.release pin).fval = s.fval := rfl
@[simp] theorem State.release_inIsr (s : State) (pin : Byte) : (s.release pin).inIsr = s.inIsr := rfl
@[simp] theorem State.release_cw (s : State) (pin : Byte) : (s.release pin).cw = s.cw := rfl
@[simp] theorem State.release_din (s : State) (pin : Byte) : (s.release pin).din = s.din := rfl
@[simp] theorem State.release_dout (s : State) (pin : Byte) : (s.release pin).dout = s.dout := rfl
@[simp] theorem State.release_status (s : State) (pin : Byte) : (s.release pin).status = s.status := rfl
@[simp] theorem State.release_busy (s : State) (pin : Byte) : (s.release pin).busy = s.busy := rfl
@[simp] theorem State.release_hReg (s : State) (pin : Byte) : (s.release pin).hReg = s.hReg := rfl
@[simp] theorem State.release_hIrq (s : State) (pin : Byte) : (s.release pin).hIrq = s.hIrq := rfl
@[simp] theorem State.release_hPrio (s : State) (pin : Byte) : (s.release pin).hPrio = s.hPrio := rfl
@[simp] theorem State.release_hEn (s : State) (pin : Byte) : (s.release pin).hEn = s.hEn := rfl
@[simp] theorem State.release_activePsc (s : State) (pin : Byte) : (s.release pin).activePsc = s.activePsc := rfl
@[simp] theorem State.release_olat (s : State) (pin : Byte) : (s.release pin).olat = s.olat := rfl
@[simp] theorem State.release_surface (s : State) (pin : Byte) : (s.release pin).surface = s.surface := rfl
@[simp] theorem State.release_cmdValid (s : State) (pin : Byte) : (s.release pin).cmdValid = s.cmdValid := rfl
@[simp] theorem State.release_cwIn (s : State) (pin : Byte) : (s.release pin).cwIn = s.cwIn := rfl
@[simp] theorem State.release_dinIn (s : State) (pin : Byte) : (s.release pin).dinIn = s.dinIn := rfl
@[simp] theorem State.release_portReq (s : State) (pin : Byte) : (s.release pin).portReq = s.portReq := rfl
@[simp] theorem State.release_rdata (s : State) (pin : Byte) : (s.release pin).rdata = s.rdata := rfl
@[simp] theorem State.release_wired (s : State) (pin : Byte) : (s.release pin).wired = s.wired := rfl
@[simp] theorem State.release_driven (s : State) (pin : Byte) : (s.release pin).driven = s.driven := rfl
@[simp] theorem State.release_moves (s : State) (pin : Byte) : (s.release pin).moves = s.moves := rfl
@[simp] theorem State.release_draws (s : State) (pin : Byte) : (s.release pin).draws = s.draws := rfl
@[simp] theorem State.release_record (s : State) (pin : Byte) : (s.release pin).record = s.record := rfl
@[simp] theorem State.release_responses (s : State) (pin : Byte) : (s.release pin).responses = s.responses := rfl

/-! ### `State.noted` -/

@[simp] theorem State.noted_cfg (s : State) (m : Move) : (s.noted m).cfg = s.cfg := rfl
@[simp] theorem State.noted_tick (s : State) (m : Move) : (s.noted m).tick = s.tick := rfl
@[simp] theorem State.noted_wake (s : State) (m : Move) : (s.noted m).wake = s.wake := rfl
@[simp] theorem State.noted_slStart (s : State) (m : Move) : (s.noted m).slStart = s.slStart := rfl
@[simp] theorem State.noted_slTarget (s : State) (m : Move) : (s.noted m).slTarget = s.slTarget := rfl
@[simp] theorem State.noted_life (s : State) (m : Move) : (s.noted m).life = s.life := rfl
@[simp] theorem State.noted_seq (s : State) (m : Move) : (s.noted m).seq = s.seq := rfl
@[simp] theorem State.noted_iseq (s : State) (m : Move) : (s.noted m).iseq = s.iseq := rfl
@[simp] theorem State.noted_fatal (s : State) (m : Move) : (s.noted m).fatal = s.fatal := rfl
@[simp] theorem State.noted_fcause (s : State) (m : Move) : (s.noted m).fcause = s.fcause := rfl
@[simp] theorem State.noted_fval (s : State) (m : Move) : (s.noted m).fval = s.fval := rfl
@[simp] theorem State.noted_inIsr (s : State) (m : Move) : (s.noted m).inIsr = s.inIsr := rfl
@[simp] theorem State.noted_cw (s : State) (m : Move) : (s.noted m).cw = s.cw := rfl
@[simp] theorem State.noted_din (s : State) (m : Move) : (s.noted m).din = s.din := rfl
@[simp] theorem State.noted_dout (s : State) (m : Move) : (s.noted m).dout = s.dout := rfl
@[simp] theorem State.noted_status (s : State) (m : Move) : (s.noted m).status = s.status := rfl
@[simp] theorem State.noted_busy (s : State) (m : Move) : (s.noted m).busy = s.busy := rfl
@[simp] theorem State.noted_hReg (s : State) (m : Move) : (s.noted m).hReg = s.hReg := rfl
@[simp] theorem State.noted_hIrq (s : State) (m : Move) : (s.noted m).hIrq = s.hIrq := rfl
@[simp] theorem State.noted_hPrio (s : State) (m : Move) : (s.noted m).hPrio = s.hPrio := rfl
@[simp] theorem State.noted_hEn (s : State) (m : Move) : (s.noted m).hEn = s.hEn := rfl
@[simp] theorem State.noted_activePsc (s : State) (m : Move) : (s.noted m).activePsc = s.activePsc := rfl
@[simp] theorem State.noted_olat (s : State) (m : Move) : (s.noted m).olat = s.olat := rfl
@[simp] theorem State.noted_surface (s : State) (m : Move) : (s.noted m).surface = s.surface := rfl
@[simp] theorem State.noted_cmdValid (s : State) (m : Move) : (s.noted m).cmdValid = s.cmdValid := rfl
@[simp] theorem State.noted_cwIn (s : State) (m : Move) : (s.noted m).cwIn = s.cwIn := rfl
@[simp] theorem State.noted_dinIn (s : State) (m : Move) : (s.noted m).dinIn = s.dinIn := rfl
@[simp] theorem State.noted_portReq (s : State) (m : Move) : (s.noted m).portReq = s.portReq := rfl
@[simp] theorem State.noted_rdata (s : State) (m : Move) : (s.noted m).rdata = s.rdata := rfl
@[simp] theorem State.noted_wired (s : State) (m : Move) : (s.noted m).wired = s.wired := rfl
@[simp] theorem State.noted_asOutput (s : State) (m : Move) : (s.noted m).asOutput = s.asOutput := rfl
@[simp] theorem State.noted_driven (s : State) (m : Move) : (s.noted m).driven = s.driven := rfl
@[simp] theorem State.noted_moves (s : State) (m : Move) : (s.noted m).moves = s.moves := rfl
@[simp] theorem State.noted_draws (s : State) (m : Move) : (s.noted m).draws = s.draws := rfl
@[simp] theorem State.noted_record (s : State) (m : Move) : (s.noted m).record = s.record ++ [⟨.env, .env m, none⟩] := rfl
@[simp] theorem State.noted_responses (s : State) (m : Move) : (s.noted m).responses = s.responses := rfl

end Sys2Proof.Machine
end

