-- ==== Sys2Proof/Laws/Pins.lean ====
section
/-! SUPPORT. What the operations about the pins of R135 can do: to the two lists of pins, to the input bits of the tied pins, and to
nothing else. -/
namespace Sys2Proof.Machine

/-- Two registers with the same ordinal are the same register (R101). -/
theorem Reg_ordinal_inj (r q : Reg) (h : r.ordinal = q.ordinal) : r = q := by
  cases r <;> cases q <;> simp only [Reg.ordinal] at h <;> first | rfl | omega | (congr 1; omega)

@[simp] theorem State.peek_poke_same (s : State) (r : Reg) (v : Word) (h : Cells.wf s.surface = true) :
    (s.poke r v).peek r = v := Cells.read_write_same _ _ _ h

theorem State.peek_poke_other (s : State) (r q : Reg) (v : Word) (h : q ≠ r) :
    (s.poke r v).peek q = s.peek q :=
  Cells.read_write_other _ _ _ _ fun e => h (Reg_ordinal_inj _ _ e)

/-- What ENV does to a tied port's input bits is a field of `PIN_IN` and nothing else (R135). -/
theorem State.follow_cases (s : State) (p : Nat) :
    s.follow p = s ∨ s.follow p = s.pokeField (.pinIn p) ((s.tied p).setWidth 32) ((s.latch p).setWidth 32) := by
  unfold State.follow
  dsimp only
  split
  · exact .inl rfl
  · exact .inr rfl

@[simp] theorem State.follow_olat (s : State) (p : Nat) : (s.follow p).olat = s.olat := by
  rcases s.follow_cases p with h | h
  · rw [h]
  · rw [h]; rfl

theorem State.peek_follow_other (s : State) (p : Nat) (q : Reg) (h : q ≠ .pinIn p) : (s.follow p).peek q = s.peek q := by
  rcases s.follow_cases p with e | e <;> rw [e]
  exact State.peek_poke_other _ _ _ _ h

/-! ### Frames -/

/-- Two states that agree but for the two lists of pins and the surface. -/
def onlyPins (s t : State) : Prop :=
  ∃ (a d : Cells 16) (su : Cells 32), t = { s with asOutput := a, driven := d, surface := su }

theorem onlyPins_refl (s : State) : onlyPins s s := ⟨s.asOutput, s.driven, s.surface, rfl⟩

theorem onlyPins_trans {s t u : State} (h : onlyPins s t) (k : onlyPins t u) : onlyPins s u := by
  obtain ⟨_, _, _, rfl⟩ := h
  obtain ⟨a, d, su, rfl⟩ := k
  exact ⟨a, d, su, rfl⟩

theorem onlyPins_follow (s : State) (p : Nat) : onlyPins s (s.follow p) := by
  rcases s.follow_cases p with h | h <;> rw [h]
  · exact onlyPins_refl s
  · exact ⟨s.asOutput, s.driven, _, rfl⟩

/-- The fold of `settle`, over any list of ports. -/
def State.followAll (s : State) (l : Cells 16) : State := l.foldl (fun t c => t.follow c.1) s

theorem onlyPins_followAll (l : Cells 16) (s : State) : onlyPins s (s.followAll l) := by
  induction l generalizing s with
  | nil => exact onlyPins_refl s
  | cons c l ih => exact onlyPins_trans (onlyPins_follow s c.1) (ih _)

theorem onlyPins_settle (s : State) : onlyPins s s.settle := onlyPins_followAll s.wired s

theorem onlyPins_release (s : State) (pin : Byte) : onlyPins s (s.release pin) := ⟨_, s.driven, s.surface, rfl⟩

theorem onlyPins_drive (s : State) (pin : Byte) : onlyPins s (s.drive pin) := ⟨s.asOutput, _, s.surface, rfl⟩

/-- A completed CONFIGURE marks the pin where its mode is an output's, and nothing else but the port's input bits. -/
theorem configured_cases (s : State) (pin mode : Byte) :
    (s.cfg.outputModes.contains mode = false ∧ s.configured pin mode = s) ∨
    (s.cfg.outputModes.contains mode = true ∧ s.configured pin mode =
      { s with asOutput := Cells.write s.asOutput (portOf pin) (Cells.read s.asOutput (portOf pin) ||| pinBit pin) }.follow
        (portOf pin)) := by
  unfold State.configured
  dsimp only
  split
  · rename_i h
    exact .inr ⟨h, rfl⟩
  · rename_i h
    exact .inl ⟨by simpa using h, rfl⟩

theorem onlyPins_configured (s : State) (pin mode : Byte) : onlyPins s (s.configured pin mode) := by
  rcases configured_cases s pin mode with ⟨-, h⟩ | ⟨-, h⟩ <;> rw [h]
  · exact onlyPins_refl s
  · refine onlyPins_trans ?_ (onlyPins_follow _ _)
    exact ⟨_, s.driven, s.surface, rfl⟩

theorem onlyPins_disturb (s : State) (r : Reg) : onlyPins s (s.disturb r) := by
  unfold State.disturb
  split
  · exact ⟨_, s.driven, s.surface, rfl⟩
  · exact ⟨_, s.driven, s.surface, rfl⟩
  · exact ⟨_, s.driven, s.surface, rfl⟩
  · exact onlyPins_settle s
  · exact onlyPins_refl s

/-- A register that is no pin control register and no register of port gates disturbs no pin. -/
theorem disturb_other (s : State) (r : Reg) (hg : r ≠ .clkenGpio) (ha : ∀ p, r ≠ .ctlA p) (hb : ∀ p, r ≠ .ctlB p)
    (ho : ∀ p, r ≠ .outType p) : s.disturb r = s := by
  cases r <;> first | rfl | (exact absurd rfl hg) | (exact absurd rfl (ha _)) | (exact absurd rfl (hb _)) | exact absurd rfl (ho _)

/-! ### Fields `follow` leaves alone -/

@[simp] theorem State.follow_cfg (s : State) (p : Nat) : (s.follow p).cfg = s.cfg := by
  obtain ⟨_, _, _, h⟩ := onlyPins_follow s p; rw [h]
@[simp] theorem State.follow_tick (s : State) (p : Nat) : (s.follow p).tick = s.tick := by
  obtain ⟨_, _, _, h⟩ := onlyPins_follow s p; rw [h]
@[simp] theorem State.follow_wake (s : State) (p : Nat) : (s.follow p).wake = s.wake := by
  obtain ⟨_, _, _, h⟩ := onlyPins_follow s p; rw [h]
@[simp] theorem State.follow_slStart (s : State) (p : Nat) : (s.follow p).slStart = s.slStart := by
  obtain ⟨_, _, _, h⟩ := onlyPins_follow s p; rw [h]
@[simp] theorem State.follow_slTarget (s : State) (p : Nat) : (s.follow p).slTarget = s.slTarget := by
  obtain ⟨_, _, _, h⟩ := onlyPins_follow s p; rw [h]
@[simp] theorem State.follow_life (s : State) (p : Nat) : (s.follow p).life = s.life := by
  obtain ⟨_, _, _, h⟩ := onlyPins_follow s p; rw [h]
@[simp] theorem State.follow_seq (s : State) (p : Nat) : (s.follow p).seq = s.seq := by
  obtain ⟨_, _, _, h⟩ := onlyPins_follow s p; rw [h]
@[simp] theorem State.follow_iseq (s : State) (p : Nat) : (s.follow p).iseq = s.iseq := by
  obtain ⟨_, _, _, h⟩ := onlyPins_follow s p; rw [h]
@[simp] theorem State.follow_fatal (s : State) (p : Nat) : (s.follow p).fatal = s.fatal := by
  obtain ⟨_, _, _, h⟩ := onlyPins_follow s p; rw [h]
@[simp] theorem State.follow_fcause (s : State) (p : Nat) : (s.follow p).fcause = s.fcause := by
  obtain ⟨_, _, _, h⟩ := onlyPins_follow s p; rw [h]
@[simp] theorem State.follow_fval (s : State) (p : Nat) : (s.follow p).fval = s.fval := by
  obtain ⟨_, _, _, h⟩ := onlyPins_follow s p; rw [h]
@[simp] theorem State.follow_inIsr (s : State) (p : Nat) : (s.follow p).inIsr = s.inIsr := by
  obtain ⟨_, _, _, h⟩ := onlyPins_follow s p; rw [h]
@[simp] theorem State.follow_cw (s : State) (p : Nat) : (s.follow p).cw = s.cw := by
  obtain ⟨_, _, _, h⟩ := onlyPins_follow s p; rw [h]
@[simp] theorem State.follow_din (s : State) (p : Nat) : (s.follow p).din = s.din := by
  obtain ⟨_, _, _, h⟩ := onlyPins_follow s p; rw [h]
@[simp] theorem State.follow_dout (s : State) (p : Nat) : (s.follow p).dout = s.dout := by
  obtain ⟨_, _, _, h⟩ := onlyPins_follow s p; rw [h]
@[simp] theorem State.follow_status (s : State) (p : Nat) : (s.follow p).status = s.status := by
  obtain ⟨_, _, _, h⟩ := onlyPins_follow s p; rw [h]
@[simp] theorem State.follow_busy (s : State) (p : Nat) : (s.follow p).busy = s.busy := by
  obtain ⟨_, _, _, h⟩ := onlyPins_follow s p; rw [h]
@[simp] theorem State.follow_hReg (s : State) (p : Nat) : (s.follow p).hReg = s.hReg := by
  obtain ⟨_, _, _, h⟩ := onlyPins_follow s p; rw [h]
@[simp] theorem State.follow_hIrq (s : State) (p : Nat) : (s.follow p).hIrq = s.hIrq := by
  obtain ⟨_, _, _, h⟩ := onlyPins_follow s p; rw [h]
@[simp] theorem State.follow_hPrio (s : State) (p : Nat) : (s.follow p).hPrio = s.hPrio := by
  obtain ⟨_, _, _, h⟩ := onlyPins_follow s p; rw [h]
@[simp] theorem State.follow_hEn (s : State) (p : Nat) : (s.follow p).hEn = s.hEn := by
  obtain ⟨_, _, _, h⟩ := onlyPins_follow s p; rw [h]
@[simp] theorem State.follow_activePsc (s : State) (p : Nat) : (s.follow p).activePsc = s.activePsc := by
  obtain ⟨_, _, _, h⟩ := onlyPins_follow s p; rw [h]
@[simp] theorem State.follow_cmdValid (s : State) (p : Nat) : (s.follow p).cmdValid = s.cmdValid := by
  obtain ⟨_, _, _, h⟩ := onlyPins_follow s p; rw [h]
@[simp] theorem State.follow_cwIn (s : State) (p : Nat) : (s.follow p).cwIn = s.cwIn := by
  obtain ⟨_, _, _, h⟩ := onlyPins_follow s p; rw [h]
@[simp] theorem State.follow_dinIn (s : State) (p : Nat) : (s.follow p).dinIn = s.dinIn := by
  obtain ⟨_, _, _, h⟩ := onlyPins_follow s p; rw [h]
@[simp] theorem State.follow_portReq (s : State) (p : Nat) : (s.follow p).portReq = s.portReq := by
  obtain ⟨_, _, _, h⟩ := onlyPins_follow s p; rw [h]
@[simp] theorem State.follow_rdata (s : State) (p : Nat) : (s.follow p).rdata = s.rdata := by
  obtain ⟨_, _, _, h⟩ := onlyPins_follow s p; rw [h]
@[simp] theorem State.follow_wired (s : State) (p : Nat) : (s.follow p).wired = s.wired := by
  obtain ⟨_, _, _, h⟩ := onlyPins_follow s p; rw [h]
@[simp] theorem State.follow_moves (s : State) (p : Nat) : (s.follow p).moves = s.moves := by
  obtain ⟨_, _, _, h⟩ := onlyPins_follow s p; rw [h]
@[simp] theorem State.follow_draws (s : State) (p : Nat) : (s.follow p).draws = s.draws := by
  obtain ⟨_, _, _, h⟩ := onlyPins_follow s p; rw [h]
@[simp] theorem State.follow_record (s : State) (p : Nat) : (s.follow p).record = s.record := by
  obtain ⟨_, _, _, h⟩ := onlyPins_follow s p; rw [h]
@[simp] theorem State.follow_responses (s : State) (p : Nat) : (s.follow p).responses = s.responses := by
  obtain ⟨_, _, _, h⟩ := onlyPins_follow s p; rw [h]

/-! ### Fields `settle` leaves alone -/

@[simp] theorem State.settle_cfg (s : State) : s.settle.cfg = s.cfg := by
  obtain ⟨_, _, _, h⟩ := onlyPins_settle s; rw [h]
@[simp] theorem State.settle_tick (s : State) : s.settle.tick = s.tick := by
  obtain ⟨_, _, _, h⟩ := onlyPins_settle s; rw [h]
@[simp] theorem State.settle_wake (s : State) : s.settle.wake = s.wake := by
  obtain ⟨_, _, _, h⟩ := onlyPins_settle s; rw [h]
@[simp] theorem State.settle_slStart (s : State) : s.settle.slStart = s.slStart := by
  obtain ⟨_, _, _, h⟩ := onlyPins_settle s; rw [h]
@[simp] theorem State.settle_slTarget (s : State) : s.settle.slTarget = s.slTarget := by
  obtain ⟨_, _, _, h⟩ := onlyPins_settle s; rw [h]
@[simp] theorem State.settle_life (s : State) : s.settle.life = s.life := by
  obtain ⟨_, _, _, h⟩ := onlyPins_settle s; rw [h]
@[simp] theorem State.settle_seq (s : State) : s.settle.seq = s.seq := by
  obtain ⟨_, _, _, h⟩ := onlyPins_settle s; rw [h]
@[simp] theorem State.settle_iseq (s : State) : s.settle.iseq = s.iseq := by
  obtain ⟨_, _, _, h⟩ := onlyPins_settle s; rw [h]
@[simp] theorem State.settle_fatal (s : State) : s.settle.fatal = s.fatal := by
  obtain ⟨_, _, _, h⟩ := onlyPins_settle s; rw [h]
@[simp] theorem State.settle_fcause (s : State) : s.settle.fcause = s.fcause := by
  obtain ⟨_, _, _, h⟩ := onlyPins_settle s; rw [h]
@[simp] theorem State.settle_fval (s : State) : s.settle.fval = s.fval := by
  obtain ⟨_, _, _, h⟩ := onlyPins_settle s; rw [h]
@[simp] theorem State.settle_inIsr (s : State) : s.settle.inIsr = s.inIsr := by
  obtain ⟨_, _, _, h⟩ := onlyPins_settle s; rw [h]
@[simp] theorem State.settle_cw (s : State) : s.settle.cw = s.cw := by
  obtain ⟨_, _, _, h⟩ := onlyPins_settle s; rw [h]
@[simp] theorem State.settle_din (s : State) : s.settle.din = s.din := by
  obtain ⟨_, _, _, h⟩ := onlyPins_settle s; rw [h]
@[simp] theorem State.settle_dout (s : State) : s.settle.dout = s.dout := by
  obtain ⟨_, _, _, h⟩ := onlyPins_settle s; rw [h]
@[simp] theorem State.settle_status (s : State) : s.settle.status = s.status := by
  obtain ⟨_, _, _, h⟩ := onlyPins_settle s; rw [h]
@[simp] theorem State.settle_busy (s : State) : s.settle.busy = s.busy := by
  obtain ⟨_, _, _, h⟩ := onlyPins_settle s; rw [h]
@[simp] theorem State.settle_hReg (s : State) : s.settle.hReg = s.hReg := by
  obtain ⟨_, _, _, h⟩ := onlyPins_settle s; rw [h]
@[simp] theorem State.settle_hIrq (s : State) : s.settle.hIrq = s.hIrq := by
  obtain ⟨_, _, _, h⟩ := onlyPins_settle s; rw [h]
@[simp] theorem State.settle_hPrio (s : State) : s.settle.hPrio = s.hPrio := by
  obtain ⟨_, _, _, h⟩ := onlyPins_settle s; rw [h]
@[simp] theorem State.settle_hEn (s : State) : s.settle.hEn = s.hEn := by
  obtain ⟨_, _, _, h⟩ := onlyPins_settle s; rw [h]
@[simp] theorem State.settle_activePsc (s : State) : s.settle.activePsc = s.activePsc := by
  obtain ⟨_, _, _, h⟩ := onlyPins_settle s; rw [h]
@[simp] theorem State.settle_olat (s : State) : s.settle.olat = s.olat := by
  obtain ⟨_, _, _, h⟩ := onlyPins_settle s; rw [h]
@[simp] theorem State.settle_cmdValid (s : State) : s.settle.cmdValid = s.cmdValid := by
  obtain ⟨_, _, _, h⟩ := onlyPins_settle s; rw [h]
@[simp] theorem State.settle_cwIn (s : State) : s.settle.cwIn = s.cwIn := by
  obtain ⟨_, _, _, h⟩ := onlyPins_settle s; rw [h]
@[simp] theorem State.settle_dinIn (s : State) : s.settle.dinIn = s.dinIn := by
  obtain ⟨_, _, _, h⟩ := onlyPins_settle s; rw [h]
@[simp] theorem State.settle_portReq (s : State) : s.settle.portReq = s.portReq := by
  obtain ⟨_, _, _, h⟩ := onlyPins_settle s; rw [h]
@[simp] theorem State.settle_rdata (s : State) : s.settle.rdata = s.rdata := by
  obtain ⟨_, _, _, h⟩ := onlyPins_settle s; rw [h]
@[simp] theorem State.settle_wired (s : State) : s.settle.wired = s.wired := by
  obtain ⟨_, _, _, h⟩ := onlyPins_settle s; rw [h]
@[simp] theorem State.settle_moves (s : State) : s.settle.moves = s.moves := by
  obtain ⟨_, _, _, h⟩ := onlyPins_settle s; rw [h]
@[simp] theorem State.settle_draws (s : State) : s.settle.draws = s.draws := by
  obtain ⟨_, _, _, h⟩ := onlyPins_settle s; rw [h]
@[simp] theorem State.settle_record (s : State) : s.settle.record = s.record := by
  obtain ⟨_, _, _, h⟩ := onlyPins_settle s; rw [h]
@[simp] theorem State.settle_responses (s : State) : s.settle.responses = s.responses := by
  obtain ⟨_, _, _, h⟩ := onlyPins_settle s; rw [h]

/-! ### Fields `configured` leaves alone -/

@[simp] theorem State.configured_cfg (s : State) (pin mode : Byte) : (s.configured pin mode).cfg = s.cfg := by
  obtain ⟨_, _, _, h⟩ := onlyPins_configured s pin mode; rw [h]
@[simp] theorem State.configured_tick (s : State) (pin mode : Byte) : (s.configured pin mode).tick = s.tick := by
  obtain ⟨_, _, _, h⟩ := onlyPins_configured s pin mode; rw [h]
@[simp] theorem State.configured_wake (s : State) (pin mode : Byte) : (s.configured pin mode).wake = s.wake := by
  obtain ⟨_, _, _, h⟩ := onlyPins_configured s pin mode; rw [h]
@[simp] theorem State.configured_slStart (s : State) (pin mode : Byte) : (s.configured pin mode).slStart = s.slStart := by
  obtain ⟨_, _, _, h⟩ := onlyPins_configured s pin mode; rw [h]
@[simp] theorem State.configured_slTarget (s : State) (pin mode : Byte) : (s.configured pin mode).slTarget = s.slTarget := by
  obtain ⟨_, _, _, h⟩ := onlyPins_configured s pin mode; rw [h]
@[simp] theorem State.configured_life (s : State) (pin mode : Byte) : (s.configured pin mode).life = s.life := by
  obtain ⟨_, _, _, h⟩ := onlyPins_configured s pin mode; rw [h]
@[simp] theorem State.configured_seq (s : State) (pin mode : Byte) : (s.configured pin mode).seq = s.seq := by
  obtain ⟨_, _, _, h⟩ := onlyPins_configured s pin mode; rw [h]
@[simp] theorem State.configured_iseq (s : State) (pin mode : Byte) : (s.configured pin mode).iseq = s.iseq := by
  obtain ⟨_, _, _, h⟩ := onlyPins_configured s pin mode; rw [h]
@[simp] theorem State.configured_fatal (s : State) (pin mode : Byte) : (s.configured pin mode).fatal = s.fatal := by
  obtain ⟨_, _, _, h⟩ := onlyPins_configured s pin mode; rw [h]
@[simp] theorem State.configured_fcause (s : State) (pin mode : Byte) : (s.configured pin mode).fcause = s.fcause := by
  obtain ⟨_, _, _, h⟩ := onlyPins_configured s pin mode; rw [h]
@[simp] theorem State.configured_fval (s : State) (pin mode : Byte) : (s.configured pin mode).fval = s.fval := by
  obtain ⟨_, _, _, h⟩ := onlyPins_configured s pin mode; rw [h]
@[simp] theorem State.configured_inIsr (s : State) (pin mode : Byte) : (s.configured pin mode).inIsr = s.inIsr := by
  obtain ⟨_, _, _, h⟩ := onlyPins_configured s pin mode; rw [h]
@[simp] theorem State.configured_cw (s : State) (pin mode : Byte) : (s.configured pin mode).cw = s.cw := by
  obtain ⟨_, _, _, h⟩ := onlyPins_configured s pin mode; rw [h]
@[simp] theorem State.configured_din (s : State) (pin mode : Byte) : (s.configured pin mode).din = s.din := by
  obtain ⟨_, _, _, h⟩ := onlyPins_configured s pin mode; rw [h]
@[simp] theorem State.configured_dout (s : State) (pin mode : Byte) : (s.configured pin mode).dout = s.dout := by
  obtain ⟨_, _, _, h⟩ := onlyPins_configured s pin mode; rw [h]
@[simp] theorem State.configured_status (s : State) (pin mode : Byte) : (s.configured pin mode).status = s.status := by
  obtain ⟨_, _, _, h⟩ := onlyPins_configured s pin mode; rw [h]
@[simp] theorem State.configured_busy (s : State) (pin mode : Byte) : (s.configured pin mode).busy = s.busy := by
  obtain ⟨_, _, _, h⟩ := onlyPins_configured s pin mode; rw [h]
@[simp] theorem State.configured_hReg (s : State) (pin mode : Byte) : (s.configured pin mode).hReg = s.hReg := by
  obtain ⟨_, _, _, h⟩ := onlyPins_configured s pin mode; rw [h]
@[simp] theorem State.configured_hIrq (s : State) (pin mode : Byte) : (s.configured pin mode).hIrq = s.hIrq := by
  obtain ⟨_, _, _, h⟩ := onlyPins_configured s pin mode; rw [h]
@[simp] theorem State.configured_hPrio (s : State) (pin mode : Byte) : (s.configured pin mode).hPrio = s.hPrio := by
  obtain ⟨_, _, _, h⟩ := onlyPins_configured s pin mode; rw [h]
@[simp] theorem State.configured_hEn (s : State) (pin mode : Byte) : (s.configured pin mode).hEn = s.hEn := by
  obtain ⟨_, _, _, h⟩ := onlyPins_configured s pin mode; rw [h]
@[simp] theorem State.configured_activePsc (s : State) (pin mode : Byte) : (s.configured pin mode).activePsc = s.activePsc := by
  obtain ⟨_, _, _, h⟩ := onlyPins_configured s pin mode; rw [h]
@[simp] theorem State.configured_olat (s : State) (pin mode : Byte) : (s.configured pin mode).olat = s.olat := by
  obtain ⟨_, _, _, h⟩ := onlyPins_configured s pin mode; rw [h]
@[simp] theorem State.configured_cmdValid (s : State) (pin mode : Byte) : (s.configured pin mode).cmdValid = s.cmdValid := by
  obtain ⟨_, _, _, h⟩ := onlyPins_configured s pin mode; rw [h]
@[simp] theorem State.configured_cwIn (s : State) (pin mode : Byte) : (s.configured pin mode).cwIn = s.cwIn := by
  obtain ⟨_, _, _, h⟩ := onlyPins_configured s pin mode; rw [h]
@[simp] theorem State.configured_dinIn (s : State) (pin mode : Byte) : (s.configured pin mode).dinIn = s.dinIn := by
  obtain ⟨_, _, _, h⟩ := onlyPins_configured s pin mode; rw [h]
@[simp] theorem State.configured_portReq (s : State) (pin mode : Byte) : (s.configured pin mode).portReq = s.portReq := by
  obtain ⟨_, _, _, h⟩ := onlyPins_configured s pin mode; rw [h]
@[simp] theorem State.configured_rdata (s : State) (pin mode : Byte) : (s.configured pin mode).rdata = s.rdata := by
  obtain ⟨_, _, _, h⟩ := onlyPins_configured s pin mode; rw [h]
@[simp] theorem State.configured_wired (s : State) (pin mode : Byte) : (s.configured pin mode).wired = s.wired := by
  obtain ⟨_, _, _, h⟩ := onlyPins_configured s pin mode; rw [h]
@[simp] theorem State.configured_moves (s : State) (pin mode : Byte) : (s.configured pin mode).moves = s.moves := by
  obtain ⟨_, _, _, h⟩ := onlyPins_configured s pin mode; rw [h]
@[simp] theorem State.configured_draws (s : State) (pin mode : Byte) : (s.configured pin mode).draws = s.draws := by
  obtain ⟨_, _, _, h⟩ := onlyPins_configured s pin mode; rw [h]
@[simp] theorem State.configured_record (s : State) (pin mode : Byte) : (s.configured pin mode).record = s.record := by
  obtain ⟨_, _, _, h⟩ := onlyPins_configured s pin mode; rw [h]
@[simp] theorem State.configured_responses (s : State) (pin mode : Byte) : (s.configured pin mode).responses = s.responses := by
  obtain ⟨_, _, _, h⟩ := onlyPins_configured s pin mode; rw [h]

/-! ### Fields `disturb` leaves alone -/

@[simp] theorem State.disturb_cfg (s : State) (r : Reg) : (s.disturb r).cfg = s.cfg := by
  obtain ⟨_, _, _, h⟩ := onlyPins_disturb s r; rw [h]
@[simp] theorem State.disturb_tick (s : State) (r : Reg) : (s.disturb r).tick = s.tick := by
  obtain ⟨_, _, _, h⟩ := onlyPins_disturb s r; rw [h]
@[simp] theorem State.disturb_wake (s : State) (r : Reg) : (s.disturb r).wake = s.wake := by
  obtain ⟨_, _, _, h⟩ := onlyPins_disturb s r; rw [h]
@[simp] theorem State.disturb_slStart (s : State) (r : Reg) : (s.disturb r).slStart = s.slStart := by
  obtain ⟨_, _, _, h⟩ := onlyPins_disturb s r; rw [h]
@[simp] theorem State.disturb_slTarget (s : State) (r : Reg) : (s.disturb r).slTarget = s.slTarget := by
  obtain ⟨_, _, _, h⟩ := onlyPins_disturb s r; rw [h]
@[simp] theorem State.disturb_life (s : State) (r : Reg) : (s.disturb r).life = s.life := by
  obtain ⟨_, _, _, h⟩ := onlyPins_disturb s r; rw [h]
@[simp] theorem State.disturb_seq (s : State) (r : Reg) : (s.disturb r).seq = s.seq := by
  obtain ⟨_, _, _, h⟩ := onlyPins_disturb s r; rw [h]
@[simp] theorem State.disturb_iseq (s : State) (r : Reg) : (s.disturb r).iseq = s.iseq := by
  obtain ⟨_, _, _, h⟩ := onlyPins_disturb s r; rw [h]
@[simp] theorem State.disturb_fatal (s : State) (r : Reg) : (s.disturb r).fatal = s.fatal := by
  obtain ⟨_, _, _, h⟩ := onlyPins_disturb s r; rw [h]
@[simp] theorem State.disturb_fcause (s : State) (r : Reg) : (s.disturb r).fcause = s.fcause := by
  obtain ⟨_, _, _, h⟩ := onlyPins_disturb s r; rw [h]
@[simp] theorem State.disturb_fval (s : State) (r : Reg) : (s.disturb r).fval = s.fval := by
  obtain ⟨_, _, _, h⟩ := onlyPins_disturb s r; rw [h]
@[simp] theorem State.disturb_inIsr (s : State) (r : Reg) : (s.disturb r).inIsr = s.inIsr := by
  obtain ⟨_, _, _, h⟩ := onlyPins_disturb s r; rw [h]
@[simp] theorem State.disturb_cw (s : State) (r : Reg) : (s.disturb r).cw = s.cw := by
  obtain ⟨_, _, _, h⟩ := onlyPins_disturb s r; rw [h]
@[simp] theorem State.disturb_din (s : State) (r : Reg) : (s.disturb r).din = s.din := by
  obtain ⟨_, _, _, h⟩ := onlyPins_disturb s r; rw [h]
@[simp] theorem State.disturb_dout (s : State) (r : Reg) : (s.disturb r).dout = s.dout := by
  obtain ⟨_, _, _, h⟩ := onlyPins_disturb s r; rw [h]
@[simp] theorem State.disturb_status (s : State) (r : Reg) : (s.disturb r).status = s.status := by
  obtain ⟨_, _, _, h⟩ := onlyPins_disturb s r; rw [h]
@[simp] theorem State.disturb_busy (s : State) (r : Reg) : (s.disturb r).busy = s.busy := by
  obtain ⟨_, _, _, h⟩ := onlyPins_disturb s r; rw [h]
@[simp] theorem State.disturb_hReg (s : State) (r : Reg) : (s.disturb r).hReg = s.hReg := by
  obtain ⟨_, _, _, h⟩ := onlyPins_disturb s r; rw [h]
@[simp] theorem State.disturb_hIrq (s : State) (r : Reg) : (s.disturb r).hIrq = s.hIrq := by
  obtain ⟨_, _, _, h⟩ := onlyPins_disturb s r; rw [h]
@[simp] theorem State.disturb_hPrio (s : State) (r : Reg) : (s.disturb r).hPrio = s.hPrio := by
  obtain ⟨_, _, _, h⟩ := onlyPins_disturb s r; rw [h]
@[simp] theorem State.disturb_hEn (s : State) (r : Reg) : (s.disturb r).hEn = s.hEn := by
  obtain ⟨_, _, _, h⟩ := onlyPins_disturb s r; rw [h]
@[simp] theorem State.disturb_activePsc (s : State) (r : Reg) : (s.disturb r).activePsc = s.activePsc := by
  obtain ⟨_, _, _, h⟩ := onlyPins_disturb s r; rw [h]
@[simp] theorem State.disturb_olat (s : State) (r : Reg) : (s.disturb r).olat = s.olat := by
  obtain ⟨_, _, _, h⟩ := onlyPins_disturb s r; rw [h]
@[simp] theorem State.disturb_cmdValid (s : State) (r : Reg) : (s.disturb r).cmdValid = s.cmdValid := by
  obtain ⟨_, _, _, h⟩ := onlyPins_disturb s r; rw [h]
@[simp] theorem State.disturb_cwIn (s : State) (r : Reg) : (s.disturb r).cwIn = s.cwIn := by
  obtain ⟨_, _, _, h⟩ := onlyPins_disturb s r; rw [h]
@[simp] theorem State.disturb_dinIn (s : State) (r : Reg) : (s.disturb r).dinIn = s.dinIn := by
  obtain ⟨_, _, _, h⟩ := onlyPins_disturb s r; rw [h]
@[simp] theorem State.disturb_portReq (s : State) (r : Reg) : (s.disturb r).portReq = s.portReq := by
  obtain ⟨_, _, _, h⟩ := onlyPins_disturb s r; rw [h]
@[simp] theorem State.disturb_rdata (s : State) (r : Reg) : (s.disturb r).rdata = s.rdata := by
  obtain ⟨_, _, _, h⟩ := onlyPins_disturb s r; rw [h]
@[simp] theorem State.disturb_wired (s : State) (r : Reg) : (s.disturb r).wired = s.wired := by
  obtain ⟨_, _, _, h⟩ := onlyPins_disturb s r; rw [h]
@[simp] theorem State.disturb_moves (s : State) (r : Reg) : (s.disturb r).moves = s.moves := by
  obtain ⟨_, _, _, h⟩ := onlyPins_disturb s r; rw [h]
@[simp] theorem State.disturb_draws (s : State) (r : Reg) : (s.disturb r).draws = s.draws := by
  obtain ⟨_, _, _, h⟩ := onlyPins_disturb s r; rw [h]
@[simp] theorem State.disturb_record (s : State) (r : Reg) : (s.disturb r).record = s.record := by
  obtain ⟨_, _, _, h⟩ := onlyPins_disturb s r; rw [h]
@[simp] theorem State.disturb_responses (s : State) (r : Reg) : (s.disturb r).responses = s.responses := by
  obtain ⟨_, _, _, h⟩ := onlyPins_disturb s r; rw [h]

/-! ### Fields `drive` leaves alone -/

@[simp] theorem State.drive_cfg (s : State) (pin : Byte) : (s.drive pin).cfg = s.cfg := rfl
@[simp] theorem State.drive_tick (s : State) (pin : Byte) : (s.drive pin).tick = s.tick := rfl
@[simp] theorem State.drive_wake (s : State) (pin : Byte) : (s.drive pin).wake = s.wake := rfl
@[simp] theorem State.drive_slStart (s : State) (pin : Byte) : (s.drive pin).slStart = s.slStart := rfl
@[simp] theorem State.drive_slTarget (s : State) (pin : Byte) : (s.drive pin).slTarget = s.slTarget := rfl
@[simp] theorem State.drive_life (s : State) (pin : Byte) : (s.drive pin).life = s.life := rfl
@[simp] theorem State.drive_seq (s : State) (pin : Byte) : (s.drive pin).seq = s.seq := rfl
@[simp] theorem State.drive_iseq (s : State) (pin : Byte) : (s.drive pin).iseq = s.iseq := rfl
@[simp] theorem State.drive_fatal (s : State) (pin : Byte) : (s.drive pin).fatal = s.fatal := rfl
@[simp] theorem State.drive_fcause (s : State) (pin : Byte) : (s.drive pin).fcause = s.fcause := rfl
@[simp] theorem State.drive_fval (s : State) (pin : Byte) : (s.drive pin).fval = s.fval := rfl
@[simp] theorem State.drive_inIsr (s : State) (pin : Byte) : (s.drive pin).inIsr = s.inIsr := rfl
@[simp] theorem State.drive_cw (s : State) (pin : Byte) : (s.drive pin).cw = s.cw := rfl
@[simp] theorem State.drive_din (s : State) (pin : Byte) : (s.drive pin).din = s.din := rfl
@[simp] theorem State.drive_dout (s : State) (pin : Byte) : (s.drive pin).dout = s.dout := rfl
@[simp] theorem State.drive_status (s : State) (pin : Byte) : (s.drive pin).status = s.status := rfl
@[simp] theorem State.drive_busy (s : State) (pin : Byte) : (s.drive pin).busy = s.busy := rfl
@[simp] theorem State.drive_hReg (s : State) (pin : Byte) : (s.drive pin).hReg = s.hReg := rfl
@[simp] theorem State.drive_hIrq (s : State) (pin : Byte) : (s.drive pin).hIrq = s.hIrq := rfl
@[simp] theorem State.drive_hPrio (s : State) (pin : Byte) : (s.drive pin).hPrio = s.hPrio := rfl
@[simp] theorem State.drive_hEn (s : State) (pin : Byte) : (s.drive pin).hEn = s.hEn := rfl
@[simp] theorem State.drive_activePsc (s : State) (pin : Byte) : (s.drive pin).activePsc = s.activePsc := rfl
@[simp] theorem State.drive_olat (s : State) (pin : Byte) : (s.drive pin).olat = s.olat := rfl
@[simp] theorem State.drive_surface (s : State) (pin : Byte) : (s.drive pin).surface = s.surface := rfl
@[simp] theorem State.drive_cmdValid (s : State) (pin : Byte) : (s.drive pin).cmdValid = s.cmdValid := rfl
@[simp] theorem State.drive_cwIn (s : State) (pin : Byte) : (s.drive pin).cwIn = s.cwIn := rfl
@[simp] theorem State.drive_dinIn (s : State) (pin : Byte) : (s.drive pin).dinIn = s.dinIn := rfl
@[simp] theorem State.drive_portReq (s : State) (pin : Byte) : (s.drive pin).portReq = s.portReq := rfl
@[simp] theorem State.drive_rdata (s : State) (pin : Byte) : (s.drive pin).rdata = s.rdata := rfl
@[simp] theorem State.drive_wired (s : State) (pin : Byte) : (s.drive pin).wired = s.wired := rfl
@[simp] theorem State.drive_asOutput (s : State) (pin : Byte) : (s.drive pin).asOutput = s.asOutput := rfl
@[simp] theorem State.drive_moves (s : State) (pin : Byte) : (s.drive pin).moves = s.moves := rfl
@[simp] theorem State.drive_draws (s : State) (pin : Byte) : (s.drive pin).draws = s.draws := rfl
@[simp] theorem State.drive_record (s : State) (pin : Byte) : (s.drive pin).record = s.record := rfl
@[simp] theorem State.drive_responses (s : State) (pin : Byte) : (s.drive pin).responses = s.responses := rfl

/-! ### The lists of pins -/

@[simp] theorem State.follow_asOutput (s : State) (p : Nat) : (s.follow p).asOutput = s.asOutput := by
  rcases s.follow_cases p with h | h
  · rw [h]
  · rw [h]; rfl
@[simp] theorem State.follow_driven (s : State) (p : Nat) : (s.follow p).driven = s.driven := by
  rcases s.follow_cases p with h | h
  · rw [h]
  · rw [h]; rfl

theorem followAll_pins (l : Cells 16) (s : State) :
    (s.followAll l).asOutput = s.asOutput ∧ (s.followAll l).driven = s.driven := by
  induction l generalizing s with
  | nil => exact ⟨rfl, rfl⟩
  | cons c l ih => exact ⟨(ih _).1.trans (s.follow_asOutput _), (ih _).2.trans (s.follow_driven _)⟩

@[simp] theorem State.settle_asOutput (s : State) : s.settle.asOutput = s.asOutput := (followAll_pins s.wired s).1
@[simp] theorem State.settle_driven (s : State) : s.settle.driven = s.driven := (followAll_pins s.wired s).2

@[simp] theorem State.configured_driven (s : State) (pin mode : Byte) : (s.configured pin mode).driven = s.driven := by
  rcases configured_cases s pin mode with ⟨-, h⟩ | ⟨-, h⟩ <;> rw [h]
  exact State.follow_driven _ _
@[simp] theorem State.disturb_driven (s : State) (r : Reg) : (s.disturb r).driven = s.driven := by
  unfold State.disturb
  split <;> first | rfl | exact s.settle_driven

/-! ### Registers and latches -/

@[simp] theorem State.peek_release (s : State) (pin : Byte) (q : Reg) : (s.release pin).peek q = s.peek q := by
  simp [State.peek]
@[simp] theorem State.latch_release (s : State) (pin : Byte) (p : Nat) : (s.release pin).latch p = s.latch p := by
  simp [State.latch]
@[simp] theorem State.peek_drive (s : State) (pin : Byte) (q : Reg) : (s.drive pin).peek q = s.peek q := rfl
@[simp] theorem State.latch_drive (s : State) (pin : Byte) (p : Nat) : (s.drive pin).latch p = s.latch p := rfl
@[simp] theorem State.latch_follow (s : State) (p q : Nat) : (s.follow p).latch q = s.latch q := by
  simp [State.latch]
@[simp] theorem State.latch_settle (s : State) (p : Nat) : s.settle.latch p = s.latch p := by
  simp [State.latch]
@[simp] theorem State.latch_configured (s : State) (pin mode : Byte) (p : Nat) : (s.configured pin mode).latch p = s.latch p := by
  simp [State.latch]
@[simp] theorem State.latch_disturb (s : State) (r : Reg) (p : Nat) : (s.disturb r).latch p = s.latch p := by
  simp [State.latch]

/-- The completion of CONFIGURE reaches no register but the port's input data. -/
theorem State.peek_configured_other (s : State) (pin mode : Byte) (q : Reg) (h : q ≠ .pinIn (portOf pin)) :
    (s.configured pin mode).peek q = s.peek q := by
  rcases configured_cases s pin mode with ⟨-, e⟩ | ⟨-, e⟩ <;> rw [e]
  exact State.peek_follow_other _ _ _ h

theorem peek_followAll_other (l : Cells 16) (s : State) (q : Reg) (h : ∀ p, q ≠ .pinIn p) :
    (s.followAll l).peek q = s.peek q := by
  induction l generalizing s with
  | nil => rfl
  | cons c l ih => exact (ih _).trans (State.peek_follow_other _ _ _ (h _))

/-- ENV's new gates reach no register but input data. -/
theorem State.peek_settle_other (s : State) (q : Reg) (h : ∀ p, q ≠ .pinIn p) : s.settle.peek q = s.peek q :=
  peek_followAll_other s.wired s q h

theorem State.peek_disturb_other (s : State) (r q : Reg) (h : r = .clkenGpio → ∀ p, q ≠ .pinIn p) :
    (s.disturb r).peek q = s.peek q := by
  unfold State.disturb
  split <;> first | rfl | exact s.peek_settle_other q (h rfl)

/-! ### The tied pins and their input bits -/

/-- Which pins are tied depends on the gates and the lists of pins alone. -/
theorem State.tied_congr {s t : State} (hg : t.peek .clkenGpio = s.peek .clkenGpio) (hc : t.cfg = s.cfg)
    (hw : t.wired = s.wired) (ha : t.asOutput = s.asOutput) (hd : t.driven = s.driven) (p : Nat) : t.tied p = s.tied p := by
  simp only [State.tied, State.loopBack, hg, hc, hw, ha, hd]

@[simp] theorem State.tied_follow (s : State) (p q : Nat) : (s.follow p).tied q = s.tied q :=
  State.tied_congr (s.peek_follow_other p _ (by intro h; cases h)) (by simp) (by simp) (by simp) (by simp) q

theorem tied_followAll (l : Cells 16) (s : State) (q : Nat) : (s.followAll l).tied q = s.tied q := by
  induction l generalizing s with
  | nil => rfl
  | cons c l ih => exact (ih _).trans (s.tied_follow _ _)

@[simp] theorem State.tied_settle (s : State) (q : Nat) : s.settle.tied q = s.tied q := tied_followAll s.wired s q

theorem wf_follow (s : State) (p : Nat) (h : Cells.wf s.surface = true) : Cells.wf (s.follow p).surface = true := by
  rcases s.follow_cases p with e | e <;> rw [e]
  · exact h
  · exact Cells.write_wf _ _ _ h

theorem wf_followAll (l : Cells 16) (s : State) (h : Cells.wf s.surface = true) :
    Cells.wf (s.followAll l).surface = true := by
  induction l generalizing s with
  | nil => exact h
  | cons c l ih => exact ih _ (wf_follow s _ h)

theorem wf_settle (s : State) (h : Cells.wf s.surface = true) : Cells.wf s.settle.surface = true := wf_followAll _ s h

theorem wf_configured (s : State) (pin mode : Byte) (h : Cells.wf s.surface = true) :
    Cells.wf (s.configured pin mode).surface = true := by
  rcases configured_cases s pin mode with ⟨-, e⟩ | ⟨-, e⟩ <;> rw [e]
  · exact h
  · exact wf_follow _ _ h

theorem wf_disturb (s : State) (r : Reg) (h : Cells.wf s.surface = true) : Cells.wf (s.disturb r).surface = true := by
  unfold State.disturb
  split <;> first | exact h | exact wf_settle s h

/-- An input bit after ENV has brought the port's tied pins to the latch. -/
theorem State.peek_follow_bit (s : State) (p o : Nat) (h : Cells.wf s.surface = true) :
    ((s.follow p).peek (.pinIn p)).getLsbD o =
      if (s.tied p).getLsbD o then (s.latch p).getLsbD o else (s.peek (.pinIn p)).getLsbD o := by
  unfold State.follow
  dsimp only
  split
  · rename_i hz
    have ho : (s.tied p).getLsbD o = false := by
      by_cases hb : o < 16
      · have := congrArg (fun w : Word => w.getLsbD o) hz
        simpa [BitVec.getLsbD_setWidth, show o < 32 by omega] using this
      · exact BitVec.getLsbD_of_ge _ _ (by omega)
    simp [ho]
  · rw [State.pokeField, State.peek_poke_same _ _ _ h]
    by_cases hb : o < 32
    · cases ht : (s.tied p).getLsbD o <;> simp [hb, ht]
    · have h16 : (s.tied p).getLsbD o = false := BitVec.getLsbD_of_ge _ _ (by omega)
      simp [h16, BitVec.getLsbD_of_ge _ _ (show 32 ≤ o by omega)]

theorem peek_followAll_bit (l : Cells 16) (s : State) (p o : Nat) (h : Cells.wf s.surface = true) :
    ((s.followAll l).peek (.pinIn p)).getLsbD o =
      if p ∈ l.map Prod.fst ∧ (s.tied p).getLsbD o = true then (s.latch p).getLsbD o
      else (s.peek (.pinIn p)).getLsbD o := by
  induction l generalizing s with
  | nil => simp [State.followAll]
  | cons c l ih =>
    have hk : s.followAll (c :: l) = (s.follow c.1).followAll l := rfl
    rw [hk, ih _ (wf_follow s _ h), State.tied_follow, State.latch_follow]
    by_cases hp : p = c.1
    · subst hp
      rw [State.peek_follow_bit _ _ _ h]
      cases ht : (s.tied c.1).getLsbD o <;> simp
    · rw [State.peek_follow_other _ _ _ (fun e => hp (Reg.pinIn.inj e))]
      simp [hp]

theorem Cells.mem_of_read {w : Nat} (m : Cells w) (p : Nat) (h : Cells.read m p ≠ 0) : p ∈ m.map Prod.fst := by
  induction m with
  | nil => exact absurd rfl h
  | cons c m ih =>
    obtain ⟨b, x⟩ := c
    by_cases hp : p = b
    · simp [hp]
    · simp only [Cells.read, hp, if_false] at h
      simp [ih h]

/-- An input bit after ENV has gone by the gates: the latch's where the pin is tied, else as before. -/
theorem State.peek_settle_bit (s : State) (p o : Nat) (h : Cells.wf s.surface = true) :
    (s.settle.peek (.pinIn p)).getLsbD o =
      if (s.tied p).getLsbD o then (s.latch p).getLsbD o else (s.peek (.pinIn p)).getLsbD o := by
  refine (peek_followAll_bit s.wired s p o h).trans ?_
  by_cases ht : (s.tied p).getLsbD o = true
  · have hw : Cells.read s.wired p ≠ 0 := by
      intro h0
      unfold State.tied State.loopBack at ht
      split at ht <;> simp [h0] at ht
    simp [ht, Cells.mem_of_read _ _ hw]
  · simp [ht]

end Sys2Proof.Machine
end

