-- ==== Sys2Proof/Laws/Bus.lean ====
section
/-! SUPPORT. What the surface operations can do, said once: their shape, the fields they leave alone, the canonical form they
keep, and what the registers read as after them. -/
namespace Sys2Proof.Machine

theorem State.setLatch_olat (s : State) (p : Nat) (v : Half) : (s.setLatch p v).olat = Cells.write s.olat p v :=
  State.follow_olat _ _

@[simp] theorem State.latch_setLatch_same (s : State) (p : Nat) (v : Half) (h : Cells.wf s.olat = true) :
    (s.setLatch p v).latch p = v := by
  simp [State.latch, State.setLatch_olat, Cells.read_write_same _ _ _ h]

theorem State.latch_setLatch_other (s : State) (p q : Nat) (v : Half) (h : q ≠ p) :
    (s.setLatch p v).latch q = s.latch q := by
  simp [State.latch, State.setLatch_olat, Cells.read_write_other _ _ _ _ h]

/-- A latch write reaches no register but the port's input data, and that only in its tied bits (R135). -/
theorem State.peek_setLatch_other (s : State) (p : Nat) (v : Half) (q : Reg) (h : q ≠ .pinIn p) :
    (s.setLatch p v).peek q = s.peek q := State.peek_follow_other _ _ _ h

/-- Two states that agree but for the surface, the latches and the active prescaler. -/
def onlyOutside (s t : State) : Prop :=
  ∃ (su : Cells 32) (ol : Cells 16) (ap : Word), t = { s with surface := su, olat := ol, activePsc := ap }

theorem onlyOutside_refl (s : State) : onlyOutside s s := ⟨s.surface, s.olat, s.activePsc, rfl⟩

theorem onlyOutside_poke (s : State) (r : Reg) (v : Word) : onlyOutside s (s.poke r v) :=
  ⟨_, s.olat, s.activePsc, rfl⟩

theorem onlyOutside_store (s : State) (r : Reg) (v : Word) : onlyOutside s (s.store r v) := onlyOutside_poke s r _

theorem onlyOutside_setLatch (s : State) (p : Nat) (v : Half) : onlyOutside s (s.setLatch p v) := by
  rcases State.follow_cases { s with olat := Cells.write s.olat p v } p with h | h
  · exact ⟨s.surface, _, s.activePsc, h⟩
  · exact ⟨_, _, s.activePsc, h⟩

theorem onlyOutside_updateEvent (s : State) : onlyOutside s s.updateEvent := ⟨_, s.olat, _, rfl⟩

theorem onlyOutside_forcedUpdate (s : State) : onlyOutside s s.forcedUpdate := by
  unfold State.forcedUpdate
  split
  · exact onlyOutside_updateEvent s
  · exact ⟨s.surface, s.olat, _, rfl⟩

/-- A write changes only the surface, the latches and the active prescaler. -/
theorem onlyOutside_writeReg (s : State) (r : Reg) (v : Word) : onlyOutside s (s.writeReg r v) := by
  unfold State.writeReg
  split
  · split
    · exact onlyOutside_refl s
    · exact onlyOutside_forcedUpdate s
  · split <;> exact onlyOutside_setLatch s _ _
  · split
    · exact onlyOutside_setLatch s _ _
    · exact onlyOutside_refl s
  · exact onlyOutside_store s _ v

theorem onlyOutside_setBitsEffect (s : State) (r : Reg) (m : Word) :
    onlyOutside s (if isTrigger r then s.writeReg r m else s.store r (s.readReg r ||| m)) := by
  split
  · exact onlyOutside_writeReg s r m
  · exact onlyOutside_store s r _

theorem onlyOutside_clearBitsEffect (s : State) (r : Reg) (m : Word) :
    onlyOutside s
      (if isTrigger r then s.writeReg r (s.readReg r &&& ~~~m) else s.store r (s.readReg r &&& ~~~m)) := by
  split
  · exact onlyOutside_writeReg s r _
  · exact onlyOutside_store s r _


/-! ### Fields `updateEvent` leaves alone -/

@[simp] theorem State.updateEvent_cfg (s : State)  : (s.updateEvent).cfg = s.cfg := by
  obtain ⟨_, _, _, h⟩ := onlyOutside_updateEvent s; rw [h]
@[simp] theorem State.updateEvent_tick (s : State)  : (s.updateEvent).tick = s.tick := by
  obtain ⟨_, _, _, h⟩ := onlyOutside_updateEvent s; rw [h]
@[simp] theorem State.updateEvent_wake (s : State)  : (s.updateEvent).wake = s.wake := by
  obtain ⟨_, _, _, h⟩ := onlyOutside_updateEvent s; rw [h]
@[simp] theorem State.updateEvent_slStart (s : State)  : (s.updateEvent).slStart = s.slStart := by
  obtain ⟨_, _, _, h⟩ := onlyOutside_updateEvent s; rw [h]
@[simp] theorem State.updateEvent_slTarget (s : State)  : (s.updateEvent).slTarget = s.slTarget := by
  obtain ⟨_, _, _, h⟩ := onlyOutside_updateEvent s; rw [h]
@[simp] theorem State.updateEvent_life (s : State)  : (s.updateEvent).life = s.life := by
  obtain ⟨_, _, _, h⟩ := onlyOutside_updateEvent s; rw [h]
@[simp] theorem State.updateEvent_seq (s : State)  : (s.updateEvent).seq = s.seq := by
  obtain ⟨_, _, _, h⟩ := onlyOutside_updateEvent s; rw [h]
@[simp] theorem State.updateEvent_iseq (s : State)  : (s.updateEvent).iseq = s.iseq := by
  obtain ⟨_, _, _, h⟩ := onlyOutside_updateEvent s; rw [h]
@[simp] theorem State.updateEvent_fatal (s : State)  : (s.updateEvent).fatal = s.fatal := by
  obtain ⟨_, _, _, h⟩ := onlyOutside_updateEvent s; rw [h]
@[simp] theorem State.updateEvent_fcause (s : State)  : (s.updateEvent).fcause = s.fcause := by
  obtain ⟨_, _, _, h⟩ := onlyOutside_updateEvent s; rw [h]
@[simp] theorem State.updateEvent_fval (s : State)  : (s.updateEvent).fval = s.fval := by
  obtain ⟨_, _, _, h⟩ := onlyOutside_updateEvent s; rw [h]
@[simp] theorem State.updateEvent_inIsr (s : State)  : (s.updateEvent).inIsr = s.inIsr := by
  obtain ⟨_, _, _, h⟩ := onlyOutside_updateEvent s; rw [h]
@[simp] theorem State.updateEvent_cw (s : State)  : (s.updateEvent).cw = s.cw := by
  obtain ⟨_, _, _, h⟩ := onlyOutside_updateEvent s; rw [h]
@[simp] theorem State.updateEvent_din (s : State)  : (s.updateEvent).din = s.din := by
  obtain ⟨_, _, _, h⟩ := onlyOutside_updateEvent s; rw [h]
@[simp] theorem State.updateEvent_dout (s : State)  : (s.updateEvent).dout = s.dout := by
  obtain ⟨_, _, _, h⟩ := onlyOutside_updateEvent s; rw [h]
@[simp] theorem State.updateEvent_status (s : State)  : (s.updateEvent).status = s.status := by
  obtain ⟨_, _, _, h⟩ := onlyOutside_updateEvent s; rw [h]
@[simp] theorem State.updateEvent_busy (s : State)  : (s.updateEvent).busy = s.busy := by
  obtain ⟨_, _, _, h⟩ := onlyOutside_updateEvent s; rw [h]
@[simp] theorem State.updateEvent_hReg (s : State)  : (s.updateEvent).hReg = s.hReg := by
  obtain ⟨_, _, _, h⟩ := onlyOutside_updateEvent s; rw [h]
@[simp] theorem State.updateEvent_hIrq (s : State)  : (s.updateEvent).hIrq = s.hIrq := by
  obtain ⟨_, _, _, h⟩ := onlyOutside_updateEvent s; rw [h]
@[simp] theorem State.updateEvent_hPrio (s : State)  : (s.updateEvent).hPrio = s.hPrio := by
  obtain ⟨_, _, _, h⟩ := onlyOutside_updateEvent s; rw [h]
@[simp] theorem State.updateEvent_hEn (s : State)  : (s.updateEvent).hEn = s.hEn := by
  obtain ⟨_, _, _, h⟩ := onlyOutside_updateEvent s; rw [h]
@[simp] theorem State.updateEvent_cmdValid (s : State)  : (s.updateEvent).cmdValid = s.cmdValid := by
  obtain ⟨_, _, _, h⟩ := onlyOutside_updateEvent s; rw [h]
@[simp] theorem State.updateEvent_cwIn (s : State)  : (s.updateEvent).cwIn = s.cwIn := by
  obtain ⟨_, _, _, h⟩ := onlyOutside_updateEvent s; rw [h]
@[simp] theorem State.updateEvent_dinIn (s : State)  : (s.updateEvent).dinIn = s.dinIn := by
  obtain ⟨_, _, _, h⟩ := onlyOutside_updateEvent s; rw [h]
@[simp] theorem State.updateEvent_portReq (s : State)  : (s.updateEvent).portReq = s.portReq := by
  obtain ⟨_, _, _, h⟩ := onlyOutside_updateEvent s; rw [h]
@[simp] theorem State.updateEvent_wired (s : State)  : (s.updateEvent).wired = s.wired := by
  obtain ⟨_, _, _, h⟩ := onlyOutside_updateEvent s; rw [h]
@[simp] theorem State.updateEvent_asOutput (s : State)  : (s.updateEvent).asOutput = s.asOutput := by
  obtain ⟨_, _, _, h⟩ := onlyOutside_updateEvent s; rw [h]
@[simp] theorem State.updateEvent_driven (s : State)  : (s.updateEvent).driven = s.driven := by
  obtain ⟨_, _, _, h⟩ := onlyOutside_updateEvent s; rw [h]
@[simp] theorem State.updateEvent_moves (s : State)  : (s.updateEvent).moves = s.moves := by
  obtain ⟨_, _, _, h⟩ := onlyOutside_updateEvent s; rw [h]
@[simp] theorem State.updateEvent_responses (s : State)  : (s.updateEvent).responses = s.responses := by
  obtain ⟨_, _, _, h⟩ := onlyOutside_updateEvent s; rw [h]

/-! ### Fields `forcedUpdate` leaves alone -/

@[simp] theorem State.forcedUpdate_cfg (s : State)  : (s.forcedUpdate).cfg = s.cfg := by
  obtain ⟨_, _, _, h⟩ := onlyOutside_forcedUpdate s; rw [h]
@[simp] theorem State.forcedUpdate_tick (s : State)  : (s.forcedUpdate).tick = s.tick := by
  obtain ⟨_, _, _, h⟩ := onlyOutside_forcedUpdate s; rw [h]
@[simp] theorem State.forcedUpdate_wake (s : State)  : (s.forcedUpdate).wake = s.wake := by
  obtain ⟨_, _, _, h⟩ := onlyOutside_forcedUpdate s; rw [h]
@[simp] theorem State.forcedUpdate_slStart (s : State)  : (s.forcedUpdate).slStart = s.slStart := by
  obtain ⟨_, _, _, h⟩ := onlyOutside_forcedUpdate s; rw [h]
@[simp] theorem State.forcedUpdate_slTarget (s : State)  : (s.forcedUpdate).slTarget = s.slTarget := by
  obtain ⟨_, _, _, h⟩ := onlyOutside_forcedUpdate s; rw [h]
@[simp] theorem State.forcedUpdate_life (s : State)  : (s.forcedUpdate).life = s.life := by
  obtain ⟨_, _, _, h⟩ := onlyOutside_forcedUpdate s; rw [h]
@[simp] theorem State.forcedUpdate_seq (s : State)  : (s.forcedUpdate).seq = s.seq := by
  obtain ⟨_, _, _, h⟩ := onlyOutside_forcedUpdate s; rw [h]
@[simp] theorem State.forcedUpdate_iseq (s : State)  : (s.forcedUpdate).iseq = s.iseq := by
  obtain ⟨_, _, _, h⟩ := onlyOutside_forcedUpdate s; rw [h]
@[simp] theorem State.forcedUpdate_fatal (s : State)  : (s.forcedUpdate).fatal = s.fatal := by
  obtain ⟨_, _, _, h⟩ := onlyOutside_forcedUpdate s; rw [h]
@[simp] theorem State.forcedUpdate_fcause (s : State)  : (s.forcedUpdate).fcause = s.fcause := by
  obtain ⟨_, _, _, h⟩ := onlyOutside_forcedUpdate s; rw [h]
@[simp] theorem State.forcedUpdate_fval (s : State)  : (s.forcedUpdate).fval = s.fval := by
  obtain ⟨_, _, _, h⟩ := onlyOutside_forcedUpdate s; rw [h]
@[simp] theorem State.forcedUpdate_inIsr (s : State)  : (s.forcedUpdate).inIsr = s.inIsr := by
  obtain ⟨_, _, _, h⟩ := onlyOutside_forcedUpdate s; rw [h]
@[simp] theorem State.forcedUpdate_cw (s : State)  : (s.forcedUpdate).cw = s.cw := by
  obtain ⟨_, _, _, h⟩ := onlyOutside_forcedUpdate s; rw [h]
@[simp] theorem State.forcedUpdate_din (s : State)  : (s.forcedUpdate).din = s.din := by
  obtain ⟨_, _, _, h⟩ := onlyOutside_forcedUpdate s; rw [h]
@[simp] theorem State.forcedUpdate_dout (s : State)  : (s.forcedUpdate).dout = s.dout := by
  obtain ⟨_, _, _, h⟩ := onlyOutside_forcedUpdate s; rw [h]
@[simp] theorem State.forcedUpdate_status (s : State)  : (s.forcedUpdate).status = s.status := by
  obtain ⟨_, _, _, h⟩ := onlyOutside_forcedUpdate s; rw [h]
@[simp] theorem State.forcedUpdate_busy (s : State)  : (s.forcedUpdate).busy = s.busy := by
  obtain ⟨_, _, _, h⟩ := onlyOutside_forcedUpdate s; rw [h]
@[simp] theorem State.forcedUpdate_hReg (s : State)  : (s.forcedUpdate).hReg = s.hReg := by
  obtain ⟨_, _, _, h⟩ := onlyOutside_forcedUpdate s; rw [h]
@[simp] theorem State.forcedUpdate_hIrq (s : State)  : (s.forcedUpdate).hIrq = s.hIrq := by
  obtain ⟨_, _, _, h⟩ := onlyOutside_forcedUpdate s; rw [h]
@[simp] theorem State.forcedUpdate_hPrio (s : State)  : (s.forcedUpdate).hPrio = s.hPrio := by
  obtain ⟨_, _, _, h⟩ := onlyOutside_forcedUpdate s; rw [h]
@[simp] theorem State.forcedUpdate_hEn (s : State)  : (s.forcedUpdate).hEn = s.hEn := by
  obtain ⟨_, _, _, h⟩ := onlyOutside_forcedUpdate s; rw [h]
@[simp] theorem State.forcedUpdate_cmdValid (s : State)  : (s.forcedUpdate).cmdValid = s.cmdValid := by
  obtain ⟨_, _, _, h⟩ := onlyOutside_forcedUpdate s; rw [h]
@[simp] theorem State.forcedUpdate_cwIn (s : State)  : (s.forcedUpdate).cwIn = s.cwIn := by
  obtain ⟨_, _, _, h⟩ := onlyOutside_forcedUpdate s; rw [h]
@[simp] theorem State.forcedUpdate_dinIn (s : State)  : (s.forcedUpdate).dinIn = s.dinIn := by
  obtain ⟨_, _, _, h⟩ := onlyOutside_forcedUpdate s; rw [h]
@[simp] theorem State.forcedUpdate_portReq (s : State)  : (s.forcedUpdate).portReq = s.portReq := by
  obtain ⟨_, _, _, h⟩ := onlyOutside_forcedUpdate s; rw [h]
@[simp] theorem State.forcedUpdate_wired (s : State)  : (s.forcedUpdate).wired = s.wired := by
  obtain ⟨_, _, _, h⟩ := onlyOutside_forcedUpdate s; rw [h]
@[simp] theorem State.forcedUpdate_asOutput (s : State)  : (s.forcedUpdate).asOutput = s.asOutput := by
  obtain ⟨_, _, _, h⟩ := onlyOutside_forcedUpdate s; rw [h]
@[simp] theorem State.forcedUpdate_driven (s : State)  : (s.forcedUpdate).driven = s.driven := by
  obtain ⟨_, _, _, h⟩ := onlyOutside_forcedUpdate s; rw [h]
@[simp] theorem State.forcedUpdate_moves (s : State)  : (s.forcedUpdate).moves = s.moves := by
  obtain ⟨_, _, _, h⟩ := onlyOutside_forcedUpdate s; rw [h]
@[simp] theorem State.forcedUpdate_responses (s : State)  : (s.forcedUpdate).responses = s.responses := by
  obtain ⟨_, _, _, h⟩ := onlyOutside_forcedUpdate s; rw [h]

/-! ### Fields `writeReg` leaves alone -/

@[simp] theorem State.writeReg_cfg (s : State) (r : Reg) (v : Word) : (s.writeReg r v).cfg = s.cfg := by
  obtain ⟨_, _, _, h⟩ := onlyOutside_writeReg s r v; rw [h]
@[simp] theorem State.writeReg_tick (s : State) (r : Reg) (v : Word) : (s.writeReg r v).tick = s.tick := by
  obtain ⟨_, _, _, h⟩ := onlyOutside_writeReg s r v; rw [h]
@[simp] theorem State.writeReg_wake (s : State) (r : Reg) (v : Word) : (s.writeReg r v).wake = s.wake := by
  obtain ⟨_, _, _, h⟩ := onlyOutside_writeReg s r v; rw [h]
@[simp] theorem State.writeReg_slStart (s : State) (r : Reg) (v : Word) : (s.writeReg r v).slStart = s.slStart := by
  obtain ⟨_, _, _, h⟩ := onlyOutside_writeReg s r v; rw [h]
@[simp] theorem State.writeReg_slTarget (s : State) (r : Reg) (v : Word) : (s.writeReg r v).slTarget = s.slTarget := by
  obtain ⟨_, _, _, h⟩ := onlyOutside_writeReg s r v; rw [h]
@[simp] theorem State.writeReg_life (s : State) (r : Reg) (v : Word) : (s.writeReg r v).life = s.life := by
  obtain ⟨_, _, _, h⟩ := onlyOutside_writeReg s r v; rw [h]
@[simp] theorem State.writeReg_seq (s : State) (r : Reg) (v : Word) : (s.writeReg r v).seq = s.seq := by
  obtain ⟨_, _, _, h⟩ := onlyOutside_writeReg s r v; rw [h]
@[simp] theorem State.writeReg_iseq (s : State) (r : Reg) (v : Word) : (s.writeReg r v).iseq = s.iseq := by
  obtain ⟨_, _, _, h⟩ := onlyOutside_writeReg s r v; rw [h]
@[simp] theorem State.writeReg_fatal (s : State) (r : Reg) (v : Word) : (s.writeReg r v).fatal = s.fatal := by
  obtain ⟨_, _, _, h⟩ := onlyOutside_writeReg s r v; rw [h]
@[simp] theorem State.writeReg_fcause (s : State) (r : Reg) (v : Word) : (s.writeReg r v).fcause = s.fcause := by
  obtain ⟨_, _, _, h⟩ := onlyOutside_writeReg s r v; rw [h]
@[simp] theorem State.writeReg_fval (s : State) (r : Reg) (v : Word) : (s.writeReg r v).fval = s.fval := by
  obtain ⟨_, _, _, h⟩ := onlyOutside_writeReg s r v; rw [h]
@[simp] theorem State.writeReg_inIsr (s : State) (r : Reg) (v : Word) : (s.writeReg r v).inIsr = s.inIsr := by
  obtain ⟨_, _, _, h⟩ := onlyOutside_writeReg s r v; rw [h]
@[simp] theorem State.writeReg_cw (s : State) (r : Reg) (v : Word) : (s.writeReg r v).cw = s.cw := by
  obtain ⟨_, _, _, h⟩ := onlyOutside_writeReg s r v; rw [h]
@[simp] theorem State.writeReg_din (s : State) (r : Reg) (v : Word) : (s.writeReg r v).din = s.din := by
  obtain ⟨_, _, _, h⟩ := onlyOutside_writeReg s r v; rw [h]
@[simp] theorem State.writeReg_dout (s : State) (r : Reg) (v : Word) : (s.writeReg r v).dout = s.dout := by
  obtain ⟨_, _, _, h⟩ := onlyOutside_writeReg s r v; rw [h]
@[simp] theorem State.writeReg_status (s : State) (r : Reg) (v : Word) : (s.writeReg r v).status = s.status := by
  obtain ⟨_, _, _, h⟩ := onlyOutside_writeReg s r v; rw [h]
@[simp] theorem State.writeReg_busy (s : State) (r : Reg) (v : Word) : (s.writeReg r v).busy = s.busy := by
  obtain ⟨_, _, _, h⟩ := onlyOutside_writeReg s r v; rw [h]
@[simp] theorem State.writeReg_hReg (s : State) (r : Reg) (v : Word) : (s.writeReg r v).hReg = s.hReg := by
  obtain ⟨_, _, _, h⟩ := onlyOutside_writeReg s r v; rw [h]
@[simp] theorem State.writeReg_hIrq (s : State) (r : Reg) (v : Word) : (s.writeReg r v).hIrq = s.hIrq := by
  obtain ⟨_, _, _, h⟩ := onlyOutside_writeReg s r v; rw [h]
@[simp] theorem State.writeReg_hPrio (s : State) (r : Reg) (v : Word) : (s.writeReg r v).hPrio = s.hPrio := by
  obtain ⟨_, _, _, h⟩ := onlyOutside_writeReg s r v; rw [h]
@[simp] theorem State.writeReg_hEn (s : State) (r : Reg) (v : Word) : (s.writeReg r v).hEn = s.hEn := by
  obtain ⟨_, _, _, h⟩ := onlyOutside_writeReg s r v; rw [h]
@[simp] theorem State.writeReg_cmdValid (s : State) (r : Reg) (v : Word) : (s.writeReg r v).cmdValid = s.cmdValid := by
  obtain ⟨_, _, _, h⟩ := onlyOutside_writeReg s r v; rw [h]
@[simp] theorem State.writeReg_cwIn (s : State) (r : Reg) (v : Word) : (s.writeReg r v).cwIn = s.cwIn := by
  obtain ⟨_, _, _, h⟩ := onlyOutside_writeReg s r v; rw [h]
@[simp] theorem State.writeReg_dinIn (s : State) (r : Reg) (v : Word) : (s.writeReg r v).dinIn = s.dinIn := by
  obtain ⟨_, _, _, h⟩ := onlyOutside_writeReg s r v; rw [h]
@[simp] theorem State.writeReg_portReq (s : State) (r : Reg) (v : Word) : (s.writeReg r v).portReq = s.portReq := by
  obtain ⟨_, _, _, h⟩ := onlyOutside_writeReg s r v; rw [h]
@[simp] theorem State.writeReg_wired (s : State) (r : Reg) (v : Word) : (s.writeReg r v).wired = s.wired := by
  obtain ⟨_, _, _, h⟩ := onlyOutside_writeReg s r v; rw [h]
@[simp] theorem State.writeReg_asOutput (s : State) (r : Reg) (v : Word) : (s.writeReg r v).asOutput = s.asOutput := by
  obtain ⟨_, _, _, h⟩ := onlyOutside_writeReg s r v; rw [h]
@[simp] theorem State.writeReg_driven (s : State) (r : Reg) (v : Word) : (s.writeReg r v).driven = s.driven := by
  obtain ⟨_, _, _, h⟩ := onlyOutside_writeReg s r v; rw [h]
@[simp] theorem State.writeReg_moves (s : State) (r : Reg) (v : Word) : (s.writeReg r v).moves = s.moves := by
  obtain ⟨_, _, _, h⟩ := onlyOutside_writeReg s r v; rw [h]
@[simp] theorem State.writeReg_responses (s : State) (r : Reg) (v : Word) : (s.writeReg r v).responses = s.responses := by
  obtain ⟨_, _, _, h⟩ := onlyOutside_writeReg s r v; rw [h]

/-! ### Fields `busSet` leaves alone -/

@[simp] theorem State.busSet_cfg (s : State) (a : Agent) (r : Reg) (v : Word) : (s.busSet a r v).cfg = s.cfg := by
  obtain ⟨_, _, _, h⟩ := onlyOutside_writeReg s r v; simp only [State.busSet, State.issued, h]
@[simp] theorem State.busSet_tick (s : State) (a : Agent) (r : Reg) (v : Word) : (s.busSet a r v).tick = s.tick := by
  obtain ⟨_, _, _, h⟩ := onlyOutside_writeReg s r v; simp only [State.busSet, State.issued, h]
@[simp] theorem State.busSet_wake (s : State) (a : Agent) (r : Reg) (v : Word) : (s.busSet a r v).wake = s.wake := by
  obtain ⟨_, _, _, h⟩ := onlyOutside_writeReg s r v; simp only [State.busSet, State.issued, h]
@[simp] theorem State.busSet_slStart (s : State) (a : Agent) (r : Reg) (v : Word) : (s.busSet a r v).slStart = s.slStart := by
  obtain ⟨_, _, _, h⟩ := onlyOutside_writeReg s r v; simp only [State.busSet, State.issued, h]
@[simp] theorem State.busSet_slTarget (s : State) (a : Agent) (r : Reg) (v : Word) : (s.busSet a r v).slTarget = s.slTarget := by
  obtain ⟨_, _, _, h⟩ := onlyOutside_writeReg s r v; simp only [State.busSet, State.issued, h]
@[simp] theorem State.busSet_life (s : State) (a : Agent) (r : Reg) (v : Word) : (s.busSet a r v).life = s.life := by
  obtain ⟨_, _, _, h⟩ := onlyOutside_writeReg s r v; simp only [State.busSet, State.issued, h]
@[simp] theorem State.busSet_seq (s : State) (a : Agent) (r : Reg) (v : Word) : (s.busSet a r v).seq = s.seq := by
  obtain ⟨_, _, _, h⟩ := onlyOutside_writeReg s r v; simp only [State.busSet, State.issued, h]
@[simp] theorem State.busSet_iseq (s : State) (a : Agent) (r : Reg) (v : Word) : (s.busSet a r v).iseq = s.iseq := by
  obtain ⟨_, _, _, h⟩ := onlyOutside_writeReg s r v; simp only [State.busSet, State.issued, h]
@[simp] theorem State.busSet_fatal (s : State) (a : Agent) (r : Reg) (v : Word) : (s.busSet a r v).fatal = s.fatal := by
  obtain ⟨_, _, _, h⟩ := onlyOutside_writeReg s r v; simp only [State.busSet, State.issued, h]
@[simp] theorem State.busSet_fcause (s : State) (a : Agent) (r : Reg) (v : Word) : (s.busSet a r v).fcause = s.fcause := by
  obtain ⟨_, _, _, h⟩ := onlyOutside_writeReg s r v; simp only [State.busSet, State.issued, h]
@[simp] theorem State.busSet_fval (s : State) (a : Agent) (r : Reg) (v : Word) : (s.busSet a r v).fval = s.fval := by
  obtain ⟨_, _, _, h⟩ := onlyOutside_writeReg s r v; simp only [State.busSet, State.issued, h]
@[simp] theorem State.busSet_inIsr (s : State) (a : Agent) (r : Reg) (v : Word) : (s.busSet a r v).inIsr = s.inIsr := by
  obtain ⟨_, _, _, h⟩ := onlyOutside_writeReg s r v; simp only [State.busSet, State.issued, h]
@[simp] theorem State.busSet_cw (s : State) (a : Agent) (r : Reg) (v : Word) : (s.busSet a r v).cw = s.cw := by
  obtain ⟨_, _, _, h⟩ := onlyOutside_writeReg s r v; simp only [State.busSet, State.issued, h]
@[simp] theorem State.busSet_din (s : State) (a : Agent) (r : Reg) (v : Word) : (s.busSet a r v).din = s.din := by
  obtain ⟨_, _, _, h⟩ := onlyOutside_writeReg s r v; simp only [State.busSet, State.issued, h]
@[simp] theorem State.busSet_dout (s : State) (a : Agent) (r : Reg) (v : Word) : (s.busSet a r v).dout = s.dout := by
  obtain ⟨_, _, _, h⟩ := onlyOutside_writeReg s r v; simp only [State.busSet, State.issued, h]
@[simp] theorem State.busSet_status (s : State) (a : Agent) (r : Reg) (v : Word) : (s.busSet a r v).status = s.status := by
  obtain ⟨_, _, _, h⟩ := onlyOutside_writeReg s r v; simp only [State.busSet, State.issued, h]
@[simp] theorem State.busSet_busy (s : State) (a : Agent) (r : Reg) (v : Word) : (s.busSet a r v).busy = s.busy := by
  obtain ⟨_, _, _, h⟩ := onlyOutside_writeReg s r v; simp only [State.busSet, State.issued, h]
@[simp] theorem State.busSet_hReg (s : State) (a : Agent) (r : Reg) (v : Word) : (s.busSet a r v).hReg = s.hReg := by
  obtain ⟨_, _, _, h⟩ := onlyOutside_writeReg s r v; simp only [State.busSet, State.issued, h]
@[simp] theorem State.busSet_hIrq (s : State) (a : Agent) (r : Reg) (v : Word) : (s.busSet a r v).hIrq = s.hIrq := by
  obtain ⟨_, _, _, h⟩ := onlyOutside_writeReg s r v; simp only [State.busSet, State.issued, h]
@[simp] theorem State.busSet_hPrio (s : State) (a : Agent) (r : Reg) (v : Word) : (s.busSet a r v).hPrio = s.hPrio := by
  obtain ⟨_, _, _, h⟩ := onlyOutside_writeReg s r v; simp only [State.busSet, State.issued, h]
@[simp] theorem State.busSet_hEn (s : State) (a : Agent) (r : Reg) (v : Word) : (s.busSet a r v).hEn = s.hEn := by
  obtain ⟨_, _, _, h⟩ := onlyOutside_writeReg s r v; simp only [State.busSet, State.issued, h]
@[simp] theorem State.busSet_cmdValid (s : State) (a : Agent) (r : Reg) (v : Word) : (s.busSet a r v).cmdValid = s.cmdValid := by
  obtain ⟨_, _, _, h⟩ := onlyOutside_writeReg s r v; simp only [State.busSet, State.issued, h]
@[simp] theorem State.busSet_cwIn (s : State) (a : Agent) (r : Reg) (v : Word) : (s.busSet a r v).cwIn = s.cwIn := by
  obtain ⟨_, _, _, h⟩ := onlyOutside_writeReg s r v; simp only [State.busSet, State.issued, h]
@[simp] theorem State.busSet_dinIn (s : State) (a : Agent) (r : Reg) (v : Word) : (s.busSet a r v).dinIn = s.dinIn := by
  obtain ⟨_, _, _, h⟩ := onlyOutside_writeReg s r v; simp only [State.busSet, State.issued, h]
@[simp] theorem State.busSet_portReq (s : State) (a : Agent) (r : Reg) (v : Word) : (s.busSet a r v).portReq = s.portReq := by
  obtain ⟨_, _, _, h⟩ := onlyOutside_writeReg s r v; simp only [State.busSet, State.issued, h]
@[simp] theorem State.busSet_wired (s : State) (a : Agent) (r : Reg) (v : Word) : (s.busSet a r v).wired = s.wired := by
  obtain ⟨_, _, _, h⟩ := onlyOutside_writeReg s r v; simp only [State.busSet, State.issued, h]
@[simp] theorem State.busSet_asOutput (s : State) (a : Agent) (r : Reg) (v : Word) : (s.busSet a r v).asOutput = s.asOutput := by
  obtain ⟨_, _, _, h⟩ := onlyOutside_writeReg s r v; simp only [State.busSet, State.issued, h]
@[simp] theorem State.busSet_driven (s : State) (a : Agent) (r : Reg) (v : Word) : (s.busSet a r v).driven = s.driven := by
  obtain ⟨_, _, _, h⟩ := onlyOutside_writeReg s r v; simp only [State.busSet, State.issued, h]
@[simp] theorem State.busSet_moves (s : State) (a : Agent) (r : Reg) (v : Word) : (s.busSet a r v).moves = s.moves := by
  obtain ⟨_, _, _, h⟩ := onlyOutside_writeReg s r v; simp only [State.busSet, State.issued, h]
@[simp] theorem State.busSet_responses (s : State) (a : Agent) (r : Reg) (v : Word) : (s.busSet a r v).responses = s.responses := by
  obtain ⟨_, _, _, h⟩ := onlyOutside_writeReg s r v; simp only [State.busSet, State.issued, h]

/-! ### Fields `busSetBits` leaves alone -/

@[simp] theorem State.busSetBits_cfg (s : State) (a : Agent) (r : Reg) (m : Word) : (s.busSetBits a r m).cfg = s.cfg := by
  obtain ⟨_, _, _, h⟩ := onlyOutside_setBitsEffect s r m; simp only [State.busSetBits, State.issued, h]
@[simp] theorem State.busSetBits_tick (s : State) (a : Agent) (r : Reg) (m : Word) : (s.busSetBits a r m).tick = s.tick := by
  obtain ⟨_, _, _, h⟩ := onlyOutside_setBitsEffect s r m; simp only [State.busSetBits, State.issued, h]
@[simp] theorem State.busSetBits_wake (s : State) (a : Agent) (r : Reg) (m : Word) : (s.busSetBits a r m).wake = s.wake := by
  obtain ⟨_, _, _, h⟩ := onlyOutside_setBitsEffect s r m; simp only [State.busSetBits, State.issued, h]
@[simp] theorem State.busSetBits_slStart (s : State) (a : Agent) (r : Reg) (m : Word) : (s.busSetBits a r m).slStart = s.slStart := by
  obtain ⟨_, _, _, h⟩ := onlyOutside_setBitsEffect s r m; simp only [State.busSetBits, State.issued, h]
@[simp] theorem State.busSetBits_slTarget (s : State) (a : Agent) (r : Reg) (m : Word) : (s.busSetBits a r m).slTarget = s.slTarget := by
  obtain ⟨_, _, _, h⟩ := onlyOutside_setBitsEffect s r m; simp only [State.busSetBits, State.issued, h]
@[simp] theorem State.busSetBits_life (s : State) (a : Agent) (r : Reg) (m : Word) : (s.busSetBits a r m).life = s.life := by
  obtain ⟨_, _, _, h⟩ := onlyOutside_setBitsEffect s r m; simp only [State.busSetBits, State.issued, h]
@[simp] theorem State.busSetBits_seq (s : State) (a : Agent) (r : Reg) (m : Word) : (s.busSetBits a r m).seq = s.seq := by
  obtain ⟨_, _, _, h⟩ := onlyOutside_setBitsEffect s r m; simp only [State.busSetBits, State.issued, h]
@[simp] theorem State.busSetBits_iseq (s : State) (a : Agent) (r : Reg) (m : Word) : (s.busSetBits a r m).iseq = s.iseq := by
  obtain ⟨_, _, _, h⟩ := onlyOutside_setBitsEffect s r m; simp only [State.busSetBits, State.issued, h]
@[simp] theorem State.busSetBits_fatal (s : State) (a : Agent) (r : Reg) (m : Word) : (s.busSetBits a r m).fatal = s.fatal := by
  obtain ⟨_, _, _, h⟩ := onlyOutside_setBitsEffect s r m; simp only [State.busSetBits, State.issued, h]
@[simp] theorem State.busSetBits_fcause (s : State) (a : Agent) (r : Reg) (m : Word) : (s.busSetBits a r m).fcause = s.fcause := by
  obtain ⟨_, _, _, h⟩ := onlyOutside_setBitsEffect s r m; simp only [State.busSetBits, State.issued, h]
@[simp] theorem State.busSetBits_fval (s : State) (a : Agent) (r : Reg) (m : Word) : (s.busSetBits a r m).fval = s.fval := by
  obtain ⟨_, _, _, h⟩ := onlyOutside_setBitsEffect s r m; simp only [State.busSetBits, State.issued, h]
@[simp] theorem State.busSetBits_inIsr (s : State) (a : Agent) (r : Reg) (m : Word) : (s.busSetBits a r m).inIsr = s.inIsr := by
  obtain ⟨_, _, _, h⟩ := onlyOutside_setBitsEffect s r m; simp only [State.busSetBits, State.issued, h]
@[simp] theorem State.busSetBits_cw (s : State) (a : Agent) (r : Reg) (m : Word) : (s.busSetBits a r m).cw = s.cw := by
  obtain ⟨_, _, _, h⟩ := onlyOutside_setBitsEffect s r m; simp only [State.busSetBits, State.issued, h]
@[simp] theorem State.busSetBits_din (s : State) (a : Agent) (r : Reg) (m : Word) : (s.busSetBits a r m).din = s.din := by
  obtain ⟨_, _, _, h⟩ := onlyOutside_setBitsEffect s r m; simp only [State.busSetBits, State.issued, h]
@[simp] theorem State.busSetBits_dout (s : State) (a : Agent) (r : Reg) (m : Word) : (s.busSetBits a r m).dout = s.dout := by
  obtain ⟨_, _, _, h⟩ := onlyOutside_setBitsEffect s r m; simp only [State.busSetBits, State.issued, h]
@[simp] theorem State.busSetBits_status (s : State) (a : Agent) (r : Reg) (m : Word) : (s.busSetBits a r m).status = s.status := by
  obtain ⟨_, _, _, h⟩ := onlyOutside_setBitsEffect s r m; simp only [State.busSetBits, State.issued, h]
@[simp] theorem State.busSetBits_busy (s : State) (a : Agent) (r : Reg) (m : Word) : (s.busSetBits a r m).busy = s.busy := by
  obtain ⟨_, _, _, h⟩ := onlyOutside_setBitsEffect s r m; simp only [State.busSetBits, State.issued, h]
@[simp] theorem State.busSetBits_hReg (s : State) (a : Agent) (r : Reg) (m : Word) : (s.busSetBits a r m).hReg = s.hReg := by
  obtain ⟨_, _, _, h⟩ := onlyOutside_setBitsEffect s r m; simp only [State.busSetBits, State.issued, h]
@[simp] theorem State.busSetBits_hIrq (s : State) (a : Agent) (r : Reg) (m : Word) : (s.busSetBits a r m).hIrq = s.hIrq := by
  obtain ⟨_, _, _, h⟩ := onlyOutside_setBitsEffect s r m; simp only [State.busSetBits, State.issued, h]
@[simp] theorem State.busSetBits_hPrio (s : State) (a : Agent) (r : Reg) (m : Word) : (s.busSetBits a r m).hPrio = s.hPrio := by
  obtain ⟨_, _, _, h⟩ := onlyOutside_setBitsEffect s r m; simp only [State.busSetBits, State.issued, h]
@[simp] theorem State.busSetBits_hEn (s : State) (a : Agent) (r : Reg) (m : Word) : (s.busSetBits a r m).hEn = s.hEn := by
  obtain ⟨_, _, _, h⟩ := onlyOutside_setBitsEffect s r m; simp only [State.busSetBits, State.issued, h]
@[simp] theorem State.busSetBits_cmdValid (s : State) (a : Agent) (r : Reg) (m : Word) : (s.busSetBits a r m).cmdValid = s.cmdValid := by
  obtain ⟨_, _, _, h⟩ := onlyOutside_setBitsEffect s r m; simp only [State.busSetBits, State.issued, h]
@[simp] theorem State.busSetBits_cwIn (s : State) (a : Agent) (r : Reg) (m : Word) : (s.busSetBits a r m).cwIn = s.cwIn := by
  obtain ⟨_, _, _, h⟩ := onlyOutside_setBitsEffect s r m; simp only [State.busSetBits, State.issued, h]
@[simp] theorem State.busSetBits_dinIn (s : State) (a : Agent) (r : Reg) (m : Word) : (s.busSetBits a r m).dinIn = s.dinIn := by
  obtain ⟨_, _, _, h⟩ := onlyOutside_setBitsEffect s r m; simp only [State.busSetBits, State.issued, h]
@[simp] theorem State.busSetBits_portReq (s : State) (a : Agent) (r : Reg) (m : Word) : (s.busSetBits a r m).portReq = s.portReq := by
  obtain ⟨_, _, _, h⟩ := onlyOutside_setBitsEffect s r m; simp only [State.busSetBits, State.issued, h]
@[simp] theorem State.busSetBits_wired (s : State) (a : Agent) (r : Reg) (m : Word) : (s.busSetBits a r m).wired = s.wired := by
  obtain ⟨_, _, _, h⟩ := onlyOutside_setBitsEffect s r m; simp only [State.busSetBits, State.issued, h]
@[simp] theorem State.busSetBits_asOutput (s : State) (a : Agent) (r : Reg) (m : Word) : (s.busSetBits a r m).asOutput = s.asOutput := by
  obtain ⟨_, _, _, h⟩ := onlyOutside_setBitsEffect s r m; simp only [State.busSetBits, State.issued, h]
@[simp] theorem State.busSetBits_driven (s : State) (a : Agent) (r : Reg) (m : Word) : (s.busSetBits a r m).driven = s.driven := by
  obtain ⟨_, _, _, h⟩ := onlyOutside_setBitsEffect s r m; simp only [State.busSetBits, State.issued, h]
@[simp] theorem State.busSetBits_moves (s : State) (a : Agent) (r : Reg) (m : Word) : (s.busSetBits a r m).moves = s.moves := by
  obtain ⟨_, _, _, h⟩ := onlyOutside_setBitsEffect s r m; simp only [State.busSetBits, State.issued, h]
@[simp] theorem State.busSetBits_responses (s : State) (a : Agent) (r : Reg) (m : Word) : (s.busSetBits a r m).responses = s.responses := by
  obtain ⟨_, _, _, h⟩ := onlyOutside_setBitsEffect s r m; simp only [State.busSetBits, State.issued, h]

/-! ### Fields `busClearBits` leaves alone -/

@[simp] theorem State.busClearBits_cfg (s : State) (a : Agent) (r : Reg) (m : Word) : (s.busClearBits a r m).cfg = s.cfg := by
  obtain ⟨_, _, _, h⟩ := onlyOutside_clearBitsEffect s r m; simp only [State.busClearBits, State.issued, h]
@[simp] theorem State.busClearBits_tick (s : State) (a : Agent) (r : Reg) (m : Word) : (s.busClearBits a r m).tick = s.tick := by
  obtain ⟨_, _, _, h⟩ := onlyOutside_clearBitsEffect s r m; simp only [State.busClearBits, State.issued, h]
@[simp] theorem State.busClearBits_wake (s : State) (a : Agent) (r : Reg) (m : Word) : (s.busClearBits a r m).wake = s.wake := by
  obtain ⟨_, _, _, h⟩ := onlyOutside_clearBitsEffect s r m; simp only [State.busClearBits, State.issued, h]
@[simp] theorem State.busClearBits_slStart (s : State) (a : Agent) (r : Reg) (m : Word) : (s.busClearBits a r m).slStart = s.slStart := by
  obtain ⟨_, _, _, h⟩ := onlyOutside_clearBitsEffect s r m; simp only [State.busClearBits, State.issued, h]
@[simp] theorem State.busClearBits_slTarget (s : State) (a : Agent) (r : Reg) (m : Word) : (s.busClearBits a r m).slTarget = s.slTarget := by
  obtain ⟨_, _, _, h⟩ := onlyOutside_clearBitsEffect s r m; simp only [State.busClearBits, State.issued, h]
@[simp] theorem State.busClearBits_life (s : State) (a : Agent) (r : Reg) (m : Word) : (s.busClearBits a r m).life = s.life := by
  obtain ⟨_, _, _, h⟩ := onlyOutside_clearBitsEffect s r m; simp only [State.busClearBits, State.issued, h]
@[simp] theorem State.busClearBits_seq (s : State) (a : Agent) (r : Reg) (m : Word) : (s.busClearBits a r m).seq = s.seq := by
  obtain ⟨_, _, _, h⟩ := onlyOutside_clearBitsEffect s r m; simp only [State.busClearBits, State.issued, h]
@[simp] theorem State.busClearBits_iseq (s : State) (a : Agent) (r : Reg) (m : Word) : (s.busClearBits a r m).iseq = s.iseq := by
  obtain ⟨_, _, _, h⟩ := onlyOutside_clearBitsEffect s r m; simp only [State.busClearBits, State.issued, h]
@[simp] theorem State.busClearBits_fatal (s : State) (a : Agent) (r : Reg) (m : Word) : (s.busClearBits a r m).fatal = s.fatal := by
  obtain ⟨_, _, _, h⟩ := onlyOutside_clearBitsEffect s r m; simp only [State.busClearBits, State.issued, h]
@[simp] theorem State.busClearBits_fcause (s : State) (a : Agent) (r : Reg) (m : Word) : (s.busClearBits a r m).fcause = s.fcause := by
  obtain ⟨_, _, _, h⟩ := onlyOutside_clearBitsEffect s r m; simp only [State.busClearBits, State.issued, h]
@[simp] theorem State.busClearBits_fval (s : State) (a : Agent) (r : Reg) (m : Word) : (s.busClearBits a r m).fval = s.fval := by
  obtain ⟨_, _, _, h⟩ := onlyOutside_clearBitsEffect s r m; simp only [State.busClearBits, State.issued, h]
@[simp] theorem State.busClearBits_inIsr (s : State) (a : Agent) (r : Reg) (m : Word) : (s.busClearBits a r m).inIsr = s.inIsr := by
  obtain ⟨_, _, _, h⟩ := onlyOutside_clearBitsEffect s r m; simp only [State.busClearBits, State.issued, h]
@[simp] theorem State.busClearBits_cw (s : State) (a : Agent) (r : Reg) (m : Word) : (s.busClearBits a r m).cw = s.cw := by
  obtain ⟨_, _, _, h⟩ := onlyOutside_clearBitsEffect s r m; simp only [State.busClearBits, State.issued, h]
@[simp] theorem State.busClearBits_din (s : State) (a : Agent) (r : Reg) (m : Word) : (s.busClearBits a r m).din = s.din := by
  obtain ⟨_, _, _, h⟩ := onlyOutside_clearBitsEffect s r m; simp only [State.busClearBits, State.issued, h]
@[simp] theorem State.busClearBits_dout (s : State) (a : Agent) (r : Reg) (m : Word) : (s.busClearBits a r m).dout = s.dout := by
  obtain ⟨_, _, _, h⟩ := onlyOutside_clearBitsEffect s r m; simp only [State.busClearBits, State.issued, h]
@[simp] theorem State.busClearBits_status (s : State) (a : Agent) (r : Reg) (m : Word) : (s.busClearBits a r m).status = s.status := by
  obtain ⟨_, _, _, h⟩ := onlyOutside_clearBitsEffect s r m; simp only [State.busClearBits, State.issued, h]
@[simp] theorem State.busClearBits_busy (s : State) (a : Agent) (r : Reg) (m : Word) : (s.busClearBits a r m).busy = s.busy := by
  obtain ⟨_, _, _, h⟩ := onlyOutside_clearBitsEffect s r m; simp only [State.busClearBits, State.issued, h]
@[simp] theorem State.busClearBits_hReg (s : State) (a : Agent) (r : Reg) (m : Word) : (s.busClearBits a r m).hReg = s.hReg := by
  obtain ⟨_, _, _, h⟩ := onlyOutside_clearBitsEffect s r m; simp only [State.busClearBits, State.issued, h]
@[simp] theorem State.busClearBits_hIrq (s : State) (a : Agent) (r : Reg) (m : Word) : (s.busClearBits a r m).hIrq = s.hIrq := by
  obtain ⟨_, _, _, h⟩ := onlyOutside_clearBitsEffect s r m; simp only [State.busClearBits, State.issued, h]
@[simp] theorem State.busClearBits_hPrio (s : State) (a : Agent) (r : Reg) (m : Word) : (s.busClearBits a r m).hPrio = s.hPrio := by
  obtain ⟨_, _, _, h⟩ := onlyOutside_clearBitsEffect s r m; simp only [State.busClearBits, State.issued, h]
@[simp] theorem State.busClearBits_hEn (s : State) (a : Agent) (r : Reg) (m : Word) : (s.busClearBits a r m).hEn = s.hEn := by
  obtain ⟨_, _, _, h⟩ := onlyOutside_clearBitsEffect s r m; simp only [State.busClearBits, State.issued, h]
@[simp] theorem State.busClearBits_cmdValid (s : State) (a : Agent) (r : Reg) (m : Word) : (s.busClearBits a r m).cmdValid = s.cmdValid := by
  obtain ⟨_, _, _, h⟩ := onlyOutside_clearBitsEffect s r m; simp only [State.busClearBits, State.issued, h]
@[simp] theorem State.busClearBits_cwIn (s : State) (a : Agent) (r : Reg) (m : Word) : (s.busClearBits a r m).cwIn = s.cwIn := by
  obtain ⟨_, _, _, h⟩ := onlyOutside_clearBitsEffect s r m; simp only [State.busClearBits, State.issued, h]
@[simp] theorem State.busClearBits_dinIn (s : State) (a : Agent) (r : Reg) (m : Word) : (s.busClearBits a r m).dinIn = s.dinIn := by
  obtain ⟨_, _, _, h⟩ := onlyOutside_clearBitsEffect s r m; simp only [State.busClearBits, State.issued, h]
@[simp] theorem State.busClearBits_portReq (s : State) (a : Agent) (r : Reg) (m : Word) : (s.busClearBits a r m).portReq = s.portReq := by
  obtain ⟨_, _, _, h⟩ := onlyOutside_clearBitsEffect s r m; simp only [State.busClearBits, State.issued, h]
@[simp] theorem State.busClearBits_wired (s : State) (a : Agent) (r : Reg) (m : Word) : (s.busClearBits a r m).wired = s.wired := by
  obtain ⟨_, _, _, h⟩ := onlyOutside_clearBitsEffect s r m; simp only [State.busClearBits, State.issued, h]
@[simp] theorem State.busClearBits_asOutput (s : State) (a : Agent) (r : Reg) (m : Word) : (s.busClearBits a r m).asOutput = s.asOutput := by
  obtain ⟨_, _, _, h⟩ := onlyOutside_clearBitsEffect s r m; simp only [State.busClearBits, State.issued, h]
@[simp] theorem State.busClearBits_driven (s : State) (a : Agent) (r : Reg) (m : Word) : (s.busClearBits a r m).driven = s.driven := by
  obtain ⟨_, _, _, h⟩ := onlyOutside_clearBitsEffect s r m; simp only [State.busClearBits, State.issued, h]
@[simp] theorem State.busClearBits_moves (s : State) (a : Agent) (r : Reg) (m : Word) : (s.busClearBits a r m).moves = s.moves := by
  obtain ⟨_, _, _, h⟩ := onlyOutside_clearBitsEffect s r m; simp only [State.busClearBits, State.issued, h]
@[simp] theorem State.busClearBits_responses (s : State) (a : Agent) (r : Reg) (m : Word) : (s.busClearBits a r m).responses = s.responses := by
  obtain ⟨_, _, _, h⟩ := onlyOutside_clearBitsEffect s r m; simp only [State.busClearBits, State.issued, h]

/-! ### Fields `busGet` leaves alone -/

@[simp] theorem State.busGet_cfg (s : State) (a : Agent) (r : Reg) : (s.busGet a r).2.cfg = s.cfg := rfl
@[simp] theorem State.busGet_tick (s : State) (a : Agent) (r : Reg) : (s.busGet a r).2.tick = s.tick := rfl
@[simp] theorem State.busGet_wake (s : State) (a : Agent) (r : Reg) : (s.busGet a r).2.wake = s.wake := rfl
@[simp] theorem State.busGet_slStart (s : State) (a : Agent) (r : Reg) : (s.busGet a r).2.slStart = s.slStart := rfl
@[simp] theorem State.busGet_slTarget (s : State) (a : Agent) (r : Reg) : (s.busGet a r).2.slTarget = s.slTarget := rfl
@[simp] theorem State.busGet_life (s : State) (a : Agent) (r : Reg) : (s.busGet a r).2.life = s.life := rfl
@[simp] theorem State.busGet_seq (s : State) (a : Agent) (r : Reg) : (s.busGet a r).2.seq = s.seq := rfl
@[simp] theorem State.busGet_iseq (s : State) (a : Agent) (r : Reg) : (s.busGet a r).2.iseq = s.iseq := rfl
@[simp] theorem State.busGet_fatal (s : State) (a : Agent) (r : Reg) : (s.busGet a r).2.fatal = s.fatal := rfl
@[simp] theorem State.busGet_fcause (s : State) (a : Agent) (r : Reg) : (s.busGet a r).2.fcause = s.fcause := rfl
@[simp] theorem State.busGet_fval (s : State) (a : Agent) (r : Reg) : (s.busGet a r).2.fval = s.fval := rfl
@[simp] theorem State.busGet_inIsr (s : State) (a : Agent) (r : Reg) : (s.busGet a r).2.inIsr = s.inIsr := rfl
@[simp] theorem State.busGet_cw (s : State) (a : Agent) (r : Reg) : (s.busGet a r).2.cw = s.cw := rfl
@[simp] theorem State.busGet_din (s : State) (a : Agent) (r : Reg) : (s.busGet a r).2.din = s.din := rfl
@[simp] theorem State.busGet_dout (s : State) (a : Agent) (r : Reg) : (s.busGet a r).2.dout = s.dout := rfl
@[simp] theorem State.busGet_status (s : State) (a : Agent) (r : Reg) : (s.busGet a r).2.status = s.status := rfl
@[simp] theorem State.busGet_busy (s : State) (a : Agent) (r : Reg) : (s.busGet a r).2.busy = s.busy := rfl
@[simp] theorem State.busGet_hReg (s : State) (a : Agent) (r : Reg) : (s.busGet a r).2.hReg = s.hReg := rfl
@[simp] theorem State.busGet_hIrq (s : State) (a : Agent) (r : Reg) : (s.busGet a r).2.hIrq = s.hIrq := rfl
@[simp] theorem State.busGet_hPrio (s : State) (a : Agent) (r : Reg) : (s.busGet a r).2.hPrio = s.hPrio := rfl
@[simp] theorem State.busGet_hEn (s : State) (a : Agent) (r : Reg) : (s.busGet a r).2.hEn = s.hEn := rfl
@[simp] theorem State.busGet_cmdValid (s : State) (a : Agent) (r : Reg) : (s.busGet a r).2.cmdValid = s.cmdValid := rfl
@[simp] theorem State.busGet_cwIn (s : State) (a : Agent) (r : Reg) : (s.busGet a r).2.cwIn = s.cwIn := rfl
@[simp] theorem State.busGet_dinIn (s : State) (a : Agent) (r : Reg) : (s.busGet a r).2.dinIn = s.dinIn := rfl
@[simp] theorem State.busGet_portReq (s : State) (a : Agent) (r : Reg) : (s.busGet a r).2.portReq = s.portReq := rfl
@[simp] theorem State.busGet_wired (s : State) (a : Agent) (r : Reg) : (s.busGet a r).2.wired = s.wired := rfl
@[simp] theorem State.busGet_asOutput (s : State) (a : Agent) (r : Reg) : (s.busGet a r).2.asOutput = s.asOutput := rfl
@[simp] theorem State.busGet_driven (s : State) (a : Agent) (r : Reg) : (s.busGet a r).2.driven = s.driven := rfl
@[simp] theorem State.busGet_moves (s : State) (a : Agent) (r : Reg) : (s.busGet a r).2.moves = s.moves := rfl
@[simp] theorem State.busGet_responses (s : State) (a : Agent) (r : Reg) : (s.busGet a r).2.responses = s.responses := rfl
@[simp] theorem State.busGet_surface (s : State) (a : Agent) (r : Reg) : (s.busGet a r).2.surface = s.surface := rfl
@[simp] theorem State.busGet_olat (s : State) (a : Agent) (r : Reg) : (s.busGet a r).2.olat = s.olat := rfl
@[simp] theorem State.busGet_activePsc (s : State) (a : Agent) (r : Reg) : (s.busGet a r).2.activePsc = s.activePsc := rfl

/-! ### Fields `busHasBits` leaves alone -/

@[simp] theorem State.busHasBits_cfg (s : State) (a : Agent) (r : Reg) (m : Word) : (s.busHasBits a r m).2.cfg = s.cfg := rfl
@[simp] theorem State.busHasBits_tick (s : State) (a : Agent) (r : Reg) (m : Word) : (s.busHasBits a r m).2.tick = s.tick := rfl
@[simp] theorem State.busHasBits_wake (s : State) (a : Agent) (r : Reg) (m : Word) : (s.busHasBits a r m).2.wake = s.wake := rfl
@[simp] theorem State.busHasBits_slStart (s : State) (a : Agent) (r : Reg) (m : Word) : (s.busHasBits a r m).2.slStart = s.slStart := rfl
@[simp] theorem State.busHasBits_slTarget (s : State) (a : Agent) (r : Reg) (m : Word) : (s.busHasBits a r m).2.slTarget = s.slTarget := rfl
@[simp] theorem State.busHasBits_life (s : State) (a : Agent) (r : Reg) (m : Word) : (s.busHasBits a r m).2.life = s.life := rfl
@[simp] theorem State.busHasBits_seq (s : State) (a : Agent) (r : Reg) (m : Word) : (s.busHasBits a r m).2.seq = s.seq := rfl
@[simp] theorem State.busHasBits_iseq (s : State) (a : Agent) (r : Reg) (m : Word) : (s.busHasBits a r m).2.iseq = s.iseq := rfl
@[simp] theorem State.busHasBits_fatal (s : State) (a : Agent) (r : Reg) (m : Word) : (s.busHasBits a r m).2.fatal = s.fatal := rfl
@[simp] theorem State.busHasBits_fcause (s : State) (a : Agent) (r : Reg) (m : Word) : (s.busHasBits a r m).2.fcause = s.fcause := rfl
@[simp] theorem State.busHasBits_fval (s : State) (a : Agent) (r : Reg) (m : Word) : (s.busHasBits a r m).2.fval = s.fval := rfl
@[simp] theorem State.busHasBits_inIsr (s : State) (a : Agent) (r : Reg) (m : Word) : (s.busHasBits a r m).2.inIsr = s.inIsr := rfl
@[simp] theorem State.busHasBits_cw (s : State) (a : Agent) (r : Reg) (m : Word) : (s.busHasBits a r m).2.cw = s.cw := rfl
@[simp] theorem State.busHasBits_din (s : State) (a : Agent) (r : Reg) (m : Word) : (s.busHasBits a r m).2.din = s.din := rfl
@[simp] theorem State.busHasBits_dout (s : State) (a : Agent) (r : Reg) (m : Word) : (s.busHasBits a r m).2.dout = s.dout := rfl
@[simp] theorem State.busHasBits_status (s : State) (a : Agent) (r : Reg) (m : Word) : (s.busHasBits a r m).2.status = s.status := rfl
@[simp] theorem State.busHasBits_busy (s : State) (a : Agent) (r : Reg) (m : Word) : (s.busHasBits a r m).2.busy = s.busy := rfl
@[simp] theorem State.busHasBits_hReg (s : State) (a : Agent) (r : Reg) (m : Word) : (s.busHasBits a r m).2.hReg = s.hReg := rfl
@[simp] theorem State.busHasBits_hIrq (s : State) (a : Agent) (r : Reg) (m : Word) : (s.busHasBits a r m).2.hIrq = s.hIrq := rfl
@[simp] theorem State.busHasBits_hPrio (s : State) (a : Agent) (r : Reg) (m : Word) : (s.busHasBits a r m).2.hPrio = s.hPrio := rfl
@[simp] theorem State.busHasBits_hEn (s : State) (a : Agent) (r : Reg) (m : Word) : (s.busHasBits a r m).2.hEn = s.hEn := rfl
@[simp] theorem State.busHasBits_cmdValid (s : State) (a : Agent) (r : Reg) (m : Word) : (s.busHasBits a r m).2.cmdValid = s.cmdValid := rfl
@[simp] theorem State.busHasBits_cwIn (s : State) (a : Agent) (r : Reg) (m : Word) : (s.busHasBits a r m).2.cwIn = s.cwIn := rfl
@[simp] theorem State.busHasBits_dinIn (s : State) (a : Agent) (r : Reg) (m : Word) : (s.busHasBits a r m).2.dinIn = s.dinIn := rfl
@[simp] theorem State.busHasBits_portReq (s : State) (a : Agent) (r : Reg) (m : Word) : (s.busHasBits a r m).2.portReq = s.portReq := rfl
@[simp] theorem State.busHasBits_wired (s : State) (a : Agent) (r : Reg) (m : Word) : (s.busHasBits a r m).2.wired = s.wired := rfl
@[simp] theorem State.busHasBits_asOutput (s : State) (a : Agent) (r : Reg) (m : Word) : (s.busHasBits a r m).2.asOutput = s.asOutput := rfl
@[simp] theorem State.busHasBits_driven (s : State) (a : Agent) (r : Reg) (m : Word) : (s.busHasBits a r m).2.driven = s.driven := rfl
@[simp] theorem State.busHasBits_moves (s : State) (a : Agent) (r : Reg) (m : Word) : (s.busHasBits a r m).2.moves = s.moves := rfl
@[simp] theorem State.busHasBits_responses (s : State) (a : Agent) (r : Reg) (m : Word) : (s.busHasBits a r m).2.responses = s.responses := rfl
@[simp] theorem State.busHasBits_surface (s : State) (a : Agent) (r : Reg) (m : Word) : (s.busHasBits a r m).2.surface = s.surface := rfl
@[simp] theorem State.busHasBits_olat (s : State) (a : Agent) (r : Reg) (m : Word) : (s.busHasBits a r m).2.olat = s.olat := rfl
@[simp] theorem State.busHasBits_activePsc (s : State) (a : Agent) (r : Reg) (m : Word) : (s.busHasBits a r m).2.activePsc = s.activePsc := rfl

/-! ### The record and the canonical form -/

@[simp] theorem State.busSet_record (s : State) (a : Agent) (r : Reg) (v : Word) :
    (s.busSet a r v).record = s.record ++ [⟨a, .transaction (.busSet r v), none⟩] := by
  obtain ⟨_, _, _, h⟩ := onlyOutside_writeReg s r v
  simp only [State.busSet, State.issued, h]

@[simp] theorem State.busSetBits_record (s : State) (a : Agent) (r : Reg) (m : Word) :
    (s.busSetBits a r m).record = s.record ++ [⟨a, .transaction (.busSetBits r m), none⟩] := by
  obtain ⟨_, _, _, h⟩ := onlyOutside_setBitsEffect s r m
  simp only [State.busSetBits, State.issued, h]

@[simp] theorem State.busClearBits_record (s : State) (a : Agent) (r : Reg) (m : Word) :
    (s.busClearBits a r m).record = s.record ++ [⟨a, .transaction (.busClearBits r m), none⟩] := by
  obtain ⟨_, _, _, h⟩ := onlyOutside_clearBitsEffect s r m
  simp only [State.busClearBits, State.issued, h]

@[simp] theorem State.busGet_record (s : State) (a : Agent) (r : Reg) :
    (s.busGet a r).2.record = s.record ++ [⟨a, .transaction (.busGet r), some (s.busGet a r).1⟩] := rfl

@[simp] theorem State.busHasBits_record (s : State) (a : Agent) (r : Reg) (m : Word) :
    (s.busHasBits a r m).2.record =
      s.record ++ [⟨a, .transaction (.busHasBits r m), some (if (s.busHasBits a r m).1 then 1 else 0)⟩] := rfl

/-- The surface and the latches are in the canonical form. -/
def State.canonical (s : State) : Prop := Cells.wf s.surface = true ∧ Cells.wf s.olat = true

theorem canonical_poke (s : State) (r : Reg) (v : Word) (h : s.canonical) : (s.poke r v).canonical :=
  ⟨Cells.write_wf _ _ _ h.1, h.2⟩

theorem canonical_store (s : State) (r : Reg) (v : Word) (h : s.canonical) : (s.store r v).canonical :=
  canonical_poke s r _ h

theorem canonical_setLatch (s : State) (p : Nat) (v : Half) (h : s.canonical) : (s.setLatch p v).canonical := by
  have hw : ({ s with olat := Cells.write s.olat p v } : State).canonical := ⟨h.1, Cells.write_wf _ _ _ h.2⟩
  rcases State.follow_cases { s with olat := Cells.write s.olat p v } p with e | e
  · exact (congrArg State.canonical e).mpr hw
  · exact (congrArg State.canonical e).mpr (canonical_poke _ _ _ hw)

theorem canonical_disturb (s : State) (r : Reg) (h : s.canonical) : (s.disturb r).canonical :=
  ⟨wf_disturb s r h.1, by simpa using h.2⟩

theorem canonical_configured (s : State) (pin mode : Byte) (h : s.canonical) : (s.configured pin mode).canonical :=
  ⟨wf_configured s pin mode h.1, by simpa using h.2⟩

theorem canonical_updateEvent (s : State) (h : s.canonical) : s.updateEvent.canonical :=
  canonical_poke s _ _ h

theorem canonical_forcedUpdate (s : State) (h : s.canonical) : s.forcedUpdate.canonical := by
  unfold State.forcedUpdate
  split
  · exact canonical_updateEvent s h
  · exact h

theorem canonical_writeReg (s : State) (r : Reg) (v : Word) (h : s.canonical) : (s.writeReg r v).canonical := by
  unfold State.writeReg
  split
  · split
    · exact h
    · exact canonical_forcedUpdate s h
  · split <;> exact canonical_setLatch s _ _ h
  · split
    · exact canonical_setLatch s _ _ h
    · exact h
  · exact canonical_store s _ _ h

theorem canonical_busSet (s : State) (a : Agent) (r : Reg) (v : Word) (h : s.canonical) :
    (s.busSet a r v).canonical := canonical_writeReg s r v h

theorem canonical_busSetBits (s : State) (a : Agent) (r : Reg) (m : Word) (h : s.canonical) :
    (s.busSetBits a r m).canonical := by
  show State.canonical (if isTrigger r then s.writeReg r m else s.store r (s.readReg r ||| m))
  split
  · exact canonical_writeReg s r m h
  · exact canonical_store s r _ h

theorem canonical_busClearBits (s : State) (a : Agent) (r : Reg) (m : Word) (h : s.canonical) :
    (s.busClearBits a r m).canonical := by
  show State.canonical
    (if isTrigger r then s.writeReg r (s.readReg r &&& ~~~m) else s.store r (s.readReg r &&& ~~~m))
  split
  · exact canonical_writeReg s r _ h
  · exact canonical_store s r _ h

/-! ### What the registers read as after an operation -/

/-- The registers whose read value is the stored word. -/
def isPlain (r : Reg) : Bool := !isTrigger r

@[simp] theorem isPlain_clkenSyscfg : isPlain .clkenSyscfg = true := of_decide_eq_true rfl
@[simp] theorem isPlain_clkenPwr : isPlain .clkenPwr = true := of_decide_eq_true rfl
@[simp] theorem isPlain_flashAcr : isPlain .flashAcr = true := of_decide_eq_true rfl
@[simp] theorem isPlain_oscCtl : isPlain .oscCtl = true := of_decide_eq_true rfl
@[simp] theorem isPlain_pllCfg : isPlain .pllCfg = true := of_decide_eq_true rfl
@[simp] theorem isPlain_pllCtl : isPlain .pllCtl = true := of_decide_eq_true rfl
@[simp] theorem isPlain_clkCfg : isPlain .clkCfg = true := of_decide_eq_true rfl
@[simp] theorem isPlain_clkenTim : isPlain .clkenTim = true := of_decide_eq_true rfl
@[simp] theorem isPlain_timPsc : isPlain .timPsc = true := of_decide_eq_true rfl
@[simp] theorem isPlain_timArr : isPlain .timArr = true := of_decide_eq_true rfl
@[simp] theorem isPlain_timCr : isPlain .timCr = true := of_decide_eq_true rfl
@[simp] theorem isPlain_timDier : isPlain .timDier = true := of_decide_eq_true rfl
@[simp] theorem isPlain_timSr : isPlain .timSr = true := of_decide_eq_true rfl
@[simp] theorem isPlain_clkenGpio : isPlain .clkenGpio = true := of_decide_eq_true rfl
@[simp] theorem isPlain_ctlA (p : Nat) : isPlain (.ctlA p) = true := of_decide_eq_true rfl
@[simp] theorem isPlain_ctlB (p : Nat) : isPlain (.ctlB p) = true := of_decide_eq_true rfl
@[simp] theorem isPlain_outType (p : Nat) : isPlain (.outType p) = true := of_decide_eq_true rfl

@[simp] theorem isPlain_pinIn (p : Nat) : isPlain (.pinIn p) = true := of_decide_eq_true rfl

@[simp] theorem isPlain_packedReg (pin : Byte) : isPlain (packedReg pin) = true := by
  unfold packedReg
  split <;> rfl

theorem readReg_plain (s : State) (r : Reg) (h : isPlain r = true) : s.readReg r = s.peek r := by
  cases r <;> first | rfl | cases h

theorem isTrigger_plain (r : Reg) (h : isPlain r = true) : isTrigger r = false := by
  cases r <;> first | rfl | cases h

theorem writeReg_plain (s : State) (r : Reg) (v : Word) (h : isPlain r = true) : s.writeReg r v = s.store r v := by
  cases r <;> first | rfl | cases h

/-! A bus operation on a plain register leaves the latches and the active prescaler alone. -/

theorem olat_busSetBits (s : State) (a : Agent) (r : Reg) (m : Word) (h : isPlain r = true) :
    (s.busSetBits a r m).olat = s.olat := by simp [State.busSetBits, isTrigger_plain r h]

theorem activePsc_busSetBits (s : State) (a : Agent) (r : Reg) (m : Word) (h : isPlain r = true) :
    (s.busSetBits a r m).activePsc = s.activePsc := by simp [State.busSetBits, isTrigger_plain r h]

theorem latch_busSetBits (s : State) (a : Agent) (r : Reg) (m : Word) (h : isPlain r = true) (p : Nat) :
    (s.busSetBits a r m).latch p = s.latch p := by simp [State.busSetBits, isTrigger_plain r h, State.latch]

theorem olat_busClearBits (s : State) (a : Agent) (r : Reg) (m : Word) (h : isPlain r = true) :
    (s.busClearBits a r m).olat = s.olat := by simp [State.busClearBits, isTrigger_plain r h]

theorem activePsc_busClearBits (s : State) (a : Agent) (r : Reg) (m : Word) (h : isPlain r = true) :
    (s.busClearBits a r m).activePsc = s.activePsc := by simp [State.busClearBits, isTrigger_plain r h]

theorem latch_busClearBits (s : State) (a : Agent) (r : Reg) (m : Word) (h : isPlain r = true) (p : Nat) :
    (s.busClearBits a r m).latch p = s.latch p := by simp [State.busClearBits, isTrigger_plain r h, State.latch]

theorem olat_busSet (s : State) (a : Agent) (r : Reg) (v : Word) (h : isPlain r = true) :
    (s.busSet a r v).olat = s.olat := by simp [State.busSet, writeReg_plain s r v h]

theorem activePsc_busSet (s : State) (a : Agent) (r : Reg) (v : Word) (h : isPlain r = true) :
    (s.busSet a r v).activePsc = s.activePsc := by simp [State.busSet, writeReg_plain s r v h]

theorem latch_busSet (s : State) (a : Agent) (r : Reg) (v : Word) (h : isPlain r = true) (p : Nat) :
    (s.busSet a r v).latch p = s.latch p := by simp [State.busSet, writeReg_plain s r v h, State.latch]

@[simp] theorem peek_issued (s : State) (a : Agent) (op : Instr) (x : Option Word) (d : Word) (r : Reg) :
    (s.issued a op x d).peek r = s.peek r := rfl

@[simp] theorem latch_issued (s : State) (a : Agent) (op : Instr) (x : Option Word) (d : Word) (p : Nat) :
    (s.issued a op x d).latch p = s.latch p := rfl

@[simp] theorem peek_goto (s : State) (q : Seq) (r : Reg) : (s.goto q).peek r = s.peek r := rfl
@[simp] theorem latch_goto (s : State) (q : Seq) (p : Nat) : (s.goto q).latch p = s.latch p := rfl
@[simp] theorem peek_respond (s : State) (c : BitVec 2) (d : TimeUnit) (r : Reg) :
    (s.respond c d).peek r = s.peek r := rfl
@[simp] theorem latch_respond (s : State) (c : BitVec 2) (d : TimeUnit) (p : Nat) :
    (s.respond c d).latch p = s.latch p := rfl
@[simp] theorem peek_busGet (s : State) (a : Agent) (r q : Reg) : (s.busGet a r).2.peek q = s.peek q := rfl
@[simp] theorem peek_busHasBits (s : State) (a : Agent) (r q : Reg) (m : Word) :
    (s.busHasBits a r m).2.peek q = s.peek q := rfl

/-! What a store by the block leaves in a register: the hardware-owned bits stay ENV's (R35, R62). -/

theorem landed_eq (s : State) (r : Reg) (v : Word) (h : r ≠ .timSr) :
    s.landed r v = (v &&& ~~~(s.cfg.hardwareOwned r)) ||| (s.peek r &&& s.cfg.hardwareOwned r) := by
  cases r <;> first | rfl | exact absurd rfl h

/-- Words that agree in every bit are equal, the bits of the three words taken as three booleans. -/
theorem word_bits {f g : Word → Word → Word → Word} (F G : Bool → Bool → Bool → Bool)
    (hf : ∀ (u v w : Word) (i : Nat) (h : i < 32), (f u v w)[i] = F (u[i]) (v[i]) (w[i]))
    (hg : ∀ (u v w : Word) (i : Nat) (h : i < 32), (g u v w)[i] = G (u[i]) (v[i]) (w[i]))
    (h : ∀ x y z, F x y z = G x y z) (u v w : Word) : f u v w = g u v w := by
  ext i hi
  rw [hf, hg, h]

theorem landed_core (s : State) (r : Reg) (v : Word) :
    s.landed r v &&& ~~~(s.cfg.hardwareOwned r) = v &&& ~~~(s.cfg.hardwareOwned r) := by
  by_cases h : r = .timSr
  · subst h
    exact word_bits (f := fun v u p => (v &&& ~~~(u &&& ~~~p)) &&& ~~~u) (g := fun v u _ => v &&& ~~~u)
      (fun v u p => (v && !(u && !p)) && !u) (fun v u _ => v && !u) (by simp) (by simp) (by decide) v
      s.cfg.mask.uif (s.peek .timSr)
  · rw [landed_eq s r v h]
    exact word_bits (f := fun v u p => ((v &&& ~~~u) ||| (p &&& u)) &&& ~~~u) (g := fun v u _ => v &&& ~~~u)
      (fun v u p => ((v && !u) || (p && u)) && !u) (fun v u _ => v && !u) (by simp) (by simp) (by decide) v _ _

theorem landed_owned (s : State) (r : Reg) (v : Word) (h : r ≠ .timSr) :
    s.landed r v &&& s.cfg.hardwareOwned r = s.peek r &&& s.cfg.hardwareOwned r := by
  rw [landed_eq s r v h]
  exact word_bits (f := fun v u p => ((v &&& ~~~u) ||| (p &&& u)) &&& u) (g := fun _ u p => p &&& u)
    (fun v u p => ((v && !u) || (p && u)) && u) (fun _ u p => p && u) (by simp) (by simp) (by decide) v _ _

theorem landed_free (s : State) (r : Reg) (v : Word) (h : s.cfg.hardwareOwned r = 0) : s.landed r v = v := by
  have ones : ∀ w : Word, w &&& ~~~(0 : Word) = w := fun w => BitVec.and_allOnes
  have := landed_core s r v
  rwa [h, ones, ones] at this

theorem landed_or (s : State) (r : Reg) (m : Word) :
    s.landed r (s.peek r ||| m) = s.peek r ||| (m &&& ~~~(s.cfg.hardwareOwned r)) := by
  by_cases h : r = .timSr
  · subst h
    exact word_bits (f := fun p m u => (p ||| m) &&& ~~~(u &&& ~~~p)) (g := fun p m u => p ||| (m &&& ~~~u))
      (fun p m u => (p || m) && !(u && !p)) (fun p m u => p || (m && !u)) (by simp) (by simp) (by decide) _ m _
  · rw [landed_eq s r _ h]
    exact word_bits (f := fun p m u => ((p ||| m) &&& ~~~u) ||| (p &&& u)) (g := fun p m u => p ||| (m &&& ~~~u))
      (fun p m u => ((p || m) && !u) || (p && u)) (fun p m u => p || (m && !u)) (by simp) (by simp) (by decide) _ m _

theorem landed_andNot (s : State) (r : Reg) (m : Word) (h : r ≠ .timSr) :
    s.landed r (s.peek r &&& ~~~m) = s.peek r &&& ~~~(m &&& ~~~(s.cfg.hardwareOwned r)) := by
  rw [landed_eq s r _ h]
  exact word_bits (f := fun p m u => ((p &&& ~~~m) &&& ~~~u) ||| (p &&& u)) (g := fun p m u => p &&& ~~~(m &&& ~~~u))
    (fun p m u => ((p && !m) && !u) || (p && u)) (fun p m u => p && !(m && !u)) (by simp) (by simp) (by decide) _ m _

/-- `UIF` can be cleared by the block (R49, R65). -/
theorem landed_andNot_timSr (s : State) (m : Word) :
    s.landed .timSr (s.peek .timSr &&& ~~~m) = s.peek .timSr &&& ~~~m :=
  word_bits (f := fun p m u => (p &&& ~~~m) &&& ~~~(u &&& ~~~p)) (g := fun p m _ => p &&& ~~~m)
    (fun p m u => (p && !m) && !(u && !p)) (fun p m _ => p && !m) (by simp) (by simp) (by decide) _ m _

theorem peek_store_same (s : State) (r : Reg) (v : Word) (hw : Cells.wf s.surface = true) :
    (s.store r v).peek r = s.landed r v := State.peek_poke_same s r _ hw

theorem peek_store_other (s : State) (r q : Reg) (v : Word) (h : q ≠ r) : (s.store r v).peek q = s.peek q :=
  State.peek_poke_other s r q _ h

@[simp] theorem latch_store (s : State) (r : Reg) (v : Word) (p : Nat) : (s.store r v).latch p = s.latch p := rfl

/-- SetBits on a plain register ors the bits of the mask that are not hardware-owned (R64, R35). -/
theorem peek_busSetBits_same (s : State) (a : Agent) (r : Reg) (m : Word) (h : isPlain r = true)
    (hw : Cells.wf s.surface = true) :
    (s.busSetBits a r m).peek r = s.peek r ||| (m &&& ~~~(s.cfg.hardwareOwned r)) := by
  simp [State.busSetBits, isTrigger_plain r h, readReg_plain s r h, peek_store_same _ _ _ hw, landed_or]

/-- ClearBits on a plain register clears the bits of the mask that are not hardware-owned (R65, R35). -/
theorem peek_busClearBits_same (s : State) (a : Agent) (r : Reg) (m : Word) (h : isPlain r = true) (ht : r ≠ .timSr)
    (hw : Cells.wf s.surface = true) :
    (s.busClearBits a r m).peek r = s.peek r &&& ~~~(m &&& ~~~(s.cfg.hardwareOwned r)) := by
  simp [State.busClearBits, isTrigger_plain r h, readReg_plain s r h, peek_store_same _ _ _ hw, landed_andNot _ _ _ ht]

/-- ClearBits on `TIM_SR` clears every bit of the mask, `UIF` among them (R49, R65). -/
theorem peek_busClearBits_timSr (s : State) (a : Agent) (m : Word) (hw : Cells.wf s.surface = true) :
    (s.busClearBits a .timSr m).peek .timSr = s.peek .timSr &&& ~~~m := by
  simp [State.busClearBits, isTrigger, State.readReg, peek_store_same _ _ _ hw, landed_andNot_timSr]

/-- Set on a plain register (R63). -/
theorem peek_busSet_same (s : State) (a : Agent) (r : Reg) (v : Word) (h : isPlain r = true)
    (hw : Cells.wf s.surface = true) : (s.busSet a r v).peek r = s.landed r v := by
  simp [State.busSet, writeReg_plain s r v h, peek_store_same _ _ _ hw]

theorem peek_busSetBits_other (s : State) (a : Agent) (r q : Reg) (m : Word) (h : isPlain r = true) (hq : q ≠ r) :
    (s.busSetBits a r m).peek q = s.peek q := by
  simp [State.busSetBits, isTrigger_plain r h, peek_store_other _ _ _ _ hq]

theorem peek_busClearBits_other (s : State) (a : Agent) (r q : Reg) (m : Word) (h : isPlain r = true)
    (hq : q ≠ r) : (s.busClearBits a r m).peek q = s.peek q := by
  simp [State.busClearBits, isTrigger_plain r h, peek_store_other _ _ _ _ hq]

theorem peek_busSet_other (s : State) (a : Agent) (r q : Reg) (v : Word) (h : isPlain r = true) (hq : q ≠ r) :
    (s.busSet a r v).peek q = s.peek q := by
  simp [State.busSet, writeReg_plain s r v h, peek_store_other _ _ _ _ hq]

/-- A write of a set or reset register stores no word; it reaches the port's input data through the tied pins alone (R135). -/
theorem peek_busSet_latch (s : State) (a : Agent) (r q : Reg) (v : Word) (p : Nat)
    (h : r = .outSet p ∨ r = .outReset p) (hq : q ≠ .pinIn p) : (s.busSet a r v).peek q = s.peek q := by
  rcases h with rfl | rfl <;> cases hk : s.cfg.bsrKind <;>
    simp [State.busSet, State.writeReg, hk, State.peek_setLatch_other _ _ _ _ hq]

end Sys2Proof.Machine
end

