-- ==== Sys2Proof/Laws/Step.lean ====
section
/-! SUPPORT. What a step can do, said once: the guards of a turn, the micro-steps of each command, a turn of the block and a
step of the machine, each taken apart into its cases. -/
namespace Sys2Proof.Machine

/-- A foreground step that answers is outside the halted state: it waits for the service, or does its own work (R28, R203). -/
theorem foreground_cases {s t : State} {k : State → Result} (h : foreground s k = .next t) :
    s.halted = false ∧ (s.inIsr = true ∧ t = s ∨ s.inIsr = false ∧ k s = .next t) := by
  unfold foreground at h
  split at h
  · cases h
  · rename_i hh
    refine ⟨by simpa using hh, ?_⟩
    split at h
    · rename_i hi
      cases h
      exact .inl ⟨hi, rfl⟩
    · rename_i hi
      exact .inr ⟨by simpa using hi, h⟩

/-- A transaction that answers is outside the halted state (R203). -/
theorem portStep_cases {s t : State} {k : State → Result} (h : portStep s k = .next t) :
    s.halted = false ∧ k s = .next t := by
  unfold portStep at h
  split at h
  · cases h
  · rename_i hh
    exact ⟨by simpa using hh, h⟩

/-- The validity check raises Fatal by one of its two causes, or passes (R121, R201). -/
theorem pinCheck_cases {pin : Byte} {s t : State} {k : State → Result} (h : pinCheck pin s k = .next t) :
    (pin = noPin ∧ t = s.raiseFatal causeNoPin pin) ∨
    (pin ≠ noPin ∧ s.cfg.portPresent (portOf pin) = false ∧ t = s.raiseFatal causeBadPort pin) ∨
    (pin ≠ noPin ∧ s.cfg.portPresent (portOf pin) = true ∧ k s = .next t) := by
  unfold pinCheck at h
  split at h
  · rename_i hp
    cases h
    exact .inl ⟨hp, rfl⟩
  · rename_i hp
    split at h
    · rename_i hq
      exact .inr (.inr ⟨hp, hq, h⟩)
    · rename_i hq
      cases h
      exact .inr (.inl ⟨hp, by simpa using hq, rfl⟩)

/-- Acceptance latches the command, but for a busy block, which accepts nothing (R93). -/
theorem accept_cases (s : State) (i : Instr) (q : Seq) :
    (s.busy = true ∧ s.accept i q = s) ∨
    (s.busy = false ∧ s.accept i q = (s.latchCommand i.commandWord (i.dataOperand s.dinIn)).goto q) := by
  unfold State.accept
  split <;> simp_all

/-- A command turned away at acceptance, but for a busy block (R97, R141). -/
theorem turnAway_cases (s : State) (cw : Word) (din : TimeUnit) (c : BitVec 2) :
    (s.busy = true ∧ s.turnAway cw din c = s) ∨
    (s.busy = false ∧ s.turnAway cw din c = (s.latchCommand cw din).respond c 0) := by
  unfold State.turnAway
  split <;> simp_all

/-- The step from `s` to `t` raises Fatal at the validity check, by one of its two causes (R201). -/
def fatalAt (pin : Byte) (s t : State) : Prop :=
  (pin = noPin ∧ t = s.raiseFatal causeNoPin pin) ∨
  (pin ≠ noPin ∧ s.cfg.portPresent (portOf pin) = false ∧ t = s.raiseFatal causeBadPort pin)

/-- The steps of CONFIGURE (R122) that answer. -/
theorem execConfigure_cases {pin mode pull : Byte} {s t : State} (h : execConfigure pin mode pull s = .next t) :
    s.halted = false ∧ (s.inIsr = true ∧ t = s ∨ s.inIsr = false ∧
      ((s.seq = .idle ∧ t = s.accept (.configure pin mode pull) .p0) ∨
       (s.seq = .p0 ∧ fatalAt pin s t) ∨
       (s.seq = .p0 ∧ configurable s.cfg mode pull = true ∧ t = s.goto .p1) ∨
       (s.seq = .p1 ∧ t = configureGate pin s) ∨
       (s.seq ≠ .idle ∧ s.seq ≠ .p0 ∧ s.seq ≠ .p1 ∧ t = configureFields pin mode pull s))) := by
  obtain ⟨hh, h⟩ := foreground_cases h
  refine ⟨hh, h.imp id fun ⟨hi, h⟩ => ⟨hi, ?_⟩⟩
  split at h
  · rename_i hs; cases h; simp [hs]
  · rename_i hs
    obtain h | h | ⟨_, _, h⟩ := pinCheck_cases h
    · exact .inr (.inl ⟨hs, .inl h⟩)
    · exact .inr (.inl ⟨hs, .inr h⟩)
    · split at h
      · rename_i hc
        cases h
        exact .inr (.inr (.inl ⟨hs, hc, rfl⟩))
      · cases h
  · rename_i hs; cases h; simp [hs]
  · rename_i h1 h2 h3
    cases h
    exact .inr (.inr (.inr (.inr ⟨h1, h2, h3, rfl⟩)))

/-- The steps of SET, HIGH and LOW (R129) that answer. -/
theorem drivePin_cases {i : Instr} {pin : Byte} {level : Bool} {s t : State}
    (h : drivePin i pin level s = .next t) :
    s.halted = false ∧ (s.inIsr = true ∧ t = s ∨ s.inIsr = false ∧
      ((s.seq = .idle ∧ t = s.accept i .w0) ∨ (s.seq = .w0 ∧ fatalAt pin s t) ∨ (s.seq = .w0 ∧ t = s.goto .w1) ∨
       (s.seq = .w1 ∧ t = ((s.drive pin).busSet .fg (setword s.cfg.bsrKind pin level).1
          (setword s.cfg.bsrKind pin level).2).respond statusOk 0) ∨
       (s.seq ≠ .idle ∧ s.seq ≠ .w0 ∧ s.seq ≠ .w1 ∧ t = s))) := by
  obtain ⟨hh, h⟩ := foreground_cases h
  refine ⟨hh, h.imp id fun ⟨hi, h⟩ => ⟨hi, ?_⟩⟩
  dsimp only at h
  split at h
  · rename_i hs; cases h; simp [hs]
  · rename_i hs
    obtain h | h | ⟨_, _, h⟩ := pinCheck_cases h
    · exact .inr (.inl ⟨hs, .inl h⟩)
    · exact .inr (.inl ⟨hs, .inr h⟩)
    · cases h
      exact .inr (.inr (.inl ⟨hs, rfl⟩))
  · rename_i hs; cases h; simp [hs]
  · rename_i h1 h2 h3
    cases h
    exact .inr (.inr (.inr (.inr ⟨h1, h2, h3, rfl⟩)))

/-- The steps of GET (R131) that answer. -/
theorem execGet_cases {pin : Byte} {s t : State} (h : execGet pin s = .next t) :
    s.halted = false ∧ (s.inIsr = true ∧ t = s ∨ s.inIsr = false ∧
      ((s.seq = .idle ∧ t = s.accept (.get pin) .g0) ∨ (s.seq = .g0 ∧ fatalAt pin s t) ∨
       (s.seq = .g0 ∧ t = s.goto .g1) ∨
       (s.seq = .g1 ∧ t = (s.busGet .fg (.pinIn (portOf pin))).2.respond statusOk
          (boolWord ((s.busGet .fg (.pinIn (portOf pin))).1.getLsbD (offsetOf pin)))) ∨
       (s.seq ≠ .idle ∧ s.seq ≠ .g0 ∧ s.seq ≠ .g1 ∧ t = s))) := by
  obtain ⟨hh, h⟩ := foreground_cases h
  refine ⟨hh, h.imp id fun ⟨hi, h⟩ => ⟨hi, ?_⟩⟩
  dsimp only at h
  split at h
  · rename_i hs; cases h; simp [hs]
  · rename_i hs
    obtain h | h | ⟨_, _, h⟩ := pinCheck_cases h
    · exact .inr (.inl ⟨hs, .inl h⟩)
    · exact .inr (.inl ⟨hs, .inr h⟩)
    · cases h
      exact .inr (.inr (.inl ⟨hs, rfl⟩))
  · rename_i hs; cases h; simp [hs]
  · rename_i h1 h2 h3
    cases h
    exact .inr (.inr (.inr (.inr ⟨h1, h2, h3, rfl⟩)))

/-- The steps of DEVICEINIT (R140, R141) that answer. -/
theorem execDeviceinit_cases {s t : State} (h : execDeviceinit s = .next t) :
    s.halted = false ∧ (s.inIsr = true ∧ t = s ∨ s.inIsr = false ∧
      ((s.seq = .idle ∧ s.life = .uninitialized ∧ t = s.accept .deviceinit .s1a) ∨
       (s.seq = .idle ∧ s.life ≠ .uninitialized ∧
          t = s.turnAway Instr.deviceinit.commandWord s.dinIn statusRefused) ∨
       (s.seq ≠ .idle ∧ 19 ≤ rank s.seq ∧ t = timerStep s) ∨
       (s.seq ≠ .idle ∧ rank s.seq ≤ 18 ∧ t = clockStep s))) := by
  obtain ⟨hh, h⟩ := foreground_cases h
  refine ⟨hh, h.imp id fun ⟨hi, h⟩ => ⟨hi, ?_⟩⟩
  cases hs : s.seq <;> simp only [hs] at h
  case idle =>
    split at h <;> cases h <;> simp_all
  all_goals
    cases h
    simp [rank]

/-- The steps of TICKS (R184) that answer. -/
theorem execTicks_cases {s t : State} (h : execTicks s = .next t) :
    s.halted = false ∧ (s.inIsr = true ∧ t = s ∨ s.inIsr = false ∧
      ((s.seq = .idle ∧ t = s.accept .ticks .k0) ∨
       (s.seq = .k0 ∧ t = s.respond statusOk (microseconds s.tick)) ∨
       (s.seq ≠ .idle ∧ s.seq ≠ .k0 ∧ t = s))) := by
  obtain ⟨hh, h⟩ := foreground_cases h
  refine ⟨hh, h.imp id fun ⟨hi, h⟩ => ⟨hi, ?_⟩⟩
  cases hs : s.seq <;> simp only [hs] at h <;> cases h <;> simp

/-- The steps of SLEEPTICKS (R185) that answer. -/
theorem execSleepticks_cases {d : TimeUnit} {s t : State} (h : execSleepticks d s = .next t) :
    s.halted = false ∧ (s.inIsr = true ∧ t = s ∨ s.inIsr = false ∧
      ((s.seq = .idle ∧ t = s.accept (.sleepticks d) .l0) ∨
       (s.seq = .l0 ∧ t = { s with slTarget := sleepTarget d, slStart := s.tick, seq := .l1 }) ∨
       (s.seq = .l1 ∧ elapsed s.cfg.tickw s.tick s.slStart < s.slTarget ∧ t = s) ∨
       (s.seq = .l1 ∧ s.slTarget ≤ elapsed s.cfg.tickw s.tick s.slStart ∧ t = s.respond statusOk 0) ∨
       (s.seq ≠ .idle ∧ s.seq ≠ .l0 ∧ s.seq ≠ .l1 ∧ t = s))) := by
  obtain ⟨hh, h⟩ := foreground_cases h
  refine ⟨hh, h.imp id fun ⟨hi, h⟩ => ⟨hi, ?_⟩⟩
  cases hs : s.seq <;> simp only [hs] at h
  case l1 =>
    split at h
    · rename_i hc; cases h; simp [hc]
    · rename_i hc; cases h; simp; omega
  all_goals
    cases h
    simp

/-- The steps of TICKISR (R179 to R182). -/
theorem isrStep_cases (s : State) :
    (s.iseq = .i0 ∧ s.uif = true ∧
      isrStep s = { (s.busHasBits .isr .timSr s.cfg.mask.uif).2 with iseq := .i1 }) ∨
    (s.iseq = .i0 ∧ s.uif = false ∧ isrStep s = (s.busHasBits .isr .timSr s.cfg.mask.uif).2.leaveIsr) ∨
    (s.iseq = .i1 ∧ isrStep s = { s.busClearBits .isr .timSr s.cfg.mask.uif with iseq := .i2 }) ∨
    (s.iseq = .i2 ∧ isrStep s = { s with tick := tickSucc s.cfg.tickw s.tick, iseq := .i3 }) ∨
    (s.iseq = .i3 ∧ isrStep s = { s with wake := 1 }.leaveIsr) ∨
    (s.iseq = .idle ∧ isrStep s = s.leaveIsr) := by
  have hb : (s.busHasBits .isr .timSr s.cfg.mask.uif).1 = s.uif := rfl
  unfold isrStep
  cases h : s.iseq <;> cases hu : s.uif <;> simp [hb, hu]

/-- A turn of the block that answers: a step of the service, an idle turn, an illegal word, or a step of a command (R28, R93). -/
theorem coreTurn_cases {s t : State} (h : coreTurn s = .next t) :
    s.halted = false ∧
    ((s.inIsr = true ∧ t = isrStep s) ∨
     (s.inIsr = false ∧ s.seq = .idle ∧ s.cmdValid = false ∧ t = s) ∨
     (s.inIsr = false ∧ s.seq = .idle ∧ s.cmdValid = true ∧ (∃ e, decodeCommand s.cwIn s.dinIn = .error e) ∧
       t = rejectWord s) ∨
     (s.inIsr = false ∧ s.seq = .idle ∧ s.cmdValid = true ∧
       ∃ i, decodeCommand s.cwIn s.dinIn = .ok i ∧ exec i s = .next t) ∨
     (s.inIsr = false ∧ s.seq ≠ .idle ∧ ∃ i, decodeCommand s.cw s.din = .ok i ∧ exec i s = .next t)) := by
  unfold coreTurn at h
  split at h
  · cases h
  rename_i hh
  refine ⟨by simpa using hh, ?_⟩
  split at h
  · rename_i hi
    cases h
    exact .inl ⟨hi, rfl⟩
  rename_i hi
  replace hi : s.inIsr = false := by simpa using hi
  split at h
  · rename_i hs
    unfold idleTurn at h
    split at h
    · rename_i hv
      split at h
      · rename_i i hd
        exact .inr (.inr (.inr (.inl ⟨hi, hs, hv, i, hd, h⟩)))
      · rename_i e hd
        cases h
        exact .inr (.inr (.inl ⟨hi, hs, hv, ⟨e, hd⟩, rfl⟩))
    · rename_i hv
      cases h
      exact .inr (.inl ⟨hi, hs, by simpa using hv, rfl⟩)
  · rename_i hs
    unfold busyTurn at h
    split at h
    · rename_i i hd
      exact .inr (.inr (.inr (.inr ⟨hi, hs, i, hd, h⟩)))
    · cases h

/-- A step that answers: a transaction on the request lines, an interrupt entry, a turn of the block, or a move (log 2, log 6). -/
theorem step_cases {s t : State} (h : step s = .next t) :
    (∃ lines i, s.portReq = some lines ∧ decodePort lines = .ok i ∧ exec i { s with portReq := none } = .next t) ∨
    (s.portReq = none ∧ s.moves = [] ∧ s.entryEnabled = true ∧ t = s.enterIsr) ∨
    (s.portReq = none ∧ s.moves = [] ∧ s.entryEnabled = false ∧ coreTurn s = .next t) ∨
    (s.portReq = none ∧ ∃ rest, s.moves = .core :: rest ∧ coreTurn { s with moves := rest } = .next t) ∨
    (s.portReq = none ∧ ∃ m rest, s.moves = m :: rest ∧ m ≠ .core ∧ t = applyMove m { s with moves := rest }) := by
  unfold step at h
  split at h
  · rename_i lines hp
    unfold portTurn at h
    split at h
    · rename_i i hd
      exact .inl ⟨lines, i, hp, hd, h⟩
    · cases h
  rename_i hp
  unfold moveTurn at h
  split at h
  · rename_i hm
    split at h
    · rename_i he
      cases h
      exact .inr (.inl ⟨hp, hm, he, rfl⟩)
    · rename_i he
      exact .inr (.inr (.inl ⟨hp, hm, by simpa using he, h⟩))
  · rename_i rest hm
    exact .inr (.inr (.inr (.inl ⟨hp, rest, hm, h⟩)))
  · rename_i m rest hne hm
    cases h
    refine .inr (.inr (.inr (.inr ⟨hp, m, rest, hm, ?_, rfl⟩)))
    intro e
    subst e
    exact hne rfl

end Sys2Proof.Machine
end

