-- ==== Sys2Proof/Laws/Commands.lean ====
section
/-! SUPPORT. What the step of a command and what a transaction do to the sequencer and the command interface, said once for all
sixteen instructions. -/
namespace Sys2Proof.Machine

/-- The lines of the bus and interrupt ports are no command (R90). -/
theorem decodePort_kind {l : PortLines} {i : Instr} (h : decodePort l = .ok i) : isCommand i = false := by
  cases l with
  | bus b r w =>
    simp only [decodePort] at h
    split at h <;> (try cases h) <;> (simp only [decodeReg] at h; split at h <;> cases h <;> rfl)
  | intc o a =>
    simp only [decodePort] at h
    split at h <;> cases h <;> rfl

/-- A transaction leaves the sequencer, the command interface, the service and the fatal record alone. -/
theorem exec_transaction_keeps {i : Instr} {s t : State} (hi : isCommand i = false) (h : exec i s = .next t) :
    s.halted = false ∧ t.cfg = s.cfg ∧ t.tick = s.tick ∧ t.wake = s.wake ∧ t.slStart = s.slStart ∧
    t.slTarget = s.slTarget ∧ t.life = s.life ∧ t.seq = s.seq ∧ t.iseq = s.iseq ∧ t.fatal = s.fatal ∧
    t.fcause = s.fcause ∧ t.fval = s.fval ∧ t.inIsr = s.inIsr ∧ t.cw = s.cw ∧ t.din = s.din ∧ t.dout = s.dout ∧
    t.status = s.status ∧ t.busy = s.busy ∧ t.responses = s.responses ∧ t.moves = s.moves ∧ t.portReq = s.portReq ∧
    t.wired = s.wired ∧ (s.canonical → t.canonical) ∧ t.cmdValid = s.cmdValid ∧ t.cwIn = s.cwIn ∧
    t.dinIn = s.dinIn := by
  cases i <;> simp [isCommand] at hi <;>
    simp only [exec, execBusGet, execBusSet, execBusSetBits, execBusClearBits, execBusHasBits, execIntcEnable,
      execIntcRegister, execIntcSetPriority, busStep] at h
  all_goals obtain ⟨hh, h⟩ := portStep_cases h
  all_goals try (split at h)
  all_goals cases h
  all_goals simp [hh]
  case busSet r v _ => exact fun h => canonical_disturb _ r (canonical_busSet s _ r v h)
  case busSetBits r v _ => exact fun h => canonical_disturb _ r (canonical_busSetBits s _ r v h)
  case busClearBits r v _ => exact fun h => canonical_disturb _ r (canonical_busClearBits s _ r v h)
  all_goals exact fun h => h

/-- What a step of a command that is not a wait does to the sequencer: acceptance (R93), the REFUSED answer (R141), Fatal (R202), a
micro-step with a successor inside the command, or completion (R94). -/
def commandStep (i : Instr) (s t : State) : Prop :=
  (s.seq = .idle ∧ s.busy = false ∧
    t = (s.latchCommand i.commandWord (i.dataOperand s.dinIn)).goto (firstStep i) ∧
    (i = .deviceinit → s.life = .uninitialized)) ∨
  (s.seq = .idle ∧ s.busy = false ∧ i = .deviceinit ∧ s.life ≠ .uninitialized ∧
    t = (s.latchCommand Instr.deviceinit.commandWord s.dinIn).respond statusRefused 0) ∨
  (s.seq = firstStep i ∧ s.seq ≠ .idle ∧ ∃ pin, pinOperand i = some pin ∧ fatalAt pin s t) ∨
  (inCommand s.cfg.pinLayout i s.seq = true ∧ inCommand s.cfg.pinLayout i t.seq = true ∧
    t.fatal = s.fatal ∧ t.busy = s.busy ∧ t.status = s.status ∧ t.dout = s.dout ∧ t.responses = s.responses ∧
    t.cw = s.cw ∧ t.din = s.din ∧ t.cmdValid = s.cmdValid ∧
    t.life = (if s.seq = .s7b then .configured else s.life) ∧ rank s.seq ≠ 27 ∧
    (rank t.seq = rank s.seq ∧ (rank s.seq = 6 ∨ rank s.seq = 11 ∨ rank s.seq = 16 ∨ rank s.seq = 0) ∨
      rank t.seq = rank s.seq + 1 ∧ 1 ≤ rank s.seq)) ∨
  (inCommand s.cfg.pinLayout i s.seq = true ∧ t.fatal = s.fatal ∧ t.busy = false ∧ t.seq = .idle ∧ t.status = 0 ∧
    t.cw = s.cw ∧ t.din = s.din ∧ t.cmdValid = s.cmdValid ∧ t.life = (if s.seq = .t7 then .running else s.life) ∧
    (rank s.seq = 27 ∨ rank s.seq = 0) ∧ ∃ d, t.responses = s.responses ++ [⟨0, d⟩])

/-- What no command touches in any step. -/
def besideCommands (s t : State) : Prop :=
  t.inIsr = s.inIsr ∧ t.iseq = s.iseq ∧ t.wake = s.wake ∧ t.tick = s.tick ∧ t.cfg = s.cfg ∧ t.portReq = s.portReq ∧
  t.moves = s.moves ∧ t.wired = s.wired

theorem commandStep_drive {i : Instr} {pin : Byte} {level : Bool} {s t : State}
    (h : drivePin i pin level s = .next t) (hp : pinOperand i = some pin) (hf : firstStep i = .w0)
    (hin : ∀ l q, inCommand l i q = (q == .w0 || q == .w1)) :
    besideCommands s t ∧ (t = s ∨ s.inIsr = false ∧ commandStep i s t) := by
  unfold besideCommands commandStep
  obtain ⟨hh, h⟩ := drivePin_cases h
  rcases h with ⟨hi, rfl⟩ | ⟨hi, h⟩
  · simp
  simp only [hi]
  rcases h with ⟨hs, rfl⟩ | ⟨hs, hfa⟩ | ⟨hs, rfl⟩ | ⟨hs, rfl⟩ | ⟨h1, h2, h3, rfl⟩
  · rcases accept_cases s i .w0 with ⟨hbb, h⟩ | ⟨hb, h⟩
    · rw [h]
      simp [hi]
    · rw [h]
      simp only [hs, hf, hb]
      simp only [State.goto, State.latchCommand, hi, true_and]
      right
      left
      intro hx
      rw [hx] at hp
      cases hp
  · have hx := hfa
    rcases hfa with ⟨_, rfl⟩ | ⟨_, _, rfl⟩ <;> simp [hs, hf, hp, hx, hi]
  · simp [hs, hf, hin, rank, hi]
  · simp [hs, hf, hin, rank, statusOk, hi]
  · simp [hi]

/-- The step of a command: nothing happens (it waits, or `SEQ` is not inside it), or it does its work. -/
theorem exec_command_cases {i : Instr} {s t : State} (hc : isCommand i = true) (h : exec i s = .next t) :
    besideCommands s t ∧ (t = s ∨ s.inIsr = false ∧ commandStep i s t) := by
  cases i <;> simp [isCommand] at hc
  case set pin l => exact commandStep_drive h rfl rfl fun _ _ => rfl
  case high pin => exact commandStep_drive h rfl rfl fun _ _ => rfl
  case low pin => exact commandStep_drive h rfl rfl fun _ _ => rfl
  case get pin =>
    obtain ⟨hh, h⟩ := execGet_cases h
    unfold besideCommands commandStep
    rcases h with ⟨hi, rfl⟩ | ⟨hi, h⟩
    · simp
    rcases h with ⟨hs, rfl⟩ | ⟨hs, hfa⟩ | ⟨hs, rfl⟩ | ⟨hs, rfl⟩ | ⟨h1, h2, h3, rfl⟩
    · rcases accept_cases s (.get pin) .g0 with ⟨hbb, h⟩ | ⟨hb, h⟩ <;> rw [h]
      · simp
      · simp [hs, hb, hi, firstStep]
    · have hx := hfa
      rcases hfa with ⟨_, rfl⟩ | ⟨_, _, rfl⟩ <;> simp [hs, pinOperand, firstStep, hx, hi]
    · simp [hs, inCommand, rank, hi]
    · simp [hs, inCommand, rank, statusOk, hi]
    · simp
  case configure pin mode pull =>
    obtain ⟨hh, h⟩ := execConfigure_cases h
    unfold besideCommands commandStep
    rcases h with ⟨hi, rfl⟩ | ⟨hi, h⟩
    · simp
    rcases h with ⟨hs, rfl⟩ | ⟨hs, hfa⟩ | ⟨hs, _, rfl⟩ | ⟨hs, rfl⟩ | ⟨h1, h2, h3, rfl⟩
    · rcases accept_cases s (.configure pin mode pull) .p0 with ⟨hbb, h⟩ | ⟨hb, h⟩ <;> rw [h]
      · simp
      · simp [hs, hb, hi, firstStep]
    · have hx := hfa
      rcases hfa with ⟨_, rfl⟩ | ⟨_, _, rfl⟩ <;> simp [hs, pinOperand, firstStep, hx, hi]
    · cases s.cfg.pinLayout <;> simp [hs, inCommand, rank, hi]
    · cases s.cfg.pinLayout <;> simp [hs, inCommand, rank, configureGate, hi]
    · cases hl : s.cfg.pinLayout <;> cases hq : s.seq <;>
        simp [configureFields, hl, configurePacked, configureSplit, hq, inCommand, rank, statusOk, hi]
  case ticks =>
    obtain ⟨hh, h⟩ := execTicks_cases h
    unfold besideCommands commandStep
    rcases h with ⟨hi, rfl⟩ | ⟨hi, h⟩
    · simp
    rcases h with ⟨hs, rfl⟩ | ⟨hs, rfl⟩ | ⟨h1, h2, rfl⟩
    · rcases accept_cases s .ticks .k0 with ⟨hbb, h⟩ | ⟨hb, h⟩ <;> rw [h]
      · simp
      · simp [hs, hb, hi, firstStep]
    · simp [hs, inCommand, rank, statusOk, hi]
    · simp
  case sleepticks d =>
    obtain ⟨hh, h⟩ := execSleepticks_cases h
    unfold besideCommands commandStep
    rcases h with ⟨hi, rfl⟩ | ⟨hi, h⟩
    · simp
    rcases h with ⟨hs, rfl⟩ | ⟨hs, rfl⟩ | ⟨hs, _, rfl⟩ | ⟨hs, _, rfl⟩ | ⟨h1, h2, h3, rfl⟩
    · rcases accept_cases s (.sleepticks d) .l0 with ⟨hbb, h⟩ | ⟨hb, h⟩ <;> rw [h]
      · simp
      · simp [hs, hb, hi, firstStep]
    · simp [hs, hi, inCommand, rank]
    · simp
    · simp [hs, hi, inCommand, rank, statusOk]
    · simp
  case deviceinit =>
    obtain ⟨hh, h⟩ := execDeviceinit_cases h
    unfold besideCommands commandStep
    rcases h with ⟨hi, rfl⟩ | ⟨hi, h⟩
    · simp
    rcases h with ⟨hs, hl, rfl⟩ | ⟨hs, hl, rfl⟩ | ⟨hs, hr, rfl⟩ | ⟨hs, hr, rfl⟩
    · rcases accept_cases s .deviceinit .s1a with ⟨hbb, h⟩ | ⟨hb, h⟩ <;> rw [h]
      · simp
      · simp [hs, hb, hl, hi, firstStep]
    · rcases turnAway_cases s Instr.deviceinit.commandWord s.dinIn statusRefused with ⟨hbb, h⟩ | ⟨hb, h⟩ <;>
        rw [h]
      · simp
      · simp [hs, hb, hl, hi]
    · cases hq : s.seq <;> rw [hq] at hr <;> simp [rank] at hr <;>
        simp [timerStep, hq, inCommand, rank, statusOk, hi]
    · cases hq : s.seq <;> rw [hq] at hr hs <;> simp [rank] at hr hs <;>
        simp [clockStep, hq, inCommand, rank, hi]
      all_goals
        simp only [State.pollFlag, State.pollField]
        split <;> simp [hq, hi]

end Sys2Proof.Machine
end

