-- ==== Sys2Proof/Laws/Env.lean ====
section
/-! SUPPORT. The canonical form at reset and under every move of ENV and of the host, and the lawfulness of the variant that
`State.reset` draws. -/
namespace Sys2Proof.Machine

theorem Variant_example_wf : Variant.example.wf = true := by decide

/-- The variant of `State.reset` meets R7, whichever record is drawn (log 1). -/
theorem Config_variant_wf : Config.variant.wf = true := by
  unfold Config.variant
  split
  · assumption
  · exact Variant_example_wf

theorem canonical_resetOf (v : Variant) : (State.resetOf v).canonical := ⟨rfl, rfl⟩

/-- Memory right after reset is in the canonical form. -/
theorem canonical_reset : State.reset.canonical := canonical_resetOf _

theorem canonical_pokeField (s : State) (r : Reg) (m v : Word) (h : s.canonical) :
    (s.pokeField r m v).canonical := canonical_poke s r _ h

/-- A service with the flag clear spends its one test and is over: nothing else moves (R216). -/
theorem spuriousService_cases (s : State) :
    (s.invocable && !s.uif) = true ∧
      s.spuriousService = ((s.noted .spurious).enterIsr.busHasBits .isr .timSr s.cfg.mask.uif).2.leaveIsr ∨
    (s.invocable && !s.uif) = false ∧ s.spuriousService = s := by
  unfold State.spuriousService
  split
  · rename_i h
    refine .inl ⟨h, ?_⟩
    have hu : (s.peek .timSr &&& s.cfg.mask.uif != 0) = false := by simpa [State.uif, State.flag] using (Bool.and_eq_true_iff.1 h).2
    show (if s.peek .timSr &&& s.cfg.mask.uif != 0 then _ else _) = _
    rw [hu]
    rfl
  · rename_i h
    exact .inr ⟨by simpa using h, rfl⟩

theorem canonical_hostReset (s : State) : s.hostReset.canonical :=
  ⟨Cells.normal_wf _, Cells.normal_wf _⟩

/-- Every move that is not a turn of the block keeps the canonical form. -/
theorem canonical_applyMove (m : Move) (s : State) (h : s.canonical) : (applyMove m s).canonical := by
  cases m with
  | core => exact h
  | enter => simp only [applyMove, State.takeEntry]; split <;> exact h
  | spurious =>
    show s.spuriousService.canonical
    rcases spuriousService_cases s with ⟨-, e⟩ | ⟨-, e⟩ <;> rw [e] <;> exact h
  | oscReady b => exact canonical_pokeField s _ _ _ h
  | pllReady b => exact canonical_pokeField s _ _ _ h
  | swStatus w => exact canonical_pokeField s _ _ _ h
  | updateEvent =>
    simp only [applyMove, State.periodicUpdate]
    split
    · exact canonical_poke s _ _ h
    · exact h
  | pinInput p w =>
    simp only [applyMove, State.drivePins]
    split
    · exact canonical_pokeField s _ _ _ h
    · exact h
  | offer cw din => exact h
  | clearWake => simp only [applyMove, State.clearWake]; split <;> exact h
  | reset => exact canonical_hostReset s

end Sys2Proof.Machine
end

