-- ==== Sys2Proof/Laws/PerInstr.lean ====
section
/-! SUPPORT. The statements made instruction by instruction: the encoded form of every instruction is one of its own row of the
opcode table (R95, R100, R102). -/
namespace Sys2Proof.Laws.EncodedRow
open Sys2Proof.Machine

/-- The rows of the bus port (R100). -/
def busRows : List (String × BitVec 3) :=
  [("BUS.GET", 0b000), ("BUS.SET", 0b001), ("BUS.SETBITS", 0b010), ("BUS.CLEARBITS", 0b011), ("BUS.HASBITS", 0b100)]

/-- The rows of the interrupt port (R102). -/
def intcRows : List (String × BitVec 2) :=
  [("INTC.REGISTER", 0b00), ("INTC.SETPRIORITY", 0b01), ("INTC.ENABLE", 0b10)]

/-- The encoded form of the instruction is one of the row with its mnemonic: a command word that the row's mask and match
select, or the row's `BOP` or `IOP`. -/
def Statement (i : Instr) : Prop :=
  match encode i with
  | .command cw _ => ∃ row ∈ commandTable, row.mnemonic = mnemonicOf i ∧ cw &&& row.mask = row.pattern
  | .port (.bus bop _ _) => (mnemonicOf i, bop) ∈ busRows
  | .port (.intc iop _) => (mnemonicOf i, iop) ∈ intcRows

/-- A command word under a mask, field by field (R91). -/
theorem packCommand_and (op x : BitVec 4) (pin mode pull p m u : Byte) :
    packCommand op pin mode pull &&& (x ++ 0xF#4 ++ p ++ m ++ u) =
      (op &&& x) ++ 0#4 ++ (pin &&& p) ++ (mode &&& m) ++ (pull &&& u) := by
  unfold packCommand
  rw [BitVec.and_append, BitVec.and_append, BitVec.and_append, BitVec.and_append, BitVec.zero_and]

theorem configure (pin mode pull : Byte) : Statement (.configure pin mode pull) :=
  ⟨⟨"CONFIGURE", 0x10000000, 0xFF000000⟩, by decide, rfl, by
    simpa [Instr.commandWord] using packCommand_and 1 0xF pin mode pull 0 0 0⟩

theorem set (pin : Byte) (level : Bool) : Statement (.set pin level) :=
  ⟨⟨"SET", 0x20000000, 0xFF00FFFE⟩, by decide, rfl, by
    have h : levelByte level &&& 254#8 = 0#8 := by cases level <;> decide
    simpa [Instr.commandWord, h] using packCommand_and 2 0xF pin 0 (levelByte level) 0 0xFF 0xFE⟩

theorem get (pin : Byte) : Statement (.get pin) :=
  ⟨⟨"GET", 0x30000000, 0xFF00FFFF⟩, by decide, rfl, by
    simpa [Instr.commandWord] using packCommand_and 3 0xF pin 0 0 0 0xFF 0xFF⟩

theorem high (pin : Byte) : Statement (.high pin) :=
  ⟨⟨"HIGH", 0x40000000, 0xFF00FFFF⟩, by decide, rfl, by
    simpa [Instr.commandWord] using packCommand_and 4 0xF pin 0 0 0 0xFF 0xFF⟩

theorem low (pin : Byte) : Statement (.low pin) :=
  ⟨⟨"LOW", 0x50000000, 0xFF00FFFF⟩, by decide, rfl, by
    simpa [Instr.commandWord] using packCommand_and 5 0xF pin 0 0 0 0xFF 0xFF⟩

theorem deviceinit : Statement .deviceinit :=
  ⟨⟨"DEVICEINIT", 0x60000000, 0xFFFFFFFF⟩, by decide, rfl, by decide⟩

theorem ticks : Statement .ticks :=
  ⟨⟨"TICKS", 0x70000000, 0xFFFFFFFF⟩, by decide, rfl, by decide⟩

theorem sleepticks (duration : TimeUnit) : Statement (.sleepticks duration) :=
  ⟨⟨"SLEEPTICKS", 0x80000000, 0xFFFFFFFF⟩, by decide, rfl, by
    show packCommand 8 0 0 0 &&& 0xFFFFFFFF = 0x80000000
    decide⟩

theorem busGet (r : Reg) : Statement (.busGet r) := by
  show ("BUS.GET", (0 : BitVec 3)) ∈ busRows
  decide

theorem busSet (r : Reg) (v : Word) : Statement (.busSet r v) := by
  show ("BUS.SET", (1 : BitVec 3)) ∈ busRows
  decide

theorem busSetBits (r : Reg) (m : Word) : Statement (.busSetBits r m) := by
  show ("BUS.SETBITS", (2 : BitVec 3)) ∈ busRows
  decide

theorem busClearBits (r : Reg) (m : Word) : Statement (.busClearBits r m) := by
  show ("BUS.CLEARBITS", (3 : BitVec 3)) ∈ busRows
  decide

theorem busHasBits (r : Reg) (m : Word) : Statement (.busHasBits r m) := by
  show ("BUS.HASBITS", (4 : BitVec 3)) ∈ busRows
  decide

theorem intcRegister (irq : Nat) : Statement (.intcRegister irq) := by
  show ("INTC.REGISTER", (0 : BitVec 2)) ∈ intcRows
  decide

theorem intcSetPriority (p : Nat) : Statement (.intcSetPriority p) := by
  show ("INTC.SETPRIORITY", (1 : BitVec 2)) ∈ intcRows
  decide

theorem intcEnable : Statement .intcEnable := by
  show ("INTC.ENABLE", (2 : BitVec 2)) ∈ intcRows
  decide

end Sys2Proof.Laws.EncodedRow
end

