-- ==== Sys2Proof/Tests/Slice0.lean ====
section
/-! SUPPORT. Small tests, each of one step on a small state, with the expected values of 95_test_vectors (its sections are cited), and
for every statement with hypotheses a witness that meets them. -/
namespace Sys2Proof.Tests
open Sys2Proof Sys2Proof.Machine

/-! ### The states -/

/-- The example variant with the other layout and the other set and reset registers. -/
def splitVariant : Variant := { Variant.example with pinLayout := .split, bsrKind := .separate }

/-- A SPLIT variant whose encoders are tables, with MODE 0x09 the one output mode. -/
def tableVariant : Variant :=
  { splitVariant with
    encMode := .table (List.replicate 9 0 ++ [1]), encOtype := .table [], encPull := .table [],
    legalModes := [0x00, 0x09], legalPulls := [0x00], outputModes := [0x09] }

/-- After reset on the example variant. -/
def ex : State := State.resetOf Variant.example

/-- After reset on the variant of the other kind. -/
def exSplit : State := State.resetOf splitVariant

/-- The block inside a command: `SEQ`, `CW` and `BUSY` set. -/
def inside (s : State) (q : Seq) (cw : Word) (din : TimeUnit) : State :=
  { s with seq := q, cw := cw, din := din, busy := true }

/-- Pin PB3 as the loop-back of R135 wants it: wired, made an output, its port gate set; the port's inputs as given. -/
def looping (input : Word) : State :=
  { (ex.poke .clkenGpio 0x2).poke (.pinIn 1) input with wired := [(1, 0x0008)], asOutput := [(1, 0x0008)] }

/-- Pin PB3 at a micro-step of a second CONFIGURE, after a SET. -/
def reconfigured (q : Seq) : State :=
  { inside (looping 0xA000) q 0x10130300 0 with olat := [(1, 0x0008)], asOutput := [], driven := [(1, 0x0008)] }

/-- The check `p` of the next state; false for a fault or a refusal. -/
def onNext (r : Result) (p : State → Bool) : Bool :=
  match r with
  | .next t => p t
  | _ => false

theorem onNext_spec {r : Result} {p : State → Bool} (h : onNext r p = true) : ∃ t, r = .next t ∧ p t = true := by
  cases r with
  | next t => exact ⟨t, rfl, h⟩
  | fault f => cases h
  | refused f => cases h

/-- The step is refused for this reason. -/
def refuses (r : Result) (f : Refusal) : Bool :=
  match r with
  | .refused g => g == f
  | _ => false

/-! ### Well-formedness and the variant's constraints -/

theorem test_wf_refuses_port_16 :
    (Instr.busGet (.ctlA 16)).wf = false ∧ (Instr.busSet (.ctlB 16) 0).wf = false ∧
    (Instr.busSetBits (.outType 16) 0).wf = false ∧ (Instr.busClearBits (.outSet 16) 0).wf = false ∧
    (Instr.busHasBits (.outReset 16) 0).wf = false ∧ (Instr.busGet (.pinIn 16)).wf = false := by decide

theorem test_wf_admits_port_15 : (Instr.busGet (.pinIn 15)).wf = true ∧ (Instr.configure 0xFF 0xFF 0xFF).wf = true := by
  decide

/-- V_EX and its variation meet R7 (section 0). -/
theorem test_variant_wf : Variant.example.wf = true ∧ splitVariant.wf = true := by decide

/-- R7: a mask with two bits, a value outside its mask, overlapping fields, aliased fields that overlap, `TICKW = 0`. -/
theorem test_variant_wf_refuses :
    ({ Variant.example with mask := { Variant.example.mask with cen := 3 } } : Variant).wf = false ∧
    ({ Variant.example with val := { Variant.example.val with latency := 8 } } : Variant).wf = false ∧
    ({ Variant.example with mask := { Variant.example.mask with oscRdy := 0x100 } } : Variant).wf = false ∧
    ({ Variant.example with regmap := [(11, 7), (12, 7)] } : Variant).wf = false ∧
    ({ Variant.example with tickw := 0 } : Variant).wf = false := by decide

/-! ### Decoding, words written out bit by bit (30_encoding R91, R92, R95, R97; section 2.9) -/

theorem test_decode_configure :
    decodeCommand 0b0001_0000_00000101_00000011_00000000 0 = .ok (.configure 0x05 0x03 0x00) := by decide

theorem test_decode_set : decodeCommand 0b0010_0000_00000101_00000000_0000000_1 0 = .ok (.set 0x05 true) := by decide

theorem test_decode_get : decodeCommand 0b0011_0000_00101101_00000000_00000000 0 = .ok (.get 0x2D) := by decide

theorem test_decode_high : decodeCommand 0b0100_0000_00101101_00000000_00000000 0 = .ok (.high 0x2D) := by decide

theorem test_decode_low : decodeCommand 0b0101_0000_00101101_00000000_00000000 0 = .ok (.low 0x2D) := by decide

theorem test_decode_deviceinit : decodeCommand 0b0110_0000_00000000_00000000_00000000 7 = .ok .deviceinit := by decide

theorem test_decode_ticks : decodeCommand 0b0111_0000_00000000_00000000_00000000 7 = .ok .ticks := by decide

theorem test_decode_sleepticks :
    decodeCommand 0b1000_0000_00000000_00000000_00000000 0x9C4 = .ok (.sleepticks 2500) := by decide

/-- The five `BOP` codes, on ordinals of section 2.6 (R100, R101). -/
theorem test_decode_bus :
    decodePort (.bus 0b000 29 0) = .ok (.busGet (.pinIn 1)) ∧
    decodePort (.bus 0b001 27 0x00080000) = .ok (.busSet (.outSet 1) 0x00080000) ∧
    decodePort (.bus 0b010 3 0x100) = .ok (.busSetBits .oscCtl 0x100) ∧
    decodePort (.bus 0b011 13 1) = .ok (.busClearBits .timSr 1) ∧
    decodePort (.bus 0b100 3 0x400) = .ok (.busHasBits .oscCtl 0x400) := by decide

/-- The three `IOP` codes (R102). -/
theorem test_decode_intc :
    decodePort (.intc 0b00 15) = .ok (.intcRegister 15) ∧ decodePort (.intc 0b01 0xC0) = .ok (.intcSetPriority 0xC0) ∧
    decodePort (.intc 0b10 0) = .ok .intcEnable := by decide

/-- The illegal words of section 2.9. -/
theorem test_decode_rejects :
    decodeCommand 0x11050300 0 = .error .reservedBit ∧ decodeCommand 0x20050002 0 = .error .reservedBit ∧
    decodeCommand 0x20050100 0 = .error .reservedBit ∧ decodeCommand 0x30050001 0 = .error .reservedBit ∧
    decodeCommand 0x60010000 0 = .error .reservedBit ∧ decodeCommand 0x70000001 0 = .error .reservedBit ∧
    decodeCommand 0x00000000 0 = .error .illegalOp ∧ decodeCommand 0x90000000 0 = .error .illegalOp ∧
    decodeCommand 0xFFFFFFFF 0 = .error .illegalOp := by decide

/-- `BOP` 101 to 111, `IOP` 11 and the unused ordinals (R100 to R102). -/
theorem test_decode_rejects_lines :
    decodePort (.bus 0b101 0 0) = .error .neverIssued ∧ decodePort (.intc 0b11 0) = .error .neverIssued ∧
    decodePort (.bus 0 15 0) = .error .unusedOrdinal ∧ decodePort (.bus 0 22 0) = .error .unusedOrdinal ∧
    decodePort (.bus 0 144 0) = .error .unusedOrdinal := by decide

/-! ### The instructions -/

/-- 2.2, PA5: `P2` on 0x44444444 gives 0x44044444. -/
theorem test_configure_packed_clears :
    onNext (exec (.configure 0x05 0x3 0) (inside (ex.poke (.ctlA 0) 0x44444444) .p2 0x10050300 0))
      (fun t => t.peek (.ctlA 0) == 0x44044444 && t.seq == .p3) = true := by decide

/-- 2.3, PA5: `P7` of `CONFIGURE PA5, 0x05, 0x02` sets 0x20 and responds. -/
theorem test_configure_split_output_type :
    onNext (exec (.configure 0x05 0x05 0x02) (inside (exSplit.poke (.outType 0) 0xFFDF) .p7 0x10050502 0))
      (fun t => t.peek (.outType 0) == 0xFFFF && t.seq == .idle && !t.busy) = true := by decide

/-- 2.4: with `OLAT[0] = 0xA5A5`, `SET PA5, 0` gives 0xA585. -/
theorem test_set_low :
    onNext (exec (.set 0x05 false) (inside (ex.setLatch 0 0xA5A5) .w1 0x20050000 0))
      (fun t => t.latch 0 == 0xA585 && t.status == 0) = true := by decide

/-- 2.1: port 3 is absent, `BAD_PORT`. -/
theorem test_set_bad_port :
    onNext (exec (.set 0x30 true) (inside ex .w0 0x20300001 0))
      (fun t => t.fatal && t.fcause == 2 && t.fval == 0x30 && t.seq == .halt && t.busy) = true := by decide

/-- 2.4: `HIGH PC13`, on SEPARATE, issues `PSET[2].Set(0x2000)`. -/
theorem test_high :
    onNext (exec (.high 0x2D) (inside exSplit .w1 0x402D0000 0))
      (fun t => t.latch 2 == 0x2000 && t.record == [⟨.fg, .transaction (.busSet (.outSet 2) 0x2000), none⟩]) = true := by decide

/-- 2.4: `LOW PC13`, on COMBINED, issues `PBSR[2].Set(0x20000000)`. -/
theorem test_low :
    onNext (exec (.low 0x2D) (inside (ex.setLatch 2 0xFFFF) .w1 0x502D0000 0))
      (fun t => t.latch 2 == 0xDFFF && t.record == [⟨.fg, .transaction (.busSet (.outSet 2) 0x20000000), none⟩]) = true := by decide

/-- P2: a tied output pin's input bit follows its latch: `SET PB3, 1` on `PIN_IN[1] = 0xA000` gives 0xA008. -/
theorem test_loop_back :
    onNext (exec (.set 0x13 true) (inside (looping 0xA000) .w1 0x20130001 0))
      (fun t => t.peek (.pinIn 1) == 0xA008 && t.tied 1 == 0x0008) = true := by decide

/-- R135: `CONFIGURE PB3, 0x03`, `SET PB3, 1`, `CONFIGURE PB3, 0x03`: at the last micro-step the input bit is at the latch again. -/
theorem test_loop_back_after_configure :
    onNext (exec (.configure 0x13 0x03 0) (reconfigured .p3))
      (fun t => t.peek (.pinIn 1) == 0xA008 && t.tied 1 == 0x0008) = true := by decide

/-- Pin PB3 after a SET, its port gate cleared since. -/
def ungated : State := { (looping 0xA000).poke .clkenGpio 0 with olat := [(1, 0x0008)], driven := [(1, 0x0008)] }

theorem ungated_formed : ungated.formed := by unfold State.formed; decide

/-- R135: the same pin without its port gate is not tied, and is once a stand-alone transaction sets the gate. -/
theorem test_loop_back_after_gate :
    ungated.tied 1 = 0 ∧
    onNext (exec (.busSetBits .clkenGpio 0x2) ungated) (fun t => t.peek (.pinIn 1) == 0xA008) = true := by decide

/-- R57, R135: ENV drives the other input bits of the port, not the tied one's. -/
theorem test_env_leaves_the_tied_pin :
    onNext (step { looping 0x0008 with olat := [(1, 0x0008)], driven := [(1, 0x0008)], moves := [.pinInput 1 0x0001] })
      (fun t => t.peek (.pinIn 1) == 0x0009) = true := by decide

/-- 2.5: `GET PA15` on 0x00008000 answers 1. -/
theorem test_get_one :
    onNext (exec (.get 0x0F) (inside (ex.poke (.pinIn 0) 0x00008000) .g1 0x300F0000 0))
      (fun t => t.dout == 1 && t.status == 0) = true := by decide

/-- 2.5: `GET PA15` on 0x80000000 answers 0. -/
theorem test_get_ignores_the_upper_half :
    onNext (exec (.get 0x0F) (inside (ex.poke (.pinIn 0) 0x80000000) .g1 0x300F0000 0))
      (fun t => t.dout == 0 && t.status == 0) = true := by decide

/-- P1, line 9: `S4a` on `PLL_CFG = 0x00001000` leaves 0. -/
theorem test_deviceinit_clears_the_pll_fields :
    onNext (exec .deviceinit (inside (ex.poke .pllCfg 0x00001000) .s4a 0x60000000 0))
      (fun t => t.peek .pllCfg == 0 && t.seq == .s4b) = true := by decide

/-- P1, line 20: `S6w` on `CLK_CFG = 0x00800012` goes on, on 0x00800002 (line 19) stays. -/
theorem test_deviceinit_switch_status :
    onNext (exec .deviceinit (inside (ex.poke .clkCfg 0x00800012) .s6w 0x60000000 0)) (fun t => t.seq == .s7a) = true ∧
    onNext (exec .deviceinit (inside (ex.poke .clkCfg 0x00800002) .s6w 0x60000000 0)) (fun t => t.seq == .s6w) = true := by
  decide

/-- 2.8: `TICK = 0xFFFFFFFF` gives 0x3E7FFFFFC18. -/
theorem test_ticks :
    onNext (exec .ticks (inside { ex with tick := 0xFFFFFFFF } .k0 0x70000000 0))
      (fun t => t.dout == 0x000003E7FFFFFC18) = true := by decide

/-- 2.8: `2^64 - 1` microseconds are 18,446,744,073,709,552 ticks. -/
theorem test_sleepticks_target :
    onNext (exec (.sleepticks 0xFFFFFFFFFFFFFFFF) (inside { ex with tick := 7 } .l0 0x80000000 0))
      (fun t => t.slTarget == 18446744073709552 && t.slStart == 7 && t.seq == .l1) = true := by decide

/-- 2.8: from `SL_START = 0xFFFFFFFE` with target 3, `t = 0` spins and `t = 1` completes. -/
theorem test_sleepticks_wrap :
    onNext (exec (.sleepticks 2500) (inside { ex with slStart := 0xFFFFFFFE, slTarget := 3, tick := 0 } .l1 0x80000000 2500))
      (fun t => t.seq == .l1) = true ∧
    onNext (exec (.sleepticks 2500) (inside { ex with slStart := 0xFFFFFFFE, slTarget := 3, tick := 1 } .l1 0x80000000 2500))
      (fun t => t.seq == .idle && !t.busy) = true := by decide

/-- 2.6: `Get` of 0xDEADBEEF. -/
theorem test_bus_get :
    onNext (exec (.busGet .timArr) (ex.poke .timArr 0xDEADBEEF)) (fun t => t.rdata == 0xDEADBEEF) = true := by decide

/-- 2.6: `Set(0x3E7)` on 0xFFFF. -/
theorem test_bus_set :
    onNext (exec (.busSet .timArr 0x3E7) (ex.poke .timArr 0xFFFF)) (fun t => t.peek .timArr == 0x3E7) = true := by decide

/-- 2.6: `SetBits(0x100)` on 0x1. -/
theorem test_bus_setbits :
    onNext (exec (.busSetBits .oscCtl 0x100) (ex.poke .oscCtl 1)) (fun t => t.peek .oscCtl == 0x101) = true := by decide

/-- 2.6: `ClearBits(0xF00)` on 0x00800500; an all-zero word is not listed. -/
theorem test_bus_clearbits :
    onNext (exec (.busClearBits .clkCfg 0xF00) (ex.poke .clkCfg 0x00800500)) (fun t => t.peek .clkCfg == 0x00800000) = true ∧
    onNext (exec (.busClearBits .timArr 0xFFFFFFFF) (ex.poke .timArr 0x12345678)) (fun t => t.surface == []) = true := by
  decide

/-- 2.6: `HasBits(0x400)` on 0x100 and on 0x500, in the record. -/
theorem test_bus_hasbits :
    onNext (exec (.busHasBits .oscCtl 0x400) (ex.poke .oscCtl 0x100)) (fun t => t.record.map Event.returned == [some 0]) = true ∧
    onNext (exec (.busHasBits .oscCtl 0x400) (ex.poke .oscCtl 0x500)) (fun t => t.record.map Event.returned == [some 1]) = true := by
  decide

/-- R35, R62: the block's writes leave `OSC_RDY`, `SWS` and `PIN_IN` as ENV last made them. -/
theorem test_hardware_owned_bits_stay :
    onNext (exec (.busSetBits .oscCtl 0x500) ex) (fun t => t.peek .oscCtl == 0x100) = true ∧
    onNext (exec (.busClearBits .clkCfg 0x3F) (ex.poke .clkCfg 0x12)) (fun t => t.peek .clkCfg == 0x10) = true ∧
    onNext (exec (.busSet (.pinIn 1) 0) (ex.poke (.pinIn 1) 0xA5A5)) (fun t => t.peek (.pinIn 1) == 0xA5A5) = true := by
  decide

/-- R49: a word written to `TIM_SR` clears `UIF` and does not set it. -/
theorem test_update_flag_is_only_cleared :
    onNext (exec (.busSet .timSr 1) ex) (fun t => t.peek .timSr == 0) = true ∧
    onNext (exec (.busSet .timSr 0) (ex.poke .timSr 1)) (fun t => t.peek .timSr == 0) = true := by decide

/-- P1, lines 29 to 31. -/
theorem test_intc :
    onNext (exec (.intcRegister 15) ex) (fun t => t.hReg && t.hIrq == 15 && !t.hEn) = true ∧
    onNext (exec (.intcSetPriority 0xC0) ex) (fun t => t.hPrio == 0xC0) = true ∧
    onNext (exec .intcEnable ex) (fun t => t.hEn) = true := by decide

/-- 2.7: foreign status bits: `I1` on 0x1F leaves 0x1E. -/
theorem test_isr_clears_one_flag :
    (isrStep { ex.poke .timSr 0x1F with inIsr := true, iseq := .i1 }).peek .timSr = 0x1E := by decide

/-- R216 and section 2.7, "flag clear": the handler is not invoked as spurious while the flag is up; with the flag down it tests it
and returns, and no tick is counted. -/
theorem test_spurious_needs_the_flag_clear :
    (applyMove .spurious { ex.poke .timSr 1 with hReg := true, hEn := true }).record = [] ∧
    (applyMove .spurious { ex with hReg := true, hEn := true, tick := 9 }).record.length = 2 ∧
    (applyMove .spurious { ex with hReg := true, hEn := true, tick := 9 }).inIsr = false ∧
    (applyMove .spurious { ex with hReg := true, hEn := true, tick := 9 }).tick = 9 := by decide

/-- 2.7: `I2` wraps at `TICKW = 4`. -/
theorem test_isr_wraps :
    (isrStep { State.resetOf { Variant.example with tickw := 4 } with inIsr := true, iseq := .i2, tick := 15 }).tick = 0 := by
  decide

/-- R264: a run of one TICKS ends when it responds, and not before. -/
theorem test_run_ends :
    ∃ t, RunEnds ex [(0x70000000, 0)] t ∧ t.responses = [⟨0, 0⟩] := by
  refine ⟨_, ⟨_, .other _ _ _ .core (.issue _ _ _ _ _ (.start rfl) rfl rfl) rfl rfl, ?_, rfl, rfl, rfl, rfl, rfl⟩, rfl⟩
  decide

/-- R264, P5: the run of `CONFIGURE PD0`, TICKS is a fault at its first command. -/
theorem test_run_faults : RunFaults ex [(0x10300300, 0), (0x70000000, 0)] :=
  ⟨[(0x10300300, 0)], _, _, rfl,
    .other _ _ _ .core (.other _ _ _ .core (.issue _ _ _ _ _ (.start rfl) rfl rfl) rfl rfl) rfl rfl, rfl⟩

/-- After reset, inside a sleep of one microsecond, the timer off. -/
def asleep : State :=
  { inside ex .l1 0x80000000 1 with
    cwIn := 0x80000000, dinIn := 1, slTarget := 1, record := [⟨.env, .env (.offer 0x80000000 1), none⟩] }

theorem asleep_stays : fire .core asleep = .next asleep := by
  obtain ⟨t, ht, he⟩ := onNext_spec (show onNext (fire .core asleep) (fun t => t == asleep) = true by decide)
  rw [ht, beq_iff_eq.1 he]

/-- R264: from reset the run of SLEEPTICKS 1, TICKS can be a hang at its first command, since the timer does not count. -/
theorem test_run_hangs : RunHangs ex [(0x80000000, 1), (0x70000000, 0)] :=
  ⟨[(0x80000000, 1)], [(0x70000000, 0)], ⟨fun _ => asleep, fun _ => .core⟩, rfl,
    .other _ _ _ .core (.other _ _ _ .core (.issue _ _ _ _ _ (.start rfl) rfl rfl) rfl rfl) rfl rfl,
    fun _ => ⟨rfl, asleep_stays⟩, fun _ => ⟨rfl, (by decide : asleep.seq ≠ .halt),
      (by decide : asleep.responses.length < 1)⟩⟩

/-- R264: a block that is busy, as at `S3w`, is no start state. -/
theorem test_busy_start : (inside ex .s3w 0x60000000 0).rests = false ∧ ex.rests = true := by decide

/-- A start state that has answered a command and enabled the interrupt. -/
def later : State := { ex with responses := [⟨0, 0⟩], record := [⟨.fg, .transaction .intcEnable, none⟩] }

/-- R264: the run of one TICKS from there shows its own response alone. -/
theorem test_observation_from_a_start_state :
    onNext (exec .ticks (inside { later with tick := 2 } .k0 0x70000000 0))
      (fun t => (State.observe later t).responses == [⟨0, 2000⟩] && (State.observe later t).record == []) = true := by decide

/-- R216: a service invoked with the flag clear shows nothing; one that finds the flag up shows its test. -/
theorem test_observation_of_a_spurious_service :
    (State.observe ex (applyMove .spurious { ex with hReg := true, hEn := true })).record = [] ∧
    (State.observe ex (isrStep { ex.poke .timSr 1 with inIsr := true, iseq := .i0 })).record =
      [⟨.isr, .transaction (.busHasBits .timSr 1), some 1⟩] := by decide

/-- R264: the observation shows the block's transactions and not ENV's moves. -/
theorem test_observation :
    onNext (step { ex with moves := [.oscReady true] })
      (fun t => (State.observe ex t).record == [] && t.record == [⟨.env, .env (.oscReady true), none⟩]) = true := by decide

/-- The placed word runs first after reset, on whatever variant was drawn (log 5). -/
theorem test_placed_word_runs :
    onNext (step (State.reset.withFetchWord 32 0x70000000)) (fun t => t.seq == .k0 && t.busy) = true := by rfl

/-! ### Witnesses: for each statement with hypotheses, states and operands that meet them -/

/-- An offered command, the block's turn next. -/
def offered (s : State) (cw : Word) : State := { s with cmdValid := true, cwIn := cw, moves := [.core] }

/-- Within a service, at step `q`, with four turns of the block to come. -/
def serving (q : ISeq) : State :=
  { ex.poke .timSr 1 with inIsr := true, iseq := q, moves := [.core, .core, .core, .core] }

/-- In the halted state. -/
def stopped (moves : List Move) : State := { ex with fatal := true, seq := .halt, moves := moves }

/-- After DEVICEINIT, the interrupt enabled and pending. -/
def pending (moves : List Move) : State :=
  { (ex.poke .timSr 1).poke .timDier 1 with life := .running, hReg := true, hEn := true, moves := moves }

theorem ex_formed : ex.formed := (by unfold State.formed; decide)

theorem exSplit_formed : exSplit.formed := (by unfold State.formed; decide)

theorem looping_formed : (looping 0xA000).formed := (by unfold State.formed; decide)

theorem witness_DecodeInvertsEncode :
    (Instr.busSetBits (.pinIn 15) 0xFFFFFFFF).wf = true ∧ (Instr.sleepticks 0xFFFFFFFFFFFFFFFF).wf = true := by decide

theorem witness_EncodeInvertsDecode :
    (decodeCommand 0x10FFFFFF 0 = .ok (.configure 0xFF 0xFF 0xFF) ∧ decodeCommand 0x80000000 1 = .ok (.sleepticks 1)) ∧
    (decodePort (.bus 4 143 0xFFFFFFFF) = .error .unusedOrdinal ∧
      decodePort (.bus 4 141 0xFFFFFFFF) = .ok (.busHasBits (.pinIn 15) 0xFFFFFFFF) ∧
      decodePort (.bus 0 0 7) = .ok (.busGet .clkenSyscfg)) ∧
    decodePort (.intc 2 7) = .ok .intcEnable ∧ decodePort (.intc 0 300) = .ok (.intcRegister 300) := by
  decide

/-- A word that a row selects, and the last row. -/
theorem witness_DecodesExactlyByTheOpcodeMap :
    (⟨"SET", 0x20000000, 0xFF00FFFE⟩ : CommandRow) ∈ commandTable ∧ (0x20FF0001 : Word) &&& 0xFF00FFFE = 0x20000000 ∧
    (⟨"SLEEPTICKS", 0x80000000, 0xFFFFFFFF⟩ : CommandRow) ∈ commandTable ∧
    (0x80000000 : Word) &&& 0xFFFFFFFF = 0x80000000 := by decide

/-- The offer, with a move and by default; the command in progress; the request lines. -/
theorem witness_StepRunsTheDecodedInstruction :
    ((offered ex 0x70000000).portReq = none ∧ (offered ex 0x70000000).moves = [.core] ∧
      (offered ex 0x70000000).mayAccept = true ∧ decodeCommand 0x70000000 0 = .ok .ticks) ∧
    (ex.moves = [] ∧ ex.entryEnabled = false ∧ ({ ex with cmdValid := true } : State).mayAccept = true) ∧
    ((inside { ex with moves := [.core] } .k0 0x70000000 0).fatal = false ∧
      (inside { ex with moves := [.core] } .k0 0x70000000 0).inIsr = false) ∧
    (({ ex with portReq := some (.bus 0 6 0) } : State).portReq = some (.bus 0 6 0) ∧
      decodePort (.bus 0 6 0) = .ok (.busGet .clkCfg)) := by decide

theorem witness_OfferedCommandIsAccepted :
    (offered ex 0x60000000).portReq = none ∧ (offered ex 0x60000000).moves = [.core] ∧
    (offered ex 0x60000000).mayAccept = true ∧ (offered ex 0x60000000).cmdValid = true ∧
    decodeCommand 0x60000000 0 = .ok .deviceinit ∧ (offered ex 0x60000000).life = .uninitialized := by decide

theorem witness_BusyBlockAcceptsNothing :
    (inside (offered ex 0x70000000) .k0 0x70000000 0).portReq = none ∧
    (inside (offered ex 0x70000000) .k0 0x70000000 0).busy = true ∧
    ∃ t, step (inside (offered ex 0x70000000) .k0 0x70000000 0) = .next t := ⟨rfl, rfl, _, rfl⟩

theorem witness_IllegalWordCompletesAtOnce :
    (offered ex 0x90000000).mayAccept = true ∧ (offered ex 0x90000000).cmdValid = true ∧
    ∀ row ∈ commandTable, (0x90000000 : Word) &&& row.mask ≠ row.pattern := by decide

/-- A register with a stored word, and a trigger register. -/
theorem witness_BusGetReturnsTheWord :
    ex.halted = false ∧ ex.cfg.hasReg .timArr = true ∧ isTrigger .timArr = false ∧ ex.cfg.hasReg .timEgr = true := by decide

/-- A register with no hardware-owned bit, one with some, `TIM_SR`, and gates under which a pin becomes tied. -/
theorem witness_BusSetWritesTheWholeWord :
    ex.formed ∧ ex.halted = false ∧
    (ex.cfg.hasReg (.ctlB 2) = true ∧ isTrigger (.ctlB 2) = false ∧ ex.cfg.hardwareOwned (.ctlB 2) = 0) ∧
    (ex.cfg.hasReg .oscCtl = true ∧ isTrigger .oscCtl = false ∧ ex.cfg.hardwareOwned .oscCtl = 0x400) ∧
    (ex.cfg.hasReg .timSr = true ∧ isTrigger .timSr = false ∧ ex.cfg.hardwareOwned .timSr = 1) ∧
    ungated.formed ∧ ungated.halted = false ∧ ungated.cfg.hasReg .clkenGpio = true ∧ isTrigger .clkenGpio = false :=
  ⟨ex_formed, by decide, by decide, by decide, by decide, ungated_formed, by decide, by decide, by decide⟩

/-- Both kinds of registers; offsets 0 and 15, a word with no offset's two bits. -/
theorem witness_SetAndResetBitsDriveTheLatch :
    (exSplit.formed ∧ exSplit.halted = false ∧ exSplit.cfg.portPresent 0 = true ∧ exSplit.cfg.bsrKind = .separate) ∧
    (ex.formed ∧ ex.halted = false ∧ ex.cfg.portPresent 2 = true ∧ ex.cfg.bsrKind = .combined) ∧
    ((0x80000001 : Word).getLsbD 0 && (0x80000001 : Word).getLsbD 16) = false ∧
    ((0x80000001 : Word).getLsbD 15 && (0x80000001 : Word).getLsbD 31) = false :=
  ⟨⟨exSplit_formed, by decide, by decide, rfl⟩, ⟨ex_formed, by decide, by decide, rfl⟩, by decide, by decide⟩

theorem witness_SetBitsOrsTheMask :
    ex.formed ∧ ex.halted = false ∧ ex.cfg.hasReg .oscCtl = true ∧ isTrigger .oscCtl = false ∧
    ex.cfg.hasReg .timEgr = true ∧ isTrigger .timEgr = true ∧
    (ungated.formed ∧ ungated.halted = false ∧ ungated.cfg.hasReg .clkenGpio = true) ∧
    ∃ u, exec (.busSetBits .oscCtl 0x100) ex = .next u :=
  ⟨ex_formed, by decide, by decide, by decide, by decide, by decide, ⟨ungated_formed, by decide, by decide⟩, _, rfl⟩

theorem witness_ClearBitsClearsTheMask :
    ex.formed ∧ ex.halted = false ∧ ex.cfg.hasReg .timSr = true ∧ isTrigger .timSr = false ∧ ex.cfg.mask.uif = 1 :=
  ⟨ex_formed, by decide, by decide, by decide, rfl⟩

theorem witness_HasBitsTestsTheMask : ex.halted = false ∧ ex.cfg.hasReg .pllCtl = true := by decide

/-- The PLL multiplier field of section 2.6, and a port gate under which a pin becomes tied. -/
theorem witness_FieldWriteIdiom :
    ex.formed ∧ ex.halted = false ∧ ex.cfg.hasReg .pllCfg = true ∧ isTrigger .pllCfg = false ∧
    (0x7F00 : Word) &&& ex.cfg.hardwareOwned .pllCfg = 0 ∧ (0x7 : Word) &&& ex.cfg.hardwareOwned .clkCfg = 0 ∧
    (0x800 : Word) &&& ~~~0x7F00 = 0 ∧
    (ungated.formed ∧ ungated.halted = false ∧ ungated.cfg.hasReg .clkenGpio = true ∧ isTrigger .clkenGpio = false ∧
      (0x2 : Word) &&& ungated.cfg.hardwareOwned .clkenGpio = 0 ∧ (0x2 : Word) &&& ~~~0x2 = 0) :=
  ⟨ex_formed, by decide, by decide, by decide, by decide, by decide, by decide, ungated_formed, by decide, by decide, by decide,
    by decide, by decide⟩

theorem witness_BusTransactionsFrame :
    (∃ t, exec (.busGet .clkCfg) ex = .next t) ∧ (∃ t, exec (.busSet (.outSet 0) 1) ex = .next t) ∧
    (∃ t, exec (.busSetBits .timDier 1) ex = .next t) ∧ (∃ t, exec (.busClearBits .timSr 1) ex = .next t) ∧
    (∃ t, exec (.busHasBits .oscCtl 0x400) ex = .next t) := ⟨⟨_, rfl⟩, ⟨_, rfl⟩, ⟨_, rfl⟩, ⟨_, rfl⟩, ⟨_, rfl⟩⟩

/-- A word with `UG` and one without. -/
theorem witness_ForcedUpdateLoadsThePrescaler :
    ex.formed ∧ ex.halted = false ∧ (0xFFFFFFFF : Word) &&& ex.cfg.mask.ug ≠ 0 ∧
    (0xFFFFFFFE : Word) &&& ex.cfg.mask.ug = 0 := ⟨ex_formed, by decide, by decide, by decide⟩

/-- The lines that are no transaction, at the boundaries of each clause; the halted state; a port, `POTYPE` and `PRST` the example
variant does not have. -/
theorem witness_TransactionsStopByName :
    (∀ lines ∈ [PortLines.bus 5 0 0, .bus 0 15 0, .bus 0 22 0, .bus 0 23 0, .bus 0 144 0, .bus 0 255 0, .intc 3 0],
      refuses (step { ex with portReq := some lines }) .neverIssued = true) ∧
    decodePort (.bus 4 14 0) = .ok (.busHasBits .clkenGpio 0) ∧ decodePort (.bus 0 16 0) = .ok (.busGet (.ctlA 0)) ∧
    decodePort (.bus 0 141 0) = .ok (.busGet (.pinIn 15)) ∧
    (stopped []).halted = true ∧ ex.halted = false ∧ ex.cfg.hasReg (.ctlA 3) = false ∧
    ex.cfg.hasReg (.outType 0) = false ∧ ex.cfg.hasReg (.outReset 0) = false := by decide

theorem witness_InterruptPortTransactions : ex.halted = false := by decide

/-- The sentinel; the first micro-step of the others; the first pin of an absent port and the last pin that is no sentinel; the
last pin of a present port. -/
theorem witness_PinCheckRaisesFatal :
    pinOperand (.get 0xFF) = some 0xFF ∧ (inside ex .g0 0x30FF0000 0).seq = firstStep (.get 0xFF) ∧
    (inside ex .g0 0 0).fatal = false ∧ (inside ex .g0 0 0).inIsr = false ∧
    (inside ex .p0 0 0).seq = firstStep (.configure 0x2F 0x0F 0xFF) ∧ (inside ex .w0 0 0).seq = firstStep (.set 0x2F true) ∧
    (inside ex .w0 0 0).seq = firstStep (.high 0x2F) ∧ (inside ex .w0 0 0).seq = firstStep (.low 0x2F) ∧
    ex.cfg.ports.getLsbD ((0x30 : Byte).toNat / 16) = false ∧ ex.cfg.ports.getLsbD ((0xFE : Byte).toNat / 16) = false ∧
    ex.cfg.ports.getLsbD ((0x2F : Byte).toNat / 16) = true ∧ configurable ex.cfg 0x0F 0xFF = true := by decide

/-- A pin check that raises Fatal, and a move in the halted state. -/
theorem witness_OnlyThePinCheckRaisesFatal :
    (∃ t, step (inside { ex with moves := [.core] } .w0 0x20300001 0) = .next t ∧ t.fatal = true) ∧
    (∃ t, step (stopped [.updateEvent]) = .next t) ∧ (stopped [.updateEvent]).moves.head? ≠ some .reset :=
  ⟨⟨_, rfl, rfl⟩, ⟨_, rfl⟩, by decide⟩

theorem witness_HaltedBlockOnlyLeavesByReset :
    (stopped []).fatal = true ∧ (stopped []).portReq = none ∧ (stopped []).moves = [] ∧
    (stopped [.core]).moves = [.core] ∧ (stopped [.reset]).moves = [.reset] ∧ Move.reset ≠ .core ∧
    (stopped [.clearWake]).moves = [.clearWake] ∧ Move.clearWake ≠ .core := by decide

/-- `P1`; `P3` of PACKED4; `P7` of SPLIT. -/
theorem witness_ConfigureGatesAndCompletes :
    (inside ex .p1 0x10050300 0).formed ∧ (inside ex .p1 0x10050300 0).fatal = false ∧
    (inside ex .p1 0x10050300 0).inIsr = false ∧
    (inside ex .p3 0x10050300 0).cfg.pinLayout = .packed4 ∧ (inside ex .p3 0x10050300 0).seq = .p3 ∧
    (inside exSplit .p7 0x10050101 0).cfg.pinLayout = .split ∧ (inside exSplit .p7 0x10050101 0).seq = .p7 :=
  ⟨ex_formed, rfl, rfl, rfl, rfl, rfl, rfl⟩

/-- Offsets 7, 8 and 15, and the largest mode. -/
theorem witness_ConfigurePackedIsSurgical :
    ex.formed ∧ ex.mayAccept = true ∧ ex.cfg.pinLayout = .packed4 ∧
    (∀ pin ∈ [(0x07 : Byte), 0x18, 0x2F], pin ≠ 0xFF ∧ ex.cfg.ports.getLsbD (pin.toNat / 16) = true) ∧
    (0x0F : Byte).toNat < 16 := ⟨ex_formed, by decide, rfl, by decide, by decide⟩

/-- The default encoders, and tables. -/
theorem witness_ConfigureSplitWritesThreeFields :
    configurable tableVariant 0x09 0x00 = true ∧ tableVariant.wf = true ∧
    exSplit.formed ∧ exSplit.mayAccept = true ∧ exSplit.cfg.wf = true ∧ exSplit.cfg.pinLayout = .split ∧
    (∀ pin ∈ [(0x00 : Byte), 0x2F], pin ≠ 0xFF ∧ exSplit.cfg.ports.getLsbD (pin.toNat / 16) = true) ∧
    configurable exSplit.cfg 0x07 0x03 = true :=
  ⟨by decide, by decide, exSplit_formed, by decide, by decide, rfl, by decide, by decide⟩

/-- Both layouts, each side of the boundary. -/
theorem witness_ConfigureRefusesOutsideTheEnumeration :
    (inside ex .p0 0x10050F00 0).seq = .p0 ∧ (inside ex .p0 0x10050F00 0).fatal = false ∧
    (inside ex .p0 0x10050F00 0).inIsr = false ∧ ex.cfg.ports.getLsbD ((0x05 : Byte).toNat / 16) = true ∧
    ex.cfg.pinLayout = .packed4 ∧ refuses (exec (.configure 0x05 0x10 0) (inside ex .p0 0x10051000 0)) .outsideEnumeration = true ∧
    onNext (exec (.configure 0x05 0x0F 0xFF) (inside ex .p0 0x10050FFF 0)) (fun t => t.seq == .p1) = true ∧
    exSplit.cfg.pinLayout = .split ∧ refuses (exec (.configure 0x05 0x08 0) (inside exSplit .p0 0x10050800 0)) .outsideEnumeration = true ∧
    refuses (exec (.configure 0x05 0x01 0x04) (inside exSplit .p0 0x10050104 0)) .outsideEnumeration = true ∧
    onNext (exec (.configure 0x05 0x07 0x03) (inside exSplit .p0 0x10050703 0)) (fun t => t.seq == .p1) = true ∧
    configurable tableVariant 0x09 0x00 = true ∧ configurable tableVariant 0x01 0x00 = false ∧
    configurable tableVariant 0x09 0x01 = false := by decide

theorem witness_DrivingAPinWritesOneLatchBit :
    (inside ex .w1 0x40050000 0).formed ∧ (inside ex .w1 0x40050000 0).seq = .w1 ∧
    (inside ex .w1 0x40050000 0).fatal = false ∧ (inside ex .w1 0x40050000 0).inIsr = false ∧
    (looping 0xA000).formed ∧ ((looping 0xA000).loopBack 1).getLsbD 3 = true ∧
    ((looping 0xA000).loopBack 1).getLsbD 4 = false :=
  ⟨ex_formed, rfl, rfl, rfl, looping_formed, by decide, by decide⟩

/-- After acceptance, and at acceptance. -/
theorem witness_HighAndLowAreSet :
    (inside ex .w1 0x40050000 0).seq ≠ .idle ∧ (∃ t, exec (.high 0x05) ex = .next t) ∧
    (∃ t, exec (.low 0x05) ex = .next t) := ⟨by decide, ⟨_, rfl⟩, ⟨_, rfl⟩⟩

theorem witness_GetAnswersTheInputBit :
    (inside ex .g1 0x30050000 0).seq = .g1 ∧ (inside ex .g1 0x30050000 0).fatal = false ∧
    (inside ex .g1 0x30050000 0).inIsr = false := by decide

/-- The pin that meets the premises, its neighbour that does not, and the pin configured again. -/
theorem witness_LoopBackReadsTheLevelSet :
    (looping 0xA000).formed ∧ (looping 0xA000).mayAccept = true ∧ (0x13 : Byte) ≠ 0xFF ∧
    (looping 0xA000).cfg.ports.getLsbD ((0x13 : Byte).toNat / 16) = true ∧
    ((Cells.read (looping 0xA000).wired ((0x13 : Byte).toNat / 16)).getLsbD ((0x13 : Byte).toNat % 16) = true ∧
      (Cells.read (looping 0xA000).asOutput ((0x13 : Byte).toNat / 16)).getLsbD ((0x13 : Byte).toNat % 16) = true ∧
      (looping 0xA000).peek .clkenGpio &&& (looping 0xA000).cfg.mask.gate ((0x13 : Byte).toNat / 16) ≠ 0) ∧
    (Cells.read (looping 0xA000).wired ((0x14 : Byte).toNat / 16)).getLsbD ((0x14 : Byte).toNat % 16) ≠ true ∧
    ((reconfigured .p3).formed ∧ (reconfigured .p3).fatal = false ∧ (reconfigured .p3).inIsr = false ∧
      (reconfigured .p3).cfg.pinLayout = .packed4 ∧ (reconfigured .p3).seq = .p3 ∧
      (0x03 : Byte) ∈ (reconfigured .p3).cfg.outputModes ∧
      (Cells.read (reconfigured .p3).wired ((0x13 : Byte).toNat / 16)).getLsbD ((0x13 : Byte).toNat % 16) = true ∧
      (Cells.read (reconfigured .p3).driven ((0x13 : Byte).toNat / 16)).getLsbD ((0x13 : Byte).toNat % 16) = true ∧
      (reconfigured .p3).peek .clkenGpio &&& (reconfigured .p3).cfg.mask.gate ((0x13 : Byte).toNat / 16) ≠ 0) :=
  ⟨looping_formed, by decide, by decide, by decide, by decide, by decide,
    (by unfold State.formed; decide), rfl, rfl, rfl, rfl, by decide, by decide, by decide, by decide⟩

/-- Acceptance, `P2` and `P6`. -/
theorem witness_ConfigureFrame :
    (∃ t, exec (.configure 0x05 3 0) ex = .next t) ∧
    (∃ t, exec (.configure 0x05 3 0) (inside ex .p2 0x10050300 0) = .next t) ∧
    (∃ t, exec (.configure 0x05 3 0) (inside exSplit .p6 0x10050300 0) = .next t) := ⟨⟨_, rfl⟩, ⟨_, rfl⟩, ⟨_, rfl⟩⟩

theorem witness_PinAccessFrame :
    (∃ t, exec (.set 0x05 true) (inside ex .w1 0x20050001 0) = .next t) ∧
    (∃ t, exec (.high 0x05) (inside exSplit .w1 0x40050000 0) = .next t) ∧
    (∃ t, exec (.low 0x05) (inside ex .w0 0x50050000 0) = .next t) ∧
    (∃ t, exec (.get 0x05) (inside ex .g1 0x30050000 0) = .next t) ∧ ex.formed :=
  ⟨⟨_, rfl⟩, ⟨_, rfl⟩, ⟨_, rfl⟩, ⟨_, rfl⟩, ex_formed⟩

/-- A state at every row of the program. -/
theorem witness_DeviceinitFollowsTheProgram :
    ∀ row ∈ initProgram Variant.example, (inside ex row.at_ 0x60000000 0).fatal = false ∧
      (inside ex row.at_ 0x60000000 0).inIsr = false ∧ row ∈ initProgram (inside ex row.at_ 0x60000000 0).cfg ∧
      (inside ex row.at_ 0x60000000 0).seq = row.at_ :=
  fun _ h => ⟨rfl, rfl, h, rfl⟩

/-- Acceptance, `S2a` and `T3`. -/
theorem witness_DeviceinitFrame :
    (∃ t, exec .deviceinit ex = .next t) ∧ (∃ t, exec .deviceinit (inside ex .s2a 0x60000000 0) = .next t) ∧
    (∃ t, exec .deviceinit (inside ex .t3 0x60000000 0) = .next t) := ⟨⟨_, rfl⟩, ⟨_, rfl⟩, ⟨_, rfl⟩⟩

/-- At a busy-wait, everything enabled and every value waited for up, on a variant that assumes (a), (b) and (c) of `ENV_FAIR`. -/
def ready (q : Seq) : State :=
  inside (((State.resetOf { Variant.example with envFair := ⟨true, true, true, false, false⟩ }
    |>.poke .oscCtl 0x500).poke .pllCtl 0x03000000).poke .clkCfg 0x12) q 0x60000000 0

theorem fire_absent_port (t : State) (h : t.portReq = none) (hp : t.cfg.portPresent 15 = false) :
    fire (.pinInput 15 0) t = .next t := by
  have hd : t.drivePins 15 0 = t := by simp [State.drivePins, hp]
  cases t
  cases h
  exact congrArg Host.Outcome.next hd

/-- One turn of the block at a busy-wait, and then nothing but moves of ENV on a port that is absent. -/
theorem ready_answers (q : Seq) (hq : q = .s3w ∨ q = .s4w ∨ q = .s6w) :
    ∃ r : Trace, r.runs ∧ r.fair ∧ r.state 0 = ready q := by
  have h : onNext (fire .core (ready q)) (fun t =>
      t.seq != .s3w && t.seq != .s4w && t.seq != .s6w && t.portReq == none && !t.cfg.portPresent 15) = true := by
    rcases hq with rfl | rfl | rfl <;> decide
  obtain ⟨t, ht, hp⟩ := onNext_spec h
  simp only [Bool.and_eq_true, beq_iff_eq, bne_iff_ne, Bool.not_eq_true'] at hp
  obtain ⟨⟨⟨⟨h3, h4⟩, h6⟩, hr⟩, hx⟩ := hp
  refine ⟨⟨fun | 0 => ready q | _ + 1 => t, fun | 0 => .core | _ + 1 => .pinInput 15 0⟩, ?_, ⟨?_, ?_, ?_, ?_, ?_⟩, rfl⟩
  · rintro (_ | n)
    · exact ⟨rfl, ht⟩
    · exact ⟨hr, fire_absent_port t hr hx⟩
  · rintro - (_ | n) e -
    · exact ⟨0, Nat.le_refl 0, .inl ⟨rfl, rfl, e, (by decide : (ready .idle).peek .oscCtl &&& 0x400 = 0x400)⟩⟩
    · exact absurd e h3
  · rintro - (_ | n) e -
    · exact ⟨0, Nat.le_refl 0, .inl ⟨rfl, rfl, e, (by decide : (ready .idle).peek .pllCtl &&& 0x02000000 = 0x02000000)⟩⟩
    · exact absurd e h4
  · rintro - (_ | n) e -
    · exact ⟨0, Nat.le_refl 0, .inl ⟨rfl, rfl, e, (by decide : (ready .idle).peek .clkCfg &&& 0x38 = 0x10)⟩⟩
    · exact absurd e h6
  · exact fun h => absurd h (show (ready .idle).cfg.envFair.updates ≠ true by decide)
  · exact fun h => absurd h (show (ready .idle).cfg.envFair.agents ≠ true by decide)

/-- A run from reset that waits at `S3w`, DEVICEINIT its first command; for each wait a fair run that is answered; the three waiting
steps, no flag up. -/
theorem witness_UnansweredWaitNeverEnds :
    (∃ s, Played ex [(0x60000000, 0)] s ∧ s.responses.length < ex.responses.length + 1 ∧ s.portReq = none ∧
      s.sequenced ∧ s.inIsr = false ∧ s.unanswered) ∧
    (∀ q, q = .s3w ∨ q = .s4w ∨ q = .s6w → (∃ r : Trace, r.runs ∧ r.fair ∧ r.state 0 = ready q) ∧ (ready q).sequenced ∧
      (ready q).cfg.wf = true ∧ (ready q).seq = q) ∧
    ((ready .s3w).cfg.envFair.oscReady = true ∧ (ready .s3w).holds .oscCtl 0x100 0x100 ∧
      (ready .s4w).cfg.envFair.pllReady = true ∧ (ready .s4w).holds .pllCtl 0x01000000 0x01000000 ∧
      (ready .s6w).cfg.envFair.switched = true ∧ (ready .s6w).holds .clkCfg 0x7 0x2) ∧
    ∀ q ∈ [Seq.s3w, .s4w, .s6w], (inside ex q 0x60000000 0).fatal = false ∧ (inside ex q 0x60000000 0).inIsr = false ∧
      (inside ex q 0x60000000 0).unanswered := by
  refine ⟨⟨_, .other _ _ _ .core (.other _ _ _ .core (.other _ _ _ .core (.other _ _ _ .core (.other _ _ _ .core
      (.other _ _ _ .core (.issue _ _ _ 0x60000000 0 (.start rfl) rfl rfl) rfl rfl) rfl rfl) rfl rfl) rfl rfl) rfl rfl) rfl rfl,
      by decide, rfl, ?_, rfl, .inl ⟨rfl, by decide⟩⟩, fun q hq => ⟨ready_answers q hq, ?_, (by decide : (ready .idle).cfg.wf = true), rfl⟩,
    ⟨rfl, (by decide : (ready .s3w).peek .oscCtl &&& 0x100 = 0x100), rfl,
      (by decide : (ready .s4w).peek .pllCtl &&& 0x01000000 = 0x01000000), rfl,
      (by decide : (ready .s6w).peek .clkCfg &&& 0x7 = 0x2)⟩, ?_⟩
  · exact ⟨by decide, by decide, by decide, by decide, by decide, (fun h => by cases h),
      fun _ _ => ⟨.deviceinit, by decide, by decide⟩⟩
  · rcases hq with rfl | rfl | rfl <;>
    exact ⟨by decide, by decide, by decide, by decide, by decide, (fun h => by cases h),
      fun _ _ => ⟨.deviceinit, by decide, by decide⟩⟩
  · intro q hq
    refine ⟨rfl, rfl, ?_⟩
    simp only [List.mem_cons, List.not_mem_nil, or_false] at hq
    rcases hq with rfl | rfl | rfl
    · exact .inl ⟨rfl, by decide⟩
    · exact .inr (.inl ⟨rfl, by decide⟩)
    · exact .inr (.inr ⟨rfl, by decide⟩)

/-- After reset with the two ready flags and the switch status up. -/
def exReady : State := ((ex.poke .oscCtl 0x400).poke .pllCtl 0x02000000).poke .clkCfg 0x10

theorem witness_DeviceinitCompletesWhenReady :
    exReady.formed ∧ exReady.cfg.wf = true ∧ exReady.mayAccept = true ∧ exReady.life = .uninitialized ∧
    exReady.peek .oscCtl &&& exReady.cfg.mask.oscRdy ≠ 0 ∧ exReady.peek .pllCtl &&& exReady.cfg.mask.pllRdy ≠ 0 ∧
    exReady.peek .clkCfg &&& exReady.cfg.mask.sws = exReady.cfg.val.swsPll :=
  ⟨(by unfold State.formed; decide), by decide, by decide, rfl, by decide, by decide, by decide⟩

theorem witness_SecondDeviceinitAnswersRefused :
    (pending []).mayAccept = true ∧ (pending []).life ≠ .uninitialized := by decide

/-- A service with the flag up and one with the flag down. -/
theorem witness_TickisrCountsOneTick :
    ((serving .i0).formed ∧ (serving .i0).inIsr = true ∧ (serving .i0).iseq = .i0 ∧ (serving .i0).halted = false ∧
      (serving .i0).portReq = none ∧ (serving .i0).uif = true ∧
      (serving .i0).moves = [.core, .core, .core, .core] ++ []) ∧
    ({ ex with inIsr := true, iseq := .i0, moves := [.core] } : State).uif = false ∧
    ({ ex with inIsr := true, iseq := .i0, moves := [.core] } : State).halted = false :=
  ⟨⟨(by unfold State.formed; decide), rfl, rfl, by decide, rfl, by decide, rfl⟩, by decide, by decide⟩

theorem witness_TickisrReturnsWithinFourTurns :
    (serving .i3).inIsr = true ∧ (serving .i3).halted = false ∧ (serving .i3).portReq = none ∧
    (serving .i3).moves = [.core, .core, .core, .core] ++ [] := by decide

theorem witness_ServiceLeavesTheForegroundAlone :
    (serving .i1).inIsr = true ∧ (serving .i1).portReq = none ∧ (serving .i1).moves = .core :: [.core, .core, .core] ∧
    ∃ t, step (serving .i1) = .next t := ⟨rfl, rfl, rfl, _, rfl⟩

theorem witness_CommandsNeverWriteTheTimerStatus :
    isCommand .deviceinit = true ∧ (∃ t, exec .deviceinit (inside ex .t3 0x60000000 0) = .next t) ∧
    (inside ex .t3 0x60000000 0).formed ∧ isCommand .ticks = true ∧ ∃ t, exec .ticks ex = .next t :=
  ⟨rfl, ⟨_, rfl⟩, ex_formed, rfl, _, rfl⟩

theorem witness_TicksAnswersMicroseconds :
    (inside ex .k0 0x70000000 0).seq = .k0 ∧ (inside ex .k0 0x70000000 0).fatal = false ∧
    (inside ex .k0 0x70000000 0).inIsr = false := by decide

theorem witness_SleepSamplesTheCeiling :
    (inside ex .l0 0x80000000 1).seq = .l0 ∧ (inside ex .l0 0x80000000 1).fatal = false ∧
    (inside ex .l0 0x80000000 1).inIsr = false := by decide

/-- At `L1`: one tick short of the target, at the target, and a target of `2 ^ TICKW`. -/
theorem witness_SleepSpinsOnTheUnsignedDifference :
    (inside { ex with slStart := 0xFFFFFFFE, slTarget := 3 } .l1 0x80000000 2500).seq = .l1 ∧
    (inside ex .l1 0x80000000 0).fatal = false ∧ (inside ex .l1 0x80000000 0).inIsr = false ∧
    (((0 : Nat) : Int) - ((0xFFFFFFFE : Nat) : Int)) % (2 : Int) ^ ex.cfg.tickw < ((3 : Nat) : Int) ∧
    ((3 : Nat) : Int) ≤ (((1 : Nat) : Int) - ((0xFFFFFFFE : Nat) : Int)) % (2 : Int) ^ ex.cfg.tickw ∧
    2 ^ ex.cfg.tickw ≤ 4294967296 := by decide

/-- At `L0` of a sleep of one tick, the timer counting and its interrupt enabled: the block samples, an update event comes, the
service counts it, and the block's next turn completes the sleep. -/
def exSleep : State :=
  { inside (((ex.poke .clkenTim 1).poke .timCr 1).poke .timDier 1) .l0 0x80000000 1000 with
    life := .running, hReg := true, hEn := true, moves := [.core, .updateEvent, .enter, .core, .core, .core, .core, .core] }

theorem witness_SleepIsNeverShort :
    exSleep.formed ∧ exSleep.sequenced ∧ exSleep.staged ∧ exSleep.counted ∧ exSleep.seq = .l0 ∧ Move.reset ∉ exSleep.moves ∧
    sleepTarget exSleep.din = 1 ∧
    ∃ t u, Host.Core.run Sys2Proof.core 7 exSleep = .next t ∧ t.responses = exSleep.responses ∧ step t = .next u ∧
      u.responses ≠ t.responses := by
  have h : onNext (Host.Core.run Sys2Proof.core 7 exSleep)
      (fun t => t.responses == exSleep.responses && onNext (step t) (fun u => u.responses != t.responses)) = true := by
    decide
  obtain ⟨t, h1, h2⟩ := onNext_spec h
  rw [Bool.and_eq_true, beq_iff_eq] at h2
  obtain ⟨u, h3, h4⟩ := onNext_spec h2.2
  refine ⟨(by unfold State.formed; decide), ?_, ?_, rfl, rfl, by decide, by decide, t, u, h1,
    h2.1, h3, bne_iff_ne.1 h4⟩
  · exact ⟨by decide, by decide, by decide, by decide, by decide, (fun h => by cases h),
      fun _ _ => ⟨.sleepticks 1000, by decide, by decide⟩⟩
  · exact ⟨rfl, by decide, by decide, by decide, by decide, by decide⟩

theorem witness_DifferenceCountsTheIncrements : (14 : Nat) < 2 ^ 4 ∧ (3 : Nat) < 2 ^ 4 := by decide

/-- A step that changes `TICK`, one that changes `WAKE`, the host's clearing of `WAKE`, and a reset. -/
theorem witness_OnlyTheServiceWritesTickAndWake :
    (∃ t, step (serving .i2) = .next t ∧ t.tick ≠ (serving .i2).tick) ∧
    (∃ t, step (serving .i3) = .next t ∧ t.wake ≠ (serving .i3).wake) ∧
    (∃ t, step { ex with wake := 1, moves := [.clearWake] } = .next t ∧ t.wake ≠ 1) ∧
    (∃ t, step { ex with tick := 1, moves := [.reset] } = .next t ∧ t.tick ≠ 1) :=
  ⟨⟨_, rfl, by decide⟩, ⟨_, rfl, by decide⟩, ⟨_, rfl, by decide⟩, ⟨_, rfl, by decide⟩⟩

/-- The two ways `IN_ISR` rises: the move, and the default on the empty list; all six conditions of an entry, and five of them; an
invocation with the flag clear, and one with the flag up. -/
theorem witness_InterruptEntryUnderSixConditions :
    (∀ s ∈ [pending [.enter], pending []],
      s.inIsr = false ∧ onNext (step s) (fun t => t.inIsr) = true) ∧
    (pending [.enter]).portReq = none ∧ (pending [.enter]).moves = [.enter] ∧
    ((pending [.enter]).hReg = true ∧ (pending [.enter]).hEn = true ∧
      (pending [.enter]).peek .timSr &&& (pending [.enter]).cfg.mask.uif ≠ 0 ∧
      (pending [.enter]).peek .timDier &&& (pending [.enter]).cfg.mask.uie ≠ 0 ∧ (pending [.enter]).inIsr = false ∧
      (pending [.enter]).fatal = false) ∧
    ({ pending [.enter] with hEn := false } : State).hEn ≠ true ∧
    (((pending [.spurious]).poke .timSr 0).hReg = true ∧ ((pending [.spurious]).poke .timSr 0).hEn = true ∧
      ((pending [.spurious]).poke .timSr 0).peek .timSr &&& ex.cfg.mask.uif = 0 ∧
      ((pending [.spurious]).poke .timSr 0).inIsr = false ∧ ((pending [.spurious]).poke .timSr 0).fatal = false ∧
      ((pending [.spurious]).poke .timSr 0).moves = [.spurious] ∧
      ex.record.length ≤ ((pending [.spurious]).poke .timSr 0).record.length) ∧
    (pending [.spurious]).peek .timSr &&& ex.cfg.mask.uif ≠ 0 := by decide

/-- The four inputs of ENV, on a port with a tied pin; a port that is absent; a timer that counts, and one that does not; an offer;
a host that may clear `WAKE`, and one that may not. -/
theorem witness_PeriodicUpdateEvents :
    ({ looping 0xA000 with moves := [.oscReady true] } : State).formed ∧
    ({ looping 0xA000 with moves := [.swStatus 0x10] } : State).moves = [.swStatus 0x10] ∧
    (looping 0xA000).cfg.ports.getLsbD 2 = true ∧ (looping 0xA000).cfg.ports.getLsbD 3 = false ∧
    ({ (ex.poke .clkenTim 1).poke .timCr 1 with moves := [.updateEvent] } : State).formed ∧
    ((ex.poke .clkenTim 1).poke .timCr 1).peek .clkenTim &&& ex.cfg.mask.cgTim ≠ 0 ∧
    ((ex.poke .clkenTim 1).poke .timCr 1).peek .timCr &&& ex.cfg.mask.cen ≠ 0 ∧
    ¬ (ex.peek .clkenTim &&& ex.cfg.mask.cgTim ≠ 0 ∧ ex.peek .timCr &&& ex.cfg.mask.cen ≠ 0) ∧
    ({ ex with moves := [.offer 0x70000000 1] } : State).portReq = none ∧ ex.cfg.hostMayClearWake = true ∧
    (State.resetOf { Variant.example with hostMayClearWake := false }).cfg.hostMayClearWake = false :=
  ⟨looping_formed, rfl, by decide, by decide, (by unfold State.formed; decide),
    by decide, by decide, by decide, rfl, rfl, rfl⟩

theorem witness_VariantNeverChanges : ∃ t, step { ex with moves := [.reset] } = .next t := ⟨_, rfl⟩

/-- At `S7b` before `Configured`, and at `T7` before `Running`. -/
theorem witness_LifecycleTransitions :
    (inside ex .s7b 0x60000000 0).staged ∧
    (∃ t, step (inside ex .s7b 0x60000000 0) = .next t ∧ t.life ≠ (inside ex .s7b 0x60000000 0).life) ∧
    (inside { ex with life := .configured, hReg := true } .t7 0x60000000 0).staged ∧
    ∃ t, step (inside { ex with life := .configured, hReg := true } .t7 0x60000000 0) = .next t ∧ t.life ≠ .configured :=
  ⟨⟨rfl, by decide, by decide, by decide, by decide, by decide⟩, ⟨_, rfl, by decide⟩,
    ⟨rfl, by decide, by decide, by decide, by decide, by decide⟩, _, rfl, by decide⟩

theorem witness_ResetLeavesTheValuesOfTheTable :
    ∃ s rest t, s.portReq = none ∧ s.moves = .reset :: rest ∧ step s = .next t :=
  ⟨{ ex with tick := 5, moves := [.reset] }, [], _, rfl, rfl, rfl⟩

theorem ex_sequenced : ex.sequenced :=
  ⟨by decide, by decide, by decide, by decide, by decide, (fun h => by cases h), fun h => absurd rfl h⟩

theorem ex_staged : ex.staged := ⟨rfl, by decide, by decide, by decide, by decide, by decide⟩

theorem ex_broughtUp : ex.broughtUp := by
  have never : ∀ k, ¬ ex.past k := by
    intro k h
    rcases h with h | h
    · cases h
    · exact absurd h (Nat.not_lt_zero k)
  refine ⟨by decide, ⟨?_, ?_, ?_, ?_, ?_⟩, ⟨?_, ?_, ?_, ?_⟩, ⟨?_, ?_, ?_, ?_, ?_, ?_⟩, ⟨?_, ?_, ?_, ?_, ?_⟩, ?_, ?_, ?_⟩ <;>
    first
    | exact fun h => absurd h (never _)
    | exact fun h => by cases h

/-- The state after reset meets every invariant and takes a step. -/
theorem witness_StepKeepsTheForm : ex.formed ∧ ∃ t, step ex = .next t := ⟨ex_formed, _, rfl⟩

theorem witness_StepKeepsTheSequencer : ex.sequenced ∧ ∃ t, step ex = .next t := ⟨ex_sequenced, _, rfl⟩

theorem witness_StepKeepsTheLifecycle : ex.staged ∧ ∃ t, step ex = .next t := ⟨ex_staged, _, rfl⟩

theorem witness_StepKeepsTheBringUp : ex.formed ∧ ex.staged ∧ ex.broughtUp ∧ ∃ t, step ex = .next t :=
  ⟨ex_formed, ex_staged, ex_broughtUp, _, rfl⟩

theorem witness_StepKeepsTheTickCount : ex.sequenced ∧ ex.staged ∧ ex.counted ∧ ∃ t, step ex = .next t :=
  ⟨ex_sequenced, ex_staged, rfl, _, rfl⟩

theorem witness_StepKeepsTheBringUpOrder : ex.portReq = none ∧ ex.ordered ∧ ∃ t, step ex = .next t :=
  ⟨rfl, fun h => absurd h (by decide), _, rfl⟩

theorem witness_StepNeverGetsStuck : ex.sequenced ∧ ex.portReq = none := ⟨ex_sequenced, rfl⟩

end Sys2Proof.Tests
end

/-! PROOFS. The scope (00_scope): the variant record is the same after every step (R6), and the state after reset meets every
invariant (R7, R58). -/
namespace Sys2Proof.Machine

/-! ### The variant record -/

@[simp] theorem State.pokeField_cfg (s : State) (r : Reg) (m v : Word) : (s.pokeField r m v).cfg = s.cfg := rfl

@[simp] theorem State.hostReset_cfg (s : State) : s.hostReset.cfg = s.cfg := rfl

@[simp] theorem State.takeEntry_cfg (s : State) : s.takeEntry.cfg = s.cfg := by
  unfold State.takeEntry
  split <;> simp

@[simp] theorem State.spuriousService_cfg (s : State) : s.spuriousService.cfg = s.cfg := by
  obtain ⟨-, e⟩ | ⟨-, e⟩ := spuriousService_cases s <;> simp [e]

@[simp] theorem State.periodicUpdate_cfg (s : State) : s.periodicUpdate.cfg = s.cfg := by
  unfold State.periodicUpdate
  split <;> simp

@[simp] theorem State.drivePins_cfg (s : State) (p : Nat) (w : Word) : (s.drivePins p w).cfg = s.cfg := by
  unfold State.drivePins
  split <;> simp

@[simp] theorem State.clearWake_cfg (s : State) : s.clearWake.cfg = s.cfg := by
  unfold State.clearWake
  split <;> simp

/-- No move of ENV, the host or the interrupt writes the variant record: reset takes it over (R240). -/
@[simp] theorem applyMove_cfg (m : Move) (s : State) : (applyMove m s).cfg = s.cfg := by
  cases m <;> simp [applyMove]

@[simp] theorem isrStep_cfg (s : State) : (isrStep s).cfg = s.cfg := by
  obtain ⟨-, -, e⟩ | ⟨-, -, e⟩ | ⟨-, e⟩ | ⟨-, e⟩ | ⟨-, e⟩ | ⟨-, e⟩ := isrStep_cases s <;> simp [e]

@[simp] theorem rejectWord_cfg (s : State) : (rejectWord s).cfg = s.cfg := by
  unfold rejectWord
  obtain ⟨-, e⟩ | ⟨-, e⟩ := turnAway_cases s s.cwIn s.dinIn statusIllegal <;> simp [e]

/-- No instruction writes the variant record, command or transaction. -/
theorem exec_keeps_cfg {i : Instr} {s t : State} (h : exec i s = .next t) : t.cfg = s.cfg := by
  cases hc : isCommand i with
  | true =>
    obtain ⟨⟨-, -, -, -, hcfg, -⟩, -⟩ := exec_command_cases hc h
    exact hcfg
  | false =>
    obtain ⟨-, hcfg, -⟩ := exec_transaction_keeps hc h
    exact hcfg

theorem coreTurn_keeps_cfg {s t : State} (h : coreTurn s = .next t) : t.cfg = s.cfg := by
  obtain ⟨-, ⟨-, rfl⟩ | ⟨-, -, -, rfl⟩ | ⟨-, -, -, -, rfl⟩ | ⟨-, -, -, i, -, hi⟩ | ⟨-, -, i, -, hi⟩⟩ :=
    coreTurn_cases h
  · exact isrStep_cfg s
  · rfl
  · exact rejectWord_cfg s
  · exact exec_keeps_cfg hi
  · exact exec_keeps_cfg hi

theorem step_keeps_cfg {s t : State} (h : step s = .next t) : t.cfg = s.cfg := by
  obtain ⟨_, _, -, -, hi⟩ | ⟨-, -, -, rfl⟩ | ⟨-, -, -, ht⟩ | ⟨-, rest, -, ht⟩ | ⟨-, m, rest, -, -, rfl⟩ :=
    step_cases h
  · exact (exec_keeps_cfg hi :)
  · exact s.enterIsr_cfg
  · exact coreTurn_keeps_cfg ht
  · exact (coreTurn_keeps_cfg ht :)
  · exact applyMove_cfg m { s with moves := rest }

/-- Settles O50: neither a turn, a transaction, an interrupt entry nor a move writes the record. -/
theorem variantNeverChanges : Obligations.VariantNeverChanges :=
  fun _ _ h => step_keeps_cfg h

/-! ### The state after reset

Each invariant holds after reset on every variant; that of bring-up asks for a lawful one, which `State.reset` has (log 1). -/

theorem not_past_resetOf (v : Variant) (k : Nat) : ¬ (State.resetOf v).past k := by
  simp [State.past, State.resetOf, rank]

/-- The lists are empty (log 3, log 4), so no pin is wired and the loop-back of R135 asks nothing. -/
theorem formed_resetOf (v : Variant) : (State.resetOf v).formed :=
  ⟨rfl, rfl, rfl, rfl, rfl, rfl, Nat.two_pow_pos _, Nat.two_pow_pos _⟩

theorem sequenced_resetOf (v : Variant) : (State.resetOf v).sequenced := by
  simp [State.sequenced, State.resetOf]

theorem staged_resetOf (v : Variant) : (State.resetOf v).staged := by
  simp [State.staged, State.resetOf, rank]

/-- No step of DEVICEINIT is done and none is in progress, so nothing is claimed but that the record is lawful. -/
theorem broughtUp_resetOf {v : Variant} (hv : v.wf = true) : (State.resetOf v).broughtUp := by
  have notAt : ∀ q, q ≠ .idle → (State.resetOf v).seq ≠ q := fun _ hq h => hq h.symm
  have lawful : (State.resetOf v).cfg.wf = true := hv
  simp [State.broughtUp, not_past_resetOf, notAt, lawful]

theorem counted_resetOf (v : Variant) : (State.resetOf v).counted := rfl

/-- `SEQ` is `IDLE`, so no DEVICEINIT is in progress. -/
theorem ordered_resetOf (v : Variant) : (State.resetOf v).ordered :=
  fun h => absurd h (by decide : ¬ 1 ≤ rank .idle)

/-- Settles O53: every invariant holds after reset on a lawful variant, and the one drawn is lawful, whichever it is. -/
theorem resetMeetsTheInvariants : Obligations.ResetMeetsTheInvariants :=
  ⟨formed_resetOf _, sequenced_resetOf _, staged_resetOf _, broughtUp_resetOf Config_variant_wf, counted_resetOf _,
    ordered_resetOf _⟩

end Sys2Proof.Machine

/-! PROOFS. The state (10_state): what a step can change of the state registers, and the invariants of form, of the step
registers and of the lifecycle, which every step keeps. -/
namespace Sys2Proof.Machine

/-! ### What a step can be

One case for each way a step can answer, so that a statement about every step is a statement about seven cases. -/

/-- Only a command decodes from a command word (R95). -/
theorem decodeCommand_kind {cw : Word} {din : TimeUnit} {i : Instr} (h : decodeCommand cw din = .ok i) :
    isCommand i = true := by
  have kind : ∀ {z : Bool} {j : Instr}, isCommand j = true → requireZero z j = .ok i → isCommand i = true := by
    intro z j hj hz
    unfold requireZero at hz
    split at hz <;> cases hz
    exact hj
  unfold decodeCommand at h
  dsimp only at h
  split at h
  case h_9 => cases h
  all_goals exact kind rfl h

/-- The next move, where there is one, is consumed (log 2). -/
def State.consume (s : State) : State := { s with moves := s.moves.tail }

theorem fatal_of_live {s : State} (live : s.halted = false) : s.fatal = false := by
  simp only [State.halted, Bool.or_eq_false_iff] at live
  exact live.1

theorem rejectWord_cases (s : State) :
    rejectWord s = s ∨ rejectWord s = (s.latchCommand s.cwIn s.dinIn).respond statusIllegal 0 := by
  obtain ⟨-, e⟩ | ⟨-, e⟩ := turnAway_cases s s.cwIn s.dinIn statusIllegal
  · exact .inl e
  · exact .inr e

/-- An illegal word changes the command interface alone (R97). -/
theorem rejectWord_keeps (s : State) :
    (rejectWord s).tick = s.tick ∧ (rejectWord s).wake = s.wake ∧ (rejectWord s).life = s.life ∧
    keptFatal s (rejectWord s) := by
  obtain e | e := rejectWord_cases s <;> simp [e, keptFatal]

/-- The ways a step can answer (R10, R28, R75, R210): a transaction on the request lines, an interrupt entry by default, a turn of
the service, a turn with nothing to do, an illegal word, a step of a command, or a listed move. -/
inductive StepKind (s t : State) : Prop
  | transaction (i : Instr) (port : s.portReq ≠ none) (kind : isCommand i = false)
      (run : exec i { s with portReq := none } = .next t)
  | entry (moves : s.moves = []) (enabled : s.entryEnabled = true) (result : t = s.enterIsr)
  | service (live : s.halted = false) (serving : s.inIsr = true)
      (result : t = isrStep s.consume)
  | pause (result : t = s.consume)
  | rejection (waiting : s.seq = .idle) (result : t = rejectWord s.consume)
  | command (i : Instr) (live : s.halted = false) (foreground : s.inIsr = false) (kind : isCommand i = true)
      (decoded : s.seq ≠ .idle → decodeCommand s.cw s.din = .ok i)
      (run : exec i s.consume = .next t)
  | move (m : Move) (port : s.portReq = none) (next : s.moves.head? = some m)
      (result : t = applyMove m s.consume)

theorem stepKind_of_coreTurn {s t : State} (h : coreTurn s.consume = .next t) :
    StepKind s t := by
  obtain ⟨live, ⟨hi, ht⟩ | ⟨-, -, -, ht⟩ | ⟨-, hs, -, -, ht⟩ | ⟨hi, hs, -, i, hd, ht⟩ | ⟨hi, -, i, hd, ht⟩⟩ :=
    coreTurn_cases h
  · exact .service live hi ht
  · exact .pause ht
  · exact .rejection hs ht
  · exact .command i live hi (decodeCommand_kind hd) (absurd hs) ht
  · exact .command i live hi (decodeCommand_kind hd) (fun _ => hd) ht

theorem stepKind_of_step {s t : State} (h : step s = .next t) : StepKind s t := by
  obtain ⟨_, i, hp, hd, ht⟩ | ⟨-, hm, he, ht⟩ | ⟨-, hm, -, ht⟩ | ⟨-, rest, hm, ht⟩ | ⟨hp, m, rest, hm, -, ht⟩ :=
    step_cases h
  · exact .transaction i (by simp [hp]) (decodePort_kind hd) ht
  · exact .entry hm he ht
  · have same : s.consume = s := by rw [State.consume, hm, List.tail_nil, ← hm]
    exact stepKind_of_coreTurn (same.symm ▸ ht)
  · exact stepKind_of_coreTurn (by rw [State.consume, hm]; exact ht)
  · exact .move m hp (by rw [hm]; rfl) (by rw [State.consume, hm]; exact ht)

/-! ### The encoded command, read back (30_encoding R91, R92) -/

section Fields
open BitVec
variable (op : BitVec 4) (pin mode pull : Byte)

@[simp] theorem opField_packCommand : opField (packCommand op pin mode pull) = op := by
  unfold opField packCommand
  rw [extractLsb'_append_eq_of_le (by decide), extractLsb'_append_eq_of_le (by decide),
    extractLsb'_append_eq_of_le (by decide), extractLsb'_append_eq_of_le (by decide)]
  exact extractLsb'_eq_self

@[simp] theorem zeroField_packCommand : zeroField (packCommand op pin mode pull) = 0 := by
  unfold zeroField packCommand
  rw [extractLsb'_append_eq_of_le (by decide), extractLsb'_append_eq_of_le (by decide),
    extractLsb'_append_eq_of_le (by decide), extractLsb'_append_eq_of_add_le (by decide)]
  exact extractLsb'_eq_self

@[simp] theorem pinField_packCommand : pinField (packCommand op pin mode pull) = pin := by
  unfold pinField packCommand
  rw [extractLsb'_append_eq_of_le (by decide), extractLsb'_append_eq_of_le (by decide),
    extractLsb'_append_eq_of_add_le (by decide)]
  exact extractLsb'_eq_self

@[simp] theorem modeField_packCommand : modeField (packCommand op pin mode pull) = mode := by
  unfold modeField packCommand
  rw [extractLsb'_append_eq_of_le (by decide), extractLsb'_append_eq_of_add_le (by decide)]
  exact extractLsb'_eq_self

@[simp] theorem pullField_packCommand : pullField (packCommand op pin mode pull) = pull := by
  unfold pullField packCommand
  rw [extractLsb'_append_eq_of_add_le (by decide)]
  exact extractLsb'_eq_self

@[simp] theorem pullHigh_packCommand : pullHigh (packCommand op pin mode pull) = pull.extractLsb' 1 7 := by
  unfold pullHigh packCommand
  rw [extractLsb'_append_eq_of_add_le (by decide)]

@[simp] theorem packCommand_level : (packCommand op pin mode pull)[0] = pull[0] := by
  rw [← getLsbD_eq_getElem, ← getLsbD_eq_getElem, packCommand, getLsbD_append]
  rfl

end Fields

theorem decodeCommand_commandWord {i : Instr} (hc : isCommand i = true) (d : TimeUnit) :
    decodeCommand i.commandWord (i.dataOperand d) = .ok i := by
  cases i with
  | set pin level => cases level <;> simp [decodeCommand, Instr.commandWord, levelByte, requireZero]
  | configure _ _ _ | get _ | high _ | low _ | deviceinit | ticks | sleepticks _ =>
    simp [decodeCommand, Instr.commandWord, Instr.dataOperand, requireZero]
  | _ => cases hc

/-! ### What a move of ENV or of the host can be -/

theorem takeEntry_cases (s : State) :
    (s.entryEnabled = true ∧ s.takeEntry = s.enterIsr) ∨ (s.entryEnabled = false ∧ s.takeEntry = s) := by
  unfold State.takeEntry
  split <;> simp_all

theorem periodicUpdate_cases (s : State) :
    (s.timerCounts = true ∧ s.periodicUpdate = s.updateEvent.noted .updateEvent) ∨
    (s.timerCounts = false ∧ s.periodicUpdate = s) := by
  unfold State.periodicUpdate
  split <;> simp_all

theorem drivePins_cases (s : State) (p : Nat) (w : Word) :
    (s.cfg.portPresent p = true ∧
      s.drivePins p w = (s.pokeField (.pinIn p) (~~~((s.tied p).setWidth 32)) w).noted (.pinInput p w)) ∨
    (s.cfg.portPresent p = false ∧ s.drivePins p w = s) := by
  unfold State.drivePins
  split <;> simp_all

theorem clearWake_cases (s : State) :
    (s.cfg.hostMayClearWake = true ∧ s.clearWake = { s with wake := 0 }.noted .clearWake) ∨
    (s.cfg.hostMayClearWake = false ∧ s.clearWake = s) := by
  unfold State.clearWake
  split <;> simp_all

/-- The field a move of ENV gives a value is no gate, and of a port's input bits it leaves out those tied to the latch (R57,
R135). -/
def envField (s : State) (r : Reg) (mask : Word) : Prop :=
  r ≠ .clkenGpio ∧ ∀ p, r = .pinIn p → mask = ~~~((s.tied p).setWidth 32)

/-- What a move can be (R53 to R57, R210, R216, R240, R265). -/
inductive MoveKind (m : Move) (s t : State) : Prop
  | nothing (result : t = s)
  | entry (enabled : s.entryEnabled = true) (result : t = s.enterIsr)
  | spurious (result : t = ((s.noted .spurious).enterIsr.busHasBits .isr .timSr s.cfg.mask.uif).2.leaveIsr)
  | field (r : Reg) (mask w : Word) (free : envField s r mask) (result : t = (s.pokeField r mask w).noted m)
  | update (result : t = s.updateEvent.noted .updateEvent)
  | offer (cw : Word) (din : TimeUnit) (result : t = s.offer cw din)
  | clearWake (move : m = .clearWake) (may : s.cfg.hostMayClearWake = true)
      (result : t = { s with wake := 0 }.noted .clearWake)
  | reset (move : m = .reset) (result : t = s.hostReset)

theorem moveKind (m : Move) (s : State) : MoveKind m s (applyMove m s) := by
  have plain : ∀ r mask, r ≠ .clkenGpio → (∀ p, r ≠ .pinIn p) → envField s r mask :=
    fun _ _ hg hp => ⟨hg, fun p h => absurd h (hp p)⟩
  cases m with
  | core => exact .nothing rfl
  | enter =>
    obtain ⟨h, e⟩ | ⟨-, e⟩ := takeEntry_cases s
    · exact .entry h e
    · exact .nothing e
  | spurious =>
    obtain ⟨-, e⟩ | ⟨-, e⟩ := spuriousService_cases s
    · exact .spurious e
    · exact .nothing e
  | oscReady b => exact .field .oscCtl _ _ (plain _ _ nofun nofun) rfl
  | pllReady b => exact .field .pllCtl _ _ (plain _ _ nofun nofun) rfl
  | swStatus w => exact .field .clkCfg _ _ (plain _ _ nofun nofun) rfl
  | updateEvent =>
    obtain ⟨-, e⟩ | ⟨-, e⟩ := periodicUpdate_cases s
    · exact .update e
    · exact .nothing e
  | pinInput p w =>
    obtain ⟨-, e⟩ | ⟨-, e⟩ := drivePins_cases s p w
    · exact .field (.pinIn p) _ _ ⟨nofun, fun q h => by rw [Reg.pinIn.inj h]⟩ e
    · exact .nothing e
  | offer cw din => exact .offer cw din rfl
  | clearWake =>
    obtain ⟨h, e⟩ | ⟨-, e⟩ := clearWake_cases s
    · exact .clearWake rfl h e
    · exact .nothing e
  | reset => exact .reset rfl rfl

/-! ### What the service, ENV and the host leave alone -/

/-- What the interrupt service, ENV and the host (but for a reset) leave alone: the foreground's own registers, the lifecycle,
the fatal record and the handler (R81, R219). -/
def keptForeground (s t : State) : Prop :=
  t.cfg = s.cfg ∧ t.seq = s.seq ∧ t.life = s.life ∧ t.cw = s.cw ∧ t.din = s.din ∧ t.busy = s.busy ∧
  t.status = s.status ∧ keptFatal s t ∧ t.hReg = s.hReg ∧ t.hEn = s.hEn ∧ t.portReq = s.portReq

theorem isrStep_keptForeground (s : State) : keptForeground s (isrStep s) := by
  obtain ⟨-, -, e⟩ | ⟨-, -, e⟩ | ⟨-, e⟩ | ⟨-, e⟩ | ⟨-, e⟩ | ⟨-, e⟩ := isrStep_cases s <;>
    simp [e, keptForeground, keptFatal]

/-- `TICK` moves at `I2` and `WAKE` at `I3` (R181, R182). -/
theorem isrStep_counters (s : State) :
    ((isrStep s).tick = s.tick ∨ s.iseq = .i2 ∧ (isrStep s).tick = tickSucc s.cfg.tickw s.tick) ∧
    ((isrStep s).wake = s.wake ∨ s.iseq = .i3 ∧ (isrStep s).wake = 1) := by
  obtain ⟨-, -, e⟩ | ⟨-, -, e⟩ | ⟨-, e⟩ | ⟨h, e⟩ | ⟨h, e⟩ | ⟨-, e⟩ := isrStep_cases s <;> simp [*]

theorem MoveKind.keptForeground {m : Move} {s t : State} (h : MoveKind m s t) (hm : m ≠ .reset) :
    keptForeground s t := by
  cases h with
  | reset move => exact absurd move hm
  | _ => simp [*, State.pokeField, Machine.keptForeground, keptFatal]

/-- ENV and the host leave `TICK` alone, and `WAKE` but for the host's clearing (R20 to R22). -/
theorem MoveKind.counters {m : Move} {s t : State} (h : MoveKind m s t) (hm : m ≠ .reset) :
    t.tick = s.tick ∧ (t.wake = s.wake ∨ m = .clearWake ∧ s.cfg.hostMayClearWake = true ∧ t.wake = 0) := by
  cases h with
  | reset move => exact absurd move hm
  | _ => simp [*, State.pokeField]

theorem hEn_of_entryEnabled {s : State} (h : s.entryEnabled = true) : s.hEn = true := by
  simp only [State.entryEnabled, State.invocable, Bool.and_eq_true] at h
  obtain ⟨⟨⟨⟨-, hEn⟩, -⟩, -⟩, -⟩ := h
  exact hEn

/-- ENV and the host leave the interrupt context alone, but for an entry; a spurious service is over in its step (R210,
R216). -/
theorem MoveKind.context {m : Move} {s t : State} (h : MoveKind m s t) (hm : m ≠ .reset) :
    t.inIsr = s.inIsr ∧ t.iseq = s.iseq ∨ s.hEn = true ∧ t.inIsr = true ∧ t.iseq = .i0 ∨
    t.inIsr = false ∧ t.iseq = .idle := by
  cases h with
  | reset move => exact absurd move hm
  | entry enabled result => simp [result, hEn_of_entryEnabled enabled]
  | _ => simp [*, State.pokeField]

/-! ### The step registers -/

theorem inCommand_idle (l : PinLayout) (i : Instr) : inCommand l i .idle = false := by
  cases i <;> cases l <;> rfl

theorem inCommand_halt (l : PinLayout) (i : Instr) : inCommand l i .halt = false := by
  cases i <;> cases l <;> rfl

/-- A micro-step of a command is neither `IDLE` nor `HALT`. -/
theorem inCommand_proper {l : PinLayout} {i : Instr} {q : Seq} (h : inCommand l i q = true) :
    q ≠ .idle ∧ q ≠ .halt := by
  constructor <;> rintro rfl
  · simp [inCommand_idle] at h
  · simp [inCommand_halt] at h

theorem inCommand_firstStep (l : PinLayout) {i : Instr} (hc : isCommand i = true) :
    inCommand l i (firstStep i) = true := by
  cases i with
  | configure _ _ _ | set _ _ | get _ | high _ | low _ | deviceinit | ticks | sleepticks _ => cases l <;> rfl
  | _ => cases hc

/-- Outside the foreground the step registers stay in agreement where the interrupt's own do, and `WAKE` is 0 or 1. -/
theorem sequenced_of_keptForeground {s t : State} (hs : s.sequenced) (k : keptForeground s t)
    (context : t.inIsr = true ↔ t.iseq ≠ .idle) (wake : t.wake = 0 ∨ t.wake = 1) : t.sequenced := by
  obtain ⟨-, hfatal, hbusy, hstatus, -, hcause, hcommand⟩ := hs
  obtain ⟨hcfg, hseq, -, hcw, hdin, hb, hst, ⟨hf, hfc, hfv⟩, -⟩ := k
  rw [← hf, ← hseq] at hfatal
  rw [← hb, ← hseq] at hbusy
  rw [← hst] at hstatus
  rw [← hf, ← hfc, ← hfv, ← hcw, ← hdin] at hcause
  rw [← hseq, ← hcw, ← hdin, ← hcfg] at hcommand
  exact ⟨context, hfatal, hbusy, hstatus, wake, hcause, hcommand⟩

theorem State.sequenced.wake {s : State} (hs : s.sequenced) : s.wake = 0 ∨ s.wake = 1 := by
  obtain ⟨-, -, -, -, hwake, -⟩ := hs
  exact hwake

theorem sequenced_isrStep {s : State} (hs : s.sequenced) (serving : s.inIsr = true) : (isrStep s).sequenced := by
  refine sequenced_of_keptForeground hs (isrStep_keptForeground s) ?context ?wake
  case context =>
    obtain ⟨-, -, e⟩ | ⟨-, -, e⟩ | ⟨-, e⟩ | ⟨-, e⟩ | ⟨-, e⟩ | ⟨-, e⟩ := isrStep_cases s <;> simp [e, serving]
  case wake =>
    obtain ⟨-, hw | ⟨-, hw⟩⟩ := isrStep_counters s
    · rw [hw]
      exact hs.wake
    · exact .inr hw

theorem sequenced_hostReset (s : State) : s.hostReset.sequenced := by
  simp [State.sequenced, State.hostReset, State.resetOf]

theorem sequenced_applyMove {s : State} (m : Move) (hs : s.sequenced) : (applyMove m s).sequenced := by
  by_cases hm : m = .reset
  · subst hm
    exact sequenced_hostReset s
  have h := moveKind m s
  refine sequenced_of_keptForeground hs (h.keptForeground hm) ?context ?wake
  case context =>
    obtain ⟨hi, hq⟩ | ⟨-, hi, hq⟩ | ⟨hi, hq⟩ := h.context hm
    · rw [hi, hq]
      exact hs.1
    · simp [hi, hq]
    · simp [hi, hq]
  case wake =>
    obtain ⟨-, hw | ⟨-, -, hw⟩⟩ := h.counters hm
    · rw [hw]
      exact hs.wake
    · exact .inl hw

theorem sequenced_rejectWord {s : State} (hs : s.sequenced) (waiting : s.seq = .idle) : (rejectWord s).sequenced := by
  obtain e | e := rejectWord_cases s
  · rwa [e]
  · obtain ⟨hcontext, hfatal, -, -, hwake, -⟩ := hs
    have live : s.fatal = false := by simpa [waiting] using hfatal
    rw [e]
    simpa [State.sequenced, statusIllegal, live, hcontext] using hwake

theorem sequenced_transaction {i : Instr} {s t : State} (hs : s.sequenced) (hc : isCommand i = false)
    (h : exec i s = .next t) : t.sequenced := by
  obtain ⟨-, hcfg, -, hwake, -, -, -, hseq, hiseq, hfatal, hfcause, hfval, hinIsr, hcw, hdin, -, hstatus, hbusy, -⟩ :=
    exec_transaction_keeps hc h
  simpa only [State.sequenced, hcfg, hwake, hseq, hiseq, hfatal, hfcause, hfval, hinIsr, hcw, hdin, hstatus, hbusy]
    using hs

/-- A command accepted, turned away, stopped by its validity check, at its next micro-step, or completed. -/
theorem sequenced_command {i : Instr} {s t : State} (hs : s.sequenced) (live : s.halted = false)
    (hc : isCommand i = true) (decoded : s.seq ≠ .idle → decodeCommand s.cw s.din = .ok i)
    (h : exec i s = .next t) : t.sequenced := by
  have ⟨hcontext, _, hbusy, hstatus, hwake, _, _⟩ := hs
  have fatal := fatal_of_live live
  obtain ⟨⟨hin, hiq, hw, -, hcfg, -⟩, rfl | ⟨-, hstep⟩⟩ := exec_command_cases hc h
  · exact hs
  have context : t.inIsr = true ↔ t.iseq ≠ .idle := by rw [hin, hiq]; exact hcontext
  have wake : t.wake = 0 ∨ t.wake = 1 := by rw [hw]; exact hwake
  obtain ⟨-, -, rfl, -⟩ | ⟨-, -, -, -, rfl⟩ | ⟨-, hne, pin, hpin, hraise⟩ |
    ⟨hfrom, hto, hf, hb, hst, -, -, hcw, hdin, -⟩ | ⟨-, hf, hb, hq, hst, -⟩ := hstep
  · have inside := inCommand_firstStep s.cfg.pinLayout hc
    obtain ⟨notIdle, notHalt⟩ := inCommand_proper inside
    exact ⟨context, by simp [fatal, notHalt], by simp [notIdle], hstatus, wake, by simp [fatal],
      fun _ _ => ⟨i, decodeCommand_commandWord hc s.dinIn, inside⟩⟩
  · exact ⟨context, by simp [fatal], by simp, by simp [statusRefused], wake, by simp [fatal], by simp⟩
  · have named : ∃ i, decodeCommand s.cw s.din = .ok i ∧ pinOperand i = some pin := ⟨i, decoded hne, hpin⟩
    obtain ⟨-, rfl⟩ | ⟨-, -, rfl⟩ := hraise
    · exact ⟨context, by simp, by simpa [hne] using hbusy, hstatus, wake, fun _ => ⟨.inl rfl, named⟩, by simp⟩
    · exact ⟨context, by simp, by simpa [hne] using hbusy, hstatus, wake, fun _ => ⟨.inr rfl, named⟩, by simp⟩
  · obtain ⟨fromNotIdle, -⟩ := inCommand_proper hfrom
    obtain ⟨notIdle, notHalt⟩ := inCommand_proper hto
    rw [← hcfg] at hto
    exact ⟨context, by simp [hf, fatal, notHalt], by simpa [hb, notIdle, fromNotIdle] using hbusy, by rwa [hst], wake,
      by simp [hf, fatal], fun _ _ => ⟨i, by rw [hcw, hdin]; exact decoded fromNotIdle, hto⟩⟩
  · exact ⟨context, by simp [hf, fatal, hq], by simp [hb, hq], by simp [hst], wake, by simp [hf, fatal], by simp [hq]⟩

/-- Settles O55: the service and the moves leave the foreground's registers alone, a transaction all of them, and a command's step
stays inside the command that `CW` holds. -/
theorem stepKeepsTheSequencer : Obligations.StepKeepsTheSequencer := by
  intro s t hs h
  cases stepKind_of_step h with
  | transaction i port kind run => exact sequenced_transaction (s := { s with portReq := none }) hs kind run
  | entry moves enabled result =>
    subst result
    exact sequenced_of_keptForeground hs (by simp [keptForeground, keptFatal]) (by simp) hs.wake
  | service live serving result => subst result; exact sequenced_isrStep (s := s.consume) hs serving
  | pause result => subst result; exact hs
  | rejection waiting result => subst result; exact sequenced_rejectWord (s := s.consume) hs waiting
  | command i live foreground kind decoded run =>
    exact sequenced_command (s := s.consume) hs live kind decoded run
  | move m port next result =>
    subst result
    exact sequenced_applyMove (s := s.consume) m hs

/-! ### The lifecycle -/

theorem rank_firstStep (i : Instr) : rank (firstStep i) = if i = .deviceinit then 1 else 0 := by
  cases i <;> rfl

@[simp] theorem rank_idle : rank .idle = 0 := rfl
@[simp] theorem rank_halt : rank .halt = 0 := rfl

theorem rank_eq_18 (q : Seq) : rank q = 18 ↔ q = .s7b := by cases q <;> simp [rank]
theorem rank_eq_25 (q : Seq) : rank q = 25 ↔ q = .t6a := by cases q <;> simp [rank]
theorem rank_eq_27 (q : Seq) : rank q = 27 ↔ q = .t7 := by cases q <;> simp [rank]

/-- The handler is registered at `T6a`, enabled at `T7`, and else left alone (R171). -/
def handlerStep (s t : State) : Prop :=
  t.hReg = (s.hReg || s.seq == .t6a) ∧ t.hEn = (s.hEn || s.seq == .t7)

theorem handlerStep_accept {s : State} (i : Instr) (q : Seq) (hs : s.seq = .idle) : handlerStep s (s.accept i q) := by
  obtain ⟨-, e⟩ | ⟨-, e⟩ := accept_cases s i q <;> simp [handlerStep, e, hs]

theorem handlerStep_fatalAt {s t : State} {pin : Byte} (h : fatalAt pin s t) (h6 : s.seq ≠ .t6a) (h7 : s.seq ≠ .t7) :
    handlerStep s t := by
  obtain ⟨-, rfl⟩ | ⟨-, -, rfl⟩ := h <;> simp [handlerStep, h6, h7]

theorem handlerStep_drivePin {i : Instr} {pin : Byte} {level : Bool} {s t : State}
    (h : drivePin i pin level s = .next t) : t = s ∨ handlerStep s t := by
  obtain ⟨-, ⟨-, rfl⟩ | ⟨-, h⟩⟩ := drivePin_cases h
  · exact .inl rfl
  obtain ⟨hs, rfl⟩ | ⟨hs, hf⟩ | ⟨hs, rfl⟩ | ⟨hs, rfl⟩ | ⟨-, -, -, rfl⟩ := h
  · exact .inr (handlerStep_accept _ _ hs)
  · exact .inr (handlerStep_fatalAt hf (by simp [hs]) (by simp [hs]))
  · simp [handlerStep, hs]
  · simp [handlerStep, hs]
  · exact .inl rfl

theorem handlerStep_clockStep {s : State} (hr : rank s.seq ≤ 18) : handlerStep s (clockStep s) := by
  cases hs : s.seq <;> simp [hs, rank] at hr <;>
    simp [handlerStep, hs, clockStep, State.pollFlag, State.pollField]
  all_goals split <;> simp

/-- Only `T6a` and `T7` of DEVICEINIT touch the handler (R171). -/
theorem exec_command_handler {i : Instr} {s t : State} (hc : isCommand i = true) (h : exec i s = .next t) :
    t = s ∨ handlerStep s t := by
  cases i with
  | set | high | low => exact handlerStep_drivePin h
  | get pin =>
    obtain ⟨-, ⟨-, rfl⟩ | ⟨-, h⟩⟩ := execGet_cases h
    · exact .inl rfl
    obtain ⟨hs, rfl⟩ | ⟨hs, hf⟩ | ⟨hs, rfl⟩ | ⟨hs, rfl⟩ | ⟨-, -, -, rfl⟩ := h
    · exact .inr (handlerStep_accept _ _ hs)
    · exact .inr (handlerStep_fatalAt hf (by simp [hs]) (by simp [hs]))
    · simp [handlerStep, hs]
    · simp [handlerStep, hs]
    · exact .inl rfl
  | configure pin mode pull =>
    obtain ⟨-, ⟨-, rfl⟩ | ⟨-, h⟩⟩ := execConfigure_cases h
    · exact .inl rfl
    obtain ⟨hs, rfl⟩ | ⟨hs, hf⟩ | ⟨hs, -, rfl⟩ | ⟨hs, rfl⟩ | ⟨-, -, -, rfl⟩ := h
    · exact .inr (handlerStep_accept _ _ hs)
    · exact .inr (handlerStep_fatalAt hf (by simp [hs]) (by simp [hs]))
    · simp [handlerStep, hs]
    · simp [handlerStep, hs, configureGate]
    · cases hl : s.cfg.pinLayout <;> cases hs : s.seq <;>
        simp [handlerStep, configureFields, hl, configurePacked, configureSplit, hs]
  | deviceinit =>
    obtain ⟨-, ⟨-, rfl⟩ | ⟨-, h⟩⟩ := execDeviceinit_cases h
    · exact .inl rfl
    obtain ⟨hs, -, rfl⟩ | ⟨hs, -, rfl⟩ | ⟨-, hr, rfl⟩ | ⟨-, hr, rfl⟩ := h
    · exact .inr (handlerStep_accept _ _ hs)
    · obtain ⟨-, e⟩ | ⟨-, e⟩ := turnAway_cases s Instr.deviceinit.commandWord s.dinIn statusRefused <;>
        simp [handlerStep, e, hs]
    · cases hs : s.seq <;> simp [hs, rank] at hr <;> simp [handlerStep, hs, timerStep]
    · exact .inr (handlerStep_clockStep hr)
  | ticks =>
    obtain ⟨-, ⟨-, rfl⟩ | ⟨-, h⟩⟩ := execTicks_cases h
    · exact .inl rfl
    obtain ⟨hs, rfl⟩ | ⟨hs, rfl⟩ | ⟨-, -, rfl⟩ := h
    · exact .inr (handlerStep_accept _ _ hs)
    · simp [handlerStep, hs]
    · exact .inl rfl
  | sleepticks d =>
    obtain ⟨-, ⟨-, rfl⟩ | ⟨-, h⟩⟩ := execSleepticks_cases h
    · exact .inl rfl
    obtain ⟨hs, rfl⟩ | ⟨hs, rfl⟩ | ⟨-, -, rfl⟩ | ⟨hs, -, rfl⟩ | ⟨-, -, -, rfl⟩ := h
    · exact .inr (handlerStep_accept _ _ hs)
    · simp [handlerStep, hs]
    · exact .inl rfl
    · simp [handlerStep, hs]
    · exact .inl rfl
  | _ => cases hc

/-- A step that stays in its stage of the lifecycle and touches neither the interrupt's enabling nor what it counts. -/
theorem staged_of_same_stage {s t : State} (hs : s.staged) (beside : besideCommands s t) (life : t.life = s.life)
    (hEn : t.hEn = s.hEn) (hReg : s.hReg = true → t.hReg = true) (stage : 19 ≤ rank t.seq ↔ 19 ≤ rank s.seq)
    (starting : 1 ≤ rank t.seq → rank t.seq ≤ 18 → s.life = .uninitialized)
    (registered : 26 ≤ rank t.seq → t.hReg = true) : t.staged := by
  obtain ⟨port, configured, -, running, -, before⟩ := hs
  obtain ⟨hin, -, hwake, htick, -, hport, -⟩ := beside
  unfold State.staged
  rw [hport, life, hin, htick, hwake, hEn]
  exact ⟨port, configured.trans stage.symm, starting, fun h => ⟨hReg (running h).1, (running h).2⟩, registered, before⟩

/-- A step outside the program of DEVICEINIT. -/
theorem staged_of_outside {s t : State} (hs : s.staged) (beside : besideCommands s t) (life : t.life = s.life)
    (hEn : t.hEn = s.hEn) (hReg : s.hReg = true → t.hReg = true) (source : rank s.seq = 0) (target : rank t.seq = 0) :
    t.staged :=
  staged_of_same_stage hs beside life hEn hReg (by omega) (by omega) (by omega)

/-- `S7b`, the step of rank 18, goes to `T1` and to `Configured` (R156). -/
theorem staged_at_configured {s t : State} (hs : s.staged) (beside : besideCommands s t) (source : rank s.seq = 18)
    (target : rank t.seq = 19) (life : t.life = .configured) (hEn : t.hEn = s.hEn) : t.staged := by
  obtain ⟨port, -, starting, -, -, before⟩ := hs
  obtain ⟨hin, -, hwake, htick, -, hport, -⟩ := beside
  have hlife := starting (by omega) (by omega)
  unfold State.staged
  rw [hport, life, hin, htick, hwake, hEn, target]
  exact ⟨port, by simp, by omega, by simp, by omega, fun _ => before (by simp [hlife])⟩

/-- `T7`, the step of rank 27, completes DEVICEINIT with the handler enabled, in `Running` (R178). -/
theorem staged_at_running {s t : State} (hs : s.staged) (beside : besideCommands s t) (source : rank s.seq = 27)
    (target : rank t.seq = 0) (life : t.life = .running) (hReg : s.hReg = true → t.hReg = true)
    (hEn : t.hEn = true) : t.staged := by
  obtain ⟨port, -, -, -, registered, -⟩ := hs
  obtain ⟨-, -, -, -, -, hport, -⟩ := beside
  unfold State.staged
  rw [hport, life, target]
  exact ⟨port, by simp, by omega, fun _ => ⟨hReg (registered (by omega)), hEn⟩, by omega, by simp⟩

/-- The lifecycle's agreement with the sequencer is kept by a command: outside the program of DEVICEINIT, at each of its steps but
two within one stage, and at those two, `S7b` and `T7`, with the stage. -/
theorem staged_command {i : Instr} {s t : State} (hs : s.staged) (hc : isCommand i = true) (h : exec i s = .next t) :
    t.staged := by
  obtain hsame | ⟨hReg, hEn⟩ := exec_command_handler hc h
  · rwa [hsame]
  obtain ⟨beside, hsame | ⟨-, hstep⟩⟩ := exec_command_cases hc h
  · rwa [hsame]
  have keeps : s.hReg = true → t.hReg = true := fun h => by simp [hReg, h]
  obtain ⟨hq, -, rfl, hlife⟩ | ⟨hq, -, -, -, rfl⟩ | ⟨hfirst, -, pin, hpin, hraise⟩ |
    ⟨-, -, -, -, -, -, -, -, -, -, hlife, hlast, hrank⟩ | ⟨-, -, -, hq, -, -, -, -, hlife, hrank, -⟩ := hstep
  · have source : rank s.seq = 0 := by rw [hq]; rfl
    by_cases hi : i = .deviceinit
    · subst hi
      exact staged_of_same_stage hs beside rfl rfl id (by simp [source, rank_firstStep]) (fun _ _ => hlife rfl)
        (by simp [rank_firstStep])
    · exact staged_of_outside hs beside rfl rfl id source (by simp [rank_firstStep, hi])
  · exact staged_of_outside hs beside rfl rfl id (by rw [hq]; rfl) rfl
  · have source : rank s.seq = 0 := by
      rw [hfirst, rank_firstStep, if_neg]
      rintro rfl
      cases hpin
    obtain ⟨-, rfl⟩ | ⟨-, -, rfl⟩ := hraise <;> exact staged_of_outside hs beside rfl rfl id source rfl
  · have hEn' : t.hEn = s.hEn := by
      have : s.seq ≠ .t7 := fun h => hlast ((rank_eq_27 _).2 h)
      simp [hEn, this]
    by_cases h18 : s.seq = .s7b
    · have source := (rank_eq_18 _).2 h18
      exact staged_at_configured hs beside source (by omega) (by rw [hlife, if_pos h18]) hEn'
    · have not18 : rank s.seq ≠ 18 := fun h => h18 ((rank_eq_18 _).1 h)
      rw [if_neg h18] at hlife
      have ⟨_, _, starting, _, registered, _⟩ := hs
      refine staged_of_same_stage hs beside hlife hEn' keeps (by omega) (fun _ _ => starting (by omega) (by omega)) ?_
      intro h26
      by_cases h25 : rank s.seq = 25
      · simp [hReg, (rank_eq_25 _).1 h25]
      · exact keeps (registered (by omega))
  · have target : rank t.seq = 0 := by rw [hq]; rfl
    obtain source | source := hrank
    · have h7 := (rank_eq_27 _).1 source
      exact staged_at_running hs beside source target (by rw [hlife, if_pos h7]) keeps (by simp [hEn, h7])
    · have h7 : s.seq ≠ .t7 := by
        intro h
        simp [h, rank] at source
      exact staged_of_outside hs beside (by rw [hlife, if_neg h7]) (by simp [hEn, h7]) keeps source target

/-- Outside the foreground the lifecycle stays in agreement: before `Running` no service runs and nothing is counted. -/
theorem staged_of_keptForeground {s t : State} (hs : s.staged) (k : keptForeground s t)
    (before : s.life ≠ .running → t.inIsr = false ∧ t.tick = 0 ∧ t.wake = 0) : t.staged := by
  obtain ⟨port, configured, starting, running, registered, disabled⟩ := hs
  obtain ⟨-, hseq, hlife, -, -, -, -, -, hReg, hEn, hport⟩ := k
  unfold State.staged
  rw [hport, hlife, hseq, hReg, hEn]
  exact ⟨port, configured, starting, running, registered, fun h => ⟨(disabled h).1, before h⟩⟩

/-- A service or an entry is in `Running`, where the invariant asks nothing of it. -/
theorem State.staged.running {s : State} (hs : s.staged) (h : s.inIsr = true ∨ s.hEn = true) : s.life = .running := by
  obtain ⟨-, -, -, -, -, before⟩ := hs
  by_contra hlife
  obtain ⟨hEn, hin, -⟩ := before hlife
  simp [hEn, hin] at h

theorem staged_rejectWord {s : State} (hs : s.staged) (waiting : s.seq = .idle) : (rejectWord s).staged := by
  obtain e | e := rejectWord_cases s <;> rw [e]
  · exact hs
  · exact staged_of_outside hs (by simp [besideCommands]) rfl rfl id (by rw [waiting]; rfl) rfl

theorem staged_hostReset {s : State} : s.hostReset.staged := by
  simp [State.staged, State.hostReset, State.resetOf]

theorem staged_applyMove {s : State} (m : Move) (hs : s.staged) : (applyMove m s).staged := by
  by_cases hm : m = .reset
  · subst hm
    exact staged_hostReset
  have h := moveKind m s
  refine staged_of_keptForeground hs (h.keptForeground hm) fun hlife => ?_
  have ⟨_, _, _, _, _, before⟩ := hs
  obtain ⟨hEn, hin, htick, hwake⟩ := before hlife
  obtain ⟨sameTick, sameWake⟩ := h.counters hm
  refine ⟨?context, sameTick.trans htick, ?wake⟩
  case context =>
    obtain ⟨sameIn, -⟩ | ⟨enabled, -⟩ | ⟨ended, -⟩ := h.context hm
    · exact sameIn.trans hin
    · simp [hEn] at enabled
    · exact ended
  case wake =>
    obtain sameWake | ⟨-, -, zero⟩ := sameWake
    · exact sameWake.trans hwake
    · exact zero

/-- Settles O56: by the stage of a command's step, and because the interrupt moves nothing before `Running`. -/
theorem stepKeepsTheLifecycle : Obligations.StepKeepsTheLifecycle := by
  intro s t hs h
  cases stepKind_of_step h with
  | transaction i port => exact absurd hs.1 port
  | entry moves enabled result =>
    subst result
    have serves := hs.running (.inr (hEn_of_entryEnabled enabled))
    exact staged_of_keptForeground hs (by simp [keptForeground, keptFatal]) (absurd serves)
  | service live serving result =>
    subst result
    exact staged_of_keptForeground (s := s.consume) hs (isrStep_keptForeground _)
      (absurd (hs.running (.inl serving)))
  | pause result => subst result; exact hs
  | rejection waiting result =>
    subst result
    exact staged_rejectWord (s := s.consume) hs waiting
  | command i live foreground kind decoded run => 
    exact staged_command (s := s.consume) hs kind run
  | move m port next result =>
    subst result
    exact staged_applyMove (s := s.consume) m hs

/-! ### The canonical form and the loop-back

The invariant of form by its parts: the lists and the widths, and the loop-back port by port and bit by bit. -/

/-- Every list in the canonical form (log 4), `TICK` and `SL_START` within `TICKW` bits (R21, R23). -/
def State.listed (s : State) : Prop :=
  s.canonical ∧ Cells.wf s.wired = true ∧ Cells.wf s.asOutput = true ∧ Cells.wf s.driven = true ∧
  s.tick < 2 ^ s.cfg.tickw ∧ s.slStart < 2 ^ s.cfg.tickw

/-- The input bits of the tied pins of port `p` equal their latch (R135). -/
def State.loopsAt (s : State) (p : Nat) : Prop :=
  ∀ o, (s.tied p).getLsbD o = true → (s.peek (.pinIn p)).getLsbD o = (s.latch p).getLsbD o

/-- Words that agree under a mask of sixteen bits agree in the bits of the mask. -/
theorem masked_eq_iff (x : Word) (m l : Half) :
    x &&& m.setWidth 32 = l.setWidth 32 &&& m.setWidth 32 ↔
      ∀ o, m.getLsbD o = true → x.getLsbD o = l.getLsbD o := by
  constructor
  · intro h o ho
    have hlt : o < 32 := by
      by_contra hge
      rw [BitVec.getLsbD_of_ge _ _ (by omega)] at ho
      cases ho
    have := congrArg (fun w : Word => w.getLsbD o) h
    simpa [hlt, ho] using this
  · intro h
    refine BitVec.eq_of_getLsbD_eq fun o hlt => ?_
    cases ho : m.getLsbD o
    · simp [ho]
    · simpa [ho, hlt] using h o ho

/-- The premises of R135, bit by bit. -/
theorem tied_bit (s : State) (p o : Nat) :
    (s.tied p).getLsbD o = true ↔
      s.peek .clkenGpio &&& s.cfg.mask.gate p ≠ 0 ∧ (Cells.read s.wired p).getLsbD o = true ∧
      (Cells.read s.asOutput p).getLsbD o = true ∧ (Cells.read s.driven p).getLsbD o = true := by
  unfold State.tied State.loopBack
  split
  · simp [*]
  · rename_i hg
    simp only [BitVec.getLsbD_and, Bool.and_eq_true, and_assoc, ne_eq, hg, not_false_eq_true, true_and]

theorem tied_wired {s : State} {p o : Nat} (h : (s.tied p).getLsbD o = true) : p ∈ s.wired.map Prod.fst := by
  obtain ⟨-, hw, -⟩ := (tied_bit s p o).1 h
  exact Cells.mem_of_read _ _ fun h0 => by simp [h0] at hw

/-- The invariant of form is that of the lists and that of every port. -/
theorem formed_iff (s : State) : s.formed ↔ s.listed ∧ ∀ p, s.loopsAt p := by
  have loops : s.looped = true ↔ ∀ p, s.loopsAt p := by
    simp only [State.looped, List.all_eq_true, beq_iff_eq, masked_eq_iff]
    constructor
    · intro h p o ho
      obtain ⟨c, hc, rfl⟩ := List.mem_map.1 (tied_wired ho)
      exact h c hc o ho
    · exact fun h c _ => h c.1
  unfold State.formed State.listed State.canonical
  rw [loops]
  tauto

theorem State.formed.listed {s : State} (hs : s.formed) : s.listed := ((formed_iff s).1 hs).1

theorem State.formed.canonical {s : State} (hs : s.formed) : s.canonical := hs.listed.1

theorem listed_of_kept {s t : State} (hs : s.listed) (ht : t.canonical) (hcfg : t.cfg = s.cfg) (htick : t.tick = s.tick)
    (hstart : t.slStart = s.slStart) (hw : t.wired = s.wired) (ha : t.asOutput = s.asOutput)
    (hd : t.driven = s.driven) : t.listed := by
  obtain ⟨-, hs⟩ := hs
  exact ⟨ht, by rwa [hw, ha, hd, htick, hstart, hcfg]⟩

/-- A port's pins stay at the latch where no pin is tied anew and neither the latch nor a tied input bit moves. -/
theorem loopsAt_of_same {s t : State} {p : Nat} (hs : s.loopsAt p)
    (tied : ∀ o, (t.tied p).getLsbD o = true → (s.tied p).getLsbD o = true) (latch : t.latch p = s.latch p)
    (input : ∀ o, (s.tied p).getLsbD o = true → (t.peek (.pinIn p)).getLsbD o = (s.peek (.pinIn p)).getLsbD o) :
    t.loopsAt p := by
  intro o ho
  rw [input o (tied o ho), latch]
  exact hs o (tied o ho)

/-! What is stored in a register. -/

/-- A word stored in a register that is no register of port gates keeps the form where it keeps the tied input bits. -/
theorem formed_poke {s : State} {r : Reg} {v : Word} (hs : s.formed) (hr : r ≠ .clkenGpio)
    (input : ∀ p, r = .pinIn p → ∀ o, (s.tied p).getLsbD o = true → v.getLsbD o = (s.peek (.pinIn p)).getLsbD o) :
    (s.poke r v).formed := by
  obtain ⟨listed, loops⟩ := (formed_iff s).1 hs
  have canonical := listed.1
  refine (formed_iff _).2 ⟨listed_of_kept listed (canonical_poke s r v canonical) rfl rfl rfl rfl rfl rfl, fun p => ?_⟩
  have tied : (s.poke r v).tied p = s.tied p :=
    State.tied_congr (State.peek_poke_other s r _ v hr.symm) rfl rfl rfl rfl p
  refine loopsAt_of_same (loops p) (by simp [tied]) rfl fun o ho => ?_
  by_cases hp : r = .pinIn p
  · subst hp
    rw [State.peek_poke_same _ _ _ canonical.1]
    exact input p rfl o ho
  · rw [State.peek_poke_other _ _ _ _ (Ne.symm hp)]

/-- A store by the block leaves the input bits of every port as ENV last made them (R35). -/
theorem landed_pinIn_bit (s : State) (p o : Nat) (v : Word) (ho : o < 16) :
    (s.landed (.pinIn p) v).getLsbD o = (s.peek (.pinIn p)).getLsbD o := by
  have h := congrArg (fun w : Word => w.getLsbD o) (landed_owned s (.pinIn p) v nofun)
  have hmask : ∀ k < 16, (0x0000FFFF#32).getLsbD k = true := by decide
  simpa [Variant.hardwareOwned, hmask o ho] using h

theorem tied_lt {s : State} {p o : Nat} (h : (s.tied p).getLsbD o = true) : o < 16 := by
  by_contra hge
  rw [BitVec.getLsbD_of_ge _ _ (by omega)] at h
  cases h

theorem formed_store {s : State} {r : Reg} (v : Word) (hs : s.formed) (hr : r ≠ .clkenGpio) : (s.store r v).formed := by
  refine formed_poke hs hr fun p hp o ho => ?_
  subst hp
  exact landed_pinIn_bit s p o v (tied_lt ho)

theorem formed_updateEvent {s : State} (hs : s.formed) : s.updateEvent.formed :=
  formed_poke (v := s.peek .timSr ||| s.cfg.mask.uif) hs nofun nofun

theorem formed_forcedUpdate {s : State} (hs : s.formed) : s.forcedUpdate.formed := by
  unfold State.forcedUpdate
  split
  · exact formed_updateEvent hs
  · exact hs

/-! ENV brings the tied pins to the latch. -/

theorem listed_follow {s : State} (hs : s.listed) (p : Nat) : (s.follow p).listed :=
  listed_of_kept hs ⟨wf_follow s p hs.1.1, by simpa using hs.1.2⟩ (by simp) (by simp) (by simp) (by simp) (by simp)
    (by simp)

theorem loopsAt_follow {s : State} (hs : s.listed) (p : Nat) : (s.follow p).loopsAt p := by
  intro o ho
  rw [State.tied_follow] at ho
  rw [State.peek_follow_bit _ _ _ hs.1.1, if_pos ho, State.latch_follow]

/-- A port that ENV brings to its latch need not have been there before. -/
theorem formed_follow {s : State} {p : Nat} (hs : s.listed) (loops : ∀ q, q ≠ p → s.loopsAt q) :
    (s.follow p).formed := by
  refine (formed_iff _).2 ⟨listed_follow hs p, fun q => ?_⟩
  by_cases hq : q = p
  · subst hq
    exact loopsAt_follow hs q
  · refine loopsAt_of_same (loops q hq) (by simp) (by simp) fun o _ => ?_
    rw [State.peek_follow_other _ _ _ fun h => hq (Reg.pinIn.inj h)]

theorem formed_settle {s : State} (hs : s.listed) : s.settle.formed := by
  refine (formed_iff _).2 ⟨listed_of_kept hs ⟨wf_settle s hs.1.1, by simpa using hs.1.2⟩ (by simp) (by simp) (by simp)
    (by simp) (by simp) (by simp), fun p o ho => ?_⟩
  rw [State.tied_settle] at ho
  rw [State.peek_settle_bit _ _ _ hs.1.1, if_pos ho, State.latch_settle]

/-- A write of a port's latch carries its tied pins along. -/
theorem formed_setLatch {s : State} {p : Nat} (v : Half) (hs : s.listed) (loops : ∀ q, q ≠ p → s.loopsAt q) :
    (s.setLatch p v).formed := by
  refine formed_follow ?_ fun q hq => ?_
  · exact listed_of_kept hs ⟨hs.1.1, Cells.write_wf _ _ _ hs.1.2⟩ rfl rfl rfl rfl rfl rfl
  · exact loopsAt_of_same (loops q hq) (fun _ h => h) (Cells.read_write_other _ _ _ _ hq) fun _ _ => rfl

/-! The five surface operations and what a write of port gates or of a pin control register means for the pins. -/

theorem formed_writeReg {s : State} {r : Reg} (v : Word) (hs : s.formed) (hr : r ≠ .clkenGpio) :
    (s.writeReg r v).formed := by
  obtain ⟨listed, loops⟩ := (formed_iff s).1 hs
  unfold State.writeReg
  split
  · split
    · exact hs
    · exact formed_forcedUpdate hs
  · split <;> exact formed_setLatch _ listed fun q _ => loops q
  · split
    · exact formed_setLatch _ listed fun q _ => loops q
    · exact hs
  · exact formed_store v hs hr

theorem formed_busSet {s : State} (a : Agent) {r : Reg} (v : Word) (hs : s.formed) (hr : r ≠ .clkenGpio) :
    (s.busSet a r v).formed := formed_writeReg v hs hr

theorem formed_busSetBits {s : State} (a : Agent) {r : Reg} (m : Word) (hs : s.formed) (hr : r ≠ .clkenGpio) :
    (s.busSetBits a r m).formed := by
  show State.formed (if isTrigger r then s.writeReg r m else s.store r (s.readReg r ||| m))
  split
  · exact formed_writeReg m hs hr
  · exact formed_store _ hs hr

theorem formed_busClearBits {s : State} (a : Agent) {r : Reg} (m : Word) (hs : s.formed) (hr : r ≠ .clkenGpio) :
    (s.busClearBits a r m).formed := by
  show State.formed (if isTrigger r then s.writeReg r (s.readReg r &&& ~~~m) else s.store r (s.readReg r &&& ~~~m))
  split
  · exact formed_writeReg _ hs hr
  · exact formed_store _ hs hr

theorem listed_busSet {s : State} (a : Agent) (r : Reg) (v : Word) (hs : s.listed) : (s.busSet a r v).listed :=
  listed_of_kept hs (canonical_busSet s a r v hs.1) (by simp) (by simp) (by simp) (by simp) (by simp) (by simp)

theorem listed_busSetBits {s : State} (a : Agent) (r : Reg) (m : Word) (hs : s.listed) : (s.busSetBits a r m).listed :=
  listed_of_kept hs (canonical_busSetBits s a r m hs.1) (by simp) (by simp) (by simp) (by simp) (by simp) (by simp)

theorem listed_busClearBits {s : State} (a : Agent) (r : Reg) (m : Word) (hs : s.listed) :
    (s.busClearBits a r m).listed :=
  listed_of_kept hs (canonical_busClearBits s a r m hs.1) (by simp) (by simp) (by simp) (by simp) (by simp) (by simp)

/-- Where fewer pins of a port count as outputs, no pin is tied anew. -/
theorem formed_fewer_outputs {s : State} (hs : s.formed) (p : Nat) {v : Half}
    (fewer : ∀ o, v.getLsbD o = true → (Cells.read s.asOutput p).getLsbD o = true) :
    ({ s with asOutput := Cells.write s.asOutput p v } : State).formed := by
  obtain ⟨⟨canonical, wired, asOutput, driven, widths⟩, loops⟩ := (formed_iff s).1 hs
  refine (formed_iff _).2 ⟨⟨canonical, wired, Cells.write_wf _ _ _ asOutput, driven, widths⟩, fun q => ?_⟩
  refine loopsAt_of_same (loops q) (fun o ho => ?_) rfl fun _ _ => rfl
  obtain ⟨hg, hw, ha, hd⟩ := (tied_bit _ q o).1 ho
  refine (tied_bit s q o).2 ⟨hg, hw, ?_, hd⟩
  by_cases hq : q = p
  · subst hq
    rw [Cells.read_write_same _ _ _ asOutput] at ha
    exact fewer o ha
  · rwa [Cells.read_write_other _ _ _ _ hq] at ha

theorem formed_release {s : State} (hs : s.formed) (pin : Byte) : (s.release pin).formed :=
  formed_fewer_outputs hs (portOf pin) fun o ho => by
    simp only [BitVec.getLsbD_and, Bool.and_eq_true] at ho
    exact ho.1

/-- What a write means for the pins of R135 restores the form that a write of the port gates breaks. -/
theorem formed_disturb {s : State} (r : Reg) (listed : s.listed) (hs : r ≠ .clkenGpio → s.formed) :
    (s.disturb r).formed := by
  cases r with
  | clkenGpio => exact formed_settle listed
  | ctlA p | ctlB p | outType p => exact formed_fewer_outputs (hs nofun) p (by simp)
  | _ => exact hs nofun

theorem formed_configured {s : State} (hs : s.formed) (pin mode : Byte) : (s.configured pin mode).formed := by
  obtain ⟨-, e⟩ | ⟨-, e⟩ := configured_cases s pin mode <;> rw [e]
  · exact hs
  · obtain ⟨⟨canonical, wired, asOutput, driven, widths⟩, loops⟩ := (formed_iff s).1 hs
    refine formed_follow ⟨canonical, wired, Cells.write_wf _ _ _ asOutput, driven, widths⟩ fun q hq => ?_
    refine loopsAt_of_same (loops q) (fun o ho => ?_) rfl fun _ _ => rfl
    obtain ⟨hg, hw, ha, hd⟩ := (tied_bit _ q o).1 ho
    rw [Cells.read_write_other _ _ _ _ hq] at ha
    exact (tied_bit s q o).2 ⟨hg, hw, ha, hd⟩

/-- A SET marks the pin as driven and writes its port's latch, which brings the pin there (R129, R130, R135). -/
theorem formed_drive {s : State} (hs : s.formed) (pin : Byte) (level : Bool) :
    ((s.drive pin).busSet .fg (setword s.cfg.bsrKind pin level).1 (setword s.cfg.bsrKind pin level).2).formed := by
  obtain ⟨⟨canonical, wired, asOutput, driven, widths⟩, loops⟩ := (formed_iff s).1 hs
  have listed : (s.drive pin).listed := ⟨canonical, wired, asOutput, Cells.write_wf _ _ _ driven, widths⟩
  have others : ∀ q, q ≠ portOf pin → (s.drive pin).loopsAt q := fun q hq => by
    refine loopsAt_of_same (loops q) (fun o ho => ?_) rfl fun _ _ => rfl
    obtain ⟨hg, hw, ha, hd⟩ := (tied_bit _ q o).1 ho
    rw [State.drive, Cells.read_write_other _ _ _ _ hq] at hd
    exact (tied_bit s q o).2 ⟨hg, hw, ha, hd⟩
  have setLatch : ∀ v, ((s.drive pin).setLatch (portOf pin) v).formed := fun v => formed_setLatch v listed others
  show State.formed (State.writeReg _ _ _)
  cases hk : s.cfg.bsrKind <;> cases level <;> simp [setword, State.writeReg, hk, setLatch]

/-! Every agent's turn keeps the form. -/

theorem formed_goto {s : State} (hs : s.formed) (q : Seq) : (s.goto q).formed := hs

theorem formed_respond {s : State} (hs : s.formed) (c : BitVec 2) (d : TimeUnit) : (s.respond c d).formed := hs

theorem formed_accept {s : State} (hs : s.formed) (i : Instr) (q : Seq) : (s.accept i q).formed := by
  obtain ⟨-, e⟩ | ⟨-, e⟩ := accept_cases s i q <;> rw [e] <;> exact hs

theorem formed_turnAway {s : State} (hs : s.formed) (cw : Word) (din : TimeUnit) (c : BitVec 2) :
    (s.turnAway cw din c).formed := by
  obtain ⟨-, e⟩ | ⟨-, e⟩ := turnAway_cases s cw din c <;> rw [e] <;> exact hs

theorem formed_fatalAt {s t : State} {pin : Byte} (hs : s.formed) (h : fatalAt pin s t) : t.formed := by
  obtain ⟨-, rfl⟩ | ⟨-, -, rfl⟩ := h <;> exact hs

theorem formed_drivePin {i : Instr} {pin : Byte} {level : Bool} {s t : State} (hs : s.formed)
    (h : drivePin i pin level s = .next t) : t.formed := by
  obtain ⟨-, ⟨-, rfl⟩ | ⟨-, h⟩⟩ := drivePin_cases h
  · exact hs
  obtain ⟨-, rfl⟩ | ⟨-, hf⟩ | ⟨-, rfl⟩ | ⟨-, rfl⟩ | ⟨-, -, -, rfl⟩ := h
  · exact formed_accept hs _ _
  · exact formed_fatalAt hs hf
  · exact hs
  · exact formed_drive hs pin level
  · exact hs

theorem packedReg_ne_clkenGpio (pin : Byte) : packedReg pin ≠ .clkenGpio := by
  unfold packedReg
  split <;> nofun

theorem formed_configureGate {s : State} (hs : s.formed) (pin : Byte) : (configureGate pin s).formed :=
  formed_settle (listed_busSetBits .fg .clkenGpio _ hs.listed)

theorem formed_configurePacked {s : State} (hs : s.formed) (pin mode : Byte) :
    (configurePacked pin mode s).formed := by
  have plain := packedReg_ne_clkenGpio pin
  unfold configurePacked
  split
  · exact formed_goto (formed_busClearBits .fg _ (formed_release hs pin) plain) _
  · exact formed_respond (formed_configured (formed_busSetBits .fg _ hs plain) pin mode) _ _
  · exact hs

theorem formed_configureSplit {s : State} (hs : s.formed) (pin mode pull : Byte) :
    (configureSplit pin mode pull s).formed := by
  unfold configureSplit
  dsimp only
  split
  · exact formed_goto (formed_busClearBits .fg _ (formed_release hs pin) (by nofun)) _
  · exact formed_goto (formed_busSetBits .fg _ hs (by nofun)) _
  · exact formed_goto (formed_busClearBits .fg _ hs (by nofun)) _
  · exact formed_goto (formed_busSetBits .fg _ hs (by nofun)) _
  · exact formed_goto (formed_busClearBits .fg _ hs (by nofun)) _
  · exact formed_respond (formed_configured (formed_busSetBits .fg _ hs (by nofun)) pin mode) _ _
  · exact hs

theorem formed_configureFields {s : State} (hs : s.formed) (pin mode pull : Byte) :
    (configureFields pin mode pull s).formed := by
  unfold configureFields
  split
  · exact formed_configurePacked hs pin mode
  · exact formed_configureSplit hs pin mode pull

theorem formed_execConfigure {s t : State} {pin mode pull : Byte} (hs : s.formed)
    (h : execConfigure pin mode pull s = .next t) : t.formed := by
  obtain ⟨-, ⟨-, rfl⟩ | ⟨-, h⟩⟩ := execConfigure_cases h
  · exact hs
  obtain ⟨-, rfl⟩ | ⟨-, hf⟩ | ⟨-, -, rfl⟩ | ⟨-, rfl⟩ | ⟨-, -, -, rfl⟩ := h
  · exact formed_accept hs _ _
  · exact formed_fatalAt hs hf
  · exact hs
  · exact formed_configureGate hs pin
  · exact formed_configureFields hs pin mode pull

theorem formed_pollFlag {s : State} (hs : s.formed) (r : Reg) (m : Word) (q : Seq) : (s.pollFlag r m q).formed := by
  unfold State.pollFlag
  dsimp only
  split <;> exact hs

theorem formed_pollField {s : State} (hs : s.formed) (r : Reg) (m v : Word) (q : Seq) :
    (s.pollField r m v q).formed := by
  unfold State.pollField
  dsimp only
  split <;> exact hs

theorem formed_clockStep {s : State} (hs : s.formed) : (clockStep s).formed := by
  unfold clockStep
  dsimp only
  split
  case h_6 | h_11 => exact formed_pollFlag hs _ _ _
  case h_16 => exact formed_pollField hs _ _ _ _
  case h_3 | h_7 | h_12 | h_14 | h_17 => exact formed_goto (formed_busClearBits .fg _ hs (by nofun)) _
  case h_18 => exact formed_busSetBits .fg s.cfg.val.apbPre (r := .clkCfg) hs (by nofun)
  case h_19 => exact hs
  all_goals exact formed_goto (formed_busSetBits .fg _ hs (by nofun)) _

theorem formed_timerStep {s : State} (hs : s.formed) : (timerStep s).formed := by
  unfold timerStep
  dsimp only
  split
  case h_2 | h_3 => exact formed_goto (formed_busSet .fg _ hs (by nofun)) _
  case h_7 | h_8 | h_9 | h_10 => exact hs
  all_goals exact formed_goto (formed_busSetBits .fg _ hs (by nofun)) _

theorem formed_command {i : Instr} {s t : State} (hs : s.formed) (hc : isCommand i = true)
    (h : exec i s = .next t) : t.formed := by
  cases i with
  | configure => exact formed_execConfigure hs h
  | set | high | low => exact formed_drivePin hs h
  | get pin =>
    obtain ⟨-, ⟨-, rfl⟩ | ⟨-, h⟩⟩ := execGet_cases h
    · exact hs
    obtain ⟨-, rfl⟩ | ⟨-, hf⟩ | ⟨-, rfl⟩ | ⟨-, rfl⟩ | ⟨-, -, -, rfl⟩ := h
    · exact formed_accept hs _ _
    · exact formed_fatalAt hs hf
    all_goals exact hs
  | deviceinit =>
    obtain ⟨-, ⟨-, rfl⟩ | ⟨-, h⟩⟩ := execDeviceinit_cases h
    · exact hs
    obtain ⟨-, -, rfl⟩ | ⟨-, -, rfl⟩ | ⟨-, -, rfl⟩ | ⟨-, -, rfl⟩ := h
    · exact formed_accept hs _ _
    · exact formed_turnAway hs _ _ _
    · exact formed_timerStep hs
    · exact formed_clockStep hs
  | ticks =>
    obtain ⟨-, ⟨-, rfl⟩ | ⟨-, h⟩⟩ := execTicks_cases h
    · exact hs
    obtain ⟨-, rfl⟩ | ⟨-, rfl⟩ | ⟨-, -, rfl⟩ := h
    · exact formed_accept hs _ _
    all_goals exact hs
  | sleepticks d =>
    obtain ⟨-, ⟨-, rfl⟩ | ⟨-, h⟩⟩ := execSleepticks_cases h
    · exact hs
    obtain ⟨-, rfl⟩ | ⟨-, rfl⟩ | ⟨-, -, rfl⟩ | ⟨-, -, rfl⟩ | ⟨-, -, -, rfl⟩ := h
    · exact formed_accept hs _ _
    · obtain ⟨hsu, hol, hwi, has, hdr, hlo, htick, -⟩ := hs
      exact ⟨hsu, hol, hwi, has, hdr, hlo, htick, htick⟩
    all_goals exact hs
  | _ => cases hc

theorem busStep_cases {r : Reg} {s t : State} {k : State → State} (h : busStep r s k = .next t) :
    s.halted = false ∧ s.cfg.hasReg r = true ∧ t = k s := by
  obtain ⟨hh, h⟩ := portStep_cases h
  split at h <;> cases h
  exact ⟨hh, ‹_›, rfl⟩

theorem formed_transaction {i : Instr} {s t : State} (hs : s.formed) (hc : isCommand i = false)
    (h : exec i s = .next t) : t.formed := by
  have listed := hs.listed
  cases i with
  | busGet r =>
    obtain ⟨-, -, rfl⟩ := busStep_cases (show execBusGet r s = .next t from h)
    exact hs
  | busSet r v =>
    obtain ⟨-, -, rfl⟩ := busStep_cases (show execBusSet r v s = .next t from h)
    exact formed_disturb r (listed_busSet _ r v listed) (formed_busSet _ v hs)
  | busSetBits r m =>
    obtain ⟨-, -, rfl⟩ := busStep_cases (show execBusSetBits r m s = .next t from h)
    exact formed_disturb r (listed_busSetBits _ r m listed) (formed_busSetBits _ m hs)
  | busClearBits r m =>
    obtain ⟨-, -, rfl⟩ := busStep_cases (show execBusClearBits r m s = .next t from h)
    exact formed_disturb r (listed_busClearBits _ r m listed) (formed_busClearBits _ m hs)
  | busHasBits r m =>
    obtain ⟨-, -, rfl⟩ := busStep_cases (show execBusHasBits r m s = .next t from h)
    exact hs
  | intcRegister n =>
    obtain ⟨-, h⟩ := portStep_cases (show execIntcRegister n s = .next t from h)
    cases h
    exact hs
  | intcSetPriority n =>
    obtain ⟨-, h⟩ := portStep_cases (show execIntcSetPriority n s = .next t from h)
    cases h
    exact hs
  | intcEnable =>
    obtain ⟨-, h⟩ := portStep_cases (show execIntcEnable s = .next t from h)
    cases h
    exact hs
  | _ => cases hc

theorem formed_isrStep {s : State} (hs : s.formed) : (isrStep s).formed := by
  obtain ⟨-, -, e⟩ | ⟨-, -, e⟩ | ⟨-, e⟩ | ⟨-, e⟩ | ⟨-, e⟩ | ⟨-, e⟩ := isrStep_cases s <;> rw [e]
  case inr.inr.inl => exact formed_busClearBits .isr _ hs (by nofun)
  case inr.inr.inr.inl =>
    obtain ⟨hsu, hol, hwi, has, hdr, hlo, -, hstart⟩ := hs
    exact ⟨hsu, hol, hwi, has, hdr, hlo, Nat.mod_lt _ (Nat.two_pow_pos _), hstart⟩
  all_goals exact hs

/-- Reset leaves no pin driven, so none is tied (log 22). -/
theorem formed_hostReset {s : State} (hs : s.formed) : s.hostReset.formed := by
  obtain ⟨⟨-, wired, -⟩, -⟩ := (formed_iff s).1 hs
  refine (formed_iff _).2 ⟨⟨canonical_hostReset s, wired, rfl, rfl, Nat.two_pow_pos _,
    Nat.mod_lt _ (Nat.two_pow_pos _)⟩, fun p o ho => ?_⟩
  obtain ⟨-, -, -, hd⟩ := (tied_bit _ p o).1 ho
  simp [State.hostReset, State.resetOf] at hd

theorem formed_applyMove {s : State} (m : Move) (hs : s.formed) : (applyMove m s).formed := by
  cases moveKind m s with
  | field r mask w free result =>
    obtain ⟨hr, hp⟩ := free
    rw [result]
    refine formed_poke hs hr fun p h o ho => ?_
    subst h
    have hlt : o < 32 := Nat.lt_trans (tied_lt ho) (by decide)
    simp [hp p rfl, hlt, ho]
  | update result => rw [result]; exact formed_updateEvent hs
  | reset move result => rw [result]; exact formed_hostReset hs
  | nothing result | entry _ result | spurious result | offer _ _ result | clearWake _ _ result =>
    rw [result]
    exact hs

/-- Settles O54: every operation of the block keeps the form, but for a write of the port gates, after which ENV brings the input
bits to the latches again. -/
theorem stepKeepsTheForm : Obligations.StepKeepsTheForm := by
  intro s t hs h
  cases stepKind_of_step h with
  | transaction i port kind run => exact formed_transaction (s := { s with portReq := none }) hs kind run
  | entry moves enabled result => subst result; exact hs
  | service live serving result => subst result; exact formed_isrStep (s := s.consume) hs
  | pause result => subst result; exact hs
  | rejection waiting result =>
    subst result
    exact formed_turnAway (s := s.consume) hs _ _ _
  | command i live foreground kind decoded run =>
    exact formed_command (s := s.consume) hs kind run
  | move m port next result =>
    subst result
    exact formed_applyMove (s := s.consume) m hs

/-! ### The step runs the decoded instruction -/

/-- A turn of the block, by a listed move or by default, consumes the move and is `coreTurn`. -/
theorem step_of_turn {s : State} {rest : List Move} (port : s.portReq = none)
    (turn : s.moves = .core :: rest ∨ s.moves = [] ∧ rest = [] ∧ s.entryEnabled = false) :
    step s = coreTurn { s with moves := rest } := by
  obtain hm | ⟨hm, rfl, he⟩ := turn
  · simp [step, port, moveTurn, hm]
  · have same : { s with moves := [] } = s := by rw [← hm]
    rw [same]
    simp [step, port, moveTurn, hm, he]

theorem coreTurn_accepts {s : State} {i : Instr} (accepting : s.mayAccept = true) (valid : s.cmdValid = true)
    (decoded : decodeCommand s.cwIn s.dinIn = .ok i) : coreTurn s = exec i s := by
  simp only [State.mayAccept, Bool.and_eq_true, Bool.not_eq_true', beq_iff_eq] at accepting
  obtain ⟨⟨⟨-, hf⟩, hs⟩, hi⟩ := accepting
  simp [coreTurn, State.halted, hf, hs, hi, idleTurn, valid, decoded]

theorem coreTurn_continues {s : State} {i : Instr} (hf : s.fatal = false) (hi : s.inIsr = false)
    (hs : s.seq ≠ .idle) (live : s.seq ≠ .halt) (decoded : decodeCommand s.cw s.din = .ok i) :
    coreTurn s = exec i s := by
  simp [coreTurn, State.halted, hf, hs, live, hi, busyTurn, decoded]

/-- Settles O5: by the three places an instruction is taken from. -/
theorem stepRunsTheDecodedInstruction : Obligations.StepRunsTheDecodedInstruction := by
  refine ⟨fun s rest i port turn accepting valid decoded => ?_, fun s rest i port turn hf hi hs live decoded => ?_,
    fun s lines i port decoded => ?_⟩
  · rw [step_of_turn port turn]
    exact coreTurn_accepts (s := { s with moves := rest }) accepting valid decoded
  · rw [step_of_turn port turn]
    exact coreTurn_continues (s := { s with moves := rest }) hf hi hs live decoded
  · simp [step, port, portTurn, decoded]

/-- A move that is no turn of the block. -/
theorem step_of_move {s : State} {m : Move} {rest : List Move} (port : s.portReq = none) (moves : s.moves = m :: rest)
    (hm : m ≠ .core) : step s = .next (applyMove m { s with moves := rest }) := by
  cases m with
  | core => exact absurd rfl hm
  | _ => simp [step, port, moveTurn, moves]

/-- Settles O52: at power-up and in mid run, by the definition of the two states. -/
theorem resetLeavesTheValuesOfTheTable : Obligations.ResetLeavesTheValuesOfTheTable := by
  rintro t (rfl | ⟨s, rest, port, moves, h⟩)
  · simp [State.reset, State.resetOf]
  · rw [step_of_move port moves (by simp)] at h
    cases h
    simp [applyMove, State.hostReset, State.resetOf]

/-! ### Over every step -/

/-- Settles O47: a command, a transaction and an entry leave both alone, the service counts at `I2` and wakes at `I3`, and of the
moves only the host's clearing and its reset write. -/
theorem onlyTheServiceWritesTickAndWake : Obligations.OnlyTheServiceWritesTickAndWake := by
  intro s t h
  cases stepKind_of_step h with
  | transaction i port kind run =>
    obtain ⟨-, -, htick, hwake, -⟩ := exec_transaction_keeps kind run
    exact ⟨absurd htick, absurd hwake⟩
  | entry moves enabled result => subst result; exact ⟨absurd rfl, absurd rfl⟩
  | service live serving result =>
    obtain ⟨htick, hwake⟩ := isrStep_counters s.consume
    rw [← result] at htick hwake
    exact ⟨fun h => .inl ⟨serving, htick.resolve_left h⟩, fun h => .inl ⟨serving, hwake.resolve_left h⟩⟩
  | pause result => subst result; exact ⟨absurd rfl, absurd rfl⟩
  | rejection waiting result =>
    subst result
    obtain ⟨htick, hwake, -⟩ := rejectWord_keeps s.consume
    exact ⟨absurd htick, absurd hwake⟩
  | command i live foreground kind decoded run =>
    obtain ⟨⟨-, -, hwake, htick, -⟩, -⟩ := exec_command_cases kind run
    exact ⟨absurd htick, absurd hwake⟩
  | move m port next result =>
    by_cases hm : m = .reset
    · subst hm result
      simp [next, applyMove, State.hostReset, State.resetOf]
    · have kind := moveKind m s.consume
      rw [← result] at kind
      obtain ⟨htick, hwake⟩ := kind.counters hm
      refine ⟨absurd htick, fun h => .inr (.inl ?_)⟩
      obtain ⟨rfl, may, hzero⟩ := hwake.resolve_left h
      exact ⟨next, may, hzero⟩

/-- Settles O51: of the block's steps those of a command alone move `LIFE`, at `S7b` and `T7`, where the invariant says from which
value. -/
theorem lifecycleTransitions : Obligations.LifecycleTransitions := by
  intro s t hs h hlife
  cases stepKind_of_step h with
  | transaction i port => exact absurd hs.1 port
  | entry moves enabled result => subst result; exact absurd rfl hlife
  | service live serving result =>
    obtain ⟨-, -, kept, -⟩ := isrStep_keptForeground s.consume
    rw [← result] at kept
    exact absurd kept hlife
  | pause result => subst result; exact absurd rfl hlife
  | rejection waiting result =>
    subst result
    obtain ⟨-, -, kept, -⟩ := rejectWord_keeps s.consume
    exact absurd kept hlife
  | command i live foreground kind decoded run =>
    obtain ⟨-, configured, starting, -⟩ := hs
    obtain ⟨-, rfl | ⟨-, hstep⟩⟩ := exec_command_cases kind run
    · exact absurd rfl hlife
    obtain ⟨-, -, rfl, -⟩ | ⟨-, -, -, -, rfl⟩ | ⟨-, -, _, -, ⟨-, rfl⟩ | ⟨-, -, rfl⟩⟩ |
      ⟨-, -, -, -, -, -, -, -, -, -, moved, -⟩ | ⟨-, -, -, -, -, -, -, -, moved, -⟩ := hstep
    · exact absurd rfl hlife
    · exact absurd rfl hlife
    · exact absurd rfl hlife
    · exact absurd rfl hlife
    · by_cases hq : s.seq = .s7b
      · exact .inl ⟨starting (by simp [hq, rank]) (by simp [hq, rank]), hq, by simpa [State.consume, hq] using moved⟩
      · exact absurd (by simpa [State.consume, hq] using moved) hlife
    · by_cases hq : s.seq = .t7
      · exact .inr (.inl ⟨configured.2 (by simp [hq, rank]), hq, by simpa [State.consume, hq] using moved⟩)
      · exact absurd (by simpa [State.consume, hq] using moved) hlife
  | move m port next result =>
    by_cases hm : m = .reset
    · subst hm result
      exact .inr (.inr ⟨next, rfl⟩)
    · have kind := moveKind m s.consume
      rw [← result] at kind
      obtain ⟨-, -, kept, -⟩ := kind.keptForeground hm
      exact absurd kept hlife

/-- Only a pin command has a validity check as its first micro-step (R121). -/
theorem firstStep_of_pinOperand {i : Instr} {pin : Byte} (h : pinOperand i = some pin) :
    firstStep i = .p0 ∨ firstStep i = .w0 ∨ firstStep i = .g0 := by
  cases i with
  | configure | set | get | high | low => simp [firstStep]
  | _ => cases h

/-- What raises no fatal error and clears none. -/
theorem keptFatal.neither {s t : State} (k : keptFatal s t) {raised : Prop} {cleared : Prop} :
    (s.fatal = false → t.fatal = true → raised) ∧
    (s.fatal = true → cleared → t.fatal = true ∧ t.fcause = s.fcause ∧ t.fval = s.fval) := by
  obtain ⟨hf, hc, hv⟩ := k
  rw [hf]
  exact ⟨fun h h' => absurd (h.symm.trans h') (by decide), fun h _ => ⟨h, hc, hv⟩⟩

/-- Settles O21: nothing but a command's validity check and the reset touches the fatal record. -/
theorem onlyThePinCheckRaisesFatal : Obligations.OnlyThePinCheckRaisesFatal := by
  intro s t h
  cases stepKind_of_step h with
  | transaction i port kind run =>
    obtain ⟨-, -, -, -, -, -, -, -, -, hf, hc, hv, -⟩ := exec_transaction_keeps kind run
    exact keptFatal.neither ⟨hf, hc, hv⟩
  | entry moves enabled result => subst result; exact keptFatal.neither ⟨rfl, rfl, rfl⟩
  | service live serving result =>
    obtain ⟨-, -, -, -, -, -, -, kept, -⟩ := isrStep_keptForeground s.consume
    rw [← result] at kept
    exact keptFatal.neither kept
  | pause result => subst result; exact keptFatal.neither ⟨rfl, rfl, rfl⟩
  | rejection waiting result =>
    subst result
    obtain ⟨-, -, -, kept⟩ := rejectWord_keeps s.consume
    exact keptFatal.neither kept
  | command i live foreground kind decoded run =>
    have fatal : s.fatal = false := fatal_of_live live
    have unraised {claim : Prop} (raised : s.fatal = true) : claim := absurd (fatal.symm.trans raised) (by decide)
    refine ⟨fun _ raised => ?_, fun h => absurd h (by simp [fatal])⟩
    obtain ⟨-, rfl | ⟨-, hstep⟩⟩ := exec_command_cases kind run
    · exact unraised raised
    obtain ⟨-, -, rfl, -⟩ | ⟨-, -, -, -, rfl⟩ | ⟨hfirst, -, pin, hpin, hraise⟩ |
      ⟨-, -, hf, -⟩ | ⟨-, hf, -⟩ := hstep
    · exact unraised raised
    · exact unraised raised
    · have check := firstStep_of_pinOperand hpin
      rw [← hfirst] at check
      obtain ⟨-, rfl⟩ | ⟨-, -, rfl⟩ := hraise <;> exact ⟨check, foreground, rfl, rfl, rfl, rfl, rfl, rfl⟩
    · exact unraised (hf.symm.trans raised)
    · exact unraised (hf.symm.trans raised)
  | move m port next result =>
    by_cases hm : m = .reset
    · subst hm result
      exact ⟨fun _ h => absurd h (by simp [applyMove, State.hostReset, State.resetOf]), fun _ h => absurd next h⟩
    · have kind := moveKind m s.consume
      rw [← result] at kind
      obtain ⟨-, -, -, -, -, -, -, kept, -⟩ := kind.keptForeground hm
      exact keptFatal.neither kept

/-! ### The set and reset registers (R52) -/

/-- Set of a running block on a register the variant has (R63). -/
theorem exec_busSet {r : Reg} {s : State} (v : Word) (live : s.halted = false) (has : s.cfg.hasReg r = true) :
    exec (.busSet r v) s = .next ((s.busSet s.agent r v).disturb r) := by
  simp [exec, execBusSet, busStep, portStep, live, has]

/-- SetBits of a running block on a register the variant has (R64). -/
theorem exec_busSetBits {r : Reg} {s : State} (m : Word) (live : s.halted = false) (has : s.cfg.hasReg r = true) :
    exec (.busSetBits r m) s = .next ((s.busSetBits s.agent r m).disturb r) := by
  simp [exec, execBusSetBits, busStep, portStep, live, has]

/-- A latch bit after a word that does not both set and reset it: what is free (log 10) does not reach it. -/
theorem combineLatch_bit (old set reset free : Half) {o : Nat} (ho : o < 16)
    (one : (set.getLsbD o && reset.getLsbD o) = false) :
    (combineLatch old set reset free).getLsbD o =
      if set.getLsbD o then true else if reset.getLsbD o then false else old.getLsbD o := by
  unfold combineLatch
  dsimp only
  cases hs : set.getLsbD o <;> cases hr : reset.getLsbD o <;> simp_all
  all_goals split <;> simp [*]

theorem latch_busSet_outSet {s : State} (a : Agent) (p : Nat) (v : Word) (hs : s.canonical) :
    ((s.busSet a (.outSet p) v).latch p) =
      match s.cfg.bsrKind with
      | .separate => s.latch p ||| v.setWidth 16
      | .combined => combineLatch (s.latch p) (v.setWidth 16) (v.extractLsb' 16 16)
          ((Config.freeWord (s.draws + 2)).setWidth 16) := by
  cases hk : s.cfg.bsrKind <;> simp [State.busSet, State.writeReg, hk, hs.2]

theorem latch_busSet_outReset {s : State} (a : Agent) (p : Nat) (v : Word) (hs : s.canonical)
    (hk : s.cfg.bsrKind = .separate) :
    (s.busSet a (.outReset p) v).latch p = s.latch p &&& ~~~(v.setWidth 16) := by
  simp [State.busSet, State.writeReg, hk, hs.2]

/-- Settles O11: the latch the write computes, read bit by bit. -/
theorem setAndResetBitsDriveTheLatch : Obligations.SetAndResetBitsDriveTheLatch := by
  intro p v s hs live present
  have canonical := hs.canonical
  have hasSet : s.cfg.hasReg (.outSet p) = true := present
  refine ⟨fun hk => ?separate, fun hk => ?combined⟩
  case separate =>
    have hasReset : s.cfg.hasReg (.outReset p) = true := by simp [Variant.hasReg, present, hk]
    refine ⟨_, _, exec_busSet v live hasSet, exec_busSet v live hasReset, fun o ho => ⟨?_, ?_⟩⟩
    · rw [State.latch_disturb, latch_busSet_outSet _ _ _ canonical, hk]
      simp [ho]
    · rw [State.latch_disturb, latch_busSet_outReset _ _ _ canonical hk]
      simp [ho]
  case combined =>
    refine ⟨_, exec_busSet v live hasSet, fun o ho one => ?_⟩
    have setBit : (v.setWidth 16).getLsbD o = v.getLsbD o := by simp [ho]
    have resetBit : (v.extractLsb' 16 16).getLsbD o = v.getLsbD (o + 16) := by simp [ho, Nat.add_comm]
    rw [State.latch_disturb, latch_busSet_outSet _ _ _ canonical, hk]
    dsimp only
    rw [combineLatch_bit _ _ _ _ ho (by rwa [setBit, resetBit]), setBit, resetBit]

/-! ### The forced update event (R56) -/

theorem forcedUpdate_spec {s : State} (hs : s.canonical) :
    s.forcedUpdate.olat = s.olat ∧ s.forcedUpdate.activePsc = s.peek .timPsc ∧
    (s.forcedUpdate.peek .timSr = s.peek .timSr ∨
      s.forcedUpdate.peek .timSr = s.peek .timSr ||| s.cfg.mask.uif) ∧
    ∀ q, q ≠ .timSr → s.forcedUpdate.peek q = s.peek q := by
  unfold State.forcedUpdate
  split
  · exact ⟨rfl, rfl, .inr (State.peek_poke_same s _ _ hs.1), fun q hq => State.peek_poke_other s _ q _ hq⟩
  · exact ⟨rfl, rfl, .inl rfl, fun q _ => rfl⟩

/-- On `TIM_EGR` SetBits has the effect of Set (R64), and no pin is disturbed. -/
theorem exec_timEgr {v : Word} {i : Instr} {s : State} (hi : i = .busSet .timEgr v ∨ i = .busSetBits .timEgr v)
    (live : s.halted = false) :
    exec i s = .next ((s.writeReg .timEgr v).issued s.agent i none s.anyRdata) := by
  obtain rfl | rfl := hi
  · exact exec_busSet v live rfl
  · exact exec_busSetBits v live rfl

/-- Settles O17: a word with `UG` is the forced update event, one without it nothing. -/
theorem forcedUpdateLoadsThePrescaler : Obligations.ForcedUpdateLoadsThePrescaler := by
  intro v i s hi hs live
  refine ⟨_, exec_timEgr hi live, ?_⟩
  simp only [State.issued_olat, State.issued_activePsc, State.issued_surface, peek_issued]
  by_cases hug : v &&& s.cfg.mask.ug = 0
  · have quiet : s.writeReg .timEgr v = s := if_pos hug
    rw [quiet]
    exact ⟨rfl, fun h => absurd hug h, fun _ => ⟨rfl, rfl⟩⟩
  · have forced : s.writeReg .timEgr v = s.forcedUpdate := if_neg hug
    obtain ⟨olat, effect⟩ := forcedUpdate_spec hs.canonical
    rw [forced]
    exact ⟨olat, fun _ => effect, fun h => absurd h hug⟩

/-! ### The moves of ENV and of the host (R53 to R57, R265) -/

theorem field_given (old mask w : Word) :
    ((old &&& ~~~mask) ||| (w &&& mask)) &&& mask = w &&& mask ∧
    ((old &&& ~~~mask) ||| (w &&& mask)) &&& ~~~mask = old &&& ~~~mask := by
  constructor <;> ext k hk <;> cases h : mask[k] <;> simp [h]

/-- A move of ENV that gives a field of a register a value gives exactly that, and is entered in the record (log 29). -/
theorem step_of_field {s : State} {rest : List Move} {m : Move} {r : Reg} {mask w given : Word} (hs : s.formed)
    (port : s.portReq = none) (moves : s.moves = m :: rest) (hm : m ≠ .core)
    (effect : applyMove m { s with moves := rest } = (State.pokeField { s with moves := rest } r mask given).noted m)
    (value : given &&& mask = w &&& mask) :
    ∃ t, step s = .next t ∧ t.peek r &&& mask = w &&& mask ∧ t.peek r &&& ~~~mask = s.peek r &&& ~~~mask ∧
      (∀ q, q ≠ r → t.peek q = s.peek q) ∧
      t = { s with moves := rest, surface := t.surface, record := s.record ++ [⟨.env, .env m, none⟩] } := by
  have canonical : State.canonical { s with moves := rest } := hs.canonical
  obtain ⟨inside, outside⟩ := field_given (s.peek r) mask given
  refine ⟨_, step_of_move port moves hm, ?_⟩
  rw [effect]
  have written : (State.noted (State.pokeField { s with moves := rest } r mask given) m).peek r =
      (s.peek r &&& ~~~mask) ||| (given &&& mask) := State.peek_poke_same _ _ _ canonical.1
  rw [written]
  exact ⟨inside.trans value, outside, fun q hq => State.peek_poke_other { s with moves := rest } r q _ hq, rfl⟩

/-- The value of a one-bit flag, as a word under its mask. -/
theorem allBits_and (b : Bool) (mask : Word) : allBits b &&& mask = (if b then mask else 0) &&& mask := by
  cases b
  · rfl
  · simp only [allBits, if_true, BitVec.allOnes_and, BitVec.and_self]

theorem timerCounts_iff (s : State) :
    s.timerCounts = true ↔ s.peek .clkenTim &&& s.cfg.mask.cgTim ≠ 0 ∧ s.peek .timCr &&& s.cfg.mask.cen ≠ 0 := by
  simp [State.timerCounts, State.flag]

/-- Settles O49: move by move. -/
theorem periodicUpdateEvents : Obligations.PeriodicUpdateEvents := by
  refine ⟨fun s rest m r mask w hs port moves field => ?fields, fun s rest p w port moves absent => ?absent,
    fun s rest hs port moves => ⟨fun counts => ?update, fun stopped => ?still⟩, fun s rest cw din port moves => ?offer,
    fun s rest port moves => ⟨fun may => ?clear, fun mayNot => ?keep⟩⟩
  case fields =>
    obtain ⟨b, rfl, rfl, rfl, rfl⟩ | ⟨b, rfl, rfl, rfl, rfl⟩ | ⟨rfl, rfl, rfl⟩ | ⟨p, rfl, present, rfl, rfl⟩ := field
    · exact step_of_field hs port moves nofun rfl (allBits_and b _)
    · exact step_of_field hs port moves nofun rfl (allBits_and b _)
    · exact step_of_field hs port moves nofun rfl rfl
    · exact step_of_field hs port moves nofun (if_pos present) rfl
  case absent =>
    rw [step_of_move port moves nofun]
    exact congrArg _ (if_neg (by simp [Variant.portPresent, absent]))
  case update =>
    have canonical : State.canonical { s with moves := rest } := hs.canonical
    refine ⟨_, step_of_move port moves nofun, ?_⟩
    rw [show applyMove .updateEvent { s with moves := rest } = _ from if_pos ((timerCounts_iff s).2 counts)]
    exact ⟨State.peek_poke_same _ _ _ canonical.1,
      fun q hq => State.peek_poke_other { s with moves := rest } _ q _ hq, rfl⟩
  case still =>
    rw [step_of_move port moves nofun]
    exact congrArg _ (if_neg (by rwa [timerCounts_iff]))
  case offer => exact step_of_move port moves nofun
  case clear =>
    rw [step_of_move port moves nofun]
    exact congrArg _ (if_pos may)
  case keep =>
    rw [step_of_move port moves nofun]
    exact congrArg _ (if_neg (by simp [mayNot]))

end Sys2Proof.Machine

/-! PROOFS. The memory (20_memory): what the five bus transactions do to the register they name, and the frame of a transaction,
of a command's micro-step and of a turn of the interrupt service. -/
namespace Sys2Proof.Machine

/-! ### The five transactions of a running block (R62 to R66) -/

theorem exec_busGet {r : Reg} {s : State} (live : s.halted = false) (has : s.cfg.hasReg r = true) :
    exec (.busGet r) s = .next (s.busGet s.agent r).2 := by
  simp [exec, execBusGet, busStep, portStep, live, has]

theorem exec_busClearBits {r : Reg} {s : State} (m : Word) (live : s.halted = false) (has : s.cfg.hasReg r = true) :
    exec (.busClearBits r m) s = .next ((s.busClearBits s.agent r m).disturb r) := by
  simp [exec, execBusClearBits, busStep, portStep, live, has]

theorem exec_busHasBits {r : Reg} {s : State} (m : Word) (live : s.halted = false) (has : s.cfg.hasReg r = true) :
    exec (.busHasBits r m) s = .next (s.busHasBits s.agent r m).2 := by
  simp [exec, execBusHasBits, busStep, portStep, live, has]

theorem isPlain_of_not_trigger {r : Reg} (h : isTrigger r = false) : isPlain r = true := by
  simp [isPlain, h]

/-- Settles O9: the word is the one the register reads as, the stored one where it is no trigger register. -/
theorem busGetReturnsTheWord : Obligations.BusGetReturnsTheWord :=
  fun r s live has =>
    ⟨s.readReg r, exec_busGet live has, fun stored => readReg_plain s r (isPlain_of_not_trigger stored)⟩

/-- Bit 0 of the answer of HasBits is the answer, whatever its other bits are (R100). -/
theorem answer_bit (d : Word) (b : Bool) : ((d &&& ~~~1) ||| if b then 1 else 0).getLsbD 0 = b := by
  cases b <;> simp

/-- Settles O14: the answer is the test of the word the register reads as. -/
theorem hasBitsTestsTheMask : Obligations.HasBitsTestsTheMask :=
  fun r m s live has =>
    ⟨s.readReg r &&& m != 0, _, bne_iff_ne, answer_bit s.anyRdata _, exec_busHasBits m live has⟩

/-! ### The register a write names -/

/-- What a write means for the pins of R135 does not reach the register written. -/
theorem peek_disturb_same (s : State) (r : Reg) : (s.disturb r).peek r = s.peek r :=
  State.peek_disturb_other s r r fun h _ => by simp [h]

theorem disturb_trigger (s : State) {r : Reg} (h : isTrigger r = true) : s.disturb r = s := by
  cases r <;> first | rfl | cases h

/-- A Set keeps `UIF` where both the flag and the word's bit are 1 (R49, log 11). -/
theorem landed_uif (s : State) (v : Word) :
    s.landed .timSr v &&& s.cfg.mask.uif = s.peek .timSr &&& v &&& s.cfg.mask.uif :=
  word_bits (f := fun v u p => (v &&& ~~~(u &&& ~~~p)) &&& u) (g := fun v u p => p &&& v &&& u)
    (fun v u p => (v && !(u && !p)) && u) (fun v u p => p && v && u) (by simp) (by simp) (by decide) v _ _

/-- A mask without hardware-owned bits is wholly the core's. -/
theorem and_not_of_and_eq_zero {m h : Word} (apart : m &&& h = 0) : m &&& ~~~h = m := by
  have parts := word_bits (f := fun m h _ => (m &&& ~~~h) ||| (m &&& h)) (g := fun m _ _ => m)
    (fun m h _ => (m && !h) || (m && h)) (fun m _ _ => m) (by simp) (by simp) (by decide) m h 0
  rw [apart] at parts
  exact BitVec.or_zero.symm.trans parts

/-- ClearBits of a mask without hardware-owned bits (R65). -/
theorem peek_busClearBits_core (s : State) (a : Agent) {r : Reg} {m : Word} (h : isPlain r = true)
    (core : m &&& s.cfg.hardwareOwned r = 0) (hw : Cells.wf s.surface = true) :
    (s.busClearBits a r m).peek r = s.peek r &&& ~~~m := by
  by_cases ht : r = .timSr
  · subst ht
    exact peek_busClearBits_timSr s a m hw
  · rw [peek_busClearBits_same s a r m h ht hw, and_not_of_and_eq_zero core]

/-! ### The input bits a write may carry along (R135) -/

/-- What moves no register of input data moves no input bit. -/
theorem keptInputs_of_peek {s u t : State} (same : ∀ p, u.peek (.pinIn p) = s.peek (.pinIn p)) (k : keptInputs u t) :
    keptInputs s t :=
  fun p o free => by rw [← same p, k p o free]

theorem keptInputs_of_same {s t : State} (same : ∀ p, t.peek (.pinIn p) = s.peek (.pinIn p)) : keptInputs s t :=
  fun p _ _ => by rw [same p]

theorem keptInputs_refl (s : State) : keptInputs s s := fun _ _ _ => rfl

@[simp] theorem tied_issued (s : State) (a : Agent) (op : Instr) (x : Option Word) (d : Word) (p : Nat) :
    (s.issued a op x d).tied p = s.tied p := rfl
@[simp] theorem tied_goto (s : State) (q : Seq) (p : Nat) : (s.goto q).tied p = s.tied p := rfl
@[simp] theorem tied_respond (s : State) (c : BitVec 2) (d : TimeUnit) (p : Nat) :
    (s.respond c d).tied p = s.tied p := rfl

theorem keptInputs_goto {s t : State} (q : Seq) (k : keptInputs s t) : keptInputs s (t.goto q) := fun p o free => by
  rw [tied_goto] at free
  rw [peek_goto, k p o free]

theorem keptInputs_respond {s t : State} (c : BitVec 2) (d : TimeUnit) (k : keptInputs s t) :
    keptInputs s (t.respond c d) := fun p o free => by
  rw [tied_respond] at free
  rw [peek_respond, k p o free]

theorem keptInputs_follow {s : State} (p : Nat) (hw : Cells.wf s.surface = true) : keptInputs s (s.follow p) := by
  intro q o free
  rw [State.tied_follow] at free
  by_cases hq : q = p
  · subst hq
    simp [State.peek_follow_bit _ _ _ hw, free]
  · rw [State.peek_follow_other _ _ _ fun h => hq (Reg.pinIn.inj h)]

theorem keptInputs_settle {s : State} (hw : Cells.wf s.surface = true) : keptInputs s s.settle := by
  intro p o free
  rw [State.tied_settle] at free
  simp [State.peek_settle_bit _ _ _ hw, free]

theorem keptInputs_disturb {s : State} (r : Reg) (hw : Cells.wf s.surface = true) : keptInputs s (s.disturb r) := by
  cases r with
  | clkenGpio => exact keptInputs_settle hw
  | _ => exact fun _ _ _ => rfl

/-- Where every tied pin is at its latch, going by the gates moves nothing. -/
theorem peek_settle_of_loops {s : State} (hw : Cells.wf s.surface = true) (loops : ∀ p, s.loopsAt p) (q : Reg) :
    s.settle.peek q = s.peek q := by
  by_cases hq : ∃ p, q = .pinIn p
  · obtain ⟨p, rfl⟩ := hq
    refine BitVec.eq_of_getLsbD_eq fun o _ => ?_
    rw [State.peek_settle_bit _ _ _ hw]
    split
    · exact (loops p o ‹_›).symm
    · rfl
  · exact State.peek_settle_other s q (not_exists.1 hq)

/-- Clearing port gates ties no pin. -/
theorem loopsAt_busClearBits_gates {s : State} (a : Agent) (m : Word) (hw : Cells.wf s.surface = true) {p : Nat}
    (hs : s.loopsAt p) : (s.busClearBits a .clkenGpio m).loopsAt p := by
  refine loopsAt_of_same hs (fun o ho => ?_) (latch_busClearBits s a _ m rfl p) fun o _ => ?_
  · obtain ⟨gate, wired, output, driven⟩ := (tied_bit _ p o).1 ho
    rw [peek_busClearBits_same s a .clkenGpio m rfl (by nofun) hw] at gate
    refine (tied_bit s p o).2 ⟨fun closed => gate ?_, by simpa using wired, by simpa using output, by simpa using driven⟩
    rw [State.busClearBits_cfg, BitVec.and_assoc, BitVec.and_comm (~~~_), ← BitVec.and_assoc, closed]
    exact BitVec.zero_and
  · rw [peek_busClearBits_other s a .clkenGpio _ m rfl (by nofun)]

/-- ClearBits reaches no other register: clearing port gates leaves the input bits at the latches they were at. -/
theorem peek_exec_busClearBits_other {s : State} (a : Agent) {r q : Reg} (m : Word) (hs : s.formed)
    (plain : isPlain r = true) (hq : q ≠ r) : ((s.busClearBits a r m).disturb r).peek q = s.peek q := by
  rw [← peek_busClearBits_other s a r q m plain hq]
  by_cases hr : r = .clkenGpio
  · subst hr
    obtain ⟨⟨canonical, -⟩, loops⟩ := (formed_iff s).1 hs
    exact peek_settle_of_loops (canonical_busClearBits s a _ m canonical).1
      (fun p => loopsAt_busClearBits_gates a m canonical.1 (loops p)) q
  · exact State.peek_disturb_other _ _ _ (absurd · hr)

/-! ### Set, SetBits and ClearBits (R63 to R65) -/

/-- Settles O10: the word lands but for the hardware-owned bits, and new gates move input bits of tied pins alone. -/
theorem busSetWritesTheWholeWord : Obligations.BusSetWritesTheWholeWord := by
  intro r v s hs live has stored
  have canonical := hs.canonical
  have plain := isPlain_of_not_trigger stored
  refine ⟨_, exec_busSet v live has, ?_⟩
  rw [peek_disturb_same, peek_busSet_same s _ r v plain canonical.1]
  refine ⟨landed_core s r v, landed_free s r v, landed_owned s r v, ?flag, ?others, ?inputs, ?latch, ?prescaler⟩
  case flag =>
    rintro rfl
    exact landed_uif s v
  case others =>
    intro q hq input
    rw [State.peek_disturb_other _ _ _ input, peek_busSet_other _ _ _ _ _ plain hq]
  case inputs =>
    rintro rfl
    exact keptInputs_of_peek (fun p => peek_busSet_other s _ _ _ v plain nofun)
      (keptInputs_disturb _ (canonical_busSet s _ _ v canonical).1)
  case latch => simp [latch_busSet _ _ _ _ plain]
  case prescaler => simp [activePsc_busSet _ _ _ _ plain]

/-- The word after SetBits of a running block, on a register that is no trigger register. -/
theorem peek_exec_busSetBits_same {s u : State} {r : Reg} {m : Word} (canonical : s.canonical) (plain : isPlain r = true)
    (h : exec (.busSetBits r m) s = .next u) : u.peek r = s.peek r ||| (m &&& ~~~(s.cfg.hardwareOwned r)) := by
  obtain ⟨-, -, rfl⟩ := busStep_cases (show execBusSetBits r m s = .next u from h)
  rw [peek_disturb_same, peek_busSetBits_same s _ r m plain canonical.1]

/-- Settles O12: the or of the mask, which a second one finds done; on a trigger register the write of the mask. -/
theorem setBitsOrsTheMask : Obligations.SetBitsOrsTheMask := by
  intro r m s hs live has
  have canonical := hs.canonical
  have done := exec_busSetBits m live has
  refine ⟨_, done, fun stored => ?stored, fun trigger => ?trigger⟩
  case stored =>
    have plain := isPlain_of_not_trigger stored
    have word := peek_exec_busSetBits_same canonical plain done
    refine ⟨word, fun q hq input => ?_, ?_, fun u again => ?_⟩
    · rw [State.peek_disturb_other _ _ _ input, peek_busSetBits_other _ _ _ _ _ plain hq]
    · rintro rfl
      exact keptInputs_of_peek (fun p => peek_busSetBits_other s _ _ _ m plain nofun)
        (keptInputs_disturb _ (canonical_busSetBits s _ _ m canonical).1)
    · have canonical' := canonical_disturb _ r (canonical_busSetBits s s.agent r m canonical)
      rw [peek_exec_busSetBits_same canonical' plain again, word]
      simp [BitVec.or_assoc]
  case trigger =>
    refine ⟨_, exec_busSet m live has, ?_⟩
    simp [disturb_trigger _ trigger, State.busSetBits, State.busSet, trigger]

/-- Settles O13: the and with the complement of the mask; on a trigger register the write of the word read without the mask
(log 8). -/
theorem clearBitsClearsTheMask : Obligations.ClearBitsClearsTheMask := by
  intro r m s hs live has
  have canonical := hs.canonical
  refine ⟨_, exec_busClearBits m live has, fun stored => ⟨?word, fun q => ?others⟩, ?flag, fun trigger => ?trigger⟩
  case word =>
    have plain := isPlain_of_not_trigger stored
    rw [peek_disturb_same]
    split
    · subst r
      exact peek_busClearBits_timSr s _ m canonical.1
    · exact peek_busClearBits_same s _ r m plain ‹_› canonical.1
  case others => exact peek_exec_busClearBits_other _ m hs (isPlain_of_not_trigger stored)
  case flag =>
    rintro rfl rfl
    simp [State.uif, State.flag, peek_disturb_same, peek_busClearBits_timSr s _ _ canonical.1, BitVec.and_assoc]
  case trigger =>
    refine ⟨s.readReg r, _, exec_busSet _ live has, ?_⟩
    simp [disturb_trigger _ trigger, State.busClearBits, State.busSet, trigger]

/-! ### The field write idiom (R67) -/

/-- Settles O15: the two writes in turn, neither of which reaches a hardware-owned bit. -/
theorem fieldWriteIdiom : Obligations.FieldWriteIdiom := by
  intro r m val s hs live has stored core inside
  have canonical := hs.canonical
  have plain := isPlain_of_not_trigger stored
  have within : val &&& m = val := by
    have := and_not_of_and_eq_zero inside
    rwa [BitVec.not_not] at this
  have coreVal : val &&& s.cfg.hardwareOwned r = 0 := by
    rw [← within, BitVec.and_assoc, core]
    exact BitVec.and_zero
  have ⟨t, ht⟩ : ∃ t, t = (s.busClearBits s.agent r m).disturb r := ⟨_, rfl⟩
  have cleared : exec (.busClearBits r m) s = .next t := ht ▸ exec_busClearBits m live has
  have cfg : t.cfg = s.cfg := by simp [ht]
  have live' : t.halted = false := by simpa [State.halted, ht] using live
  have canonical' : t.canonical := ht ▸ canonical_disturb _ r (canonical_busClearBits s _ r m canonical)
  have zeroed : t.peek r = s.peek r &&& ~~~m := by
    rw [ht, peek_disturb_same, peek_busClearBits_core s _ plain core canonical.1]
  have set := exec_busSetBits val live' (cfg.symm ▸ has)
  have word := peek_exec_busSetBits_same canonical' plain set
  rw [cfg, and_not_of_and_eq_zero coreVal, zeroed] at word
  have written := field_given (s.peek r) m val
  rw [within, ← word] at written
  refine ⟨t, _, cleared, set, ?zero, written.1, written.2, fun q hq input => ?others⟩
  case zero => simp [zeroed, BitVec.and_assoc]
  case others =>
    rw [State.peek_disturb_other _ _ _ input, peek_busSetBits_other _ _ _ _ _ plain hq, ht,
      peek_exec_busClearBits_other _ m hs plain hq]

/-! ### The frame of a bus transaction (R68) -/

/-- The surface, the latches and what R135 asks of the pins are the same. -/
def keptOutside (s t : State) : Prop :=
  t.cfg = s.cfg ∧ t.surface = s.surface ∧ t.olat = s.olat ∧ t.wired = s.wired ∧ t.asOutput = s.asOutput ∧
  t.driven = s.driven

theorem keptOutside.peek {s t : State} (k : keptOutside s t) (q : Reg) : t.peek q = s.peek q := by
  obtain ⟨-, surface, -⟩ := k
  rw [State.peek, State.peek, surface]

theorem keptOutside.latch {s t : State} (k : keptOutside s t) (p : Nat) : t.latch p = s.latch p := by
  obtain ⟨-, -, olat, -⟩ := k
  rw [State.latch, State.latch, olat]

theorem keptOutside.tied {s t : State} (k : keptOutside s t) (p : Nat) : t.tied p = s.tied p := by
  have gates := k.peek .clkenGpio
  obtain ⟨cfg, -, -, wired, output, driven⟩ := k
  exact State.tied_congr gates cfg wired output driven p

theorem keptOutside.inputs {s t : State} (k : keptOutside s t) : keptInputs s t :=
  keptInputs_of_same fun _ => k.peek _

@[simp] theorem State.forcedUpdate_olat (s : State) : s.forcedUpdate.olat = s.olat := by
  unfold State.forcedUpdate
  split <;> rfl

theorem activePsc_writeReg (s : State) {r : Reg} (v : Word) (hr : r ≠ .timEgr) :
    (s.writeReg r v).activePsc = s.activePsc := by
  unfold State.writeReg
  split
  · exact absurd rfl hr
  · split <;> exact State.follow_activePsc _ _
  · split
    · exact State.follow_activePsc _ _
    · rfl
  · rfl

theorem latch_writeReg_other (s : State) {r : Reg} (v : Word) {p : Nat} (hs : r ≠ .outSet p) (hr : r ≠ .outReset p) :
    (s.writeReg r v).latch p = s.latch p := by
  have other : ∀ {q v}, p ≠ q → (s.setLatch q v).latch p = s.latch p := s.latch_setLatch_other _ _ _
  unfold State.writeReg
  split
  · split
    · rfl
    · simp [State.latch]
  · split <;> exact other (by rintro rfl; exact hs rfl)
  · split
    · exact other (by rintro rfl; exact hr rfl)
    · rfl
  · rfl

/-- A word written to a register reaches that register; from `TIM_EGR` also `TIM_SR` (R46, R56), and from a set or reset register
the port's input data (R135). -/
theorem peek_writeReg_other (s : State) {r q : Reg} (v : Word) (hq : q ≠ r) (timer : r = .timEgr → q ≠ .timSr)
    (input : ∀ p, r = .outSet p ∨ r = .outReset p → q ≠ .pinIn p) : (s.writeReg r v).peek q = s.peek q := by
  unfold State.writeReg
  split
  · split
    · rfl
    · unfold State.forcedUpdate
      split
      · exact State.peek_poke_other s _ _ _ (timer rfl)
      · rfl
  · split <;> exact State.peek_setLatch_other _ _ _ _ (input _ (.inl rfl))
  · split
    · exact State.peek_setLatch_other _ _ _ _ (input _ (.inr rfl))
    · rfl
  · exact peek_store_other _ _ _ _ hq

theorem keptInputs_setLatch {s : State} (p : Nat) (v : Half) (hw : Cells.wf s.surface = true) :
    keptInputs s (s.setLatch p v) :=
  keptInputs_of_peek (fun _ => rfl) (keptInputs_follow (s := { s with olat := Cells.write s.olat p v }) p hw)

theorem keptInputs_writeReg {s : State} {r : Reg} (v : Word) (hw : Cells.wf s.surface = true) (hr : ∀ p, r ≠ .pinIn p) :
    keptInputs s (s.writeReg r v) := by
  cases r with
  | outSet p => unfold State.writeReg; dsimp only; split <;> exact keptInputs_setLatch p _ hw
  | outReset p =>
    unfold State.writeReg
    dsimp only
    split
    · exact keptInputs_setLatch p _ hw
    · exact keptInputs_refl s
  | _ => exact keptInputs_of_same fun p => peek_writeReg_other s v (hr p).symm (by simp) (by simp)

/-- A bus transaction of the agent whose turn it is: a read, which moves nothing but the response lines and the record, or a
write of some word to the register it names, with what that means for the pins of R135. -/
inductive BusEffect (r : Reg) (v : Word) (i : Instr) (s t : State) : Prop
  | read (x : Option Word) (d : Word) (result : t = s.issued s.agent i x d)
  | write (writes : ¬ (i = .busGet r ∨ i = .busHasBits r v)) (w : Word)
      (result : t = ((s.writeReg r w).issued s.agent i none s.anyRdata).disturb r)

theorem busSetBits_eq_writeReg (s : State) (a : Agent) (r : Reg) (m : Word) :
    ∃ w, s.busSetBits a r m = (s.writeReg r w).issued a (.busSetBits r m) none s.anyRdata := by
  cases h : isTrigger r
  · exact ⟨s.readReg r ||| m, by simp [State.busSetBits, h, writeReg_plain s r _ (isPlain_of_not_trigger h)]⟩
  · exact ⟨m, by simp [State.busSetBits, h]⟩

theorem busClearBits_eq_writeReg (s : State) (a : Agent) (r : Reg) (m : Word) :
    ∃ w, s.busClearBits a r m = (s.writeReg r w).issued a (.busClearBits r m) none s.anyRdata := by
  refine ⟨s.readReg r &&& ~~~m, ?_⟩
  cases h : isTrigger r
  · simp [State.busClearBits, h, writeReg_plain s r _ (isPlain_of_not_trigger h)]
  · simp [State.busClearBits, h]

theorem busEffect {r : Reg} {v : Word} {i : Instr} {s t : State}
    (hi : i = .busGet r ∨ i = .busSet r v ∨ i = .busSetBits r v ∨ i = .busClearBits r v ∨ i = .busHasBits r v)
    (h : exec i s = .next t) : BusEffect r v i s t := by
  obtain rfl | rfl | rfl | rfl | rfl := hi
  · obtain ⟨-, -, rfl⟩ := busStep_cases (show execBusGet r s = .next t from h)
    exact .read _ _ rfl
  · obtain ⟨-, -, rfl⟩ := busStep_cases (show execBusSet r v s = .next t from h)
    exact .write (by simp) v rfl
  · obtain ⟨-, -, rfl⟩ := busStep_cases (show execBusSetBits r v s = .next t from h)
    obtain ⟨w, e⟩ := busSetBits_eq_writeReg s s.agent r v
    exact .write (by simp) w (by rw [e])
  · obtain ⟨-, -, rfl⟩ := busStep_cases (show execBusClearBits r v s = .next t from h)
    obtain ⟨w, e⟩ := busClearBits_eq_writeReg s s.agent r v
    exact .write (by simp) w (by rw [e])
  · obtain ⟨-, -, rfl⟩ := busStep_cases (show execBusHasBits r v s = .next t from h)
    exact .read _ _ rfl

/-- Only a write of a pin control register makes fewer pins outputs. -/
theorem asOutput_disturb (s : State) {r : Reg} (ha : ∀ p, r ≠ .ctlA p) (hb : ∀ p, r ≠ .ctlB p)
    (ho : ∀ p, r ≠ .outType p) : (s.disturb r).asOutput = s.asOutput := by
  by_cases hg : r = .clkenGpio
  · subst hg
    exact s.settle_asOutput
  · rw [disturb_other s r hg ha hb ho]

theorem keptInputs_disturb_writeReg {s : State} {r : Reg} (a : Agent) (i : Instr) (d w : Word) (hs : s.canonical)
    (hr : ∀ p, r ≠ .pinIn p) : keptInputs s (((s.writeReg r w).issued a i none d).disturb r) := by
  cases trigger : isTrigger r
  · refine keptInputs_of_peek (fun p => ?_) (keptInputs_disturb r (canonical_writeReg s r w hs).1)
    exact peek_writeReg_other s w (hr p).symm nofun (by rintro q (rfl | rfl) <;> cases trigger)
  · rw [disturb_trigger _ trigger]
    exact keptInputs_writeReg w hs.1 hr

/-- Settles O16: a read moves nothing, and a write reaches what its register names. -/
theorem busTransactionsFrame : Obligations.BusTransactionsFrame := by
  intro r v i s t hi h
  cases busEffect hi h with
  | read x d result =>
    subst result
    have kept : keptOutside s (s.issued s.agent i x d) := by simp [keptOutside]
    simp [keptByCommands, keptFatal, keptResponse, keptPins, kept.inputs, kept.tied]
  | write writes w result =>
    subst result
    refine ⟨by simp [keptByCommands], by simp [keptFatal], by simp [keptResponse], by simp, by simp, by simp, by simp,
      by simp, by simp, by simp, by simp, by simp, by simp, by simp, fun hr => ?prescaler,
      fun q hq timer input => ?registers,
      fun hs hr => ?inputs, by simp, fun spared => ?pins, fun p hset hreset => ?latch,
      fun reads => absurd reads writes⟩
    case prescaler => simp [activePsc_writeReg s w hr]
    case registers =>
      rw [State.peek_disturb_other _ _ _ fun hg p => input p (.inr (.inr hg)), peek_issued]
      exact peek_writeReg_other s w hq timer fun p hp => input p (hp.imp_right .inl)
    case inputs => exact keptInputs_disturb_writeReg _ _ _ w hs.canonical hr
    case pins =>
      obtain ⟨ha, hb, ho⟩ := (or_assoc.2 spared).resolve_left writes
      refine ⟨⟨by simp [asOutput_disturb _ ha hb ho], by simp⟩, fun kept p => ?_⟩
      have gates := (or_assoc.2 kept).resolve_left writes
      rw [disturb_other _ _ gates ha hb ho]
      exact State.tied_congr (peek_writeReg_other s w gates.symm nofun (by simp)) (by simp) (by simp) (by simp)
        (by simp) p
    case latch => simp [latch_writeReg_other s w hset hreset]

/-! ### The interrupt service (R81, R219) -/

/-- A step of the service issues its transactions as the service's own and writes no register but `TIM_SR`. -/
theorem isrStep_frame (s : State) :
    (isrStep s).slStart = s.slStart ∧ (isrStep s).slTarget = s.slTarget ∧ (isrStep s).cmdValid = s.cmdValid ∧
    keptResponse s (isrStep s) ∧ (isrStep s).hIrq = s.hIrq ∧ (isrStep s).hPrio = s.hPrio ∧
    (isrStep s).activePsc = s.activePsc ∧ (isrStep s).fgOps = s.fgOps ∧ (isrStep s).olat = s.olat ∧
    keptPins s (isrStep s) := by
  obtain ⟨-, -, e⟩ | ⟨-, -, e⟩ | ⟨-, e⟩ | ⟨-, e⟩ | ⟨-, e⟩ | ⟨-, e⟩ := isrStep_cases s <;>
    simp [e, keptResponse, keptPins, State.fgOps, olat_busClearBits, activePsc_busClearBits]

theorem peek_isrStep_other (s : State) {q : Reg} (hq : q ≠ .timSr) : (isrStep s).peek q = s.peek q := by
  obtain ⟨-, -, e⟩ | ⟨-, -, e⟩ | ⟨-, e⟩ | ⟨-, e⟩ | ⟨-, e⟩ | ⟨-, e⟩ := isrStep_cases s <;> rw [e]
  case inr.inr.inl => exact peek_busClearBits_other s .isr _ q _ rfl hq
  all_goals rfl

/-- Settles O40: by the steps of the service. -/
theorem serviceLeavesTheForegroundAlone : Obligations.ServiceLeavesTheForegroundAlone := by
  intro s t rest serving port moves h
  have turn : coreTurn { s with moves := rest } = .next t := (step_of_turn port (.inl moves)).symm.trans h
  have result : t = isrStep { s with moves := rest } := by
    obtain ⟨-, ⟨-, e⟩ | ⟨idle, -⟩ | ⟨idle, -⟩ | ⟨idle, -⟩ | ⟨idle, -⟩⟩ := coreTurn_cases turn
    · exact e
    all_goals exact absurd serving (by simpa using idle)
  subst result
  obtain ⟨-, hseq, hlife, hcw, hdin, -, -, hfatal, hReg, hEn, -⟩ := isrStep_keptForeground { s with moves := rest }
  obtain ⟨hstart, htarget, hvalid, hresponse, hIrq, hPrio, hpsc, hops, holat, hpins⟩ := isrStep_frame { s with moves := rest }
  exact ⟨hseq, hstart, htarget, hcw, hdin, hvalid, hresponse, hfatal, hlife, hReg, hIrq, hPrio, hEn, hpsc, hops, holat,
    hpins, fun q hq => peek_isrStep_other { s with moves := rest } hq⟩

/-! ### Steps of a command that reach no register

Waiting, acceptance, refusal and the validity check are the same for every command (R93, R121, R141). -/

/-- What a micro-step of `i` keeps that writes no register and no latch and makes no pin an output, driven or tied. -/
def quietStep (i : Instr) (s t : State) : Prop :=
  keptByCommands s t ∧ keptUnits s t ∧ keptLatches s t ∧ (s.seq ≠ firstStep i → keptFatal s t) ∧ keptOutside s t

/-- A step of a command before its own work, or outside its micro-steps. -/
inductive Opening (i : Instr) (s t : State) : Prop
  | pause (result : t = s)
  | accept (waiting : s.seq = .idle) (w : Word) (d : TimeUnit) (q : Seq) (result : t = (s.latchCommand w d).goto q)
  | refuse (waiting : s.seq = .idle) (w : Word) (d : TimeUnit) (c : BitVec 2)
      (result : t = (s.latchCommand w d).respond c 0)
  | fatal (check : s.seq = firstStep i) (c : BitVec 2) (pin : Byte) (result : t = s.raiseFatal c pin)
  | pass (q : Seq) (result : t = s.goto q)

theorem Opening.quiet {i : Instr} {s t : State} (h : Opening i s t) : quietStep i s t := by
  cases h <;> subst t <;>
    simp_all [quietStep, keptByCommands, keptUnits, keptLatches, keptFatal, keptOutside]

theorem Opening.response {i : Instr} {s t : State} (h : Opening i s t) (hs : s.seq ≠ .idle) : keptResponse s t := by
  cases h <;> subst t <;> simp_all [keptResponse]

theorem opening_accept {s : State} (i : Instr) (q : Seq) (waiting : s.seq = .idle) : Opening i s (s.accept i q) := by
  obtain ⟨-, e⟩ | ⟨-, e⟩ := accept_cases s i q <;> rw [e]
  · exact .pause rfl
  · exact .accept waiting _ _ _ rfl

theorem opening_turnAway {s : State} (i : Instr) (w : Word) (d : TimeUnit) (c : BitVec 2) (waiting : s.seq = .idle) :
    Opening i s (s.turnAway w d c) := by
  obtain ⟨-, e⟩ | ⟨-, e⟩ := turnAway_cases s w d c <;> rw [e]
  · exact .pause rfl
  · exact .refuse waiting _ _ _ rfl

theorem opening_fatalAt {i : Instr} {pin : Byte} {s t : State} (check : s.seq = firstStep i) (h : fatalAt pin s t) :
    Opening i s t := by
  obtain ⟨-, e⟩ | ⟨-, -, e⟩ := h <;> exact .fatal check _ _ e

/-! ### Single pins (R121, R129, R130) -/

theorem onehot_bit {k o : Nat} (h : o ≠ k) : (onehot k).getLsbD o = false := by
  simp [onehot, BitVec.getLsbD_shiftLeft]
  omega

theorem pinBit_bit {pin : Byte} {o : Nat} (h : o ≠ offsetOf pin) : (pinBit pin).getLsbD o = false := by
  simp [pinBit, BitVec.getLsbD_shiftLeft]
  omega

theorem offsetOf_lt (pin : Byte) : offsetOf pin < 16 := Nat.mod_lt _ (by decide)

/-- A word whose set bit and reset bit of an offset are 0 leaves the latch bit alone (R52). -/
theorem combineLatch_bit_kept (old : Half) {set reset : Half} (free : Half) {o : Nat} (ho : o < 16)
    (hset : set.getLsbD o = false) (hreset : reset.getLsbD o = false) :
    (combineLatch old set reset free).getLsbD o = old.getLsbD o := by
  rw [combineLatch_bit _ _ _ _ ho (by simp [hset])]
  simp [hset, hreset]

/-- Beyond the sixteen pins of a port no bit differs. -/
theorem half_bit {v w : Half} {o : Nat} (h : o < 16 → v.getLsbD o = w.getLsbD o) : v.getLsbD o = w.getLsbD o := by
  by_cases ho : o < 16
  · exact h ho
  · rw [BitVec.getLsbD_of_ge _ _ (by omega), BitVec.getLsbD_of_ge _ _ (by omega)]

/-- SET, HIGH and LOW write the pin's own bit of its port's latch (R129, R130). -/
theorem writeReg_setword (s : State) (pin : Byte) (level : Bool) :
    ∃ v : Half, s.writeReg (setword s.cfg.bsrKind pin level).1 (setword s.cfg.bsrKind pin level).2 =
        s.setLatch (portOf pin) v ∧
      ∀ o, o ≠ offsetOf pin → v.getLsbD o = (s.latch (portOf pin)).getLsbD o := by
  have small := offsetOf_lt pin
  cases hk : s.cfg.bsrKind <;> cases level <;>
    refine ⟨_, by simp only [setword, State.writeReg, hk]; rfl, fun o ho => half_bit fun hlt => ?_⟩
  case separate.false | separate.true => simp [onehot_bit ho, hlt]
  case combined.false =>
    have set := onehot_bit (k := offsetOf pin + 16) (o := o) (by omega)
    have reset := onehot_bit (k := offsetOf pin + 16) (o := 16 + o) (by omega)
    exact combineLatch_bit_kept _ _ hlt (by simp [set]) (by simp [reset])
  case combined.true =>
    have reset := onehot_bit (k := offsetOf pin) (o := 16 + o) (by omega)
    exact combineLatch_bit_kept _ _ hlt (by simp [onehot_bit ho]) (by simp [reset])

/-! A pin stands beside another that a command changes: another port, or another offset of the same one. -/

/-- The pins of two states count as tied alike where the lists of pins, the gates and the wiring agree. -/
theorem tied_bit_congr {s t : State} {p o : Nat} (gates : t.peek .clkenGpio = s.peek .clkenGpio) (cfg : t.cfg = s.cfg)
    (wired : t.wired = s.wired) (output : (Cells.read t.asOutput p).getLsbD o = (Cells.read s.asOutput p).getLsbD o)
    (driven : (Cells.read t.driven p).getLsbD o = (Cells.read s.driven p).getLsbD o) :
    (t.tied p).getLsbD o = (s.tied p).getLsbD o := by
  rw [Bool.eq_iff_iff, tied_bit, tied_bit, gates, cfg, wired, output, driven]

/-- Adding pins to a port's list, or taking them out, leaves the others alone. -/
theorem read_write_bit {m : Cells 16} (hm : Cells.wf m = true) {p q o : Nat} {v : Half}
    (same : p = q → v.getLsbD o = (Cells.read m q).getLsbD o) :
    (Cells.read (Cells.write m q v) p).getLsbD o = (Cells.read m p).getLsbD o := by
  by_cases hp : p = q
  · subst hp
    rw [Cells.read_write_same _ _ _ hm, same rfl]
  · rw [Cells.read_write_other _ _ _ _ hp]

/-- ENV's bringing a port to its latch leaves the input bits alone that were there before. -/
theorem peek_follow_bit_of_loops {s : State} {p q o : Nat} (hw : Cells.wf s.surface = true)
    (loops : p = q → (s.tied q).getLsbD o = true → (s.peek (.pinIn q)).getLsbD o = (s.latch q).getLsbD o) :
    ((s.follow q).peek (.pinIn p)).getLsbD o = (s.peek (.pinIn p)).getLsbD o := by
  by_cases hp : p = q
  · subst hp
    rw [State.peek_follow_bit _ _ _ hw]
    split
    · exact (loops rfl ‹_›).symm
    · rfl
  · rw [State.peek_follow_other _ _ _ fun h => hp (Reg.pinIn.inj h)]

/-! ### SET, HIGH, LOW and GET (R129, R131) -/

/-- The steps of the four commands that access a pin: but for the one that writes the latch, they write nothing outside. -/
inductive PinAccess (i : Instr) (pin : Byte) (s t : State) : Prop
  | quiet (kept : quietStep i s t) (response : s.seq ≠ .idle → s.seq ≠ .g1 → keptResponse s t)
  | write (drives : i ≠ .get pin) (at_ : s.seq = .w1) (v : Half)
      (others : ∀ o, o ≠ offsetOf pin → v.getLsbD o = (s.latch (portOf pin)).getLsbD o) (op : Instr) (d : Word)
      (result : t = (((s.drive pin).setLatch (portOf pin) v).issued .fg op none d).respond statusOk 0)

theorem Opening.pinAccess {i : Instr} {pin : Byte} {s t : State} (h : Opening i s t) : PinAccess i pin s t :=
  .quiet h.quiet fun hs _ => h.response hs

theorem pinAccess_drivePin {i : Instr} {pin : Byte} {level : Bool} {s t : State} (first : firstStep i = .w0)
    (drives : i ≠ .get pin) (h : drivePin i pin level s = .next t) : PinAccess i pin s t := by
  obtain ⟨-, ⟨-, e⟩ | ⟨-, h⟩⟩ := drivePin_cases h
  · exact (Opening.pause e).pinAccess
  obtain ⟨hs, rfl⟩ | ⟨hs, hf⟩ | ⟨-, e⟩ | ⟨hs, rfl⟩ | ⟨-, -, -, e⟩ := h
  · exact (opening_accept i _ hs).pinAccess
  · exact (opening_fatalAt (hs.trans first.symm) hf).pinAccess
  · exact (Opening.pass _ e).pinAccess
  · obtain ⟨v, written, others⟩ := writeReg_setword (s.drive pin) pin level
    exact .write drives hs v others _ _
      (congrArg (State.respond · statusOk 0) (congrArg (State.issued · .fg _ none _) written))
  · exact (Opening.pause e).pinAccess

theorem pinAccess_get {pin : Byte} {s t : State} (h : execGet pin s = .next t) : PinAccess (.get pin) pin s t := by
  obtain ⟨-, ⟨-, e⟩ | ⟨-, h⟩⟩ := execGet_cases h
  · exact (Opening.pause e).pinAccess
  obtain ⟨hs, rfl⟩ | ⟨hs, hf⟩ | ⟨-, e⟩ | ⟨hs, rfl⟩ | ⟨-, -, -, e⟩ := h
  · exact (opening_accept _ _ hs).pinAccess
  · exact (opening_fatalAt hs hf).pinAccess
  · exact (Opening.pass _ e).pinAccess
  · exact .quiet (by simp [quietStep, keptByCommands, keptUnits, keptLatches, keptFatal, keptOutside])
      fun _ elsewhere => absurd hs elsewhere
  · exact (Opening.pause e).pinAccess

theorem pinAccess {i : Instr} {pin : Byte} {level : Bool} {s t : State}
    (hi : i = .set pin level ∨ i = .high pin ∨ i = .low pin ∨ i = .get pin) (h : exec i s = .next t) :
    PinAccess i pin s t := by
  obtain rfl | rfl | rfl | rfl := hi
  · exact pinAccess_drivePin rfl nofun h
  · exact pinAccess_drivePin rfl nofun h
  · exact pinAccess_drivePin rfl nofun h
  · exact pinAccess_get h

/-- A SET of a pin leaves every other pin driven or not, tied or not, and its input bit where it was (R135). -/
theorem setLatch_drive_other {s : State} {pin : Byte} {v : Half} (hs : s.formed)
    (others : ∀ o, o ≠ offsetOf pin → v.getLsbD o = (s.latch (portOf pin)).getLsbD o) {p o : Nat}
    (other : p ≠ portOf pin ∨ o ≠ offsetOf pin) :
    (Cells.read ((s.drive pin).setLatch (portOf pin) v).driven p).getLsbD o = (Cells.read s.driven p).getLsbD o ∧
    (((s.drive pin).setLatch (portOf pin) v).tied p).getLsbD o = (s.tied p).getLsbD o ∧
    (((s.drive pin).setLatch (portOf pin) v).peek (.pinIn p)).getLsbD o = (s.peek (.pinIn p)).getLsbD o := by
  obtain ⟨⟨⟨wfSurface, wfOlat⟩, -, -, wfDriven, -⟩, loops⟩ := (formed_iff s).1 hs
  have driven : (Cells.read (s.drive pin).driven p).getLsbD o = (Cells.read s.driven p).getLsbD o :=
    read_write_bit wfDriven fun hp => by simp [pinBit_bit (other.resolve_left (absurd hp))]
  have tied : (((s.drive pin).setLatch (portOf pin) v).tied p).getLsbD o = (s.tied p).getLsbD o :=
    tied_bit_congr (by simp [State.peek_setLatch_other]) (by simp [State.setLatch]) (by simp [State.setLatch])
      (by simp [State.setLatch]) (by simpa [State.setLatch] using driven)
  refine ⟨by simpa [State.setLatch] using driven, tied, peek_follow_bit_of_loops wfSurface fun hp ho => ?_⟩
  subst hp
  have wasTied : (s.tied (portOf pin)).getLsbD o = true := tied ▸ (State.tied_follow _ _ _).symm ▸ ho
  show (s.peek _).getLsbD o = (Cells.read (Cells.write s.olat (portOf pin) v) (portOf pin)).getLsbD o
  rw [Cells.read_write_same _ _ _ wfOlat, others o (other.resolve_left (absurd rfl))]
  exact loops _ o wasTied

/-- Settles O32: by the one step that writes the latch, and the quiet ones. -/
theorem pinAccessFrame : Obligations.PinAccessFrame := by
  intro i pin level s t hi h
  cases pinAccess hi h with
  | quiet kept response =>
    obtain ⟨commands, units, latches, fatal, outside⟩ := kept
    have ⟨_, surface, olat, _, output, driven⟩ := outside
    exact ⟨commands, units, latches, output, fun q _ => outside.peek q, fun _ => ⟨surface, driven⟩,
      fun _ p o _ => ⟨by rw [driven], by rw [outside.tied], by rw [outside.peek]⟩, fatal, fun hs _ => response hs,
      fun _ => olat, fun p _ => outside.latch p, fun _ o _ => by rw [outside.latch]⟩
  | write drives at_ v others op d result =>
    subst result
    have never {claim : Prop} (reads : i = .get pin ∨ s.seq ≠ .w1) : claim :=
      absurd reads (not_or.2 ⟨drives, not_not.2 at_⟩)
    refine ⟨by simp [keptByCommands, State.setLatch], by simp [keptUnits, State.setLatch],
      by simp [keptLatches, State.setLatch], by simp [State.setLatch], fun q hq => ?registers, never, fun hs p o other => ?others,
      fun _ => by simp [keptFatal, State.setLatch], fun _ elsewhere => absurd at_ elsewhere, never, fun p hp => ?ports,
      fun hs o ho => ?bits⟩
    case others => simpa using setLatch_drive_other hs others other
    case registers => simp [State.peek_setLatch_other _ _ _ _ hq]
    case ports => simp [State.latch_setLatch_other _ _ _ _ hp]
    case bits =>
      rw [latch_respond, latch_issued, State.latch_setLatch_same _ _ _ (by exact hs.canonical.2), others o ho]

/-! ### CONFIGURE (R122) -/

theorem busSetBits_plain (s : State) (a : Agent) {r : Reg} (m : Word) (h : isPlain r = true) :
    s.busSetBits a r m = (s.store r (s.peek r ||| m)).issued a (.busSetBits r m) none s.anyRdata := by
  simp [State.busSetBits, isTrigger_plain r h, readReg_plain s r h]

theorem busClearBits_plain (s : State) (a : Agent) {r : Reg} (m : Word) (h : isPlain r = true) :
    s.busClearBits a r m = (s.store r (s.peek r &&& ~~~m)).issued a (.busClearBits r m) none s.anyRdata := by
  simp [State.busClearBits, isTrigger_plain r h, readReg_plain s r h]

/-- The layout's last micro-step (R125, R126). -/
def lastConfigureStep (s : State) : Prop :=
  s.cfg.pinLayout = .packed4 ∧ s.seq = .p3 ∨ s.cfg.pinLayout = .split ∧ s.seq = .p7

/-- The pin control register a micro-step of CONFIGURE from `P2` on writes (R122, R123, R126). -/
def configureWrites (pin : Byte) (s : State) (r : Reg) : Prop :=
  (s.cfg.pinLayout = .packed4 ∧ (s.seq = .p2 ∨ s.seq = .p3) ∧ r = packedReg pin) ∨
  (s.cfg.pinLayout = .split ∧ (s.seq = .p2 ∨ s.seq = .p3) ∧ r = .ctlA (portOf pin)) ∨
  (s.cfg.pinLayout = .split ∧ (s.seq = .p4 ∨ s.seq = .p5) ∧ r = .ctlB (portOf pin)) ∨
  (s.cfg.pinLayout = .split ∧ (s.seq = .p6 ∨ s.seq = .p7) ∧ r = .outType (portOf pin))

theorem configureWrites_control {pin : Byte} {s : State} {r : Reg} (h : configureWrites pin s r) :
    isPlain r = true ∧ r ≠ .clkenGpio ∧ r ≠ .timSr ∧ ∀ p, r ≠ .pinIn p := by
  obtain ⟨-, -, rfl⟩ | ⟨-, -, rfl⟩ | ⟨-, -, rfl⟩ | ⟨-, -, rfl⟩ := h
  · unfold packedReg
    split <;> simp
  all_goals simp

/-- A micro-step of CONFIGURE: one with no write, the port gate at `P1`, the first field's clearing at `P2`, which makes the pin no
output, a field's clearing or setting between, and the last field's setting, which completes the command (R122, R135). -/
inductive ConfigureStep (pin mode pull : Byte) (s t : State) : Prop
  | opening (h : Opening (.configure pin mode pull) s t)
  | gate (at_ : s.seq = .p1) (result : t = configureGate pin s)
  | release (at_ : s.seq = .p2) (r : Reg) (writes : configureWrites pin s r) (w : Word) (op : Instr) (d : Word)
      (result : t = (((s.release pin).store r w).issued .fg op none d).goto .p3)
  | field (r : Reg) (writes : configureWrites pin s r) (w : Word) (op : Instr) (d : Word) (q : Seq)
      (result : t = ((s.store r w).issued .fg op none d).goto q)
  | complete (last : lastConfigureStep s) (r : Reg) (writes : configureWrites pin s r) (w : Word) (op : Instr) (d : Word)
      (result : t = (((s.store r w).issued .fg op none d).configured pin mode).respond statusOk 0)

theorem configureStep_packed {pin mode pull : Byte} {s : State} (layout : s.cfg.pinLayout = .packed4) :
    ConfigureStep pin mode pull s (configurePacked pin mode s) := by
  unfold configurePacked
  split
  case h_1 hs =>
    exact .release hs (packedReg pin) (by simp [configureWrites, layout, hs]) _ _ _
      (by rw [busClearBits_plain _ _ _ (by simp)])
  case h_2 hs =>
    exact .complete (.inl ⟨layout, hs⟩) (packedReg pin) (by simp [configureWrites, layout, hs]) _ _ _
      (by rw [busSetBits_plain _ _ _ (by simp)])
  case h_3 => exact .opening (.pause rfl)

theorem configureStep_split {pin mode pull : Byte} {s : State} (layout : s.cfg.pinLayout = .split) :
    ConfigureStep pin mode pull s (configureSplit pin mode pull s) := by
  have cleared {r : Reg} {m : Word} {q : Seq} (writes : configureWrites pin s r) :
      ConfigureStep pin mode pull s ((s.busClearBits .fg r m).goto q) :=
    .field r writes _ _ _ _ (by rw [busClearBits_plain _ _ _ (configureWrites_control writes).1])
  have written {r : Reg} {m : Word} {q : Seq} (writes : configureWrites pin s r) :
      ConfigureStep pin mode pull s ((s.busSetBits .fg r m).goto q) :=
    .field r writes _ _ _ _ (by rw [busSetBits_plain _ _ _ (configureWrites_control writes).1])
  unfold configureSplit
  dsimp only
  split
  case h_1 hs =>
    exact .release hs (.ctlA (portOf pin)) (by simp [configureWrites, layout, hs]) _ _ _
      (by rw [busClearBits_plain _ _ _ (by simp)])
  case h_2 hs => exact written (by simp [configureWrites, layout, hs])
  case h_3 hs => exact cleared (by simp [configureWrites, layout, hs])
  case h_4 hs => exact written (by simp [configureWrites, layout, hs])
  case h_5 hs => exact cleared (by simp [configureWrites, layout, hs])
  case h_6 hs =>
    exact .complete (.inr ⟨layout, hs⟩) (.outType (portOf pin)) (by simp [configureWrites, layout, hs]) _ _ _
      (by rw [busSetBits_plain _ _ _ (by simp)])
  case h_7 => exact .opening (.pause rfl)

theorem configureStep {pin mode pull : Byte} {s t : State} (h : execConfigure pin mode pull s = .next t) :
    ConfigureStep pin mode pull s t := by
  obtain ⟨-, ⟨-, e⟩ | ⟨-, h⟩⟩ := execConfigure_cases h
  · exact .opening (.pause e)
  obtain ⟨hs, rfl⟩ | ⟨hs, hf⟩ | ⟨-, -, e⟩ | ⟨hs, e⟩ | ⟨-, -, -, rfl⟩ := h
  · exact .opening (opening_accept _ _ hs)
  · exact .opening (opening_fatalAt hs hf)
  · exact .opening (.pass _ e)
  · exact .gate hs e
  · unfold configureFields
    split
    · exact configureStep_packed ‹_›
    · exact configureStep_split ‹_›

section
variable {pin mode pull : Byte} {s t : State}

/-- CONFIGURE stays out of the other units, of the latches and of the host's latched command. -/
theorem ConfigureStep.units (h : ConfigureStep pin mode pull s t) :
    keptByCommands s t ∧ keptUnits s t ∧ keptLatches s t ∧ t.olat = s.olat ∧ t.driven = s.driven := by
  cases h with
  | opening h =>
    obtain ⟨commands, units, latches, -, -, -, olat, -, -, driven⟩ := h.quiet
    exact ⟨commands, units, latches, olat, driven⟩
  | gate _ result =>
    simp [result, configureGate, keptByCommands, keptUnits, keptLatches, activePsc_busSetBits, olat_busSetBits]
  | release _ _ _ _ _ _ result | field _ _ _ _ _ _ result | complete _ _ _ _ _ _ result =>
    simp [result, keptByCommands, keptUnits, keptLatches]

/-- The fatal record changes at the validity check alone, the response at acceptance and at completion (R93, R94, R121). -/
theorem ConfigureStep.interface (h : ConfigureStep pin mode pull s t) :
    (s.seq ≠ .p0 → keptFatal s t) ∧ (s.seq ≠ .idle → ¬ lastConfigureStep s → keptResponse s t) := by
  cases h with
  | opening h =>
    obtain ⟨-, -, -, fatal, -⟩ := h.quiet
    exact ⟨fatal, fun hs _ => h.response hs⟩
  | gate _ result => simp [result, configureGate, keptFatal, keptResponse]
  | release _ _ _ _ _ _ result | field _ _ _ _ _ _ result => simp [result, keptFatal, keptResponse]
  | complete last _ _ _ _ _ result => simp [result, keptFatal, last]

/-- The pin named stops counting as an output at `P2` and may be one again at completion; the gates decide at `P1`, and nothing else
ties or unties a pin (R135, log 25). -/
theorem ConfigureStep.outputs (h : ConfigureStep pin mode pull s t) (clear : s.seq ≠ .p2) (done : ¬ lastConfigureStep s) :
    t.asOutput = s.asOutput ∧ (s.seq ≠ .p1 → ∀ p, t.tied p = s.tied p) := by
  cases h with
  | opening h =>
    obtain ⟨-, -, -, -, outside⟩ := h.quiet
    have ⟨_, _, _, _, output, _⟩ := outside
    exact ⟨output, fun _ => outside.tied⟩
  | gate at_ result => exact ⟨by simp [result, configureGate, State.disturb], fun h => absurd at_ h⟩
  | release at_ => exact absurd at_ clear
  | field r writes w op d q result =>
    obtain ⟨-, gates, -⟩ := configureWrites_control writes
    subst result
    exact ⟨rfl, fun _ => State.tied_congr (peek_store_other s r _ w gates.symm) rfl rfl rfl rfl⟩
  | complete last => exact absurd last done

/-- The registers a step writes: the gates and input data at `P1`, the layout's field, and the port's input data at completion. -/
theorem ConfigureStep.registers (h : ConfigureStep pin mode pull s t) {q : Reg}
    (gates : ¬ (s.seq = .p1 ∧ (q = .clkenGpio ∨ ∃ p, q = .pinIn p))) (field : ¬ configureWrites pin s q)
    (input : lastConfigureStep s → q ≠ .pinIn (portOf pin)) : t.peek q = s.peek q := by
  have apart {r : Reg} (writes : configureWrites pin s r) : q ≠ r := fun e => field (e ▸ writes)
  cases h with
  | opening h =>
    obtain ⟨-, -, -, -, outside⟩ := h.quiet
    exact outside.peek q
  | gate at_ result =>
    obtain ⟨gate, input⟩ := not_or.1 (not_and.1 gates at_)
    rw [result, configureGate, peek_goto, State.peek_disturb_other _ _ _ fun _ => not_exists.1 input,
      peek_busSetBits_other _ _ _ _ _ rfl gate]
  | release _ r writes w _ _ result =>
    rw [result, peek_goto, peek_issued, peek_store_other _ _ _ _ (apart writes), State.peek_release]
  | field r writes w _ _ _ result =>
    rw [result, peek_goto, peek_issued, peek_store_other _ _ _ _ (apart writes)]
  | complete last r writes w _ _ result =>
    rw [result, peek_respond, State.peek_configured_other _ _ _ _ (input last), peek_issued,
      peek_store_other _ _ _ _ (apart writes)]

theorem keptInputs_configured (pin mode : Byte) (hw : Cells.wf s.surface = true) : keptInputs s (s.configured pin mode) := by
  obtain ⟨-, e⟩ | ⟨-, e⟩ := configured_cases s pin mode <;> rw [e]
  · exact keptInputs_refl s
  · have same : ∀ a p, ({ s with asOutput := a } : State).peek (.pinIn p) = s.peek (.pinIn p) := fun _ _ => rfl
    exact keptInputs_of_peek (same _) (keptInputs_follow _ hw)

/-- The input bits move at `P1` and at completion, and then to the latch (R135, log 25). -/
theorem ConfigureStep.inputs (h : ConfigureStep pin mode pull s t) (hs : s.formed) : keptInputs s t := by
  have canonical := hs.canonical
  cases h with
  | opening h =>
    obtain ⟨-, -, -, -, outside⟩ := h.quiet
    exact outside.inputs
  | gate _ result =>
    rw [result, configureGate]
    exact keptInputs_goto _ (keptInputs_of_peek (fun p => peek_busSetBits_other s .fg .clkenGpio _ _ rfl nofun)
      (keptInputs_disturb _ (canonical_busSetBits s .fg .clkenGpio _ canonical).1))
  | release _ r writes w _ _ result =>
    obtain ⟨-, -, -, noInput⟩ := configureWrites_control writes
    refine keptInputs_of_same fun p => ?_
    rw [result, peek_goto, peek_issued, peek_store_other _ _ _ _ (noInput p).symm, State.peek_release]
  | field r writes w _ _ _ result =>
    obtain ⟨-, -, -, noInput⟩ := configureWrites_control writes
    refine keptInputs_of_same fun p => ?_
    rw [result, peek_goto, peek_issued, peek_store_other _ _ _ _ (noInput p).symm]
  | complete _ r writes w op d result =>
    obtain ⟨-, -, -, noInput⟩ := configureWrites_control writes
    have canonical' : ((s.store r w).issued .fg op none d).canonical := canonical_store s r w canonical
    rw [result]
    refine keptInputs_respond _ _ (keptInputs_of_peek (fun p => ?_) (keptInputs_configured pin mode canonical'.1))
    rw [peek_issued, peek_store_other _ _ _ _ (noInput p).symm]

/-- Completion leaves every pin but the one named an output or not, tied or not, and its input bit where it was (R135). -/
theorem configured_other (hs : s.formed) {p o : Nat} (other : p ≠ portOf pin ∨ o ≠ offsetOf pin) :
    (Cells.read (s.configured pin mode).asOutput p).getLsbD o = (Cells.read s.asOutput p).getLsbD o ∧
    ((s.configured pin mode).tied p).getLsbD o = (s.tied p).getLsbD o ∧
    ((s.configured pin mode).peek (.pinIn p)).getLsbD o = (s.peek (.pinIn p)).getLsbD o := by
  obtain ⟨-, e⟩ | ⟨-, e⟩ := configured_cases s pin mode <;> rw [e]
  · exact ⟨rfl, rfl, rfl⟩
  obtain ⟨⟨⟨wfSurface, -⟩, -, wfOutput, -⟩, loops⟩ := (formed_iff s).1 hs
  generalize hm : Cells.write s.asOutput (portOf pin) (Cells.read s.asOutput (portOf pin) ||| pinBit pin) = marked
  have output : (Cells.read marked p).getLsbD o = (Cells.read s.asOutput p).getLsbD o := by
    rw [← hm]
    exact read_write_bit wfOutput fun hp => by simp [pinBit_bit (other.resolve_left (absurd hp))]
  have tied : (({ s with asOutput := marked } : State).tied p).getLsbD o = (s.tied p).getLsbD o :=
    tied_bit_congr rfl rfl rfl output rfl
  rw [State.follow_asOutput, State.tied_follow]
  refine ⟨output, tied, peek_follow_bit_of_loops wfSurface fun hp ho => ?_⟩
  subst hp
  exact loops _ o (tied ▸ ho)

/-- A step of CONFIGURE leaves every pin but the one named alone; only the gates of `P1` may tie others (R68, R135). -/
theorem ConfigureStep.otherPins (h : ConfigureStep pin mode pull s t) (hs : s.formed) {p o : Nat}
    (other : p ≠ portOf pin ∨ o ≠ offsetOf pin) :
    (Cells.read t.asOutput p).getLsbD o = (Cells.read s.asOutput p).getLsbD o ∧
    (s.seq ≠ .p1 → (t.tied p).getLsbD o = (s.tied p).getLsbD o ∧
      (t.peek (.pinIn p)).getLsbD o = (s.peek (.pinIn p)).getLsbD o) := by
  have stored {r : Reg} (w : Word) (writes : configureWrites pin s r) :
      (∀ p, (s.store r w).tied p = s.tied p) ∧ ∀ p, (s.store r w).peek (.pinIn p) = s.peek (.pinIn p) := by
    obtain ⟨-, gates, -, noInput⟩ := configureWrites_control writes
    exact ⟨State.tied_congr (peek_store_other _ _ _ _ gates.symm) rfl rfl rfl rfl,
      fun p => peek_store_other _ _ _ _ (noInput p).symm⟩
  cases h with
  | opening h =>
    obtain ⟨-, -, -, -, outside⟩ := h.quiet
    have ⟨_, _, _, _, output, _⟩ := outside
    exact ⟨by rw [output], fun _ => ⟨by rw [outside.tied], by rw [outside.peek]⟩⟩
  | gate at_ result => exact ⟨by simp [result, configureGate, State.disturb], absurd at_⟩
  | release _ r writes w _ _ result =>
    obtain ⟨-, gates, -, noInput⟩ := configureWrites_control writes
    obtain ⟨⟨-, -, wfOutput, -⟩, -⟩ := (formed_iff s).1 hs
    have output : (Cells.read (s.release pin).asOutput p).getLsbD o = (Cells.read s.asOutput p).getLsbD o :=
      read_write_bit wfOutput fun hp => half_bit fun hlt => by
        rw [BitVec.getLsbD_and, BitVec.getLsbD_not, pinBit_bit (other.resolve_left (absurd hp))]
        simp [hlt]
    have gate : ((s.release pin).store r w).peek .clkenGpio = s.peek .clkenGpio := by
      rw [peek_store_other _ _ _ _ gates.symm, State.peek_release]
    rw [result, tied_goto, tied_issued, peek_goto, peek_issued, peek_store_other _ _ _ _ (noInput p).symm,
      State.peek_release]
    exact ⟨output, fun _ => ⟨tied_bit_congr gate rfl rfl output rfl, rfl⟩⟩
  | field r writes w _ _ _ result =>
    obtain ⟨tied, input⟩ := stored w writes
    rw [result, tied_goto, tied_issued, tied, peek_goto, peek_issued, input]
    exact ⟨rfl, fun _ => ⟨rfl, rfl⟩⟩
  | complete _ r writes w op d result =>
    obtain ⟨-, gates, -⟩ := configureWrites_control writes
    obtain ⟨tied, input⟩ := stored w writes
    have formed : ((s.store r w).issued .fg op none d).formed := formed_store w hs gates
    have kept := configured_other (mode := mode) formed other
    rw [tied_issued, tied, peek_issued, input] at kept
    rw [result, tied_respond, peek_respond]
    exact ⟨kept.1, fun _ => kept.2⟩

end

/-- Settles O31: a step of CONFIGURE writes the gates, a field or nothing, and only completion and the gates move input bits. -/
theorem configureFrame : Obligations.ConfigureFrame := by
  intro pin mode pull s t h
  have step := configureStep h
  obtain ⟨commands, units, latches, olat, driven⟩ := step.units
  obtain ⟨fatal, response⟩ := step.interface
  refine ⟨commands, units, latches, fatal, fun hs packed split => response hs (not_or.2 ⟨packed, split⟩),
    fun p => by rw [State.latch, State.latch, olat], driven,
    fun clear packed split => step.outputs clear (not_or.2 ⟨packed, split⟩), fun hs p o => step.otherPins hs, step.inputs,
    fun q gates packed mode pull otype inPacked inSplit => step.registers gates ?field ?input⟩
  case field => simp only [configureWrites, not_or]; exact ⟨packed, mode, pull, otype⟩
  case input =>
    rintro (⟨layout, at_⟩ | ⟨layout, at_⟩) hq
    · exact inPacked ⟨layout, at_, hq⟩
    · exact inSplit ⟨layout, at_, hq⟩

/-! ### DEVICEINIT (R140 to R142, R171) -/

/-- The operation is a write of the register. -/
def writesRegister (op : Instr) (r : Reg) : Prop :=
  ∃ m, op = .busSet r m ∨ op = .busSetBits r m ∨ op = .busClearBits r m

/-- What a micro-step of DEVICEINIT keeps in every state, whatever it writes. -/
def keptByProgram (s t : State) : Prop :=
  keptByCommands s t ∧ keptLatches s t ∧ keptFatal s t ∧ t.slStart = s.slStart ∧ t.slTarget = s.slTarget

/-- A micro-step of DEVICEINIT: one that writes no register (acceptance, a wait, an operation of the interrupt port), or a row's
write of its register, a trigger register at `T3` alone (R142, R171). -/
inductive ProgramStep (s t : State) : Prop
  | still (kept : keptByProgram s t) (prescaler : t.activePsc = s.activePsc) (outside : keptOutside s t)
  | write (row : InitRow) (mem : row ∈ initProgram s.cfg) (at_ : row.at_ = s.seq) (r : Reg) (op : writesRegister row.op r)
      (trigger : isPlain r = true ∨ r = .timEgr ∧ s.seq = .t3) (w d : Word) (q : Seq) (l : Life)
      (result : t = { ((s.writeReg r w).issued .fg row.op none d).goto q with life := l })

section
variable {s : State} {r : Reg} {m v : Word} {q : Seq}

theorem programStep_setBits_life (row : ⟨s.seq, .busSetBits r m, q, false⟩ ∈ initProgram s.cfg)
    (trigger : isPlain r = true ∨ r = .timEgr ∧ s.seq = .t3) (l : Life) :
    ProgramStep s { (s.busSetBits .fg r m).goto q with life := l } := by
  obtain ⟨w, e⟩ := busSetBits_eq_writeReg s .fg r m
  exact .write _ row rfl r ⟨m, .inr (.inl rfl)⟩ trigger w s.anyRdata q l (by rw [e])

theorem programStep_setBits (row : ⟨s.seq, .busSetBits r m, q, false⟩ ∈ initProgram s.cfg)
    (trigger : isPlain r = true ∨ r = .timEgr ∧ s.seq = .t3) : ProgramStep s ((s.busSetBits .fg r m).goto q) :=
  programStep_setBits_life row trigger _

theorem programStep_set (row : ⟨s.seq, .busSet r m, q, false⟩ ∈ initProgram s.cfg) (plain : isPlain r = true) :
    ProgramStep s ((s.busSet .fg r m).goto q) :=
  .write _ row rfl r ⟨m, .inl rfl⟩ (.inl plain) m s.anyRdata q _ rfl

theorem programStep_clearBits (row : ⟨s.seq, .busClearBits r m, q, false⟩ ∈ initProgram s.cfg) (plain : isPlain r = true) :
    ProgramStep s ((s.busClearBits .fg r m).goto q) := by
  obtain ⟨w, e⟩ := busClearBits_eq_writeReg s .fg r m
  exact .write _ row rfl r ⟨m, .inr (.inr rfl)⟩ (.inl plain) w s.anyRdata q _ (by rw [e])

theorem programStep_pollFlag : ProgramStep s (s.pollFlag r m q) := by
  unfold State.pollFlag
  dsimp only
  split <;> exact .still (by simp [keptByProgram, keptByCommands, keptLatches, keptFatal]) rfl (by simp [keptOutside])

theorem programStep_pollField : ProgramStep s (s.pollField r m v q) := by
  unfold State.pollField
  dsimp only
  split <;> exact .still (by simp [keptByProgram, keptByCommands, keptLatches, keptFatal]) rfl (by simp [keptOutside])

end

theorem programStep_refl (s : State) : ProgramStep s s :=
  .still (by simp [keptByProgram, keptByCommands, keptLatches, keptFatal]) rfl (by simp [keptOutside])

theorem programStep_clock (s : State) : ProgramStep s (clockStep s) := by
  unfold clockStep
  dsimp only
  split
  case h_6 | h_11 => exact programStep_pollFlag
  case h_16 => exact programStep_pollField
  case h_3 hs | h_7 hs | h_12 hs | h_14 hs | h_17 hs =>
    exact programStep_clearBits (by simp [initProgram, hs]) (by simp)
  case h_19 => exact programStep_refl s
  case h_18 hs => exact programStep_setBits_life (by simp [initProgram, hs]) (by simp) _
  all_goals
    rename_i hs
    exact programStep_setBits (by simp [initProgram, hs]) (by simp)

theorem programStep_timer (s : State) : ProgramStep s (timerStep s) := by
  unfold timerStep
  dsimp only
  split
  case h_1 hs | h_5 hs | h_6 hs => exact programStep_setBits (by simp [initProgram, hs]) (by simp)
  case h_2 hs | h_3 hs => exact programStep_set (by simp [initProgram, hs]) (by simp)
  case h_4 hs => exact programStep_setBits (by simp [initProgram, hs]) (.inr ⟨rfl, hs⟩)
  all_goals
    exact .still (by simp [keptByProgram, keptByCommands, keptLatches, keptFatal]) (by simp) (by simp [keptOutside])

theorem programStep_of_opening {s t : State} (h : Opening .deviceinit s t) (hs : s.seq ≠ .s1a) : ProgramStep s t := by
  obtain ⟨commands, ⟨-, start, target, -, -, -, -, prescaler⟩, latches, fatal, outside⟩ := h.quiet
  exact .still ⟨commands, latches, fatal hs, start, target⟩ prescaler outside

theorem programStep {s t : State} (h : execDeviceinit s = .next t) : ProgramStep s t := by
  obtain ⟨-, ⟨-, rfl⟩ | ⟨-, h⟩⟩ := execDeviceinit_cases h
  · exact programStep_refl _
  obtain ⟨hs, -, rfl⟩ | ⟨hs, -, rfl⟩ | ⟨-, -, rfl⟩ | ⟨-, -, rfl⟩ := h
  · exact programStep_of_opening (opening_accept _ _ hs) (by simp [hs])
  · exact programStep_of_opening (opening_turnAway _ _ _ _ hs) (by simp [hs])
  · exact programStep_timer s
  · exact programStep_clock s

/-- Neither a plain register nor `TIM_EGR` has latches behind it. -/
theorem olat_writeReg (s : State) {r : Reg} (w : Word) (h : isPlain r = true ∨ r = .timEgr) :
    (s.writeReg r w).olat = s.olat := by
  obtain plain | rfl := h
  · rw [writeReg_plain s r w plain, State.store_olat]
  · show (if w &&& s.cfg.mask.ug = 0 then s else s.forcedUpdate).olat = s.olat
    split <;> simp

/-- Settles O34: a row's write reaches the register the row names, and `TIM_EGR` beside it `TIM_SR` and the active prescaler. -/
theorem deviceinitFrame : Obligations.DeviceinitFrame := by
  intro s t h
  cases programStep h with
  | still kept prescaler outside =>
    obtain ⟨commands, latches, fatal, start, target⟩ := kept
    have ⟨_, _, olat, _, output, driven⟩ := outside
    exact ⟨commands, ⟨output, driven⟩, latches, fatal, start, target, olat, fun _ => prescaler,
      fun q _ _ => outside.peek q⟩
  | write row mem at_ r op trigger w d q l result =>
    have noLatch : ∀ p, ¬ (r = .outSet p ∨ r = .outReset p) := by
      rintro p (rfl | rfl) <;> simp [isPlain, isTrigger] at trigger
    subst result
    refine ⟨by simp [keptByCommands], by simp [keptPins], by simp [keptLatches], by simp [keptFatal], by simp, by simp,
      by simp [olat_writeReg s w (trigger.imp_right And.left)], fun elsewhere => ?prescaler,
      fun reg unwritten timer => ?registers⟩
    case prescaler =>
      have unforced : r ≠ .timEgr := by
        rintro rfl
        simp [isPlain, isTrigger, elsewhere] at trigger
      simp [activePsc_writeReg s w unforced]
    case registers =>
      refine peek_writeReg_other s w ?_ (fun e => timer ?_) fun p hp => absurd hp (noLatch p)
      · rintro rfl
        obtain ⟨m, op⟩ := op
        obtain ⟨notSet, notSetBits, notClearBits⟩ := unwritten row mem at_ m
        exact op.elim notSet (·.elim notSetBits notClearBits)
      · subst e
        simpa [isPlain, isTrigger] using trigger

/-! ### The timer status register (R219) -/

/-- A write of `TIM_EGR` sets `UIF` or leaves `TIM_SR` as it was (R46, R56). -/
theorem peek_timSr_writeReg_timEgr (s : State) (w : Word) :
    (s.writeReg .timEgr w).peek .timSr = s.peek .timSr ∨
    (s.formed → (s.writeReg .timEgr w).peek .timSr = s.peek .timSr ||| s.cfg.mask.uif) := by
  by_cases hug : w &&& s.cfg.mask.ug = 0
  · rw [show s.writeReg .timEgr w = s from if_pos hug]
    exact .inl rfl
  · rw [show s.writeReg .timEgr w = s.forcedUpdate from if_neg hug]
    unfold State.forcedUpdate
    split
    · exact .inr fun hs => State.peek_poke_same s _ _ hs.canonical.1
    · exact .inl rfl

/-- No row of the program writes `TIM_SR` (R219). -/
theorem initProgram_spares_timSr {v : Variant} {row : InitRow} (h : row ∈ initProgram v) :
    ¬ writesRegister row.op .timSr := by
  revert row
  simp [initProgram, writesRegister]

theorem timSr_deviceinit {s t : State} (h : execDeviceinit s = .next t) :
    t.peek .timSr = s.peek .timSr ∨ s.seq = .t3 ∧ (s.formed → t.peek .timSr = s.peek .timSr ||| s.cfg.mask.uif) := by
  cases programStep h with
  | still _ _ outside => exact .inl (outside.peek _)
  | write row mem at_ r op trigger w d q l result =>
    subst result
    obtain plain | ⟨rfl, ht⟩ := trigger
    · have apart : .timSr ≠ r := by
        rintro rfl
        exact initProgram_spares_timSr mem op
      rw [writeReg_plain s r w plain]
      exact .inl (peek_store_other s r .timSr w apart)
    · exact (peek_timSr_writeReg_timEgr s w).imp_right fun flag => ⟨ht, flag⟩

/-- Settles O41: by the frames of the pin commands and of DEVICEINIT; TICKS and SLEEPTICKS write no register. -/
theorem commandsNeverWriteTheTimerStatus : Obligations.CommandsNeverWriteTheTimerStatus := by
  intro i s t hc h
  obtain ⟨⟨-, -, hwake, htick, -⟩, -⟩ := exec_command_cases hc h
  refine ⟨htick, hwake, ?_⟩
  have access {pin : Byte} {level : Bool} (hi : i = .set pin level ∨ i = .high pin ∨ i = .low pin ∨ i = .get pin) :
      t.peek .timSr = s.peek .timSr := by
    obtain ⟨-, -, -, -, registers, -⟩ := pinAccessFrame i pin level s t hi h
    exact registers _ nofun
  cases i with
  | set pin level => exact .inl (access (.inl rfl))
  | high pin => exact .inl (access (level := true) (.inr (.inl rfl)))
  | low pin => exact .inl (access (level := true) (.inr (.inr (.inl rfl))))
  | get pin => exact .inl (access (level := true) (.inr (.inr (.inr rfl))))
  | configure pin mode pull =>
    refine .inl ((configureStep h).registers (by simp) (fun writes => ?_) fun _ => nofun)
    obtain ⟨-, -, other, -⟩ := configureWrites_control writes
    exact other rfl
  | deviceinit => exact (timSr_deviceinit h).imp_right fun flag => ⟨rfl, flag⟩
  | ticks =>
    left
    obtain ⟨-, ⟨-, rfl⟩ | ⟨-, ⟨hs, rfl⟩ | ⟨-, rfl⟩ | ⟨-, -, rfl⟩⟩⟩ := execTicks_cases h
    case inr.inl =>
      obtain ⟨-, -, -, -, outside⟩ := (opening_accept .ticks .k0 hs).quiet
      exact outside.peek _
    all_goals rfl
  | sleepticks d =>
    left
    obtain ⟨-, ⟨-, rfl⟩ | ⟨-, ⟨hs, rfl⟩ | ⟨-, rfl⟩ | ⟨-, -, rfl⟩ | ⟨-, -, rfl⟩ | ⟨-, -, -, rfl⟩⟩⟩ := execSleepticks_cases h
    case inr.inl =>
      obtain ⟨-, -, -, -, outside⟩ := (opening_accept (.sleepticks d) .l0 hs).quiet
      exact outside.peek _
    all_goals rfl
  | _ => cases hc

end Sys2Proof.Machine

/-! PROOFS. The encoding (30_encoding): the decoder and the encoder of the three ports are inverse to each other, the command
decoder is the opcode map of R95, and what acceptance, a busy block and an illegal word mean for the step. -/
namespace Sys2Proof.Machine

/-! ### Registers and their ordinals (R101) -/

theorem ofSlot_eq_none_iff (p k : Nat) : Reg.ofSlot p k = none ↔ 6 ≤ k := by
  match k with
  | 0 | 1 | 2 | 3 | 4 | 5 => simp [Reg.ofSlot]
  | _ + 6 => simp [Reg.ofSlot]

/-- The ordinals from 16 on are the ports', eight to a port. -/
theorem ofOrdinal_of_port {n : Nat} (low : 16 ≤ n) (high : n < 144) :
    Reg.ofOrdinal n = Reg.ofSlot ((n - 16) / 8) ((n - 16) % 8) := by
  unfold Reg.ofOrdinal
  split
  case h_16 => exact if_pos ⟨low, high⟩
  all_goals omega

theorem ofOrdinal_beyond {n : Nat} (h : 144 ≤ n) : Reg.ofOrdinal n = none := by
  unfold Reg.ofOrdinal
  split
  case h_16 => exact if_neg (by omega)
  all_goals omega

theorem ofOrdinal_slot {p k : Nat} (hp : p < 16) (hk : k < 8) : Reg.ofOrdinal (16 + 8 * p + k) = Reg.ofSlot p k := by
  rw [ofOrdinal_of_port (by omega) (by omega)]
  congr 1 <;> omega

/-- The unused ordinals: 15, the last two of each port's block, and those past the last port. -/
theorem ofOrdinal_eq_none_iff (n : Nat) :
    Reg.ofOrdinal n = none ↔ n = 15 ∨ 144 ≤ n ∨ 16 ≤ n ∧ 6 ≤ n % 8 := by
  obtain chip | low := Nat.lt_or_ge n 16
  · revert n
    decide
  obtain port | beyond := Nat.lt_or_ge n 144
  · rw [ofOrdinal_of_port low port, ofSlot_eq_none_iff]
    omega
  · simp [ofOrdinal_beyond beyond, beyond]

theorem ofOrdinal_ordinal {r : Reg} (hr : r.wf = true) : Reg.ofOrdinal r.ordinal = some r := by
  cases r with
  | ctlA p => exact ofOrdinal_slot (k := 0) (of_decide_eq_true hr) (by decide)
  | ctlB p | outType p | outSet p | outReset p | pinIn p => exact ofOrdinal_slot (of_decide_eq_true hr) (by decide)
  | _ => rfl

theorem wf_and_ordinal_of_ofSlot {p k : Nat} {r : Reg} (hp : p < 16) (h : Reg.ofSlot p k = some r) :
    r.wf = true ∧ r.ordinal = 16 + 8 * p + k := by
  unfold Reg.ofSlot at h
  split at h <;> cases h <;> exact ⟨decide_eq_true hp, rfl⟩

theorem wf_and_ordinal_of_ofOrdinal {n : Nat} {r : Reg} (h : Reg.ofOrdinal n = some r) : r.wf = true ∧ r.ordinal = n := by
  unfold Reg.ofOrdinal at h
  split at h
  case h_16 =>
    split at h
    · obtain ⟨hr, ho⟩ := wf_and_ordinal_of_ofSlot (by omega) h
      exact ⟨hr, by omega⟩
    · cases h
  all_goals
    cases h
    exact ⟨rfl, rfl⟩

/-- Eight lines are enough for every ordinal in use. -/
theorem lines_toNat {r : Reg} (hr : r.wf = true) : r.lines.toNat = r.ordinal := by
  have used : ¬ 144 ≤ r.ordinal := fun beyond => by simpa [ofOrdinal_ordinal hr] using ofOrdinal_beyond beyond
  rw [Reg.lines, BitVec.toNat_ofNat]
  exact Nat.mod_eq_of_lt (by omega)

theorem decodeReg_lines {r : Reg} (hr : r.wf = true) (mk : Reg → Instr) : decodeReg r.lines mk = .ok (mk r) := by
  simp [decodeReg, lines_toNat hr, ofOrdinal_ordinal hr]

theorem decodeReg_eq_ok {reg : Byte} {mk : Reg → Instr} {i : Instr} (h : decodeReg reg mk = .ok i) :
    ∃ r, r.wf = true ∧ r.lines = reg ∧ mk r = i := by
  unfold decodeReg at h
  split at h
  · rename_i r found
    obtain ⟨hr, ho⟩ := wf_and_ordinal_of_ofOrdinal found
    exact ⟨r, hr, BitVec.eq_of_toNat_eq ((lines_toNat hr).trans ho), Except.ok.inj h⟩
  · cases h

theorem decodeReg_error_iff (reg : Byte) (mk : Reg → Instr) :
    (∃ e, decodeReg reg mk = .error e) ↔ Reg.ofOrdinal reg.toNat = none := by
  unfold decodeReg
  split <;> simp [*]

/-! ### The encoder, read back (R91, R100, R102) -/

theorem encode_command {i : Instr} (hc : isCommand i = true) : encode i = .command i.commandWord (i.dataOperand 0) := by
  cases i with
  | configure | set | get | high | low | deviceinit | ticks | sleepticks => rfl
  | _ => cases hc

theorem decode_encode_transaction {i : Instr} (hi : i.wf = true) (hc : isCommand i = false) :
    decode (encode i) = .ok i := by
  cases i with
  | busGet r | busSet r | busSetBits r | busClearBits r | busHasBits r => exact decodeReg_lines hi _
  | intcRegister | intcSetPriority | intcEnable => rfl
  | _ => cases hc

/-- Settles O1: a command's fields stand in its word where the decoder reads them, and a register's ordinal on the `REG` lines. -/
theorem decodeInvertsEncode : Obligations.DecodeInvertsEncode := by
  intro i hi
  cases hc : isCommand i with
  | true =>
    rw [encode_command hc]
    exact decodeCommand_commandWord hc 0
  | false => exact decode_encode_transaction hi hc

/-! ### The decoder, written back (R91, R92, R97) -/

@[simp] theorem requireZero_eq_ok_iff (z : Bool) (j i : Instr) : requireZero z j = .ok i ↔ z = true ∧ j = i := by
  cases z <;> simp [requireZero]

/-- A word is its fields. -/
theorem packCommand_of_fields {cw : Word} {op : BitVec 4} {pin mode pull : Byte} (hop : (opField cw).toNat = op.toNat)
    (zero : zeroField cw = 0) (hpin : pinField cw = pin) (hmode : modeField cw = mode) (hpull : pullField cw = pull) :
    packCommand op pin mode pull = cw := by
  obtain rfl : opField cw = op := BitVec.eq_of_toNat_eq hop
  subst hpin hmode hpull
  unfold packCommand
  rw [← BitVec.ofNat_eq_ofNat, ← zero]
  unfold opField zeroField pinField modeField pullField
  iterate 4 rw [BitVec.extractLsb'_append_extractLsb'_eq_extractLsb' (by decide)]
  exact BitVec.extractLsb'_eq_self

/-- Where `CW[7:1]` is zero, the byte `CW[7:0]` is the level (R92). -/
theorem pullField_of_pullHigh {cw : Word} (h : pullHigh cw = 0) : pullField cw = levelByte (cw.getLsbD 0) := by
  have parts : pullHigh cw ++ cw.extractLsb' 0 1 = pullField cw :=
    BitVec.extractLsb'_append_extractLsb'_eq_extractLsb' rfl
  have level : cw.extractLsb' 0 1 = BitVec.ofBool (cw.getLsbD 0) := by
    ext k hk
    obtain rfl : k = 0 := by omega
    simp
  rw [← parts, h, level]
  cases cw.getLsbD 0 <;> rfl

/-- A word that decodes is the word of the command it decodes to, and where the format ignores `DIN` any operand does. -/
theorem commandWord_of_decodeCommand {cw : Word} {din : TimeUnit} {i : Instr} (h : decodeCommand cw din = .ok i) :
    i.commandWord = cw ∧ i.dataOperand din = din := by
  unfold decodeCommand at h
  dsimp only at h
  split at h
  case h_9 => cases h
  all_goals
    rename_i hop
    simp only [requireZero_eq_ok_iff, Bool.and_eq_true, beq_iff_eq, and_assoc] at h
  case h_1 =>
    obtain ⟨zero, rfl⟩ := h
    exact ⟨packCommand_of_fields hop zero rfl rfl rfl, rfl⟩
  case h_2 =>
    obtain ⟨zero, mode, pull, rfl⟩ := h
    exact ⟨packCommand_of_fields hop zero rfl mode (pullField_of_pullHigh pull), rfl⟩
  case h_3 | h_4 | h_5 =>
    obtain ⟨zero, mode, pull, rfl⟩ := h
    exact ⟨packCommand_of_fields hop zero rfl mode pull, rfl⟩
  case h_6 | h_7 | h_8 =>
    obtain ⟨zero, pin, mode, pull, rfl⟩ := h
    exact ⟨packCommand_of_fields hop zero pin mode pull, rfl⟩

theorem eq_ofNat_of_toNat {w n : Nat} {x : BitVec w} (h : x.toNat = n) : x = BitVec.ofNat w n := by
  rw [← h, BitVec.ofNat_toNat, BitVec.setWidth_eq]

theorem encode_of_decodePort_bus {bop : BitVec 3} {reg : Byte} {wdata : Word} {i : Instr}
    (h : decodePort (.bus bop reg wdata) = .ok i) :
    i.wf = true ∧ encode i = .port (.bus bop reg (if bop = 0 then 0 else wdata)) := by
  unfold decodePort at h
  dsimp only at h
  split at h
  case h_6 => cases h
  all_goals
    rename_i code
    obtain ⟨r, hr, rfl, rfl⟩ := decodeReg_eq_ok h
    obtain rfl := eq_ofNat_of_toNat code
    exact ⟨hr, rfl⟩

theorem encode_of_decodePort_intc {iop : BitVec 2} {arg : Nat} {i : Instr} (h : decodePort (.intc iop arg) = .ok i) :
    encode i = .port (.intc iop (if iop = 2 then 0 else arg)) := by
  unfold decodePort at h
  dsimp only at h
  split at h
  case h_4 => cases h
  all_goals
    rename_i code
    obtain rfl := eq_ofNat_of_toNat code
    cases h
    rfl

/-- Settles O2: by the rows of the three decoders. -/
theorem encodeInvertsDecode : Obligations.EncodeInvertsDecode :=
  ⟨fun _ _ _ h => ⟨decodeCommand_kind h, commandWord_of_decodeCommand h⟩,
    fun _ _ _ _ h => ⟨decodePort_kind h, encode_of_decodePort_bus h⟩,
    fun _ _ _ h => ⟨decodePort_kind h, encode_of_decodePort_intc h⟩⟩

/-! ### The opcode map (R95) -/

/-- A field that the mask of a row covers has the value the row's match value has there. -/
theorem field_of_match {cw mask pattern : Word} {lo n : Nat} {v : BitVec n} (h : cw &&& mask = pattern)
    (covered : mask.extractLsb' lo n = BitVec.allOnes n) (value : pattern.extractLsb' lo n = v) :
    cw.extractLsb' lo n = v := by
  rw [← value, ← h, BitVec.extractLsb'_and, covered, BitVec.and_allOnes]

/-- Every mask covers `OP` and the zero bits `CW[27:24]` (R91). -/
theorem commandTable_covers {row : CommandRow} (mem : row ∈ commandTable) :
    opField row.mask = BitVec.allOnes 4 ∧ zeroField row.mask = BitVec.allOnes 4 ∧ zeroField row.pattern = 0 := by
  revert row
  decide

theorem decodes_of_match {cw : Word} (din : TimeUnit) {row : CommandRow} (mem : row ∈ commandTable)
    (h : cw &&& row.mask = row.pattern) : ∃ i, decodeCommand cw din = .ok i ∧ mnemonicOf i = row.mnemonic := by
  obtain ⟨opCovered, zeroCovered, zeroValue⟩ := commandTable_covers mem
  have op : (opField cw).toNat = (opField row.pattern).toNat := congrArg _ (field_of_match h opCovered rfl)
  have zero : zeroField cw = 0 := field_of_match h zeroCovered zeroValue
  have whole (covered : row.mask = BitVec.allOnes 32) : row.pattern = cw := by rw [← h, covered, BitVec.and_allOnes]
  have decodes {i : Instr} (hc : isCommand i = true) (hd : i.dataOperand din = din) (hw : i.commandWord = cw) :
      decodeCommand cw din = .ok i := by
    rw [← hw, ← hd]
    exact decodeCommand_commandWord hc din
  simp only [commandTable, List.mem_cons, List.not_mem_nil, or_false] at mem
  obtain rfl | rfl | rfl | rfl | rfl | rfl | rfl | rfl := mem
  · exact ⟨.configure _ _ _, decodes rfl rfl (packCommand_of_fields op zero rfl rfl rfl), rfl⟩
  · exact ⟨.set _ _, decodes rfl rfl (packCommand_of_fields op zero rfl (field_of_match h rfl rfl)
      (pullField_of_pullHigh (field_of_match h rfl rfl))), rfl⟩
  · exact ⟨.get _, decodes rfl rfl (packCommand_of_fields op zero rfl (field_of_match h rfl rfl)
      (field_of_match h rfl rfl)), rfl⟩
  · exact ⟨.high _, decodes rfl rfl (packCommand_of_fields op zero rfl (field_of_match h rfl rfl)
      (field_of_match h rfl rfl)), rfl⟩
  · exact ⟨.low _, decodes rfl rfl (packCommand_of_fields op zero rfl (field_of_match h rfl rfl)
      (field_of_match h rfl rfl)), rfl⟩
  · exact ⟨.deviceinit, decodes rfl rfl (whole rfl), rfl⟩
  · exact ⟨.ticks, decodes rfl rfl (whole rfl), rfl⟩
  · exact ⟨.sleepticks din, decodes rfl rfl (whole rfl), rfl⟩

theorem row_of_command {i : Instr} (hc : isCommand i = true) :
    ∃ row ∈ commandTable, row.mnemonic = mnemonicOf i ∧ i.commandWord &&& row.mask = row.pattern := by
  cases i with
  | configure pin mode pull => exact Laws.EncodedRow.configure pin mode pull
  | set pin level => exact Laws.EncodedRow.set pin level
  | get pin => exact Laws.EncodedRow.get pin
  | high pin => exact Laws.EncodedRow.high pin
  | low pin => exact Laws.EncodedRow.low pin
  | deviceinit => exact Laws.EncodedRow.deviceinit
  | ticks => exact Laws.EncodedRow.ticks
  | sleepticks d => exact Laws.EncodedRow.sleepticks d
  | _ => cases hc

/-- Settles O3: a command's word matches its own row, a word that matches a row decodes to that row's command, and as the decoder
answers one command, two rows it matches are one. -/
theorem decodesExactlyByTheOpcodeMap : Obligations.DecodesExactlyByTheOpcodeMap := by
  intro cw din
  refine ⟨⟨?decodes, ?selected⟩, fun row mem h => decodes_of_match din mem h, ?disjoint⟩
  case decodes =>
    rintro ⟨i, h⟩
    obtain ⟨row, mem, -, hits⟩ := row_of_command (decodeCommand_kind h)
    exact ⟨row, mem, (commandWord_of_decodeCommand h).1 ▸ hits⟩
  case selected =>
    rintro ⟨row, mem, h⟩
    obtain ⟨i, decoded, -⟩ := decodes_of_match din mem h
    exact ⟨i, decoded⟩
  case disjoint =>
    intro row mem other mem' h h'
    obtain ⟨i, decoded, name⟩ := decodes_of_match din mem h
    obtain ⟨j, decoded', name'⟩ := decodes_of_match din mem' h'
    obtain rfl : i = j := Except.ok.inj (decoded.symm.trans decoded')
    have named : ∀ row ∈ commandTable, ∀ other ∈ commandTable, row.mnemonic = other.mnemonic → row = other := by decide
    exact named row mem other mem' (name.symm.trans name')

/-! ### Acceptance (R93, R97) -/

theorem mayAccept_iff (s : State) :
    s.mayAccept = true ↔ s.busy = false ∧ s.fatal = false ∧ s.seq = .idle ∧ s.inIsr = false := by
  simp [State.mayAccept, and_assoc]

theorem foreground_live {s : State} (k : State → Result) (live : s.halted = false) (fg : s.inIsr = false) :
    foreground s k = k s := by
  simp [foreground, live, fg]

/-- The first step of a command is its acceptance; DEVICEINIT is turned away where `LIFE` is not `Uninitialized` (R141). -/
theorem exec_accepts {i : Instr} {s : State} (hc : isCommand i = true) (live : s.halted = false) (fg : s.inIsr = false)
    (waiting : s.seq = .idle) (first : i = .deviceinit → s.life = .uninitialized) :
    exec i s = .next (s.accept i (firstStep i)) := by
  cases i with
  | configure | get | ticks | sleepticks =>
    simp [exec, execConfigure, execGet, execTicks, execSleepticks, foreground_live, live, fg, waiting, firstStep]
  | set | high | low => simp [exec, execSet, execHigh, execLow, drivePin, foreground_live, live, fg, waiting, firstStep]
  | deviceinit => simp [exec, execDeviceinit, foreground_live, live, fg, waiting, first, firstStep]
  | _ => cases hc

/-- Settles O6: the step is the command's first, and the word it latches is the one offered. -/
theorem offeredCommandIsAccepted : Obligations.OfferedCommandIsAccepted := by
  intro s rest i port moves accepting valid decoded first
  obtain ⟨busy, fatal, waiting, fg⟩ := (mayAccept_iff s).1 accepting
  obtain ⟨word, operand⟩ := commandWord_of_decodeCommand decoded
  rw [step_of_turn port (.inl moves), coreTurn_accepts (s := { s with moves := rest }) accepting valid decoded,
    exec_accepts (s := { s with moves := rest }) (decodeCommand_kind decoded) (by simp [State.halted, fatal, waiting]) fg
      waiting first]
  simp [State.accept, State.latchCommand, State.goto, busy, word, operand]

theorem coreTurn_rejects {s : State} {e : DecodeError} (accepting : s.mayAccept = true) (valid : s.cmdValid = true)
    (undecoded : decodeCommand s.cwIn s.dinIn = .error e) : coreTurn s = .next (rejectWord s) := by
  obtain ⟨-, fatal, waiting, fg⟩ := (mayAccept_iff s).1 accepting
  simp [coreTurn, State.halted, fatal, waiting, fg, idleTurn, valid, undecoded]

/-- Settles O8: a word that matches no row does not decode, and is turned away. -/
theorem illegalWordCompletesAtOnce : Obligations.IllegalWordCompletesAtOnce := by
  intro s rest port moves accepting valid noRow
  obtain ⟨busy, -, waiting, -⟩ := (mayAccept_iff s).1 accepting
  obtain ⟨decodes, -⟩ := decodesExactlyByTheOpcodeMap s.cwIn s.dinIn
  cases decoded : decodeCommand s.cwIn s.dinIn with
  | ok i =>
    obtain ⟨row, mem, hits⟩ := decodes.1 ⟨i, decoded⟩
    exact absurd hits (noRow row mem)
  | error e =>
    rw [step_of_turn port (.inl moves), coreTurn_rejects (s := { s with moves := rest }) accepting valid decoded]
    simp [rejectWord, State.turnAway, State.latchCommand, State.respond, statusIllegal, busy, waiting]

/-! ### A busy block (R93) -/

/-- No command writes the variant, the service, the host's inputs, the request lines, the wiring or the moves. -/
theorem exec_keptByCommands {i : Instr} {s t : State} (hc : isCommand i = true) (h : exec i s = .next t) :
    keptByCommands s t := by
  have access {pin : Byte} {level : Bool} (hi : i = .set pin level ∨ i = .high pin ∨ i = .low pin ∨ i = .get pin) :
      keptByCommands s t := (pinAccessFrame i pin level s t hi h).1
  cases i with
  | set pin level => exact access (.inl rfl)
  | high pin => exact access (level := true) (.inr (.inl rfl))
  | low pin => exact access (level := true) (.inr (.inr (.inl rfl)))
  | get pin => exact access (level := true) (.inr (.inr (.inr rfl)))
  | configure pin mode pull => exact (configureStep h).units.1
  | deviceinit => exact (deviceinitFrame s t h).1
  | ticks =>
    obtain ⟨-, ⟨-, rfl⟩ | ⟨-, ⟨hs, rfl⟩ | ⟨-, rfl⟩ | ⟨-, -, rfl⟩⟩⟩ := execTicks_cases h
    case inr.inl => exact (opening_accept .ticks .k0 hs).quiet.1
    all_goals simp [keptByCommands]
  | sleepticks d =>
    obtain ⟨-, ⟨-, rfl⟩ | ⟨-, ⟨hs, rfl⟩ | ⟨-, rfl⟩ | ⟨-, -, rfl⟩ | ⟨-, -, rfl⟩ | ⟨-, -, -, rfl⟩⟩⟩ := execSleepticks_cases h
    case inr.inl => exact (opening_accept (.sleepticks d) .l0 hs).quiet.1
    all_goals simp [keptByCommands]
  | _ => cases hc

/-- The command latches, the offer and the host's inputs. -/
def keptOffer (s t : State) : Prop :=
  t.cw = s.cw ∧ t.din = s.din ∧ t.cmdValid = s.cmdValid ∧ t.cwIn = s.cwIn ∧ t.dinIn = s.dinIn

theorem isrStep_keptOffer (s : State) : keptOffer s (isrStep s) := by
  obtain ⟨-, -, e⟩ | ⟨-, -, e⟩ | ⟨-, e⟩ | ⟨-, e⟩ | ⟨-, e⟩ | ⟨-, e⟩ := isrStep_cases s <;> simp [e, keptOffer]

theorem rejectWord_busy {s : State} (busy : s.busy = true) : rejectWord s = s := if_pos busy

theorem exec_keptOffer {i : Instr} {s t : State} (hc : isCommand i = true) (busy : s.busy = true)
    (h : exec i s = .next t) : keptOffer s t := by
  obtain ⟨-, -, -, -, -, cwIn, dinIn, -⟩ := exec_keptByCommands hc h
  obtain ⟨-, rfl | ⟨-, hstep⟩⟩ := exec_command_cases hc h
  · simp [keptOffer]
  obtain ⟨-, idle, -⟩ | ⟨-, idle, -⟩ | ⟨-, -, _, -, ⟨-, rfl⟩ | ⟨-, -, rfl⟩⟩ |
    ⟨-, -, -, -, -, -, -, cw, din, valid, -⟩ | ⟨-, -, -, -, -, cw, din, valid, -⟩ := hstep
  · simp [busy] at idle
  · simp [busy] at idle
  · simp [keptOffer]
  · simp [keptOffer]
  · exact ⟨cw, din, valid, cwIn, dinIn⟩
  · exact ⟨cw, din, valid, cwIn, dinIn⟩

/-- Settles O7: the service has nothing to do with the offer, and no command's step takes it while the block is busy. -/
theorem busyBlockAcceptsNothing : Obligations.BusyBlockAcceptsNothing := by
  intro s t rest port moves busy h
  rw [step_of_turn port (.inl moves)] at h
  show keptOffer { s with moves := rest } t
  obtain ⟨-, ⟨-, rfl⟩ | ⟨-, -, -, rfl⟩ | ⟨-, -, -, -, rfl⟩ | ⟨-, -, -, i, decoded, run⟩ | ⟨-, -, i, decoded, run⟩⟩ :=
    coreTurn_cases h
  · exact isrStep_keptOffer _
  · simp [keptOffer]
  · simp [keptOffer, rejectWord_busy (s := { s with moves := rest }) busy]
  · exact exec_keptOffer (decodeCommand_kind decoded) busy run
  · exact exec_keptOffer (decodeCommand_kind decoded) busy run

/-! ### Every step answers, stops as halted, or refuses at `P0` (R97, R128, R203) -/

/-- The result answers a next state, or is one of the two stops of a run. -/
def answers (s : State) (r : Result) : Prop :=
  (∃ t, r = .next t) ∨ (s.fatal = true ∧ r = .fault .halted) ∨ (s.seq = .p0 ∧ r = .refused .outsideEnumeration)

theorem answers_next (s t : State) : answers s (.next t) := .inl ⟨t, rfl⟩

theorem answers_foreground {s : State} {k : State → Result} (live : s.halted = false) (h : answers s (k s)) :
    answers s (foreground s k) := by
  cases fg : s.inIsr with
  | false => rwa [foreground_live k live fg]
  | true => simp [foreground, live, fg, answers_next]

theorem answers_pinCheck {pin : Byte} {s : State} {k : State → Result} (h : answers s (k s)) :
    answers s (pinCheck pin s k) := by
  unfold pinCheck
  split
  · exact answers_next _ _
  split
  · exact h
  · exact answers_next _ _

theorem answers_drivePin (j : Instr) (pin : Byte) (level : Bool) {s : State} (live : s.halted = false) :
    answers s (drivePin j pin level s) := by
  refine answers_foreground live ?_
  dsimp only
  split
  case h_2 => exact answers_pinCheck (answers_next _ _)
  all_goals exact answers_next _ _

theorem answers_get (pin : Byte) {s : State} (live : s.halted = false) : answers s (execGet pin s) := by
  refine answers_foreground live ?_
  dsimp only
  split
  case h_2 => exact answers_pinCheck (answers_next _ _)
  all_goals exact answers_next _ _

theorem answers_configure (pin mode pull : Byte) {s : State} (live : s.halted = false) :
    answers s (execConfigure pin mode pull s) := by
  refine answers_foreground live ?_
  split
  case h_2 check =>
    refine answers_pinCheck ?_
    split
    · exact answers_next _ _
    · exact .inr (.inr ⟨check, rfl⟩)
  all_goals exact answers_next _ _

theorem answers_deviceinit {s : State} (live : s.halted = false) : answers s (execDeviceinit s) := by
  refine answers_foreground live ?_
  split
  case h_1 => split <;> exact answers_next _ _
  all_goals exact answers_next _ _

theorem answers_ticks {s : State} (live : s.halted = false) : answers s (execTicks s) := by
  refine answers_foreground live ?_
  split <;> exact answers_next _ _

theorem answers_sleepticks (d : TimeUnit) {s : State} (live : s.halted = false) : answers s (execSleepticks d s) := by
  refine answers_foreground live ?_
  split
  case h_3 => split <;> exact answers_next _ _
  all_goals exact answers_next _ _

theorem answers_command {i : Instr} {s : State} (hc : isCommand i = true) (live : s.halted = false) :
    answers s (exec i s) := by
  cases i with
  | configure pin mode pull => exact answers_configure pin mode pull live
  | set pin level => exact answers_drivePin _ pin level live
  | high pin => exact answers_drivePin _ pin true live
  | low pin => exact answers_drivePin _ pin false live
  | get pin => exact answers_get pin live
  | deviceinit => exact answers_deviceinit live
  | ticks => exact answers_ticks live
  | sleepticks d => exact answers_sleepticks d live
  | _ => cases hc

theorem answers_idleTurn {s : State} (live : s.halted = false) : answers s (idleTurn s) := by
  unfold idleTurn
  split
  · split
    · exact answers_command (decodeCommand_kind ‹_›) live
    · exact answers_next _ _
  · exact answers_next _ _

/-- Inside a command `CW` holds it (R26), so that `busyTurn` finds it. -/
theorem answers_coreTurn {s : State} (hs : s.sequenced) : answers s (coreTurn s) := by
  obtain ⟨-, hfatal, -, -, -, -, command⟩ := hs
  unfold coreTurn
  split
  case isTrue halted =>
    have fatal : s.fatal = true := by simpa [State.halted, ← hfatal] using halted
    exact .inr (.inl ⟨fatal, rfl⟩)
  rename_i live
  replace live : s.halted = false := by simpa using live
  split
  · exact answers_next _ _
  split
  · exact answers_idleTurn live
  · rename_i busy
    have running : s.seq ≠ .halt := fun halt => by simp [State.halted, halt] at live
    obtain ⟨i, decoded, -⟩ := command busy running
    rw [busyTurn, decoded]
    exact answers_command (decodeCommand_kind decoded) live

/-- Settles O60: a move and an entry always answer, and a turn of the block does but for the two stops. -/
theorem stepNeverGetsStuck : Obligations.StepNeverGetsStuck := by
  intro s hs port
  show answers s (step s)
  rw [step, port]
  dsimp only
  unfold moveTurn
  split
  · split
    · exact answers_next _ _
    · exact answers_coreTurn hs
  · rename_i rest _
    exact answers_coreTurn (s := { s with moves := rest }) hs
  · exact answers_next _ _

/-! ### Sample words, and where transactions stop (R100 to R103, R203) -/

/-- Settles O4: by evaluating the decoder. -/
theorem sampleWordsDecode : Obligations.SampleWordsDecode := by
  unfold Obligations.SampleWordsDecode
  decide

theorem decodePort_bus_error_iff (bop : BitVec 3) (reg : Byte) (wdata : Word) :
    (∃ e, decodePort (.bus bop reg wdata) = .error e) ↔
      5 ≤ bop.toNat ∨ reg.toNat = 15 ∨ 144 ≤ reg.toNat ∨ 16 ≤ reg.toNat ∧ 6 ≤ reg.toNat % 8 := by
  rw [← ofOrdinal_eq_none_iff]
  unfold decodePort
  dsimp only
  generalize bop.toNat = code
  match code with
  | 0 | 1 | 2 | 3 | 4 => simp [decodeReg_error_iff]
  | _ + 5 => simp

theorem decodePort_intc_error_iff (iop : BitVec 2) (arg : Nat) :
    (∃ e, decodePort (.intc iop arg) = .error e) ↔ iop = 3 := by
  have lines := iop.isLt
  rw [BitVec.toNat_eq]
  unfold decodePort
  dsimp only
  generalize iop.toNat = code at lines
  match code with
  | 0 | 1 | 2 | 3 => simp
  | _ + 4 => omega

theorem step_of_undecoded {s : State} {lines : PortLines} (port : s.portReq = some lines)
    (undecoded : ∃ e, decodePort lines = .error e) : step s = .refused .neverIssued := by
  obtain ⟨e, h⟩ := undecoded
  simp [step, port, portTurn, h]

theorem exec_intc_halted {n : Nat} {i : Instr} {s : State}
    (hi : i = .intcRegister n ∨ i = .intcSetPriority n ∨ i = .intcEnable) (halted : s.halted = true) : exec i s = .fault .halted := by
  obtain rfl | rfl | rfl := hi <;> exact if_pos halted

/-- The five bus transactions are steps of `busStep`. -/
theorem exec_bus {r : Reg} {v : Word} {i : Instr} {s : State}
    (hi : i = .busGet r ∨ i = .busSet r v ∨ i = .busSetBits r v ∨ i = .busClearBits r v ∨ i = .busHasBits r v) :
    ∃ k, exec i s = busStep r s k := by
  obtain rfl | rfl | rfl | rfl | rfl := hi
  · exact ⟨fun s => (s.busGet s.agent r).2, rfl⟩
  · exact ⟨fun s => (s.busSet s.agent r v).disturb r, rfl⟩
  · exact ⟨fun s => (s.busSetBits s.agent r v).disturb r, rfl⟩
  · exact ⟨fun s => (s.busClearBits s.agent r v).disturb r, rfl⟩
  · exact ⟨fun s => (s.busHasBits s.agent r v).2, rfl⟩

/-- Settles O18: by the decoder of the ports and the guards of a transaction. -/
theorem transactionsStopByName : Obligations.TransactionsStopByName := by
  refine ⟨fun s bop reg wdata => ⟨decodePort_bus_error_iff bop reg wdata, step_of_undecoded⟩,
    fun s iop arg => ⟨decodePort_intc_error_iff iop arg,
      fun port h => step_of_undecoded port ((decodePort_intc_error_iff iop arg).2 h)⟩,
    fun n i s => exec_intc_halted, fun r v i s hi => ?bus⟩
  obtain ⟨k, run⟩ := exec_bus (s := s) hi
  rw [run]
  exact ⟨fun halted => if_pos halted, fun live absent => by simp [busStep, portStep, live, absent]⟩

end Sys2Proof.Machine

/-! PROOFS. The Pin unit (40_pin): what a pin command does from its validity check to its response, step by step and as a run of
its micro-steps. -/
namespace Sys2Proof.Machine

/-! ### The validity check (R121, R128, R202) -/

theorem pinCheck_passes {pin : Byte} {s : State} {k : State → Result} (valid : pin ≠ noPin)
    (present : s.cfg.portPresent (portOf pin) = true) : pinCheck pin s k = k s := by
  rw [pinCheck, if_neg valid, if_pos present]

theorem isCommand_of_pinOperand {i : Instr} {pin : Byte} (h : pinOperand i = some pin) :
    isCommand i = true ∧ i ≠ .deviceinit := by
  cases i <;> simp_all [pinOperand, isCommand]

/-- The micro-step of a pin command after its validity check (R122, R129, R131). -/
def checkedStep : Instr → Seq
  | .configure _ _ _ => .p1
  | .get _ => .g1
  | _ => .w1

/-- The operands of a CONFIGURE are inside the enumerations (R128); no other command has any. -/
def operandsDefined (v : Variant) (i : Instr) : Prop :=
  ∀ pin mode pull, i = .configure pin mode pull → configurable v mode pull = true

theorem live_of_running {s : State} (fatal : s.fatal = false) (running : s.seq ≠ .halt) : s.halted = false := by
  simp [State.halted, fatal, running]

/-- At `P0` CONFIGURE refuses operands outside the enumerations, after the check (R128). -/
theorem exec_configure_check {pin mode pull : Byte} {s : State} (at_ : s.seq = .p0) (fatal : s.fatal = false)
    (fg : s.inIsr = false) :
    exec (.configure pin mode pull) s = pinCheck pin s fun s =>
      if configurable s.cfg mode pull then .next (s.goto .p1) else .refused .outsideEnumeration := by
  simp [exec, execConfigure, foreground_live, live_of_running fatal, fg, at_]

/-- The first micro-step of a pin command is the check, and after it the next micro-step (R121). -/
theorem exec_check {i : Instr} {pin : Byte} {s : State} (hp : pinOperand i = some pin) (at_ : s.seq = firstStep i)
    (fatal : s.fatal = false) (fg : s.inIsr = false) :
    ∃ k, exec i s = pinCheck pin s k ∧ (operandsDefined s.cfg i → k s = .next (s.goto (checkedStep i))) := by
  cases i with
  | configure _ mode pull =>
    cases hp
    exact ⟨_, exec_configure_check at_ fatal fg, fun defined => if_pos (defined _ mode pull rfl)⟩
  | get | set | high | low =>
    cases hp
    exact ⟨fun s => .next (s.goto _), by
      simp [exec, execGet, execSet, execHigh, execLow, drivePin, foreground_live, live_of_running fatal, fg, at_, firstStep,
        checkedStep], fun _ => rfl⟩
  | _ => cases hp

/-- Settles O20: by the check, which every pin command runs first. -/
theorem pinCheckRaisesFatal : Obligations.PinCheckRaisesFatal := by
  intro i pin s hp at_ fatal fg
  obtain ⟨k, check, passed⟩ := exec_check hp at_ fatal fg
  rw [check]
  refine ⟨fun none => if_pos none, fun valid absent => ?absent, fun valid present defined => ?present⟩
  case absent => exact (if_neg valid).trans (if_neg (Bool.not_eq_true _ ▸ absent))
  case present =>
    refine ⟨checkedStep i, ?configure, ?drive, ?get, ?pass⟩
    case configure => rintro ⟨mode, pull, rfl⟩; rfl
    case drive => rintro (⟨level, rfl⟩ | rfl | rfl) <;> rfl
    case get => rintro rfl; rfl
    case pass =>
      rw [pinCheck_passes valid present]
      refine passed fun pin' mode pull hi => defined mode pull ?_
      subst hi
      cases hp
      rfl

theorem ushiftRight_eq_zero_iff {w : Nat} (x : BitVec w) (n : Nat) : x >>> n = 0 ↔ x.toNat < 2 ^ n := by
  rw [BitVec.toNat_eq, BitVec.toNat_ushiftRight, Nat.shiftRight_eq_div_pow]
  exact Nat.div_eq_zero_iff_lt (Nat.two_pow_pos n)

theorem configurable_packed_iff {v : Variant} {mode pull : Byte} (layout : v.pinLayout = .packed4) :
    configurable v mode pull = true ↔ mode.toNat < 16 := by
  simp only [configurable, layout, beq_iff_eq, BitVec.toNat_eq, BitVec.extractLsb'_toNat, Nat.shiftRight_eq_div_pow]
  have := mode.isLt
  simp
  omega

theorem modeDefined_iff (v : Variant) (mode : Byte) :
    modeDefined v mode = true ↔
      if v.encMode = .standard ∧ v.encOtype = .standard then mode.toNat < 2 ^ (v.modeW + v.otypeW)
      else mode ∈ v.legalModes := by
  unfold modeDefined
  split
  · rename_i hm ho
    rw [if_pos ⟨hm, ho⟩, beq_iff_eq, ushiftRight_eq_zero_iff]
  · rename_i other
    rw [if_neg fun h => other h.1 h.2, List.contains_iff_mem]

theorem pullDefined_iff (v : Variant) (pull : Byte) :
    pullDefined v pull = true ↔
      if v.encPull = .standard then pull.toNat < 2 ^ v.pullW else pull ∈ v.legalPulls := by
  unfold pullDefined
  split
  · rename_i hp
    rw [if_pos hp, beq_iff_eq, ushiftRight_eq_zero_iff]
  · rename_i hp
    rw [if_neg (by simp [hp]), List.contains_iff_mem]

/-- Settles O26: past the check the step refuses exactly where the operands are not configurable. -/
theorem configureRefusesOutsideTheEnumeration : Obligations.ConfigureRefusesOutsideTheEnumeration := by
  intro pin mode pull s at_ fatal fg valid present
  have refuses : exec (.configure pin mode pull) s = .refused .outsideEnumeration ↔
      ¬ configurable s.cfg mode pull = true := by
    rw [exec_configure_check at_ fatal fg, pinCheck_passes valid present]
    split <;> simp [*]
  refine ⟨fun layout => ?packed, fun layout => ?split⟩
  case packed => rw [refuses, configurable_packed_iff layout, not_lt]
  case split => rw [refuses, configurable, layout, Bool.and_eq_true, modeDefined_iff, pullDefined_iff]

/-! ### HIGH, LOW and GET (R131 to R133) -/

/-- Past acceptance SET, HIGH and LOW do not look at which of them they are (R104). -/
theorem drivePin_congr (i j : Instr) (pin : Byte) (level : Bool) {s : State} (started : s.seq ≠ .idle) :
    drivePin i pin level s = drivePin j pin level s := by
  unfold drivePin foreground
  split
  · rfl
  split
  · rfl
  · dsimp only
    split <;> first | rfl | exact absurd ‹_› started

/-- At acceptance they differ in the word they latch (R93). -/
theorem accept_congr {i j : Instr} {s : State} (operand : i.dataOperand s.dinIn = j.dataOperand s.dinIn) (q : Seq) :
    s.accept i q = { s.accept j q with cw := (s.accept i q).cw } := by
  unfold State.accept
  split
  · rfl
  · rw [operand]
    rfl

theorem drivePin_accept_congr {i j : Instr} {pin : Byte} {level : Bool} {s t : State}
    (operand : i.dataOperand s.dinIn = j.dataOperand s.dinIn) (h : drivePin i pin level s = .next t) :
    ∃ u, drivePin j pin level s = .next u ∧ t = { u with cw := t.cw } := by
  by_cases waiting : s.seq = .idle
  · obtain ⟨live, ⟨serving, rfl⟩ | ⟨fg, h⟩⟩ := foreground_cases h
    · exact ⟨t, by simp [drivePin, foreground, live, serving], rfl⟩
    · simp only [waiting] at h
      cases h
      exact ⟨s.accept j .w0, by simp [drivePin, foreground_live, live, fg, waiting], accept_congr operand .w0⟩
  · exact ⟨t, (drivePin_congr i j pin level waiting).symm.trans h, rfl⟩

/-- Settles O28: the three commands are one step function, which looks at the command only to latch its word. -/
theorem highAndLowAreSet : Obligations.HighAndLowAreSet := fun pin _ =>
  ⟨fun started => ⟨drivePin_congr (.high pin) (.set pin true) pin true started,
    drivePin_congr (.low pin) (.set pin false) pin false started⟩,
    fun _ h => drivePin_accept_congr (i := .high pin) (j := .set pin true) rfl h,
    fun _ h => drivePin_accept_congr (i := .low pin) (j := .set pin false) rfl h⟩

/-- Settles O29: `G1` is one read and the response. -/
theorem getAnswersTheInputBit : Obligations.GetAnswersTheInputBit := by
  intro pin s at_ fatal fg w hw
  subst hw
  have live := live_of_running (s := s) fatal (by simp [at_])
  simp only [exec, execGet, foreground_live _ live fg, at_]
  rfl

/-- The port of a pin, as the statements write it (R121). -/
theorem div_eq_portOf (pin : Byte) : pin.toNat / 16 = portOf pin := rfl

/-- The offset of a pin in its port, as the statements write it (R121). -/
theorem mod_eq_offsetOf (pin : Byte) : pin.toNat % 16 = offsetOf pin := rfl

/-! ### The run of a pin command up to its own work (R93, R121) -/

theorem execRun_of_next {i : Instr} {s t : State} (h : exec i s = .next t) (n : Nat) :
    execRun i (n + 1) s = execRun i n t := by
  simp [execRun, h]

/-- The state of a pin command past its validity check: the command is latched and nothing else has changed. -/
def State.opened (s : State) (i : Instr) : State :=
  (s.latchCommand i.commandWord (i.dataOperand s.dinIn)).goto (checkedStep i)

@[simp] theorem State.opened_fatal (s : State) (i : Instr) : (s.opened i).fatal = s.fatal := rfl
@[simp] theorem State.opened_inIsr (s : State) (i : Instr) : (s.opened i).inIsr = s.inIsr := rfl
@[simp] theorem State.opened_cfg (s : State) (i : Instr) : (s.opened i).cfg = s.cfg := rfl
@[simp] theorem peek_opened (s : State) (i : Instr) (q : Reg) : (s.opened i).peek q = s.peek q := rfl
@[simp] theorem loopBack_opened (s : State) (i : Instr) (p : Nat) : (s.opened i).loopBack p = s.loopBack p := rfl
@[simp] theorem tied_opened (s : State) (i : Instr) (p : Nat) : (s.opened i).tied p = s.tied p := rfl

theorem formed_opened {s : State} (hs : s.formed) (i : Instr) : (s.opened i).formed := hs

/-- The check of a pin of a present port goes on to the next micro-step and changes nothing else (R121). -/
theorem exec_check_passes {i : Instr} {pin : Byte} {s : State} (hp : pinOperand i = some pin) (at_ : s.seq = firstStep i)
    (fatal : s.fatal = false) (fg : s.inIsr = false) (valid : pin ≠ noPin)
    (present : s.cfg.portPresent (portOf pin) = true) (defined : operandsDefined s.cfg i) :
    exec i s = .next (s.goto (checkedStep i)) := by
  obtain ⟨k, check, passed⟩ := exec_check hp at_ fatal fg
  rw [check, pinCheck_passes valid present, passed defined]

/-- Two steps of a pin command: acceptance, and the check of a pin of a present port. -/
theorem execRun_opened {i : Instr} {pin : Byte} {s : State} (hp : pinOperand i = some pin) (accepting : s.mayAccept = true)
    (valid : pin ≠ noPin) (present : s.cfg.portPresent (portOf pin) = true) (defined : operandsDefined s.cfg i) (n : Nat) :
    execRun i (n + 2) s = execRun i n (s.opened i) := by
  obtain ⟨busy, fatal, waiting, fg⟩ := (mayAccept_iff s).1 accepting
  obtain ⟨command, noInit⟩ := isCommand_of_pinOperand hp
  have live := live_of_running (s := s) fatal (by simp [waiting])
  have accepted := exec_accepts command live fg waiting (absurd · noInit)
  obtain ⟨-, latched⟩ := (accept_cases s i (firstStep i)).resolve_left (by simp [busy])
  rw [latched] at accepted
  rw [execRun_of_next accepted]
  exact execRun_of_next (exec_check_passes (s := s.latchCommand _ _ |>.goto _) hp rfl fatal fg valid present defined) n

/-! ### SET, HIGH and LOW (R129, R130, R132, R133) -/

theorem pinBit_same (pin : Byte) : (pinBit pin).getLsbD (offsetOf pin) = true := by
  simp [pinBit, offsetOf_lt]

theorem onehot_same {k : Nat} (h : k < 32) : (onehot k).getLsbD k = true := by
  simp [onehot, h]

/-- The word of R130 gives the pin's latch bit the level (R52). -/
theorem latch_writeReg_setword {s : State} (pin : Byte) (level : Bool) (hs : s.canonical) :
    ((s.writeReg (setword s.cfg.bsrKind pin level).1 (setword s.cfg.bsrKind pin level).2).latch (portOf pin)).getLsbD
      (offsetOf pin) = level := by
  have small := offsetOf_lt pin
  have own := onehot_same (k := offsetOf pin) (by omega)
  have upper := onehot_bit (k := offsetOf pin) (o := 16 + offsetOf pin) (by omega)
  have lower := onehot_bit (k := offsetOf pin + 16) (o := offsetOf pin) (by omega)
  have high := onehot_same (k := offsetOf pin + 16) (by omega)
  cases hk : s.cfg.bsrKind <;> cases level <;>
    simp only [setword, State.writeReg, hk, State.latch_setLatch_same _ _ _ hs.2]
  case separate.false | separate.true => simp [own, small]
  case combined.false =>
    rw [combineLatch_bit _ _ _ _ small (by simp [lower])]
    simp [lower, Nat.add_comm 16, high, small]
  case combined.true =>
    rw [combineLatch_bit _ _ _ _ small (by simp [upper])]
    simp [own, small]

/-- What SET, HIGH and LOW leave of the pins: the pin counts as driven, and its port's latch is written. -/
def State.driveTo (s : State) (pin : Byte) (v : Half) : State := (s.drive pin).setLatch (portOf pin) v

/-- `W1` of SET, HIGH and LOW is one Set, which writes the pin's latch bit alone, and the response. -/
theorem exec_drives {i : Instr} {pin : Byte} {level : Bool} {s : State}
    (hi : i = .set pin level ∨ i = .high pin ∧ level = true ∨ i = .low pin ∧ level = false) (hs : s.canonical)
    (at_ : s.seq = .w1) (fatal : s.fatal = false) (fg : s.inIsr = false) :
    ∃ (v : Half) (d : Word), v.getLsbD (offsetOf pin) = level ∧
      (∀ o, o ≠ offsetOf pin → v.getLsbD o = (s.latch (portOf pin)).getLsbD o) ∧
      exec i s = .next (((s.driveTo pin v).issued .fg
        (.busSet (setword s.cfg.bsrKind pin level).1 (setword s.cfg.bsrKind pin level).2) none d).respond statusOk 0) := by
  have live := live_of_running (s := s) fatal (by simp [at_])
  obtain ⟨v, written, others⟩ := writeReg_setword (s.drive pin) pin level
  have own := latch_writeReg_setword (s := s.drive pin) pin level hs
  rw [written, State.latch_setLatch_same _ _ _ (by exact hs.2)] at own
  have run : exec i s = drivePin i pin level s := by
    obtain rfl | ⟨rfl, rfl⟩ | ⟨rfl, rfl⟩ := hi <;> rfl
  refine ⟨v, (s.drive pin).anyRdata, own, others, ?_⟩
  simp only [run, drivePin, foreground_live _ live fg, at_]
  exact congrArg (fun u : State => Host.Outcome.next ((u.issued _ _ _ _).respond _ _)) written

section
variable {s : State} {pin : Byte} {v : Half}

theorem latch_driveTo (hs : s.canonical) (p : Nat) :
    (s.driveTo pin v).latch p = if p = portOf pin then v else s.latch p := by
  split
  · subst p
    exact State.latch_setLatch_same (s.drive pin) _ v hs.2
  · exact State.latch_setLatch_other (s.drive pin) _ p v ‹_›

theorem peek_driveTo_other {q : Reg} (hq : q ≠ .pinIn (portOf pin)) : (s.driveTo pin v).peek q = s.peek q :=
  State.peek_setLatch_other (s.drive pin) _ v q hq

/-- A driven pin is tied where it meets the other premises of R135. -/
theorem tied_driveTo_same (hs : s.formed) :
    ((s.driveTo pin v).tied (portOf pin)).getLsbD (offsetOf pin) = (s.loopBack (portOf pin)).getLsbD (offsetOf pin) := by
  obtain ⟨-, -, -, wfDriven, -⟩ := hs.listed
  have driven : (Cells.read (s.drive pin).driven (portOf pin)).getLsbD (offsetOf pin) = true := by
    simp [State.drive, Cells.read_write_same _ _ _ wfDriven, pinBit_same]
  rw [State.driveTo, State.setLatch, State.tied_follow]
  show (s.loopBack (portOf pin) &&& Cells.read (s.drive pin).driven (portOf pin)).getLsbD _ = _
  rw [BitVec.getLsbD_and, driven, Bool.and_true]

/-- The input bit of a pin that SET, HIGH or LOW ties is its latch bit, of another that of before. -/
theorem peek_driveTo_same (hs : s.formed) :
    ((s.driveTo pin v).peek (.pinIn (portOf pin))).getLsbD (offsetOf pin) =
      if (s.loopBack (portOf pin)).getLsbD (offsetOf pin) then v.getLsbD (offsetOf pin)
      else (s.peek (.pinIn (portOf pin))).getLsbD (offsetOf pin) := by
  rw [← tied_driveTo_same (v := v) hs, State.driveTo, State.setLatch, State.peek_follow_bit _ _ _ (by exact hs.canonical.1),
    State.tied_follow]
  show (if _ then (Cells.read (Cells.write s.olat _ v) _).getLsbD _ else _) = _
  rw [Cells.read_write_same _ _ _ hs.canonical.2]
  rfl

end

/-- Settles O27: the one Set of `W1` writes the pin's latch bit, and ENV's input bit follows where the pin is tied. -/
theorem drivingAPinWritesOneLatchBit : Obligations.DrivingAPinWritesOneLatchBit := by
  intro i pin level s hi hs at_ fatal fg
  simp only [div_eq_portOf, mod_eq_offsetOf]
  have canonical := hs.canonical
  obtain ⟨v, d, own, others, run⟩ := exec_drives hi canonical at_ fatal fg
  refine ⟨_, (setword s.cfg.bsrKind pin level).1, (setword s.cfg.bsrKind pin level).2, run, ?word, ?record, ?level,
    fun o ho => ?latchBits, fun p hp => ?latches, fun q hq => ?registers, fun o ho => ?inputs, ?input, rfl, rfl, rfl, rfl⟩
  case word => cases s.cfg.bsrKind <;> cases level <;> rfl
  case record => simp [State.driveTo, State.setLatch]
  case level => simpa [latch_driveTo canonical] using own
  case latchBits => simpa [latch_driveTo canonical] using others o ho
  case latches => simp [latch_driveTo canonical, hp]
  case registers => exact peek_driveTo_other hq
  case inputs => exact (setLatch_drive_other hs others (.inr ho)).2.2
  case input =>
    rw [peek_respond, peek_issued, peek_driveTo_same hs, own]
    rfl

/-! ### The micro-steps of CONFIGURE (R122) -/

/-- SetBits on a register without hardware-owned bits (R64). -/
theorem peek_busSetBits_core {s : State} (a : Agent) {r : Reg} (m : Word) (plain : isPlain r = true)
    (core : s.cfg.hardwareOwned r = 0) (hw : Cells.wf s.surface = true) :
    (s.busSetBits a r m).peek r = s.peek r ||| m := by
  rw [peek_busSetBits_same s a r m plain hw, and_not_of_and_eq_zero (by rw [core]; exact BitVec.and_zero)]

theorem exec_configure_gate {pin mode pull : Byte} {s : State} (at_ : s.seq = .p1) (fatal : s.fatal = false)
    (fg : s.inIsr = false) : exec (.configure pin mode pull) s = .next (configureGate pin s) := by
  simp [exec, execConfigure, foreground_live, live_of_running fatal, fg, at_]

/-- The gate of the pin's port is set and no bit of the register is lost (R124). -/
theorem peek_configureGate {s : State} (pin : Byte) (hs : s.canonical) :
    (configureGate pin s).peek .clkenGpio = s.peek .clkenGpio ||| s.cfg.mask.gate (portOf pin) := by
  rw [configureGate, peek_goto, peek_disturb_same, peek_busSetBits_core .fg _ rfl rfl hs.1]

/-- After `P1` the step is the layout's (R122). -/
theorem exec_configure_fields {pin mode pull : Byte} {s : State} (fatal : s.fatal = false) (fg : s.inIsr = false)
    (past : s.seq ∈ [Seq.p2, .p3, .p4, .p5, .p6, .p7]) :
    exec (.configure pin mode pull) s = .next (configureFields pin mode pull s) := by
  have live := live_of_running (s := s) fatal (by rintro halt; simp [halt] at past)
  simp only [exec, execConfigure, foreground_live _ live fg]
  split <;> first | rfl | simp_all

/-- The layout's last micro-step sets a field of a pin control register, completes the command and responds (R94, R122). -/
theorem configureFields_last {pin mode pull : Byte} {s : State} (last : lastConfigureStep s) :
    ∃ r m, configureWrites pin s r ∧
      configureFields pin mode pull s = ((s.busSetBits .fg r m).configured pin mode).respond statusOk 0 := by
  obtain ⟨layout, at_⟩ | ⟨layout, at_⟩ := last
  · exact ⟨packedReg pin, packedValue pin mode, by simp [configureWrites, layout, at_],
      by simp [configureFields, configurePacked, layout, at_]⟩
  · exact ⟨.outType (portOf pin), splitValue s.cfg.otypeW pin (otypeCode s.cfg mode),
      by simp [configureWrites, layout, at_], by simp [configureFields, configureSplit, layout, at_]⟩

theorem exec_configure_last {pin mode pull : Byte} {s : State} (last : lastConfigureStep s) (fatal : s.fatal = false)
    (fg : s.inIsr = false) :
    ∃ r m, configureWrites pin s r ∧ exec (.configure pin mode pull) s =
      .next (((s.busSetBits .fg r m).configured pin mode).respond statusOk 0) := by
  obtain ⟨r, m, writes, fields⟩ := configureFields_last (pin := pin) (mode := mode) (pull := pull) last
  refine ⟨r, m, writes, fields ▸ exec_configure_fields fatal fg ?_⟩
  obtain ⟨-, at_⟩ | ⟨-, at_⟩ := last <;> simp [at_]

/-- At `P1` CONFIGURE writes no pin control register. -/
theorem not_configureWrites_gate {pin : Byte} {s : State} (at_ : s.seq = .p1) (r : Reg) : ¬ configureWrites pin s r := by
  simp [configureWrites, at_]

/-- Settles O23: `P1` is one SetBits of the gate, and the last micro-step ends with the response. -/
theorem configureGatesAndCompletes : Obligations.ConfigureGatesAndCompletes := by
  intro pin mode pull s hs fatal fg
  refine ⟨fun at_ => ?gate, fun last => ?last⟩
  case gate =>
    have run := exec_configure_gate (pin := pin) (mode := mode) (pull := pull) at_ fatal fg
    have step := configureStep run
    exact ⟨_, run, rfl, peek_configureGate pin hs.canonical,
      fun q gate input => step.registers (by simp [gate, input]) (not_configureWrites_gate at_ q) fun _ => input _,
      step.inputs hs⟩
  case last =>
    obtain ⟨r, m, -, run⟩ := exec_configure_last last fatal fg
    exact ⟨_, run, rfl, rfl, rfl, rfl, by simp [statusOk]⟩

/-! ### The fields of a pin (R123, R125 to R127)

A micro-step after `P1` gives one pin control register a word; the others, and every other pin, stay as they are. -/

/-- From `s` to `t` the register `r` has got the word `w`, and nothing outside has changed but for the named pin. -/
structure FieldStep (pin : Byte) (r : Reg) (w : Word) (s t : State) : Prop where
  formed : t.formed
  fatal : t.fatal = false
  fg : t.inIsr = false
  cfg : t.cfg = s.cfg
  word : t.peek r = w
  registers : ∀ q, q ≠ r → (∀ p, q ≠ .pinIn p) → t.peek q = s.peek q
  pins : ∀ p o, (p ≠ portOf pin ∨ o ≠ offsetOf pin) →
    (t.tied p).getLsbD o = (s.tied p).getLsbD o ∧ (t.peek (.pinIn p)).getLsbD o = (s.peek (.pinIn p)).getLsbD o

theorem FieldStep.trans {pin : Byte} {r : Reg} {v w : Word} {s t u : State} (h : FieldStep pin r v s t)
    (k : FieldStep pin r w t u) : FieldStep pin r w s u where
  formed := k.formed
  fatal := k.fatal
  fg := k.fg
  cfg := k.cfg.trans h.cfg
  word := k.word
  registers q hq input := (k.registers q hq input).trans (h.registers q hq input)
  pins p o other := by
    obtain ⟨tied, input⟩ := h.pins p o other
    obtain ⟨tied', input'⟩ := k.pins p o other
    exact ⟨tied'.trans tied, input'.trans input⟩

/-- A field of a pin in a control register, and the value CONFIGURE gives it, in position (R122). -/
structure PinField where
  reg : Reg
  mask : Word
  value : Word

/-- The field that a micro-step from `P2` on clears or sets (R123, R125, R126). -/
def configureField (pin mode pull : Byte) (v : Variant) (q : Seq) : PinField :=
  match v.pinLayout, q with
  | .packed4, _ => ⟨packedReg pin, packedMask pin, packedValue pin mode⟩
  | .split, .p2 | .split, .p3 => ⟨.ctlA (portOf pin), splitMask v.modeW pin, splitValue v.modeW pin (modeCode v mode)⟩
  | .split, .p4 | .split, .p5 => ⟨.ctlB (portOf pin), splitMask v.pullW pin, splitValue v.pullW pin (pullCode v pull)⟩
  | .split, _ => ⟨.outType (portOf pin), splitMask v.otypeW pin, splitValue v.otypeW pin (otypeCode v mode)⟩

theorem reg_of_configureWrites {pin : Byte} {s : State} {r : Reg} (mode pull : Byte) (h : configureWrites pin s r) :
    (configureField pin mode pull s.cfg s.seq).reg = r := by
  obtain ⟨layout, at_ | at_, rfl⟩ | ⟨layout, at_ | at_, rfl⟩ | ⟨layout, at_ | at_, rfl⟩ | ⟨layout, at_ | at_, rfl⟩ := h <;>
    simp [configureField, layout, at_]

theorem past_of_configureWrites {pin : Byte} {s : State} {r : Reg} (h : configureWrites pin s r) :
    s.seq ∈ [Seq.p2, .p3, .p4, .p5, .p6, .p7] := by
  obtain ⟨-, at_ | at_, -⟩ | ⟨-, at_ | at_, -⟩ | ⟨-, at_ | at_, -⟩ | ⟨-, at_ | at_, -⟩ := h <;> simp [at_]

/-- The successor of a micro-step from `P2` on, by layout (R125, R126). -/
def fieldSuccessor : PinLayout → Seq → Seq
  | _, .p2 => .p3
  | .packed4, .p3 => .idle
  | .split, .p3 => .p4
  | .split, .p4 => .p5
  | .split, .p5 => .p6
  | .split, .p6 => .p7
  | .split, .p7 => .idle
  | _, q => q

theorem seq_configureFields (pin mode pull : Byte) (s : State) :
    (configureFields pin mode pull s).seq = fieldSuccessor s.cfg.pinLayout s.seq := by
  cases layout : s.cfg.pinLayout <;> cases at_ : s.seq <;>
    simp [configureFields, configurePacked, configureSplit, layout, at_, fieldSuccessor]

/-- The micro-step clears its field: the first of the two writes of the idiom (R67). -/
def clearsField (s : State) : Prop := s.seq = .p2 ∨ s.cfg.pinLayout = .split ∧ (s.seq = .p4 ∨ s.seq = .p6)

/-- The micro-step sets its field: the second of the two writes of the idiom (R67). -/
def setsField (s : State) : Prop := s.seq = .p3 ∨ s.cfg.pinLayout = .split ∧ (s.seq = .p5 ∨ s.seq = .p7)

section
variable {pin mode pull : Byte} {s : State} {f : PinField}

theorem configureWrites_of_field (hf : configureField pin mode pull s.cfg s.seq = f) (h : clearsField s ∨ setsField s) :
    configureWrites pin s f.reg := by
  subst hf
  obtain (at_ | ⟨layout, at_ | at_⟩) | (at_ | ⟨layout, at_ | at_⟩) := h
  case inl.inl | inr.inl => cases layout : s.cfg.pinLayout <;> simp [configureWrites, configureField, layout, at_]
  all_goals simp [configureWrites, configureField, layout, at_]

/-- The first micro-step of a field is one ClearBits; that of the first field takes the pin out of the outputs before it. -/
theorem configureFields_clears (hf : configureField pin mode pull s.cfg s.seq = f) (h : clearsField s) :
    ∃ (u : State) (q : Seq), u.cfg = s.cfg ∧ u.surface = s.surface ∧
      configureFields pin mode pull s = (u.busClearBits .fg f.reg f.mask).goto q := by
  subst hf
  obtain at_ | ⟨layout, at_ | at_⟩ := h
  · refine ⟨s.release pin, .p3, rfl, rfl, ?_⟩
    cases layout : s.cfg.pinLayout <;> simp [configureFields, configurePacked, configureSplit, configureField, layout, at_]
  · exact ⟨s, .p5, rfl, rfl, by simp [configureFields, configureSplit, configureField, layout, at_]⟩
  · exact ⟨s, .p7, rfl, rfl, by simp [configureFields, configureSplit, configureField, layout, at_]⟩

/-- The second micro-step of a field is one SetBits; that of the last field completes the command. -/
theorem configureFields_sets (hf : configureField pin mode pull s.cfg s.seq = f) (h : setsField s) :
    ∃ u, u = s.busSetBits .fg f.reg f.value ∧
      ((∃ q, q ≠ .idle ∧ configureFields pin mode pull s = u.goto q) ∨
        configureFields pin mode pull s = (u.configured pin mode).respond statusOk 0) := by
  subst hf
  refine ⟨_, rfl, ?_⟩
  obtain at_ | ⟨layout, at_ | at_⟩ := h
  · cases layout : s.cfg.pinLayout
    · exact .inr (by simp [configureFields, configurePacked, configureField, layout, at_])
    · exact .inl ⟨.p4, nofun, by simp [configureFields, configureSplit, configureField, layout, at_]⟩
  · exact .inl ⟨.p6, nofun, by simp [configureFields, configureSplit, configureField, layout, at_]⟩
  · exact .inr (by simp [configureFields, configureSplit, configureField, layout, at_])

theorem hardwareOwned_of_configureWrites {r : Reg} (h : configureWrites pin s r) (v : Variant) : v.hardwareOwned r = 0 := by
  obtain ⟨-, -, rfl⟩ | ⟨-, -, rfl⟩ | ⟨-, -, rfl⟩ | ⟨-, -, rfl⟩ := h
  · unfold packedReg
    split <;> rfl
  all_goals rfl

theorem peek_configureFields_clears (hf : configureField pin mode pull s.cfg s.seq = f) (hs : s.canonical)
    (h : clearsField s) : (configureFields pin mode pull s).peek f.reg = s.peek f.reg &&& ~~~f.mask := by
  have writes := configureWrites_of_field hf (.inl h)
  obtain ⟨plain, -⟩ := configureWrites_control writes
  obtain ⟨u, q, -, surface, e⟩ := configureFields_clears hf h
  have core : f.mask &&& u.cfg.hardwareOwned f.reg = 0 := by
    rw [hardwareOwned_of_configureWrites writes]
    exact BitVec.and_zero
  rw [e, peek_goto, peek_busClearBits_core u .fg plain core (surface ▸ hs.1), State.peek, State.peek, surface]

theorem peek_configureFields_sets (hf : configureField pin mode pull s.cfg s.seq = f) (hs : s.canonical)
    (h : setsField s) : (configureFields pin mode pull s).peek f.reg = s.peek f.reg ||| f.value := by
  have writes := configureWrites_of_field hf (.inr h)
  obtain ⟨plain, -, -, noInput⟩ := configureWrites_control writes
  have word := peek_busSetBits_core .fg f.value plain (hardwareOwned_of_configureWrites writes _) hs.1
  obtain ⟨u, rfl, ⟨q, -, e⟩ | e⟩ := configureFields_sets hf h
  · rw [e, peek_goto, word]
  · rw [e, peek_respond, State.peek_configured_other _ _ _ _ (noInput _), word]

/-- A micro-step of a field reaches nothing outside but the register of the field and the named pin. -/
theorem fieldStep_configureFields (hf : configureField pin mode pull s.cfg s.seq = f) (hs : s.formed)
    (fatal : s.fatal = false) (fg : s.inIsr = false) (h : clearsField s ∨ setsField s) :
    exec (.configure pin mode pull) s = .next (configureFields pin mode pull s) ∧
    FieldStep pin f.reg ((configureFields pin mode pull s).peek f.reg) s (configureFields pin mode pull s) := by
  have past := past_of_configureWrites (configureWrites_of_field hf h)
  have run := exec_configure_fields (pin := pin) (mode := mode) (pull := pull) fatal fg past
  have step := configureStep run
  obtain ⟨⟨cfg, -, -, -, fgKept, -⟩, -⟩ := step.units
  obtain ⟨fatalKept, -⟩ := step.interface
  have notCheck : s.seq ≠ .p0 := by rintro e; simp [e] at past
  have notGate : s.seq ≠ .p1 := by rintro e; simp [e] at past
  exact ⟨run, {
    formed := formed_execConfigure hs run
    fatal := (fatalKept notCheck).1.trans fatal
    fg := fgKept.trans fg
    cfg := cfg
    word := rfl
    registers := fun q hq input => step.registers (fun h => notGate h.1)
      (fun w => hq (hf ▸ (reg_of_configureWrites mode pull w).symm)) fun _ => input _
    pins := fun p o other => (step.otherPins hs other).2 notGate }⟩

/-- The two micro-steps of a field have one field. -/
theorem configureField_successor (hf : configureField pin mode pull s.cfg s.seq = f) (h : clearsField s) :
    setsField (configureFields pin mode pull s) ∧
    configureField pin mode pull s.cfg (configureFields pin mode pull s).seq = f := by
  obtain ⟨u, q, cfg, -, e⟩ := configureFields_clears hf h
  have cfg : (configureFields pin mode pull s).cfg = s.cfg := by simpa [e] using cfg
  subst hf
  rw [setsField, cfg, seq_configureFields]
  obtain at_ | ⟨layout, at_ | at_⟩ := h
  · cases layout : s.cfg.pinLayout <;> simp [fieldSuccessor, configureField, layout, at_]
  all_goals simp [fieldSuccessor, configureField, layout, at_]

/-- The word of a register after the field write idiom (R67). -/
def PinField.written (f : PinField) (old : Word) : Word := (old &&& ~~~f.mask) ||| f.value

/-- Two micro-steps write a field, and the last two complete the command (R67, R94, R122). -/
theorem execRun_field {v : Variant} {q : Seq} (hf : configureField pin mode pull v q = f) (cfg : s.cfg = v)
    (at_ : s.seq = q) (hs : s.formed) (fatal : s.fatal = false) (fg : s.inIsr = false) (h : clearsField s) :
    ∃ t, (∀ n, execRun (.configure pin mode pull) (n + 2) s = execRun (.configure pin mode pull) n t) ∧
      FieldStep pin f.reg (f.written (s.peek f.reg)) s t ∧
      t.seq = fieldSuccessor v.pinLayout (fieldSuccessor v.pinLayout q) ∧
      (t.seq = .idle → t.busy = false ∧ t.status = 0 ∧ t.dout = 0) := by
  subst cfg at_
  obtain ⟨run, cleared⟩ := fieldStep_configureFields hf hs fatal fg (.inl h)
  rw [peek_configureFields_clears hf hs.canonical h] at cleared
  obtain ⟨sets, same⟩ := configureField_successor hf h
  have next := seq_configureFields pin mode pull s
  generalize configureFields pin mode pull s = u at *
  rw [← cleared.cfg] at same
  obtain ⟨run', set⟩ := fieldStep_configureFields same cleared.formed cleared.fatal cleared.fg (.inr sets)
  rw [peek_configureFields_sets same cleared.formed.canonical sets, cleared.word] at set
  refine ⟨_, fun n => (execRun_of_next run (n + 1)).trans (execRun_of_next run' n), cleared.trans set, ?_, ?_⟩
  · rw [seq_configureFields, cleared.cfg, next]
  · obtain ⟨_, -, ⟨q, running, e⟩ | e⟩ := configureFields_sets same sets <;> rw [e]
    · exact fun idle => absurd idle running
    · exact fun _ => ⟨rfl, rfl, rfl⟩

end

/-! ### CONFIGURE from its acceptance (R122 to R127) -/

/-- The state at `P2` of a CONFIGURE accepted in `s`: the port's gate is set, and ENV has gone by it. -/
def State.gated (s : State) (pin mode pull : Byte) : State := configureGate pin (s.opened (.configure pin mode pull))

section
variable {pin mode pull : Byte} {s : State}

theorem execRun_gated (accepting : s.mayAccept = true) (valid : pin ≠ noPin)
    (present : s.cfg.portPresent (portOf pin) = true) (defined : configurable s.cfg mode pull = true) (n : Nat) :
    execRun (.configure pin mode pull) (n + 3) s = execRun (.configure pin mode pull) n (s.gated pin mode pull) := by
  obtain ⟨-, fatal, -, fg⟩ := (mayAccept_iff s).1 accepting
  have operands : operandsDefined s.cfg (.configure pin mode pull) := by rintro _ _ _ ⟨⟩; exact defined
  rw [execRun_opened (i := .configure pin mode pull) rfl accepting valid present operands (n + 1)]
  exact execRun_of_next (exec_configure_gate (s := s.opened (.configure pin mode pull)) rfl fatal fg) n

@[simp] theorem State.gated_cfg : (s.gated pin mode pull).cfg = s.cfg := by
  simp [State.gated, configureGate]

theorem gated_facts (accepting : s.mayAccept = true) (hs : s.formed) :
    (s.gated pin mode pull).formed ∧ (s.gated pin mode pull).fatal = false ∧ (s.gated pin mode pull).inIsr = false ∧
    (s.gated pin mode pull).peek .clkenGpio = s.peek .clkenGpio ||| s.cfg.mask.gate (portOf pin) ∧
    (∀ q, q ≠ .clkenGpio → (∀ p, q ≠ .pinIn p) → (s.gated pin mode pull).peek q = s.peek q) ∧
    keptInputs s (s.gated pin mode pull) := by
  obtain ⟨-, fatal, -, fg⟩ := (mayAccept_iff s).1 accepting
  have opened := formed_opened hs (.configure pin mode pull)
  obtain ⟨gate, -⟩ := configureGatesAndCompletes pin mode pull (s.opened (.configure pin mode pull)) opened fatal fg
  obtain ⟨t, run, -, word, registers, inputs⟩ := gate rfl
  cases run.symm.trans (exec_configure_gate (s := s.opened (.configure pin mode pull)) rfl fatal fg)
  exact ⟨formed_configureGate opened pin, by simpa [State.gated, configureGate], by simpa [State.gated, configureGate],
    word, registers, inputs⟩

end

/-! ### The bits of a field (R122, R123, R127) -/

theorem fmask_bit {w : Nat} (h : w ≤ 32) (k : Nat) : (fmask w).getLsbD k = decide (k < w) := by
  simp only [fmask, BitVec.getLsbD_ofNat, Nat.testBit_two_pow_sub_one]
  simp; omega

/-- A value of `w` bits written at a position lands there, and every other bit of the word is as before. -/
theorem written_bit {r : Reg} {w pos : Nat} {x old : Word} (room : pos + w ≤ 32)
    (fits : ∀ k, w ≤ k → x.getLsbD k = false) (k : Nat) :
    ((⟨r, fmask w <<< pos, x <<< pos⟩ : PinField).written old).getLsbD k =
      if pos ≤ k ∧ k < pos + w then x.getLsbD (k - pos) else old.getLsbD k := by
  have mask := fmask_bit (w := w) (by omega) (k - pos)
  simp only [PinField.written, BitVec.getLsbD_or, BitVec.getLsbD_and, BitVec.getLsbD_not, BitVec.getLsbD_shiftLeft, mask]
  split
  · rename_i inside
    obtain ⟨low, high⟩ := inside
    simp [show k < 32 by omega, show ¬ k < pos by omega, show k - pos < w by omega]
  · rename_i outside
    by_cases low : k < pos
    · simp [low, show k < 32 by omega]
    · have above : w ≤ k - pos := by omega
      by_cases hk : k < 32
      · simp [low, hk, fits _ above, above]
      · simp [hk, BitVec.getLsbD_of_ge old k (by omega)]

theorem packedPos_le (pin : Byte) : packedPos pin + 4 ≤ 32 := by
  unfold packedPos
  omega

/-- `MODE[3:0]`, the value of a packed field (R123). -/
def nibble (mode : Byte) : Word := mode.setWidth 32 &&& 0xF

/-- The field of the PACKED4 layout is one of four bits. -/
theorem configureField_packed {pin mode pull : Byte} {v : Variant} {q : Seq} (layout : v.pinLayout = .packed4) :
    configureField pin mode pull v q =
      ⟨packedReg pin, fmask 4 <<< packedPos pin, nibble mode <<< packedPos pin⟩ := by
  simp only [configureField, layout]
  rfl

theorem nibble_bit (mode : Byte) (k : Nat) :
    (nibble mode).getLsbD k = (decide (k < 4) && mode.getLsbD k) := by
  have low : (0xF : Word).getLsbD k = decide (k < 4) := fmask_bit (w := 4) (by decide) k
  rw [nibble, BitVec.getLsbD_and, low]
  by_cases h : k < 4
  · simp [h, show k < 32 by omega]
  · simp [h]

theorem nibble_fits (mode : Byte) (k : Nat) (h : 4 ≤ k) : (nibble mode).getLsbD k = false := by
  simp [nibble_bit, show ¬ k < 4 by omega]

/-- Of the input bits of other pins a run of CONFIGURE moves those of the pins tied under the new gate alone (R135). -/
theorem input_of_gated {pin mode pull : Byte} {s t : State} (inputs : keptInputs s (s.gated pin mode pull)) {p o : Nat}
    (pins : (t.tied p).getLsbD o = ((s.gated pin mode pull).tied p).getLsbD o ∧
      (t.peek (.pinIn p)).getLsbD o = ((s.gated pin mode pull).peek (.pinIn p)).getLsbD o)
    (free : (t.tied p).getLsbD o = false) : (t.peek (.pinIn p)).getLsbD o = (s.peek (.pinIn p)).getLsbD o := by
  obtain ⟨tied, input⟩ := pins
  exact input.trans (inputs p o (tied ▸ free))

/-- Settles O24: the gate, and one field of four bits. -/
theorem configurePackedIsSurgical : Obligations.ConfigurePackedIsSurgical := by
  intro pin mode pull s hs accepting layout valid present small
  obtain ⟨formed, fatal, fg, gate, registers, inputs⟩ := gated_facts (pin := pin) (mode := mode) (pull := pull) accepting hs
  have cfg : (s.gated pin mode pull).cfg = s.cfg := State.gated_cfg
  obtain ⟨t, run, step, seq, response⟩ := execRun_field (configureField_packed layout) cfg rfl formed fatal fg (.inl rfl)
  rw [layout] at seq
  obtain ⟨busy, status, dout⟩ := response seq
  have writes : configureWrites pin (s.gated pin mode pull) (packedReg pin) := .inl ⟨by rw [cfg, layout], .inl rfl, rfl⟩
  obtain ⟨-, notGate, -, noInput⟩ := configureWrites_control writes
  have bits := written_bit (r := packedReg pin) (old := (s.gated pin mode pull).peek (packedReg pin)) (packedPos_le pin)
    (nibble_fits mode)
  rw [← step.word] at bits
  refine ⟨t, (execRun_gated accepting valid present ((configurable_packed_iff layout).2 small) 2).trans (run 0),
    busy, seq, status, dout, packedReg pin, packedPos pin, rfl, rfl, ?field, fun k outside => ?kept, ?gate,
    fun q hq notGate input => ?others, fun p o other => input_of_gated inputs (step.pins p o other)⟩
  case field =>
    refine BitVec.eq_of_getLsbD_eq fun k hk => ?_
    rw [BitVec.getLsbD_extractLsb', BitVec.getLsbD_extractLsb', bits, if_pos (by omega), nibble_bit]
    simp
  case kept => rw [bits, if_neg (by omega), registers _ notGate noInput]
  case gate => rw [step.registers _ notGate.symm nofun, gate]; rfl
  case others => rw [step.registers q hq input, registers q notGate input]

/-! The SPLIT layout: a field of `w` bits for each of the sixteen pins. -/

/-- The pin's field in a register of the SPLIT layout, and its value (R126). -/
def splitField (r : Reg) (w : Nat) (pin : Byte) (x : Word) : PinField := ⟨r, splitMask w pin, splitValue w pin x⟩

theorem configureField_split {v : Variant} (layout : v.pinLayout = .split) (pin mode pull : Byte) :
    configureField pin mode pull v .p2 = splitField (.ctlA (portOf pin)) v.modeW pin (modeCode v mode) ∧
    configureField pin mode pull v .p4 = splitField (.ctlB (portOf pin)) v.pullW pin (pullCode v pull) ∧
    configureField pin mode pull v .p6 = splitField (.outType (portOf pin)) v.otypeW pin (otypeCode v mode) := by
  simp [configureField, layout, splitField]

/-- The constraints of R7 on the SPLIT fields: sixteen in one word, and encoders that fit. -/
theorem split_of_wf {v : Variant} (h : v.wf = true) :
    (16 * v.modeW ≤ 32 ∧ v.encMode.fits v.modeW = true) ∧ (16 * v.pullW ≤ 32 ∧ v.encPull.fits v.pullW = true) ∧
    (16 * v.otypeW ≤ 32 ∧ v.encOtype.fits v.otypeW = true) := by
  simp only [Variant.wf, Bool.and_eq_true, decide_eq_true_eq] at h
  obtain ⟨⟨⟨⟨⟨⟨-, -, mode⟩, -, pull⟩, -, otype⟩, fitsMode⟩, fitsPull⟩, fitsOtype⟩ := h
  exact ⟨⟨mode, fitsMode⟩, ⟨pull, fitsPull⟩, otype, fitsOtype⟩

/-- A bit of the value an encoder gives an operand (R127): of the slice, or of the table's row. -/
def encoderBit (e : Encoder) (lo : Nat) (operand : Byte) (k : Nat) : Bool :=
  match e with
  | .standard => operand.getLsbD (lo + k)
  | .table rows => (rows.getD operand.toNat 0).getLsbD k

theorem bit_of_inside {x : Word} {w k : Nat} (small : w ≤ 32) (h : inside x (lowOnes w) = true) (hk : w ≤ k) :
    x.getLsbD k = false := by
  by_cases hlt : k < 32
  · have low : (lowOnes w).getLsbD k = decide (k < w) := fmask_bit small k
    have := congrArg (fun y : Word => y.getLsbD k) (beq_iff_eq.1 h)
    rw [BitVec.getLsbD_and, BitVec.getLsbD_not, low] at this
    simpa [hlt, show ¬ k < w by omega] using this
  · exact BitVec.getLsbD_of_ge _ _ (by omega)

/-- An encoder's value has the bits of its field and no other (R7, R127). -/
theorem encoderValue_bit {e : Encoder} {w : Nat} (small : w ≤ 32) (fits : e.fits w = true) (lo : Nat) (operand : Byte)
    (k : Nat) : (encoderValue e lo w operand).getLsbD k = (decide (k < w) && encoderBit e lo operand k) := by
  cases e with
  | standard =>
    rw [encoderValue, BitVec.getLsbD_and, fmask_bit small, Bool.and_comm, BitVec.getLsbD_ushiftRight,
      BitVec.getLsbD_setWidth]
    by_cases h : lo + k < 32
    · simp [encoderBit, h]
    · simp [encoderBit, h, BitVec.getLsbD_of_ge operand (lo + k) (by omega)]
  | table rows =>
    by_cases h : k < w
    · simp [encoderValue, encoderBit, h]
    · have row : inside (rows.getD operand.toNat 0) (lowOnes w) = true := by
        rw [List.getD_eq_getElem?_getD]
        cases e : rows[operand.toNat]? with
        | none => simp [inside]
        | some x => exact List.all_eq_true.1 fits x (List.mem_of_getElem? e)
      rw [encoderValue, bit_of_inside small row (Nat.le_of_not_lt h)]
      simp [h]

/-- The bits of a register after CONFIGURE has written the pin's field there. -/
theorem splitField_bits {r : Reg} {w lo : Nat} {e : Encoder} {pin operand : Byte} {old new : Word} (room : 16 * w ≤ 32)
    (fits : e.fits w = true) (h : new = (splitField r w pin (encoderValue e lo w operand)).written old) :
    (∀ k, k < w → new.getLsbD (w * offsetOf pin + k) = encoderBit e lo operand k) ∧
    (∀ k, k < w * offsetOf pin ∨ w * offsetOf pin + w ≤ k → new.getLsbD k = old.getLsbD k) := by
  have value := encoderValue_bit (by omega) fits lo operand
  have inWord : w * offsetOf pin + w ≤ 32 := by
    have := Nat.mul_le_mul_left w (offsetOf_lt pin)
    rw [Nat.mul_succ] at this
    omega
  have bits := written_bit (r := r) (old := old) inWord (x := encoderValue e lo w operand) (fun k hk => by
    simp [value, show ¬ k < w by omega])
  refine ⟨fun k hk => ?_, fun k hk => ?_⟩
  · rw [h, splitField, splitMask, splitValue, bits, if_pos (by omega), Nat.add_sub_cancel_left, value]
    simp [hk]
  · rw [h, splitField, splitMask, splitValue, bits, if_neg (by omega)]

/-- Six micro-steps write the three fields, complete the command, and reach nothing else but the named pin (R122, R126). -/
theorem execRun_split {pin mode pull : Byte} {v : Variant} {s : State} (layout : v.pinLayout = .split) (cfg : s.cfg = v)
    (at_ : s.seq = .p2) (hs : s.formed) (fatal : s.fatal = false) (fg : s.inIsr = false) :
    ∃ t, execRun (.configure pin mode pull) 6 s = .next t ∧ t.seq = .idle ∧ (t.busy = false ∧ t.status = 0 ∧ t.dout = 0) ∧
      (∀ f ∈ [splitField (.ctlA (portOf pin)) v.modeW pin (modeCode v mode),
          splitField (.ctlB (portOf pin)) v.pullW pin (pullCode v pull),
          splitField (.outType (portOf pin)) v.otypeW pin (otypeCode v mode)],
        t.peek f.reg = f.written (s.peek f.reg)) ∧
      (∀ q, q ≠ .ctlA (portOf pin) → q ≠ .ctlB (portOf pin) → q ≠ .outType (portOf pin) → (∀ p, q ≠ .pinIn p) →
        t.peek q = s.peek q) ∧
      ∀ p o, (p ≠ portOf pin ∨ o ≠ offsetOf pin) → (t.tied p).getLsbD o = (s.tied p).getLsbD o ∧
        (t.peek (.pinIn p)).getLsbD o = (s.peek (.pinIn p)).getLsbD o := by
  obtain ⟨fieldA, fieldB, fieldC⟩ := configureField_split layout pin mode pull
  obtain ⟨t, runA, stepA, seqA, -⟩ := execRun_field fieldA cfg at_ hs fatal fg (.inl at_)
  rw [layout] at seqA
  have cfgA := stepA.cfg.trans cfg
  obtain ⟨u, runB, stepB, seqB, -⟩ := execRun_field fieldB cfgA seqA stepA.formed stepA.fatal stepA.fg
    (.inr ⟨by rw [cfgA, layout], .inl seqA⟩)
  rw [layout] at seqB
  have cfgB := stepB.cfg.trans cfgA
  obtain ⟨w, runC, stepC, seqC, response⟩ := execRun_field fieldC cfgB seqB stepB.formed stepB.fatal stepB.fg
    (.inr ⟨by rw [cfgB, layout], .inr seqB⟩)
  rw [layout] at seqC
  refine ⟨w, (runA 4).trans ((runB 2).trans (runC 0)), seqC, response seqC, ?words, fun q notA notB notC input => ?registers,
    fun p o other => ?pins⟩
  case words =>
    have wordA := (stepC.registers (.ctlA _) nofun nofun).trans ((stepB.registers (.ctlA _) nofun nofun).trans stepA.word)
    have wordB := (stepC.registers (.ctlB _) nofun nofun).trans stepB.word
    have wordC := stepC.word
    rw [stepA.registers _ (by simp [splitField]) (by simp [splitField])] at wordB
    rw [stepB.registers _ (by simp [splitField]) (by simp [splitField]),
      stepA.registers _ (by simp [splitField]) (by simp [splitField])] at wordC
    simp only [List.forall_mem_cons]
    exact ⟨wordA, wordB, wordC, nofun⟩
  case registers => rw [stepC.registers q notC input, stepB.registers q notB input, stepA.registers q notA input]
  case pins =>
    obtain ⟨tiedA, inputA⟩ := stepA.pins p o other
    obtain ⟨tiedB, inputB⟩ := stepB.pins p o other
    obtain ⟨tiedC, inputC⟩ := stepC.pins p o other
    exact ⟨tiedC.trans (tiedB.trans tiedA), inputC.trans (inputB.trans inputA)⟩

/-- Settles O25: the gate, and the three fields one after the other. -/
theorem configureSplitWritesThreeFields : Obligations.ConfigureSplitWritesThreeFields := by
  intro pin mode pull s hs accepting lawful layout valid present defined
  obtain ⟨formed, fatal, fg, gate, registers, inputs⟩ := gated_facts (pin := pin) (mode := mode) (pull := pull) accepting hs
  obtain ⟨⟨roomA, fitsA⟩, ⟨roomB, fitsB⟩, roomC, fitsC⟩ := split_of_wf lawful
  obtain ⟨t, run, seq, ⟨busy, status, dout⟩, words, others, pins⟩ :=
    execRun_split (pin := pin) (mode := mode) (pull := pull) layout State.gated_cfg rfl formed fatal fg
  refine ⟨t, (execRun_gated accepting valid present defined 6).trans run, busy, seq, status, dout, ?fields, ?gate,
    fun q notA notB notC notGate input => ?registers, fun p o other => input_of_gated inputs (pins p o other)⟩
  case fields =>
    simp only [List.forall_mem_cons, splitField] at words
    rw [registers (.ctlA _) nofun nofun, registers (.ctlB _) nofun nofun, registers (.outType _) nofun nofun] at words
    obtain ⟨wordA, wordB, wordC, -⟩ := words
    simp only [Prod.mk.injEq]
    rintro _ _ _ _ _ (⟨rfl, rfl, rfl, rfl, rfl⟩ | ⟨rfl, rfl, rfl, rfl, rfl⟩ | ⟨rfl, rfl, rfl, rfl, rfl⟩)
    · exact splitField_bits roomA fitsA wordA
    · exact splitField_bits roomB fitsB wordB
    · exact splitField_bits roomC fitsC wordC
  case gate => exact (others .clkenGpio nofun nofun nofun nofun).trans gate
  case registers => rw [others q notA notB notC input, registers q notGate input]

/-! ### The loop-back of a pin (R134, R135) -/

theorem loopBack_bit (s : State) (p o : Nat) :
    (s.loopBack p).getLsbD o = true ↔ (Cells.read s.wired p).getLsbD o = true ∧
      (Cells.read s.asOutput p).getLsbD o = true ∧ s.peek .clkenGpio &&& s.cfg.mask.gate p ≠ 0 := by
  unfold State.loopBack
  split
  · simp [*]
  · rename_i open_
    simp only [BitVec.getLsbD_and, Bool.and_eq_true, ne_eq, open_, not_false_eq_true, and_true]

/-- SET of a pin of a present port, from its acceptance to its response. -/
theorem execRun_set {pin : Byte} {level : Bool} {s : State} (hs : s.formed) (accepting : s.mayAccept = true)
    (valid : pin ≠ noPin) (present : s.cfg.portPresent (portOf pin) = true) :
    ∃ t, execRun (.set pin level) 3 s = .next t ∧ t.cfg = s.cfg ∧ t.mayAccept = true ∧
      (∀ p o, (p ≠ portOf pin ∨ o ≠ offsetOf pin) → (t.tied p).getLsbD o = (s.tied p).getLsbD o ∧
        (t.peek (.pinIn p)).getLsbD o = (s.peek (.pinIn p)).getLsbD o) ∧
      (t.tied (portOf pin)).getLsbD (offsetOf pin) = (s.loopBack (portOf pin)).getLsbD (offsetOf pin) ∧
      (t.peek (.pinIn (portOf pin))).getLsbD (offsetOf pin) =
        (if (s.loopBack (portOf pin)).getLsbD (offsetOf pin) then level
         else (s.peek (.pinIn (portOf pin))).getLsbD (offsetOf pin)) ∧
      ∀ q, q ≠ .pinIn (portOf pin) → t.peek q = s.peek q := by
  obtain ⟨-, fatal, -, fg⟩ := (mayAccept_iff s).1 accepting
  have opened := formed_opened hs (.set pin level)
  obtain ⟨v, d, own, others, run⟩ := exec_drives (i := .set pin level) (.inl rfl) opened.canonical rfl fatal fg
  have input := peek_driveTo_same (pin := pin) (v := v) opened
  rw [own, loopBack_opened, peek_opened] at input
  have start := execRun_opened (i := .set pin level) rfl accepting valid present nofun 1
  refine ⟨_, start.trans (execRun_of_next run 0), ?cfg, ?accepts, fun p o other => ?others, ?tied, ?input, fun q hq => ?registers⟩
  case cfg => simp [State.driveTo, State.setLatch]
  case accepts =>
    rw [mayAccept_iff]
    simp [State.driveTo, State.setLatch, fatal, fg]
  case others => simpa [State.driveTo] using (setLatch_drive_other opened others other).2
  case tied => simpa using tied_driveTo_same (pin := pin) (v := v) opened
  case input => rwa [peek_respond, peek_issued]
  case registers => simpa using peek_driveTo_other (s := s.opened (.set pin level)) (v := v) hq

/-- GET of a pin of a present port answers the input bit, from its acceptance to its response. -/
theorem execRun_get {pin : Byte} {s : State} (accepting : s.mayAccept = true) (valid : pin ≠ noPin)
    (present : s.cfg.portPresent (portOf pin) = true) :
    ∃ t, execRun (.get pin) 3 s = .next t ∧ t.status = 0 ∧
      t.dout = if (s.peek (.pinIn (portOf pin))).getLsbD (offsetOf pin) then 1 else 0 := by
  obtain ⟨-, fatal, -, fg⟩ := (mayAccept_iff s).1 accepting
  have start := execRun_opened (i := .get pin) rfl accepting valid present nofun 1
  have run := getAnswersTheInputBit pin (s.opened (.get pin)) rfl fatal fg _ rfl
  exact ⟨_, start.trans (execRun_of_next run 0), rfl, rfl⟩

/-- Where the mode makes an output, completion of CONFIGURE ties a wired, gated, driven pin to its latch again (R135). -/
theorem tied_configured {s : State} {pin mode : Byte} (hs : s.formed) (output : mode ∈ s.cfg.outputModes)
    (wired : (Cells.read s.wired (portOf pin)).getLsbD (offsetOf pin) = true)
    (driven : (Cells.read s.driven (portOf pin)).getLsbD (offsetOf pin) = true)
    (gate : s.peek .clkenGpio &&& s.cfg.mask.gate (portOf pin) ≠ 0) :
    ((s.configured pin mode).tied (portOf pin)).getLsbD (offsetOf pin) = true := by
  obtain ⟨none, -⟩ | ⟨-, e⟩ := configured_cases s pin mode
  · simp [output] at none
  obtain ⟨-, -, wfOutput, -⟩ := hs.listed
  rw [e, State.tied_follow, tied_bit]
  refine ⟨gate, wired, ?_, driven⟩
  rw [Cells.read_write_same _ _ _ wfOutput, BitVec.getLsbD_or, pinBit_same, Bool.or_true]

/-- Settles O30: a SET ties the pin exactly under the premises, GET answers the input bit, and a completed CONFIGURE ties the pin
again. -/
theorem loopBackReadsTheLevelSet : Obligations.LoopBackReadsTheLevelSet := by
  refine ⟨fun pin level s hs accepting valid present => ?set,
    fun pin mode pull s hs fatal fg last output wired driven gate => ?configure⟩
  case set =>
    obtain ⟨t, run, cfg, accepting', others, tied, input, registers⟩ := execRun_set (level := level) hs accepting valid present
    simp only [div_eq_portOf, mod_eq_offsetOf, ← loopBack_bit]
    refine ⟨t, run, fun p o other => (others p o other).1, fun premises => ?tied, fun premises => ?free⟩
    case tied =>
      rw [premises, if_pos rfl] at input
      obtain ⟨u, get, status, dout⟩ := execRun_get accepting' valid (cfg ▸ present)
      exact ⟨tied.trans premises, input, u, get, status, input ▸ dout⟩
    case free =>
      rw [if_neg premises] at input
      refine ⟨tied.trans (Bool.eq_false_iff.2 premises), fun q => ?_⟩
      by_cases hq : q = .pinIn (portOf pin)
      · subst hq
        refine BitVec.eq_of_getLsbD_eq fun o _ => ?_
        by_cases ho : o = offsetOf pin
        · rw [ho, input]
        · exact (others _ o (.inr ho)).2
      · exact registers q hq
  case configure =>
    obtain ⟨r, m, writes, run⟩ := exec_configure_last (pin := pin) (mode := mode) (pull := pull) last fatal fg
    obtain ⟨plain, notGate, -⟩ := configureWrites_control writes
    have formed := formed_busSetBits .fg m hs notGate
    have tied := tied_configured (pin := pin) (mode := mode) formed (by simpa using output)
      (by rwa [State.busSetBits_wired]) (by rwa [State.busSetBits_driven])
      (by rwa [State.busSetBits_cfg, peek_busSetBits_other _ _ _ _ _ plain notGate.symm])
    obtain ⟨-, loops⟩ := (formed_iff _).1 (formed_configured formed pin mode)
    exact ⟨_, run, tied, loops _ _ tied⟩

end Sys2Proof.Machine

/-! PROOFS. The Clock unit (41_clock): DEVICEINIT row by row, what bring-up and timer initialisation establish for ever after, the
order of their operations, the busy-waits and the run to completion. -/
namespace Sys2Proof.Machine

/-! ### The rows of the sequencer program (R142, R171) -/

/-- What a row makes of the state its operation leaves, where the step does not stay: the successor, `LIFE` at `S7b` and
at `T7`, and the response at `T7` (R142, R156, R171, R178). -/
def State.finish (u : State) (row : InitRow) : State :=
  if row.at_ = .t7 then { u.respond statusOk 0 with life := .running }
  else if row.at_ = .s7b then { u.goto row.next with life := .configured }
  else u.goto row.next

theorem finish_cases (u : State) (row : InitRow) :
    row.at_ = .t7 ∧ u.finish row = { u.respond statusOk 0 with life := .running } ∨
    row.at_ ≠ .t7 ∧
      u.finish row = { u.goto row.next with life := if row.at_ = .s7b then .configured else u.life } := by
  unfold State.finish
  by_cases h7 : row.at_ = .t7
  · exact .inl ⟨h7, if_pos h7⟩
  · refine .inr ⟨h7, (if_neg h7).trans ?_⟩
    split <;> rfl

/-- The row's own effect on the surface, the handler and the record is that of its operation. -/
theorem finish_keeps (u : State) (row : InitRow) :
    (u.finish row).cfg = u.cfg ∧ (u.finish row).surface = u.surface ∧ (u.finish row).olat = u.olat ∧
    (u.finish row).activePsc = u.activePsc ∧ (u.finish row).record = u.record ∧ (u.finish row).hReg = u.hReg ∧
    (u.finish row).hIrq = u.hIrq ∧ (u.finish row).hPrio = u.hPrio ∧ (u.finish row).hEn = u.hEn := by
  obtain ⟨-, e⟩ | ⟨-, e⟩ := finish_cases u row <;> simp [e]

theorem pollFlag_eq (s : State) {r : Reg} (m : Word) (q : Seq) (plain : isPlain r = true) :
    s.pollFlag r m q = if s.peek r &&& m = 0 then (s.busHasBits .fg r m).2 else (s.busHasBits .fg r m).2.goto q := by
  rw [← readReg_plain s r plain]
  by_cases h : s.readReg r &&& m = 0 <;> simp [State.pollFlag, State.busHasBits, h]

theorem pollField_eq (s : State) {r : Reg} (m v : Word) (q : Seq) (plain : isPlain r = true) :
    s.pollField r m v q = if s.peek r &&& m ≠ v then (s.busGet .fg r).2 else (s.busGet .fg r).2.goto q := by
  rw [← readReg_plain s r plain]
  by_cases h : s.readReg r &&& m = v <;> simp [State.pollField, State.busGet, h]

/-- A turn of the running foreground inside the program is a step of one of its two halves. -/
theorem exec_deviceinit_started {s : State} (fatal : s.fatal = false) (fg : s.inIsr = false) (started : 1 ≤ rank s.seq) :
    exec .deviceinit s = .next (if 19 ≤ rank s.seq then timerStep s else clockStep s) := by
  have live : s.halted = false := live_of_running fatal fun h => by simp [h] at started
  simp only [exec, execDeviceinit, foreground_live _ live fg]
  cases hs : s.seq <;> simp [hs, rank] at started ⊢

theorem row_started {v : Variant} {row : InitRow} (mem : row ∈ initProgram v) : 1 ≤ rank row.at_ := by
  revert row
  simp [initProgram, rank]

theorem row_transaction {v : Variant} {row : InitRow} (mem : row ∈ initProgram v) : isCommand row.op = false := by
  revert row
  simp [initProgram, isCommand]

theorem row_next {v : Variant} {row : InitRow} (mem : row ∈ initProgram v) :
    row.at_ = .t7 ∧ row.next = .idle ∨ row.at_ ≠ .t7 ∧ rank row.next = rank row.at_ + 1 := by
  revert row
  simp [initProgram, rank]

theorem waiting_row {v : Variant} {row : InitRow} (mem : row ∈ initProgram v) (waits : row.waits = true) :
    row = ⟨.s3w, .busHasBits .oscCtl v.mask.oscRdy, .s4a, true⟩ ∨
    row = ⟨.s4w, .busHasBits .pllCtl v.mask.pllRdy, .s5a, true⟩ ∨ row = ⟨.s6w, .busGet .clkCfg, .s7a, true⟩ := by
  revert row
  simp [initProgram]

theorem finish_seq (u : State) {v : Variant} {row : InitRow} (mem : row ∈ initProgram v) :
    (u.finish row).seq = row.next := by
  obtain ⟨h7, e⟩ | ⟨-, e⟩ := finish_cases u row
  · obtain ⟨-, next⟩ | ⟨not7, -⟩ := row_next mem
    · simp [e, next]
    · exact absurd h7 not7
  · simp [e]

/-- At each row DEVICEINIT issues the row's operation, and then stays, where it waits in vain, or finishes the row. -/
theorem exec_deviceinit_row {s : State} (fatal : s.fatal = false) (fg : s.inIsr = false) {row : InitRow}
    (mem : row ∈ initProgram s.cfg) (at_ : s.seq = row.at_) :
    ∃ u, exec row.op s = .next u ∧
      (s.unanswered ∧ exec .deviceinit s = .next u ∨ ¬ s.unanswered ∧ exec .deviceinit s = .next (u.finish row)) := by
  have agent : s.agent = .fg := by simp [State.agent, fg]
  have started : 1 ≤ rank s.seq := at_ ▸ row_started mem
  have live : s.halted = false := live_of_running fatal fun h => by simp [h] at started
  have half : ∃ u, exec row.op s = .next u ∧
      (if 19 ≤ rank s.seq then timerStep s else clockStep s) =
        if (s.seq = .s3w ∧ s.peek .oscCtl &&& s.cfg.mask.oscRdy = 0) ∨
            (s.seq = .s4w ∧ s.peek .pllCtl &&& s.cfg.mask.pllRdy = 0) ∨
            (s.seq = .s6w ∧ s.peek .clkCfg &&& s.cfg.mask.sws ≠ s.cfg.val.swsPll)
        then u else u.finish row := by
    simp only [initProgram, List.mem_append, List.mem_cons, List.not_mem_nil, or_false] at mem
    casesm* _ ∨ _
    all_goals
      subst row
      simp [exec, execBusSet, execBusSetBits, execBusClearBits, execBusGet, execBusHasBits, execIntcRegister,
        execIntcSetPriority, execIntcEnable, busStep, portStep, live, agent, Variant.hasReg, State.disturb, at_, rank,
        clockStep, timerStep, pollFlag_eq, pollField_eq, State.finish]
  obtain ⟨u, run, e⟩ := half
  rw [exec_deviceinit_started fatal fg started, e]
  refine ⟨u, run, ?_⟩
  by_cases pending : s.unanswered
  · exact .inl ⟨pending, congrArg _ (if_pos pending)⟩
  · exact .inr ⟨pending, congrArg _ (if_neg pending)⟩

/-- Settles O33: at each row the step has the effect of the row's operation, and stays or finishes the row. -/
theorem deviceinitFollowsTheProgram : Obligations.DeviceinitFollowsTheProgram := by
  intro s fatal fg row mem at_
  obtain ⟨u, run, h⟩ := exec_deviceinit_row fatal fg mem at_
  obtain ⟨-, -, -, -, -, -, life, seq, -, -, -, -, -, -, -, dout, status, busy, responses, -⟩ :=
    exec_transaction_keeps (row_transaction mem) run
  have response : keptResponse s u := ⟨busy, status, dout, responses⟩
  obtain ⟨pending, step⟩ | ⟨answered, step⟩ := h
  · have waiting : s.seq ≠ .s7b ∧ s.seq ≠ .t7 := by
      obtain ⟨e, -⟩ | ⟨e, -⟩ | ⟨e, -⟩ := pending <;> simp [e]
    exact ⟨u, u, step, run, rfl, rfl, rfl, rfl, rfl, rfl, rfl, rfl, seq.trans (if_pos pending).symm,
      by simp [waiting, life], by simp [waiting], fun _ => response⟩
  · obtain ⟨-, surface, olat, psc, record, hReg, hIrq, hPrio, hEn⟩ := finish_keeps u row
    refine ⟨_, u, step, run, record, surface, olat, psc, hReg, hIrq, hPrio, hEn,
      (finish_seq u mem).trans (if_neg answered).symm, ?_⟩
    obtain ⟨h7, e⟩ | ⟨h7, e⟩ := finish_cases u row
    · simp [e, at_, h7, responses, statusOk]
    · simpa [e, at_, h7, keptResponse, life] using response

/-- Settles O37: a command turned away at its acceptance (R141). -/
theorem secondDeviceinitAnswersRefused : Obligations.SecondDeviceinitAnswersRefused := by
  intro s accepting started
  obtain ⟨busy, fatal, waiting, fg⟩ := (mayAccept_iff s).1 accepting
  have live := live_of_running (s := s) fatal (by simp [waiting])
  have word : Instr.deviceinit.commandWord = 0x60000000 := by decide
  simp [exec, execDeviceinit, foreground_live _ live fg, waiting, started, word, State.turnAway, State.latchCommand,
    State.respond, busy, statusRefused]

/-! ### Fields of one register are apart (R7) -/

theorem pairwise_of_allApart {v : Variant} {l : List (Reg × Word)} (h : v.allApart l = true) :
    l.Pairwise fun f g => v.apart f g = true := by
  induction l with
  | nil => exact .nil
  | cons f l ih =>
    obtain ⟨first, rest⟩ := Bool.and_eq_true_iff.1 h
    exact .cons (List.all_eq_true.1 first) (ih rest)

theorem physical_self (v : Variant) (r : Reg) : (v.physical r != v.physical r) = false := by
  cases v.physical r with
  | inl a => exact bne_self_eq_false a
  | inr a => exact bne_self_eq_false a

/-- The masks of the fields of a register that is not per port are disjoint, each from every later one of R36 to R50. -/
theorem masks_disjoint {v : Variant} (wf : v.wf = true) (r : Reg) :
    ((v.chipFields.filter (·.1 == r)).map Prod.snd).Pairwise fun m n => m &&& n = 0 := by
  simp only [Variant.wf, Bool.and_eq_true] at wf
  obtain ⟨⟨⟨⟨⟨⟨⟨-, apart⟩, -⟩, -⟩, -⟩, -⟩, -⟩, -⟩ := wf
  rw [List.pairwise_map]
  refine ((pairwise_of_allApart apart).sublist (List.filter_sublist.trans (List.sublist_append_left _ _))).imp_of_mem ?_
  intro f g hf hg h
  have same : f.1 = g.1 := by simp only [List.mem_filter, beq_iff_eq] at hf hg; rw [hf.2, hg.2]
  simpa [Variant.apart, same, physical_self] using h

theorem and_eq_zero_of_inside {x m f : Word} (h : inside x m = true) (apart : m &&& f = 0) : x &&& f = 0 := by
  have within := and_not_of_and_eq_zero (beq_iff_eq.1 h)
  rw [BitVec.not_not] at within
  rw [← within, BitVec.and_assoc, apart]
  exact BitVec.and_zero

theorem clkCfg_apart {v : Variant} (wf : v.wf = true) :
    v.mask.ahbPre &&& v.mask.sw = 0 ∧ v.mask.ahbPre &&& v.mask.sws = 0 ∧ v.mask.ahbPre &&& v.mask.apbPre = 0 ∧
    v.mask.sw &&& v.mask.sws = 0 ∧ v.mask.sw &&& v.mask.apbPre = 0 ∧ v.mask.sws &&& v.mask.apbPre = 0 := by
  have h := masks_disjoint wf .clkCfg
  simp [Variant.chipFields] at h
  simp [h]

theorem clkCfg_inside {v : Variant} (wf : v.wf = true) :
    inside v.val.ahbPre v.mask.ahbPre = true ∧ inside v.val.apbPre v.mask.apbPre = true ∧
    inside v.val.swPll v.mask.sw = true := by
  simp only [Variant.wf, Variant.valuesInside, Bool.and_eq_true] at wf
  simp [wf]

theorem pll_apart {v : Variant} (wf : v.wf = true) :
    v.mask.pllFields &&& v.mask.pllOen = 0 ∧ v.mask.pllOn &&& v.mask.pllRdy = 0 ∧ v.mask.oscOn &&& v.mask.oscRdy = 0 := by
  have h := masks_disjoint wf .pllCfg
  have h' := masks_disjoint wf .pllCtl
  have h'' := masks_disjoint wf .oscCtl
  simp [Variant.chipFields] at h h' h''
  simp [Masks.pllFields, h, h', h'', BitVec.and_or_distrib_right]

/-! ### The fields bring-up and timer initialisation write (R156, R178) -/

/-- A field DEVICEINIT writes: the micro-step that writes it, its register, mask and value, and whether the micro-step before
clears it (R67, R256). -/
structure InitField where
  at_ : Seq
  reg : Reg
  mask : Word
  value : Word
  cleared : Bool

/-- The fields, in the order of the program. -/
def initFields (v : Variant) : List InitField :=
  [⟨.s1a, .clkenSyscfg, v.mask.cgSyscfg, v.mask.cgSyscfg, false⟩, ⟨.s1b, .clkenPwr, v.mask.cgPwr, v.mask.cgPwr, false⟩,
   ⟨.s2b, .flashAcr, v.mask.latency, v.val.latency, true⟩, ⟨.s3a, .oscCtl, v.mask.oscOn, v.mask.oscOn, false⟩,
   ⟨.s4b, .pllCfg, v.mask.pllFields, v.val.pllFields, true⟩, ⟨.s4c, .pllCtl, v.mask.pllOn, v.mask.pllOn, false⟩,
   ⟨.s4d, .pllCfg, v.mask.pllOen, v.mask.pllOen, false⟩, ⟨.s5b, .clkCfg, v.mask.ahbPre, v.val.ahbPre, true⟩,
   ⟨.s6b, .clkCfg, v.mask.sw, v.val.swPll, true⟩, ⟨.s7b, .clkCfg, v.mask.apbPre, v.val.apbPre, true⟩,
   ⟨.t1, .clkenTim, v.mask.cgTim, v.mask.cgTim, false⟩, ⟨.t2a, .timPsc, BitVec.allOnes 32, v.val.timPsc, false⟩,
   ⟨.t2b, .timArr, BitVec.allOnes 32, v.val.timArr, false⟩, ⟨.t4, .timCr, v.mask.cen, v.mask.cen, false⟩,
   ⟨.t5, .timDier, v.mask.uie, v.mask.uie, false⟩]

/-- The field holds its value from its micro-step on and is zero in the window before it. -/
def State.establishes (s : State) (f : InitField) : Prop :=
  (s.past (rank f.at_) → s.holds f.reg f.mask f.value) ∧ (f.cleared = true → s.seq = f.at_ → s.holds f.reg f.mask 0)

/-- The handler is registered, with its id, at `T6a`, has its priority at `T6b` and is enabled at `T7` (R171, R178). -/
def State.handlerSet (s : State) : Prop :=
  (s.past 25 → s.hReg = true ∧ s.hIrq = s.cfg.tickIrq) ∧ (s.past 26 → s.hPrio = s.cfg.tickPrio) ∧
  (s.past 27 → s.hEn = true)

theorem broughtUp_iff (s : State) :
    s.broughtUp ↔ s.cfg.wf = true ∧ (∀ f ∈ initFields s.cfg, s.establishes f) ∧ s.handlerSet := by
  have whole (r : Reg) (w : Word) : s.holds r (BitVec.allOnes 32) w ↔ s.peek r = w := by
    rw [State.holds, BitVec.and_allOnes]
  simp only [initFields, List.forall_mem_cons, State.establishes, rank, whole, State.broughtUp, State.handlerSet]
  simp only [Bool.false_eq_true, false_imp_iff, and_true, forall_const, List.not_mem_nil, implies_true]
  tauto

/-! ### What a row does to a field -/

/-- The registers of the fields of DEVICEINIT, each with a stored word and none of a port (R36 to R48). -/
def isInitReg : Reg → Bool
  | .clkenSyscfg | .clkenPwr | .flashAcr | .oscCtl | .pllCfg | .pllCtl | .clkCfg | .clkenTim | .timPsc | .timArr | .timCr
  | .timDier => true
  | _ => false

theorem isPlain_of_isInitReg {r : Reg} (h : isInitReg r = true) : isPlain r = true := by
  revert h
  cases r <;> simp [isInitReg, isPlain, isTrigger]

/-- The bits of a register of DEVICEINIT that an operation can move. -/
def touched (op : Instr) (r : Reg) : Word :=
  match op with
  | .busSet q _ => if q = r then BitVec.allOnes 32 else 0#32
  | .busSetBits q m | .busClearBits q m => if q = r then m else 0#32
  | _ => 0#32

/-- A field moves with the bits of its register that are written over it. -/
theorem and_of_touched (p m h f : Word) (apart : m &&& f = 0) :
    (p ||| (m &&& ~~~h)) &&& f = p &&& f ∧ (p &&& ~~~(m &&& ~~~h)) &&& f = p &&& f := by
  have bit (k : Nat) (hk : k < 32) : m[k] = false ∨ f[k] = false := by
    simpa [Bool.and_eq_false_iff, -Bool.and_eq_false_imp] using congrArg (fun w : Word => w[k]) apart
  constructor
  all_goals
    ext k hk
    obtain e | e := bit k hk <;> simp [e]

/-- A field whose bits the operation does not touch stays. -/
theorem field_untouched {op : Instr} {s u : State} {r : Reg} {f : Word} (transaction : isCommand op = false)
    (run : exec op s = .next u) (canonical : s.canonical) (hr : isInitReg r = true) (apart : touched op r &&& f = 0) :
    u.peek r &&& f = s.peek r &&& f := by
  have other {q : Reg} {i : Instr} {v : Word} (hq : r ≠ q)
      (hi : i = .busGet q ∨ i = .busSet q v ∨ i = .busSetBits q v ∨ i = .busClearBits q v ∨ i = .busHasBits q v)
      (run : exec i s = .next u) : u.peek r &&& f = s.peek r &&& f := by
    obtain ⟨-, -, -, -, -, -, -, -, -, -, -, -, -, -, -, registers, -⟩ := busTransactionsFrame q v i s u hi run
    rw [registers r hq (fun _ => by rintro rfl; cases hr) (fun p _ => by rintro rfl; cases hr)]
  have plain := isPlain_of_isInitReg hr
  cases op with
  | busSet q v =>
    by_cases hq : q = r
    · have none : f = 0 := by rwa [touched, if_pos hq, BitVec.allOnes_and] at apart
      simp [none]
    · exact other (Ne.symm hq) (.inr (.inl rfl)) run
  | busSetBits q m =>
    by_cases hq : q = r
    · subst hq
      rw [peek_exec_busSetBits_same canonical plain run]
      exact (and_of_touched _ _ _ _ (by simpa [touched] using apart)).1
    · exact other (Ne.symm hq) (.inr (.inr (.inl rfl))) run
  | busClearBits q m =>
    by_cases hq : q = r
    · subst hq
      obtain ⟨-, -, rfl⟩ := busStep_cases (show execBusClearBits q m s = .next u from run)
      rw [peek_disturb_same, peek_busClearBits_same s _ q m plain (by rintro rfl; cases hr) canonical.1]
      exact (and_of_touched _ _ _ _ (by simpa [touched] using apart)).2
    · exact other (Ne.symm hq) (.inr (.inr (.inr (.inl rfl)))) run
  | busGet q =>
    obtain ⟨-, -, rfl⟩ := busStep_cases (show execBusGet q s = .next u from run)
    rfl
  | busHasBits q m =>
    obtain ⟨-, -, rfl⟩ := busStep_cases (show execBusHasBits q m s = .next u from run)
    rfl
  | intcRegister n =>
    obtain ⟨-, e⟩ := portStep_cases (show execIntcRegister n s = .next u from run)
    cases e
    rfl
  | intcSetPriority n =>
    obtain ⟨-, e⟩ := portStep_cases (show execIntcSetPriority n s = .next u from run)
    cases e
    rfl
  | intcEnable =>
    obtain ⟨-, e⟩ := portStep_cases (show execIntcEnable s = .next u from run)
    cases e
    rfl
  | _ => cases transaction

/-- R7: a value lies inside its field's mask. -/
theorem and_eq_self_of_inside {x m : Word} (h : inside x m = true) : x &&& m = x := by
  have within := and_not_of_and_eq_zero (beq_iff_eq.1 h)
  rwa [BitVec.not_not] at within

/-- A field of DEVICEINIT is core-owned (R35), and its value lies inside its mask (R7). -/
theorem initField_lawful {v : Variant} (wf : v.wf = true) {f : InitField} (mem : f ∈ initFields v) :
    isInitReg f.reg = true ∧ f.mask &&& v.hardwareOwned f.reg = 0 ∧ f.value &&& f.mask = f.value := by
  obtain ⟨-, pll, osc⟩ := pll_apart wf
  obtain ⟨-, ahb, -, sw, -, apb⟩ := clkCfg_apart wf
  rw [BitVec.and_comm] at apb
  simp only [Variant.wf, Variant.valuesInside, Bool.and_eq_true] at wf
  revert f
  simp [initFields, isInitReg, Variant.hardwareOwned, and_eq_self_of_inside, wf, osc, pll, ahb, sw, apb,
    -BitVec.reduceAllOnes]

/-- The row of a field's micro-step sets it, from zero where it is not the whole mask, or is the write of its whole
register. -/
theorem row_writes_field {v : Variant} : ∀ row ∈ initProgram v, ∀ f ∈ initFields v, rank row.at_ = rank f.at_ →
    row.at_ = f.at_ ∧
    (row.op = .busSetBits f.reg f.value ∧ (f.cleared = true ∨ f.value = f.mask) ∨
      row.op = .busSet f.reg f.value ∧ f.mask = BitVec.allOnes 32 ∧ v.hardwareOwned f.reg = 0) := by
  simp only [initProgram, initFields, List.cons_append, List.nil_append, List.forall_mem_cons, rank, Nat.reduceEqDiff,
    false_imp_iff, List.not_mem_nil, implies_true, and_self, true_or, or_true, Variant.hardwareOwned, reduceCtorEq, false_or]

/-- The row before the micro-step of a field that has a window clears it. -/
theorem row_clears_field {v : Variant} : ∀ row ∈ initProgram v, ∀ f ∈ initFields v, f.cleared = true → row.next = f.at_ →
    row.op = .busClearBits f.reg f.mask := by
  simp only [initProgram, initFields, List.cons_append, List.nil_append, List.forall_mem_cons, reduceCtorEq, false_imp_iff,
    Bool.false_eq_true, List.not_mem_nil, implies_true, and_self]

/-- No row touches a field of an earlier one: fields of one register are apart. -/
theorem row_spares_field {v : Variant} (wf : v.wf = true) : ∀ row ∈ initProgram v, ∀ f ∈ initFields v,
    rank f.at_ < rank row.at_ → touched row.op f.reg &&& f.mask = 0#32 := by
  obtain ⟨oen, -⟩ := pll_apart wf
  obtain ⟨sw, -, ahb, -, apb, -⟩ := clkCfg_apart wf
  rw [BitVec.and_comm] at oen sw ahb apb
  obtain ⟨ahbIn, apbIn, swIn⟩ := clkCfg_inside wf
  simp only [initProgram, initFields, List.cons_append, List.nil_append, List.forall_mem_cons, rank, Nat.reduceLT,
    false_imp_iff, touched, reduceCtorEq, ↓reduceIte, BitVec.zero_and, List.not_mem_nil, implies_true, and_true, true_and,
    forall_const]
  exact ⟨oen, sw, and_eq_zero_of_inside swIn sw, ⟨ahb, apb⟩, and_eq_zero_of_inside apbIn ahb, and_eq_zero_of_inside apbIn apb⟩

/-! ### Bring-up is kept outside the program (R156, R178) -/

/-- The handler registers (R33). -/
def keptHandler (s t : State) : Prop := t.hReg = s.hReg ∧ t.hIrq = s.hIrq ∧ t.hPrio = s.hPrio ∧ t.hEn = s.hEn

/-- A step that stays at its micro-step, or leaves the program without entering `Running`, and moves no field and no handler
keeps what is established. -/
theorem broughtUp_of_kept {s t : State} (hs : s.broughtUp) (cfg : t.cfg = s.cfg) (life : t.life = s.life)
    (seq : rank t.seq = 0 ∨ t.seq = s.seq) (handler : keptHandler s t)
    (fields : ∀ f ∈ initFields s.cfg, t.peek f.reg &&& f.mask = s.peek f.reg &&& f.mask) : t.broughtUp := by
  obtain ⟨wf, established, registered, priority, enabled⟩ := (broughtUp_iff s).1 hs
  obtain ⟨hReg, hIrq, hPrio, hEn⟩ := handler
  have past {k : Nat} (h : t.past k) : s.past k := by
    rw [State.past, life] at h
    obtain outside | same := seq
    · exact h.imp_right fun h => by omega
    · rwa [same] at h
  rw [broughtUp_iff, State.handlerSet, cfg, hReg, hIrq, hPrio, hEn]
  refine ⟨wf, fun f mem => ?_, registered ∘ past, priority ∘ past, enabled ∘ past⟩
  obtain ⟨held, window⟩ := established f mem
  rw [State.establishes, State.holds, State.holds, fields f mem]
  refine ⟨held ∘ past, fun cleared at_ => ?_⟩
  obtain outside | same := seq
  · have inside : 1 ≤ rank f.at_ := by
      revert f
      simp [initFields, rank]
    rw [← at_] at inside
    omega
  · exact window cleared (same ▸ at_)

/-- Before the second micro-step nothing is established. -/
theorem broughtUp_of_unstarted {t : State} (wf : t.cfg.wf = true) (life : t.life ≠ .running) (seq : rank t.seq ≤ 1) :
    t.broughtUp := by
  have past {k : Nat} (h : 1 ≤ k) : ¬ t.past k := by
    rintro (running | passed)
    · exact life running
    · omega
  refine (broughtUp_iff t).2 ⟨wf, fun f mem => ?_, fun h => absurd h (past (by decide)), fun h => absurd h (past (by decide)),
    fun h => absurd h (past (by decide))⟩
  have inside : 1 ≤ rank f.at_ ∧ (f.cleared = true → 1 < rank f.at_) := by
    revert f
    simp [initFields, rank]
  exact ⟨fun h => absurd h (past inside.1), fun cleared at_ => absurd (inside.2 cleared) (by rw [← at_]; omega)⟩

theorem not_isInitReg_of_configureWrites {pin : Byte} {s : State} {r : Reg} (h : configureWrites pin s r) :
    isInitReg r = false := by
  obtain ⟨-, -, rfl⟩ | ⟨-, -, rfl⟩ | ⟨-, -, rfl⟩ | ⟨-, -, rfl⟩ := h
  · unfold packedReg
    split <;> rfl
  all_goals rfl

/-- No command but DEVICEINIT writes a field of bring-up, the handler or `LIFE`. -/
theorem otherCommand_keeps {i : Instr} {s t : State} (hc : isCommand i = true) (hi : i ≠ .deviceinit)
    (h : exec i s = .next t) :
    t.life = s.life ∧ keptHandler s t ∧ ∀ r, isInitReg r = true → t.peek r = s.peek r := by
  have access {pin : Byte} {level : Bool} (hi : i = .set pin level ∨ i = .high pin ∨ i = .low pin ∨ i = .get pin) :
      t.life = s.life ∧ keptHandler s t ∧ ∀ r, isInitReg r = true → t.peek r = s.peek r := by
    obtain ⟨-, ⟨life, -, -, hReg, hIrq, hPrio, hEn, -⟩, -, -, registers, -⟩ := pinAccessFrame i pin level s t hi h
    exact ⟨life, ⟨hReg, hIrq, hPrio, hEn⟩, fun r hr => registers r (by rintro rfl; cases hr)⟩
  have quiet (k : quietStep i s t) : t.life = s.life ∧ keptHandler s t ∧ ∀ r, isInitReg r = true → t.peek r = s.peek r := by
    obtain ⟨-, ⟨life, -, -, hReg, hIrq, hPrio, hEn, -⟩, -, -, outside⟩ := k
    exact ⟨life, ⟨hReg, hIrq, hPrio, hEn⟩, fun r _ => outside.peek r⟩
  cases i with
  | set pin level => exact access (.inl rfl)
  | high pin => exact access (level := true) (.inr (.inl rfl))
  | low pin => exact access (level := true) (.inr (.inr (.inl rfl)))
  | get pin => exact access (level := true) (.inr (.inr (.inr rfl)))
  | configure pin mode pull =>
    have step := configureStep h
    obtain ⟨-, ⟨life, -, -, hReg, hIrq, hPrio, hEn, -⟩, -⟩ := step.units
    refine ⟨life, ⟨hReg, hIrq, hPrio, hEn⟩, fun r hr => step.registers ?_ ?_ ?_⟩
    · rintro ⟨-, rfl | ⟨p, rfl⟩⟩ <;> cases hr
    · exact fun writes => by simp [not_isInitReg_of_configureWrites writes] at hr
    · rintro - rfl
      cases hr
  | deviceinit => exact absurd rfl hi
  | ticks =>
    obtain ⟨-, ⟨-, rfl⟩ | ⟨-, ⟨hs, rfl⟩ | ⟨-, rfl⟩ | ⟨-, -, rfl⟩⟩⟩ := execTicks_cases h
    case inr.inl => exact quiet (opening_accept .ticks .k0 hs).quiet
    all_goals exact ⟨rfl, ⟨rfl, rfl, rfl, rfl⟩, fun _ _ => rfl⟩
  | sleepticks d =>
    obtain ⟨-, ⟨-, rfl⟩ | ⟨-, ⟨hs, rfl⟩ | ⟨-, rfl⟩ | ⟨-, -, rfl⟩ | ⟨-, -, rfl⟩ | ⟨-, -, -, rfl⟩⟩⟩ := execSleepticks_cases h
    case inr.inl => exact quiet (opening_accept (.sleepticks d) .l0 hs).quiet
    all_goals exact ⟨rfl, ⟨rfl, rfl, rfl, rfl⟩, fun _ _ => rfl⟩
  | _ => cases hc

/-- Of the commands only DEVICEINIT has micro-steps in the program (R26). -/
theorem rank_of_inCommand {l : PinLayout} {i : Instr} {q : Seq} (h : inCommand l i q = true) (hi : i ≠ .deviceinit) :
    rank q = 0 := by
  cases i with
  | deviceinit => exact absurd rfl hi
  | ticks =>
    obtain rfl : q = .k0 := by simpa [inCommand] using h
    rfl
  | configure | set | high | low | get | sleepticks =>
    cases l
    all_goals
      simp only [inCommand, Bool.or_eq_true, beq_iff_eq] at h
      casesm* _ ∨ _
    all_goals
      subst q
      rfl
  | _ => cases h

/-- A command other than DEVICEINIT is outside the program after its step, or its step changes nothing. -/
theorem otherCommand_outside {i : Instr} {s t : State} (hc : isCommand i = true) (hi : i ≠ .deviceinit)
    (h : exec i s = .next t) : t = s ∨ rank t.seq = 0 := by
  obtain ⟨⟨-, -, -, -, cfg, -⟩, rfl | ⟨-, hstep⟩⟩ := exec_command_cases hc h
  · exact .inl rfl
  right
  obtain ⟨-, -, rfl, -⟩ | ⟨-, -, rfl, -⟩ | ⟨-, -, _, -, ⟨-, rfl⟩ | ⟨-, -, rfl⟩⟩ | ⟨-, inside, -⟩ |
    ⟨-, -, -, completed, -⟩ := hstep
  · simp [rank_firstStep, hi]
  · exact absurd rfl hi
  · rfl
  · rfl
  · exact rank_of_inCommand inside hi
  · simp [completed]

theorem MoveKind.keptHandler {m : Move} {s t : State} (h : MoveKind m s t) (hm : m ≠ .reset) : keptHandler s t := by
  cases h with
  | reset move => exact absurd move hm
  | _ => simp [*, State.pokeField, Machine.keptHandler]

/-- A field given a value leaves every field apart from it as it was. -/
theorem field_pokeField {s : State} {r q : Reg} {mask w f : Word} (canonical : s.canonical) (apart : q = r → f &&& mask = 0) :
    (s.pokeField q mask w).peek r &&& f = s.peek r &&& f := by
  by_cases hq : r = q
  · subst hq
    rw [State.pokeField, State.peek_poke_same _ _ _ canonical.1]
    obtain ⟨-, outside⟩ := field_given (s.peek r) mask w
    have spared := and_not_of_and_eq_zero (apart rfl)
    rw [← spared, BitVec.and_comm f, ← BitVec.and_assoc, outside, BitVec.and_assoc]
  · exact congrArg (· &&& f) (State.peek_poke_other s q r _ hq)

/-- ENV and the host move hardware-owned bits alone of the registers of DEVICEINIT (R35, R53 to R57). -/
theorem field_applyMove {m : Move} (hm : m ≠ .reset) {s : State} (canonical : s.canonical) {r : Reg} (hr : isInitReg r = true)
    {f : Word} (core : f &&& s.cfg.hardwareOwned r = 0) : (applyMove m s).peek r &&& f = s.peek r &&& f := by
  have given {q : Reg} {mask : Word} (w : Word) (owned : q = r → s.cfg.hardwareOwned r = mask) :
      (s.pokeField q mask w).peek r &&& f = s.peek r &&& f :=
    field_pokeField canonical fun h => owned h ▸ core
  cases m with
  | core | offer => rfl
  | reset => exact absurd rfl hm
  | enter => obtain ⟨-, e⟩ | ⟨-, e⟩ := takeEntry_cases s <;> exact congrArg (·.peek r &&& f) e
  | spurious => obtain ⟨-, e⟩ | ⟨-, e⟩ := spuriousService_cases s <;> exact congrArg (·.peek r &&& f) e
  | clearWake => obtain ⟨-, e⟩ | ⟨-, e⟩ := clearWake_cases s <;> exact congrArg (·.peek r &&& f) e
  | oscReady b => exact given _ (by rintro rfl; rfl)
  | pllReady b => exact given _ (by rintro rfl; rfl)
  | swStatus w => exact given _ (by rintro rfl; rfl)
  | updateEvent =>
    obtain ⟨-, e⟩ | ⟨-, e⟩ := periodicUpdate_cases s <;> rw [applyMove, e]
    exact congrArg (· &&& f) (State.peek_poke_other s .timSr r _ (by rintro rfl; cases hr))
  | pinInput p w =>
    obtain ⟨-, e⟩ | ⟨-, e⟩ := drivePins_cases s p w <;> rw [applyMove, e]
    exact given w (by rintro rfl; cases hr)

/-! ### Bring-up is kept by the program (R156, R178) -/

theorem exists_row (v : Variant) {q : Seq} (started : 1 ≤ rank q) : ∃ row ∈ initProgram v, row.at_ = q := by
  have steps : (initProgram v).map InitRow.at_ =
      [.s1a, .s1b, .s2a, .s2b, .s3a, .s3w, .s4a, .s4b, .s4c, .s4d, .s4w, .s5a, .s5b, .s6a, .s6b, .s6w, .s7a, .s7b, .t1,
       .t2a, .t2b, .t3, .t4, .t5, .t6a, .t6b, .t7] := rfl
  rw [← List.mem_map, steps]
  revert started
  cases q <;> decide

theorem rank_le (q : Seq) : rank q ≤ 27 := by cases q <;> simp [rank]

theorem rank_eq_26 (q : Seq) : rank q = 26 ↔ q = .t6b := by cases q <;> simp [rank]

theorem waits_of_at {v : Variant} : ∀ row ∈ initProgram v, row.at_ = .s3w ∨ row.at_ = .s4w ∨ row.at_ = .s6w →
    row.waits = true := by
  simp only [initProgram, List.cons_append, List.nil_append, List.forall_mem_cons, reduceCtorEq, or_self, false_imp_iff,
    implies_true, List.not_mem_nil, and_self]

theorem waits_of_unanswered {s : State} {row : InitRow} (mem : row ∈ initProgram s.cfg) (at_ : row.at_ = s.seq)
    (pending : s.unanswered) : row.waits = true :=
  waits_of_at row mem (at_ ▸ pending.imp And.left (.imp And.left And.left))

/-- The busy-waits are in the clock half of the program. -/
theorem rank_of_unanswered {s : State} (pending : s.unanswered) : 1 ≤ rank s.seq ∧ ¬ 19 ≤ rank s.seq := by
  obtain ⟨e, -⟩ | ⟨e, -⟩ | ⟨e, -⟩ := pending <;> simp [e, rank]

/-- An unanswered visit is one read and nothing else (R146, R149, R152). -/
theorem exec_deviceinit_waits {s : State} (fatal : s.fatal = false) (fg : s.inIsr = false) (pending : s.unanswered) :
    ∃ op x d, exec .deviceinit s = .next (s.issued .fg op x d) := by
  obtain ⟨row, mem, at_⟩ := exists_row s.cfg (rank_of_unanswered pending).1
  have waits := waits_of_unanswered mem at_ pending
  have agent : s.agent = .fg := by simp [State.agent, fg]
  obtain ⟨u, run, ⟨-, step⟩ | ⟨answered, -⟩⟩ := exec_deviceinit_row fatal fg mem at_.symm
  · rw [step, ← agent]
    obtain rfl | rfl | rfl := waiting_row mem waits
    · obtain ⟨-, -, rfl⟩ := busStep_cases (show execBusHasBits _ _ s = .next u from run)
      exact ⟨_, _, _, rfl⟩
    · obtain ⟨-, -, rfl⟩ := busStep_cases (show execBusHasBits _ _ s = .next u from run)
      exact ⟨_, _, _, rfl⟩
    · obtain ⟨-, -, rfl⟩ := busStep_cases (show execBusGet _ s = .next u from run)
      exact ⟨_, _, _, rfl⟩
  · exact absurd pending answered

/-- After a row the micro-steps up to its own have been performed. -/
theorem le_rank_of_past_finish {u : State} {v : Variant} {row : InitRow} (mem : row ∈ initProgram v)
    (life : u.life ≠ .running) {k : Nat} (small : k ≤ 27) (h : (u.finish row).past k) : k ≤ rank row.at_ := by
  obtain ⟨h7, e⟩ | ⟨h7, e⟩ := finish_cases u row
  · simpa [h7, rank] using small
  · obtain ⟨at_, -⟩ | ⟨-, next⟩ := row_next mem
    · exact absurd at_ h7
    rw [State.past, finish_seq u mem, e] at h
    obtain running | passed := h
    · simp only at running
      split at running
      · cases running
      · exact absurd running life
    · omega

/-- The rows of the interrupt port write the handler, each its own register, and no other row does (R171). -/
theorem handler_of_row {s u : State} {row : InitRow} (mem : row ∈ initProgram s.cfg) (run : exec row.op s = .next u) :
    u.hReg = (s.hReg || row.at_ == .t6a) ∧ u.hIrq = (if row.at_ = .t6a then s.cfg.tickIrq else s.hIrq) ∧
    u.hPrio = (if row.at_ = .t6b then s.cfg.tickPrio else s.hPrio) ∧ u.hEn = (s.hEn || row.at_ == .t7) := by
  have kinds : (∃ r m, row.op = .busGet r ∨ row.op = .busSet r m ∨ row.op = .busSetBits r m ∨ row.op = .busClearBits r m ∨
      row.op = .busHasBits r m) ∧ row.at_ ≠ .t6a ∧ row.at_ ≠ .t6b ∧ row.at_ ≠ .t7 ∨
      row = ⟨.t6a, .intcRegister s.cfg.tickIrq, .t6b, false⟩ ∨ row = ⟨.t6b, .intcSetPriority s.cfg.tickPrio, .t7, false⟩ ∨
      row = ⟨.t7, .intcEnable, .idle, false⟩ := by
    clear run
    revert row
    simp [initProgram]
  obtain ⟨⟨r, m, bus⟩, h6a, h6b, h7⟩ | rfl | rfl | rfl := kinds
  · obtain ⟨-, -, -, -, -, -, -, -, -, -, hReg, hIrq, hPrio, hEn, -⟩ := busTransactionsFrame r m row.op s u bus run
    simp [*]
  · obtain ⟨-, e⟩ := portStep_cases (show execIntcRegister _ s = .next u from run)
    cases e
    simp
  · obtain ⟨-, e⟩ := portStep_cases (show execIntcSetPriority _ s = .next u from run)
    cases e
    simp
  · obtain ⟨-, e⟩ := portStep_cases (show execIntcEnable s = .next u from run)
    cases e
    simp

/-- A step of DEVICEINIT that answers: none of its own, its acceptance, the REFUSED answer (R141), or a visit of the row at
`SEQ`, which stays or finishes the row. -/
theorem deviceinit_cases {s t : State} (run : exec .deviceinit s = .next t) :
    t = s ∨
    s.life = .uninitialized ∧
      t = (s.latchCommand Instr.deviceinit.commandWord (Instr.deviceinit.dataOperand s.dinIn)).goto .s1a ∨
    t = (s.latchCommand Instr.deviceinit.commandWord s.dinIn).respond statusRefused 0 ∨
    s.fatal = false ∧ s.inIsr = false ∧ ∃ row ∈ initProgram s.cfg, row.at_ = s.seq ∧ ∃ u, exec row.op s = .next u ∧
      (s.unanswered ∧ t = u ∨ ¬ s.unanswered ∧ t = u.finish row) := by
  obtain ⟨live, ⟨-, rfl⟩ | ⟨fg, h⟩⟩ := execDeviceinit_cases (show execDeviceinit s = .next t from run)
  · exact .inl rfl
  have fatal := fatal_of_live live
  by_cases started : 1 ≤ rank s.seq
  · obtain ⟨row, mem, at_⟩ := exists_row s.cfg started
    obtain ⟨u, runRow, step⟩ := exec_deviceinit_row fatal fg mem at_.symm
    refine .inr (.inr (.inr ⟨fatal, fg, row, mem, at_, u, runRow, ?_⟩))
    obtain ⟨pending, stay⟩ | ⟨answered, go⟩ := step
    · exact .inl ⟨pending, by cases run.symm.trans stay; rfl⟩
    · exact .inr ⟨answered, by cases run.symm.trans go; rfl⟩
  · obtain ⟨-, unstarted, rfl⟩ | ⟨-, -, rfl⟩ | ⟨-, late, -⟩ | ⟨-, -, rfl⟩ := h
    · obtain ⟨-, e⟩ | ⟨-, e⟩ := accept_cases s .deviceinit .s1a
      · exact .inl e
      · exact .inr (.inl ⟨unstarted, e⟩)
    · obtain ⟨-, e⟩ | ⟨-, e⟩ := turnAway_cases s Instr.deviceinit.commandWord s.dinIn statusRefused
      · exact .inl e
      · exact .inr (.inr (.inl e))
    · omega
    · left
      cases hq : s.seq <;> simp [hq, rank, clockStep] at started ⊢

/-- The field a row writes holds its value after it (R64, R67). -/
theorem field_written {s u : State} {row : InitRow} {f : InitField} (wf : s.cfg.wf = true) (canonical : s.canonical)
    (mem : row ∈ initProgram s.cfg) (at_ : s.seq = row.at_) (run : exec row.op s = .next u) (hf : f ∈ initFields s.cfg)
    (same : rank row.at_ = rank f.at_) (established : s.establishes f) : u.holds f.reg f.mask f.value := by
  obtain ⟨-, window⟩ := established
  obtain ⟨initReg, core, value⟩ := initField_lawful wf hf
  have plain := isPlain_of_isInitReg initReg
  obtain ⟨here, ⟨op, fresh⟩ | ⟨op, whole, free⟩⟩ := row_writes_field row mem f hf same
  · rw [op] at run
    have ownValue : f.value &&& s.cfg.hardwareOwned f.reg = 0 := by
      rw [← value, BitVec.and_assoc, core]
      exact BitVec.and_zero
    rw [State.holds, peek_exec_busSetBits_same canonical plain run, and_not_of_and_eq_zero ownValue,
      BitVec.and_or_distrib_right, value]
    obtain cleared | all := fresh
    · rw [show s.peek f.reg &&& f.mask = 0 from window cleared (at_.trans here)]
      exact BitVec.zero_or
    · rw [all]
      ext k hk
      simp
  · rw [op] at run
    obtain ⟨-, -, rfl⟩ := busStep_cases (show execBusSet f.reg f.value s = .next u from run)
    rw [State.holds, peek_disturb_same, peek_busSet_same s _ _ _ plain canonical.1, landed_free s _ _ free, whole,
      BitVec.and_allOnes]

/-- The window a row opens leaves its field zero (R65, R256). -/
theorem field_cleared {s u : State} {row : InitRow} {f : InitField} (wf : s.cfg.wf = true) (canonical : s.canonical)
    (mem : row ∈ initProgram s.cfg) (hf : f ∈ initFields s.cfg) (cleared : f.cleared = true) (next : row.next = f.at_)
    (run : exec row.op s = .next u) : u.holds f.reg f.mask 0 := by
  obtain ⟨initReg, core, -⟩ := initField_lawful wf hf
  rw [row_clears_field row mem f hf cleared next] at run
  obtain ⟨-, -, rfl⟩ := busStep_cases (show execBusClearBits f.reg f.mask s = .next u from run)
  rw [State.holds, peek_disturb_same, peek_busClearBits_core s _ (isPlain_of_isInitReg initReg) core canonical.1,
    BitVec.and_assoc]
  ext k hk
  simp

/-- A row of the program keeps what is established and adds its own part. -/
theorem broughtUp_row {s u : State} {row : InitRow} (hs : s.broughtUp) (canonical : s.canonical) (life : s.life ≠ .running)
    (mem : row ∈ initProgram s.cfg) (at_ : s.seq = row.at_) (run : exec row.op s = .next u) : (u.finish row).broughtUp := by
  obtain ⟨wf, established, registered, priority, enabled⟩ := (broughtUp_iff s).1 hs
  have transaction := row_transaction mem
  obtain ⟨-, cfg, -, -, -, -, lifeKept, -⟩ := exec_transaction_keeps transaction run
  obtain ⟨cfgF, surface, -, -, -, hReg, hIrq, hPrio, hEn⟩ := finish_keeps u row
  obtain ⟨hRegU, hIrqU, hPrioU, hEnU⟩ := handler_of_row mem run
  have upTo {k : Nat} (small : k ≤ 27) (h : (u.finish row).past k) : k ≤ rank row.at_ :=
    le_rank_of_past_finish mem (lifeKept ▸ life) small h
  have before {k : Nat} (h : k < rank row.at_) : s.past k := .inr (at_ ▸ h)
  have peek (r : Reg) : (u.finish row).peek r = u.peek r := by rw [State.peek, surface]; rfl
  rw [broughtUp_iff, cfgF, cfg]
  refine ⟨wf, fun f hf => ⟨fun h => ?value, fun cleared next => ?window⟩, ?handler⟩
  case value =>
    rw [State.holds, peek]
    obtain same | earlier := (upTo (rank_le _) h).eq_or_lt
    · exact field_written wf canonical mem at_ run hf same.symm (established f hf)
    · obtain ⟨initReg, -⟩ := initField_lawful wf hf
      rw [field_untouched transaction run canonical initReg (row_spares_field wf row mem f hf earlier)]
      exact (established f hf).1 (before earlier)
  case window =>
    rw [State.holds, peek]
    exact field_cleared wf canonical mem hf cleared ((finish_seq u mem).symm.trans next) run
  case handler =>
    rw [State.handlerSet, hReg, hIrq, hPrio, hEn, cfgF, cfg, hRegU, hIrqU, hPrioU, hEnU]
    refine ⟨fun h => ?_, fun h => ?_, fun h => ?_⟩
    · obtain same | earlier := (upTo (by decide) h).eq_or_lt
      · simp [(rank_eq_25 _).1 same.symm]
      · have not6a : row.at_ ≠ .t6a := fun h => by simp [h, rank] at earlier
        simpa [not6a] using registered (before earlier)
    · obtain same | earlier := (upTo (by decide) h).eq_or_lt
      · simp [(rank_eq_26 _).1 same.symm]
      · have not6b : row.at_ ≠ .t6b := fun h => by simp [h, rank] at earlier
        simpa [not6b] using priority (before earlier)
    · have last : row.at_ = .t7 := (rank_eq_27 _).1 (Nat.le_antisymm (rank_le _) (upTo (by decide) h))
      simp [last]

/-- Every step of DEVICEINIT keeps what is established. -/
theorem broughtUp_deviceinit {s t : State} (hs : s.broughtUp) (canonical : s.canonical)
    (life : 1 ≤ rank s.seq → s.life ≠ .running) (run : exec .deviceinit s = .next t) : t.broughtUp := by
  obtain rfl | ⟨unstarted, rfl⟩ | rfl | ⟨fatal, fg, row, mem, at_, u, runRow, ⟨pending, rfl⟩ | ⟨-, rfl⟩⟩ :=
    deviceinit_cases run
  · exact hs
  · exact broughtUp_of_unstarted ((broughtUp_iff s).1 hs).1 (by simp [unstarted]) (by simp [rank])
  · exact broughtUp_of_kept hs rfl rfl (.inl rfl) ⟨rfl, rfl, rfl, rfl⟩ fun _ _ => rfl
  · obtain ⟨_, _, _, stay⟩ := exec_deviceinit_waits fatal fg pending
    cases run.symm.trans stay
    exact hs
  · exact broughtUp_row hs canonical (life (at_ ▸ row_started mem)) mem at_.symm runRow

/-- Settles O57: by what a step can be; of the commands DEVICEINIT goes by its rows and the others write no field, and ENV and
the service move hardware-owned bits alone. -/
theorem stepKeepsTheBringUp : Obligations.StepKeepsTheBringUp := by
  intro s t formed staged hs h
  have wf : s.cfg.wf = true := ((broughtUp_iff s).1 hs).1
  obtain ⟨port, configured, uninitialized, -⟩ := staged
  have canonical := formed.canonical
  cases stepKind_of_step h with
  | transaction i requested => exact absurd port requested
  | entry moves enabled result => subst result; exact hs
  | service live serving result =>
    subst result
    obtain ⟨cfg, seq, life, -, -, -, -, -, hReg, hEn, -⟩ := isrStep_keptForeground s.consume
    obtain ⟨-, -, -, -, hIrq, hPrio, -⟩ := isrStep_frame s.consume
    refine broughtUp_of_kept (s := s.consume) hs cfg life (.inr seq) ⟨hReg, hIrq, hPrio, hEn⟩ fun f mem => ?_
    obtain ⟨initReg, -⟩ := initField_lawful wf mem
    rw [peek_isrStep_other _ (fun e => by simp [e, isInitReg] at initReg)]
  | pause result => subst result; exact hs
  | rejection waiting result =>
    subst result
    obtain e | e := rejectWord_cases s.consume <;> rw [e]
    · exact hs
    · exact broughtUp_of_kept (s := s.consume) hs rfl rfl (.inl rfl) ⟨rfl, rfl, rfl, rfl⟩ fun _ _ => rfl
  | command i live foreground kind decoded run =>
    by_cases deviceinit : i = .deviceinit
    · subst deviceinit
      refine broughtUp_deviceinit (s := s.consume) hs canonical (fun (started : 1 ≤ rank s.seq) running => ?_) run
      by_cases late : 19 ≤ rank s.seq
      · cases running.symm.trans (configured.2 late)
      · cases running.symm.trans (uninitialized started (by omega))
    · obtain rfl | outside := otherCommand_outside kind deviceinit run
      · exact hs
      · obtain ⟨life, handler, registers⟩ := otherCommand_keeps kind deviceinit run
        obtain ⟨⟨-, -, -, -, cfg, -⟩, -⟩ := exec_command_cases kind run
        exact broughtUp_of_kept (s := s.consume) hs cfg life (.inl outside) handler fun f mem => by
          rw [registers f.reg (initField_lawful wf mem).1]
  | move m noPort next result =>
    subst result
    by_cases reset : m = .reset
    · subst reset
      exact broughtUp_of_unstarted (t := s.consume.hostReset) wf nofun (Nat.zero_le 1)
    · have kind := moveKind m s.consume
      obtain ⟨cfg, seq, life, -⟩ := kind.keptForeground reset
      refine broughtUp_of_kept (s := s.consume) hs cfg life (.inr seq) (kind.keptHandler reset) fun f mem => ?_
      obtain ⟨initReg, core, -⟩ := initField_lawful wf mem
      exact field_applyMove (s := s.consume) reset canonical initReg core

/-! ### The order of the operations of bring-up (R157) -/

/-- A transaction is entered in the record, as its agent's (R82). -/
theorem record_transaction {op : Instr} {s u : State} (transaction : isCommand op = false) (run : exec op s = .next u) :
    ∃ x, u.record = s.record ++ [⟨s.agent, .transaction op, x⟩] := by
  cases op with
  | busGet r =>
    obtain ⟨-, -, rfl⟩ := busStep_cases (show execBusGet r s = .next u from run)
    exact ⟨_, rfl⟩
  | busHasBits r m =>
    obtain ⟨-, -, rfl⟩ := busStep_cases (show execBusHasBits r m s = .next u from run)
    exact ⟨_, rfl⟩
  | busSet r v =>
    obtain ⟨-, -, rfl⟩ := busStep_cases (show execBusSet r v s = .next u from run)
    exact ⟨none, by simp⟩
  | busSetBits r m =>
    obtain ⟨-, -, rfl⟩ := busStep_cases (show execBusSetBits r m s = .next u from run)
    exact ⟨none, by simp⟩
  | busClearBits r m =>
    obtain ⟨-, -, rfl⟩ := busStep_cases (show execBusClearBits r m s = .next u from run)
    exact ⟨none, by simp⟩
  | intcRegister n =>
    obtain ⟨-, e⟩ := portStep_cases (show execIntcRegister n s = .next u from run)
    cases e
    exact ⟨none, rfl⟩
  | intcSetPriority n =>
    obtain ⟨-, e⟩ := portStep_cases (show execIntcSetPriority n s = .next u from run)
    cases e
    exact ⟨none, rfl⟩
  | intcEnable =>
    obtain ⟨-, e⟩ := portStep_cases (show execIntcEnable s = .next u from run)
    cases e
    exact ⟨none, rfl⟩
  | _ => cases transaction

theorem fgOps_transaction {op : Instr} {s u : State} (transaction : isCommand op = false) (fg : s.inIsr = false)
    (run : exec op s = .next u) : u.fgOps = s.fgOps ++ [op] := by
  obtain ⟨x, record⟩ := record_transaction transaction run
  have agent : s.agent = .fg := by simp [State.agent, fg]
  simp [State.fgOps, record, agent, Action.instr]

theorem MoveKind.fgOps {m : Move} {s t : State} (h : MoveKind m s t) (hm : m ≠ .reset) : t.fgOps = s.fgOps := by
  cases h with
  | reset move => exact absurd move hm
  | _ => simp [*, State.pokeField, State.updateEvent, State.noted, State.fgOps, Action.instr]

/-- A step that stays at its micro-step and issues nothing as the foreground, or leaves the program, keeps the order. -/
theorem ordered_of_kept {s t : State} (hs : s.ordered) (cfg : t.cfg = s.cfg)
    (h : rank t.seq = 0 ∨ t.seq = s.seq ∧ t.fgOps = s.fgOps) : t.ordered := by
  intro started
  obtain outside | ⟨seq, ops⟩ := h
  · omega
  · rw [ops, cfg, seq]
    exact hs (seq ▸ started)

/-- A visit of a row issues its operation (R142, R171). -/
theorem ordered_deviceinit {s t : State} (hs : s.ordered) (run : exec .deviceinit s = .next t) : t.ordered := by
  obtain rfl | ⟨-, rfl⟩ | rfl | ⟨-, fg, row, mem, at_, u, runRow, step⟩ := deviceinit_cases run
  · exact hs
  · exact fun _ => ⟨s.fgOps, [], (List.append_nil _).symm, .start⟩
  · exact ordered_of_kept hs rfl (.inl rfl)
  obtain ⟨before, ops, record, trace⟩ := hs (at_ ▸ row_started mem)
  have issued := fgOps_transaction (row_transaction mem) fg runRow
  rw [← at_] at trace
  rw [record, List.append_assoc] at issued
  intro inside
  obtain ⟨pending, rfl⟩ | ⟨-, rfl⟩ := step
  · have waits := waits_of_unanswered mem at_ pending
    obtain ⟨-, cfg, -, -, -, -, -, seq, -⟩ := exec_transaction_keeps (row_transaction mem) runRow
    rw [cfg, seq, ← at_]
    exact ⟨before, _, issued, .wait ops row trace mem waits⟩
  · obtain ⟨cfg, -, -, -, recordF, -⟩ := finish_keeps u row
    rw [cfg, exec_keeps_cfg runRow, finish_seq u mem, State.fgOps, recordF]
    exact ⟨before, _, issued, .move ops row trace mem⟩

/-- Settles O59: by what a step can be; only DEVICEINIT issues an operation as the foreground inside the program. -/
theorem stepKeepsTheBringUpOrder : Obligations.StepKeepsTheBringUpOrder := by
  intro s t port hs h
  cases stepKind_of_step h with
  | transaction i requested => exact absurd port requested
  | entry moves enabled result => subst result; exact hs
  | service live serving result =>
    subst result
    obtain ⟨cfg, seq, -⟩ := isrStep_keptForeground s.consume
    obtain ⟨-, -, -, -, -, -, -, ops, -⟩ := isrStep_frame s.consume
    exact ordered_of_kept (s := s.consume) hs cfg (.inr ⟨seq, ops⟩)
  | pause result => subst result; exact hs
  | rejection waiting result =>
    subst result
    obtain e | e := rejectWord_cases s.consume <;> rw [e]
    · exact hs
    · exact ordered_of_kept (s := s.consume) hs rfl (.inl rfl)
  | command i live foreground kind decoded run =>
    by_cases deviceinit : i = .deviceinit
    · subst deviceinit
      exact ordered_deviceinit (s := s.consume) hs run
    · obtain rfl | outside := otherCommand_outside kind deviceinit run
      · exact hs
      · exact ordered_of_kept (s := s.consume) hs (exec_keeps_cfg run) (.inl outside)
  | move m noPort next result =>
    subst result
    by_cases reset : m = .reset
    · subst reset
      exact ordered_of_kept (s := s.consume) hs rfl (.inl rfl)
    · have kind := moveKind m s.consume
      obtain ⟨cfg, seq, -⟩ := kind.keptForeground reset
      exact ordered_of_kept (s := s.consume) hs cfg (.inr ⟨seq, kind.fgOps reset⟩)

/-! ### The busy-waits of bring-up (R146, R149, R152, R158) -/

/-- A visit that finds its condition false is a read of the clock half, entered in the record. -/
theorem clockStep_unanswered {s : State} (fatal : s.fatal = false) (fg : s.inIsr = false) (pending : s.unanswered) :
    exec .deviceinit s = .next (clockStep s) ∧ ∃ op x d, clockStep s = s.issued .fg op x d := by
  obtain ⟨op, x, d, run⟩ := exec_deviceinit_waits fatal fg pending
  obtain ⟨started, early⟩ := rank_of_unanswered pending
  have half := exec_deviceinit_started fatal fg started
  rw [if_neg early] at half
  exact ⟨half, op, x, d, Host.Outcome.next.inj (half.symm.trans run)⟩

/-- A state in which visits have moved the response lines, the free values and the record, and nothing else. -/
def State.visited (s : State) (rdata : Word) (draws : Nat) (es : List Event) : State :=
  { s with rdata := rdata, draws := draws, record := s.record ++ es }

/-- After any number of visits nothing else has moved, and each has one entry in the record. -/
theorem iterate_clockStep_unanswered {s : State} (fatal : s.fatal = false) (fg : s.inIsr = false) (pending : s.unanswered)
    (n : Nat) : ∃ d k es, clockStep^[n] s = s.visited d k es ∧ es.length = n := by
  induction n with
  | zero => exact ⟨s.rdata, s.draws, [], by rw [State.visited, List.append_nil]; rfl, rfl⟩
  | succ n ih =>
    obtain ⟨d, k, es, e, len⟩ := ih
    obtain ⟨-, op, x, d', visit⟩ := clockStep_unanswered (s := s.visited d k es) fatal fg pending
    rw [Function.iterate_succ_apply', e, visit]
    exact ⟨d', k + 3, es ++ [⟨.fg, .transaction op, x⟩], by simp [State.issued, State.visited], by simp [len]⟩

/-- The micro-steps one after the other are the visits. -/
theorem execRun_unanswered {s : State} (fatal : s.fatal = false) (fg : s.inIsr = false) (pending : s.unanswered) (n : Nat) :
    execRun .deviceinit n s = .next (clockStep^[n] s) := by
  induction n generalizing s with
  | zero => rfl
  | succ n ih =>
    obtain ⟨visit, op, x, d, e⟩ := clockStep_unanswered fatal fg pending
    rw [execRun_of_next visit, Function.iterate_succ_apply, e]
    exact ih (s := s.issued .fg op x d) fatal fg pending

/-- Inside the program the block is not halted (R27). -/
theorem fatal_of_started {s : State} (hs : s.sequenced) (started : 1 ≤ rank s.seq) : s.fatal = false := by
  obtain ⟨-, halted, -⟩ := hs
  rw [← Bool.not_eq_true, halted]
  exact fun h => by simp [h] at started

/-- The block's own move inside DEVICEINIT is a step of it (R28, R75). -/
theorem fire_core_deviceinit {s : State} (port : s.portReq = none) (hs : s.sequenced) (fg : s.inIsr = false)
    (started : 1 ≤ rank s.seq) : fire .core s = exec .deviceinit s := by
  have fatal := fatal_of_started hs started
  obtain ⟨-, -, -, -, -, -, inside⟩ := hs
  have busy : s.seq ≠ .idle := fun h => by simp [h] at started
  have running : s.seq ≠ .halt := fun h => by simp [h] at started
  obtain ⟨i, decoded, member⟩ := inside busy running
  obtain rfl : i = .deviceinit := by
    by_contra other
    simp [rank_of_inCommand member other] at started
  exact (step_of_turn (s := { s with moves := .core :: s.moves }) port (.inl rfl)).trans
    (coreTurn_continues fatal fg busy running decoded)

/-- A wait that is never answered is a run without end (R264). -/
theorem runHangs_of_unanswered {s₀ s : State} {issued rest : List (Word × TimeUnit)} (played : Played s₀ issued s)
    (owed : s.responses.length < s₀.responses.length + issued.length) (port : s.portReq = none) (hs : s.sequenced)
    (fg : s.inIsr = false) (pending : s.unanswered) : RunHangs s₀ (issued ++ rest) := by
  obtain ⟨started, -⟩ := rank_of_unanswered pending
  have running : s.seq ≠ .halt := fun h => by simp [h] at started
  have fatal := fatal_of_started hs started
  refine ⟨issued, rest, ⟨fun n => clockStep^[n] s, fun _ => .core⟩, rfl, played, fun n => ?_, fun n => ⟨rfl, ?_⟩⟩
  all_goals
    obtain ⟨d, k, es, e, -⟩ := iterate_clockStep_unanswered fatal fg pending n
    simp only [e]
  · refine ⟨port, ?_⟩
    rw [Function.iterate_succ_apply', e, fire_core_deviceinit (s := s.visited d k es) port hs fg started]
    exact (clockStep_unanswered (s := s.visited d k es) fatal fg pending).1
  · exact ⟨running, owed⟩

/-- Every state of a run keeps the sequencer's agreement and the variant record. -/
theorem Trace.runs.sequenced {r : Trace} (runs : r.runs) (hs : (r.state 0).sequenced) (n : Nat) :
    (r.state n).sequenced ∧ (r.state n).cfg = (r.state 0).cfg := by
  induction n with
  | zero => exact ⟨hs, rfl⟩
  | succ n ih =>
    obtain ⟨sequenced, cfg⟩ := ih
    obtain ⟨-, fired⟩ := runs n
    exact ⟨stepKeepsTheSequencer { r.state n with moves := r.move n :: (r.state n).moves } _ sequenced fired,
      (step_keeps_cfg fired).trans cfg⟩

/-- A busy-wait that sees its condition goes on to its successor. -/
theorem Trace.runs.goes_on {r : Trace} (runs : r.runs) (hs : (r.state 0).sequenced) {row : InitRow}
    (mem : row ∈ initProgram (r.state 0).cfg) {reg : Reg} {m v : Word} {k : Nat}
    (h : r.sees k row.at_ reg m v ∨ r.move k = .reset)
    (answered : (r.state k).cfg = (r.state 0).cfg → r.sees k row.at_ reg m v → ¬ (r.state k).unanswered) :
    ∃ k, (r.state (k + 1)).seq = row.next ∨ r.move k = .reset := by
  refine ⟨k, h.imp_left fun seen => ?_⟩
  obtain ⟨sequenced, cfg⟩ := runs.sequenced hs k
  obtain ⟨port, fired⟩ := runs k
  have answered := answered cfg seen
  obtain ⟨move, fg, at_, -⟩ := seen
  rw [← cfg] at mem
  have started : 1 ≤ rank (r.state k).seq := at_ ▸ row_started mem
  rw [move, fire_core_deviceinit port sequenced fg started] at fired
  obtain ⟨u, -, ⟨pending, -⟩ | ⟨-, go⟩⟩ := exec_deviceinit_row (fatal_of_started sequenced started) fg mem at_
  · exact absurd pending answered
  · rw [Host.Outcome.next.inj (fired.symm.trans go), finish_seq u mem]

theorem singleBit_ne_zero {v : Variant} (wf : v.wf = true) {m : Word} (mem : m ∈ v.mask.singleBits) : m ≠ 0#32 := by
  simp only [Variant.wf, Bool.and_eq_true] at wf
  obtain ⟨⟨⟨⟨⟨⟨⟨⟨⟨⟨⟨-, single⟩, -⟩, -⟩, -⟩, -⟩, -⟩, -⟩, -⟩, -⟩, -⟩, -⟩ := wf
  have bit := List.all_eq_true.1 single m mem
  simp only [oneBit, Bool.and_eq_true, bne_iff_ne] at bit
  exact bit.1

/-- Settles O35: an unanswered visit moves nothing but the record, and an answered one goes on. -/
theorem unansweredWaitNeverEnds : Obligations.UnansweredWaitNeverEnds := by
  refine ⟨fun s₀ s issued rest played owed port hs fg pending => runHangs_of_unanswered played owed port hs fg pending,
    fun r runs fair hs wf => ?fair, fun n s fatal fg pending => ?visits⟩
  case visits =>
    obtain ⟨d, k, es, e, len⟩ := iterate_clockStep_unanswered fatal fg pending n
    exact ⟨clockStep^[n] s, execRun_unanswered fatal fg pending n, by simp [e, State.visited, fatal, len]⟩
  case fair =>
    obtain ⟨osc, pll, switched, -⟩ := fair
    refine ⟨fun env at_ enabled => ?_, fun env at_ enabled => ?_, fun env at_ enabled => ?_⟩
    · obtain ⟨k, -, seen⟩ := osc env 0 at_ enabled
      have bit : (r.state 0).cfg.mask.oscRdy ≠ 0#32 := singleBit_ne_zero wf (by simp [Masks.singleBits])
      exact runs.goes_on hs (row := ⟨.s3w, .busHasBits .oscCtl (r.state 0).cfg.mask.oscRdy, .s4a, true⟩)
        (by simp [initProgram]) seen fun cfg ⟨_, _, here, value⟩ => by simp [State.unanswered, here, cfg, value, bit]
    · obtain ⟨k, -, seen⟩ := pll env 0 at_ enabled
      have bit : (r.state 0).cfg.mask.pllRdy ≠ 0#32 := singleBit_ne_zero wf (by simp [Masks.singleBits])
      exact runs.goes_on hs (row := ⟨.s4w, .busHasBits .pllCtl (r.state 0).cfg.mask.pllRdy, .s5a, true⟩)
        (by simp [initProgram]) seen fun cfg ⟨_, _, here, value⟩ => by simp [State.unanswered, here, cfg, value, bit]
    · obtain ⟨k, -, seen⟩ := switched env 0 at_ enabled
      exact runs.goes_on hs (row := ⟨.s6w, .busGet .clkCfg, .s7a, true⟩)
        (by simp [initProgram]) seen fun cfg ⟨_, _, here, value⟩ => by simp [State.unanswered, here, cfg, value]

/-! ### The run to completion (R140, R156, R178) -/

/-- The two ready flags are up and the switch status reports the PLL. -/
def State.ready (s : State) : Prop :=
  s.peek .oscCtl &&& s.cfg.mask.oscRdy ≠ 0 ∧ s.peek .pllCtl &&& s.cfg.mask.pllRdy ≠ 0 ∧
  s.peek .clkCfg &&& s.cfg.mask.sws = s.cfg.val.swsPll

theorem not_unanswered_of_ready {s : State} (h : s.ready) : ¬ s.unanswered := by
  obtain ⟨osc, pll, sws⟩ := h
  rintro (⟨-, e⟩ | ⟨-, e⟩ | ⟨-, e⟩)
  · exact osc e
  · exact pll e
  · exact e sws

/-- No row touches a bit the busy-waits poll: they are fields apart from those it writes (R7). -/
theorem row_spares_flags {v : Variant} (wf : v.wf = true) : ∀ row ∈ initProgram v,
    touched row.op .oscCtl &&& v.mask.oscRdy = 0#32 ∧ touched row.op .pllCtl &&& v.mask.pllRdy = 0#32 ∧
    touched row.op .clkCfg &&& v.mask.sws = 0#32 := by
  obtain ⟨-, pll, osc⟩ := pll_apart wf
  obtain ⟨-, ahb, -, sw, -, apb⟩ := clkCfg_apart wf
  rw [BitVec.and_comm] at apb
  obtain ⟨ahbIn, apbIn, swIn⟩ := clkCfg_inside wf
  simp only [initProgram, List.cons_append, List.nil_append, List.forall_mem_cons, touched, reduceCtorEq, ↓reduceIte,
    BitVec.zero_and, List.not_mem_nil, false_imp_iff, implies_true, and_true, true_and]
  exact ⟨osc, pll, ahb, and_eq_zero_of_inside ahbIn ahb, sw, and_eq_zero_of_inside swIn sw, apb,
    and_eq_zero_of_inside apbIn apb⟩

theorem rank_eq_22 (q : Seq) : rank q = 22 ↔ q = .t3 := by cases q <;> simp [rank]

/-- The row of `T3` forces an update (R175). -/
theorem row_forces_update {v : Variant} : ∀ row ∈ initProgram v, row.at_ = .t3 → row.op = .busSetBits .timEgr v.mask.ug := by
  simp only [initProgram, List.cons_append, List.nil_append, List.forall_mem_cons, reduceCtorEq, false_imp_iff, implies_true,
    List.not_mem_nil, and_self]

/-- DEVICEINIT, accepted in `s`, is on its way through the program with the ready flags up. -/
structure ComingUp (s t : State) : Prop where
  cfg : t.cfg = s.cfg
  formed : t.formed
  broughtUp : t.broughtUp
  fatal : t.fatal = false
  fg : t.inIsr = false
  life : t.life ≠ .running
  ready : t.ready
  tick : t.tick = s.tick
  wake : t.wake = s.wake
  prescaler : 23 ≤ rank t.seq → t.activePsc = s.cfg.val.timPsc

/-- DEVICEINIT, accepted in `s`, is complete. -/
structure CameUp (s t : State) : Prop where
  cfg : t.cfg = s.cfg
  broughtUp : t.broughtUp
  life : t.life = .running
  waiting : t.seq = .idle
  response : t.busy = false ∧ t.status = 0 ∧ t.dout = 0
  tick : t.tick = s.tick
  wake : t.wake = s.wake
  prescaler : t.activePsc = s.cfg.val.timPsc

section
variable {s t u : State}

/-- At a row with the ready flags up the step finishes the row. -/
theorem ComingUp.finishes (h : ComingUp s t) {row : InitRow} (mem : row ∈ initProgram t.cfg) (at_ : t.seq = row.at_) :
    ∃ u, exec row.op t = .next u ∧ exec .deviceinit t = .next (u.finish row) := by
  obtain ⟨u, run, ⟨pending, -⟩ | ⟨-, step⟩⟩ := exec_deviceinit_row h.fatal h.fg mem at_
  · exact absurd pending (not_unanswered_of_ready h.ready)
  · exact ⟨u, run, step⟩

/-- The prescaler is loaded at `T3` and kept (R175). -/
theorem ComingUp.prescaler_step (h : ComingUp s t) (run : exec .deviceinit t = .next u) (late : 22 ≤ rank t.seq) :
    u.activePsc = s.cfg.val.timPsc := by
  obtain loading | loaded := late.eq_or_lt
  · have at_ : t.seq = .t3 := (rank_eq_22 _).1 loading.symm
    obtain ⟨wf, established, -⟩ := (broughtUp_iff t).1 h.broughtUp
    obtain ⟨row, mem, here⟩ := exists_row t.cfg (q := t.seq) (by simp [at_, rank])
    obtain ⟨w, runRow, step⟩ := h.finishes mem here.symm
    obtain ⟨-, -, -, psc, -⟩ := finish_keeps w row
    have op := row_forces_update row mem (here.trans at_)
    have live : t.halted = false := live_of_running h.fatal (by simp [at_])
    obtain ⟨w', forced, -, loads, -⟩ := forcedUpdateLoadsThePrescaler t.cfg.mask.ug _ t (.inr rfl) h.formed live
    cases Host.Outcome.next.inj (run.symm.trans step)
    rw [op] at runRow
    cases Host.Outcome.next.inj (runRow.symm.trans forced)
    obtain ⟨programmed, -⟩ := established ⟨.t2a, .timPsc, BitVec.allOnes 32, t.cfg.val.timPsc, false⟩ (by simp [initFields])
    have value := programmed (.inr (by simp [at_, rank]))
    rw [State.holds, BitVec.and_allOnes] at value
    have bit : t.cfg.mask.ug ≠ 0#32 := singleBit_ne_zero wf (by simp [Masks.singleBits])
    rw [psc, (loads (by rwa [BitVec.and_self])).1, value, h.cfg]
  · obtain ⟨-, -, -, -, -, -, -, kept, -⟩ := deviceinitFrame _ _ run
    rw [kept (fun e => by simp [e, rank] at loaded), h.prescaler loaded]

/-- A step short of the last one goes to the next row. -/
theorem ComingUp.step (h : ComingUp s t) (started : 1 ≤ rank t.seq) (more : rank t.seq < 27) :
    ∃ u, exec .deviceinit t = .next u ∧ ComingUp s u ∧ rank u.seq = rank t.seq + 1 := by
  obtain ⟨row, mem, at_⟩ := exists_row t.cfg started
  obtain ⟨u, runRow, run⟩ := h.finishes mem at_.symm
  refine ⟨_, run, ?_⟩
  obtain ⟨e, -⟩ | ⟨not7, next⟩ := row_next mem
  · simp [← at_, e, rank] at more
  have seq : rank (u.finish row).seq = rank t.seq + 1 := by rw [finish_seq u mem, next, at_]
  obtain ⟨⟨cfg, tick, wake, -, fg, -⟩, -, -, ⟨fatal, -⟩, -⟩ := deviceinitFrame _ _ run
  obtain ⟨-, -, -, -, -, -, lifeKept, -⟩ := exec_transaction_keeps (row_transaction mem) runRow
  refine ⟨⟨cfg.trans h.cfg, formed_command h.formed rfl run,
    broughtUp_row h.broughtUp h.formed.canonical h.life mem at_.symm runRow, fatal.trans h.fatal, fg.trans h.fg, ?life, ?ready,
    tick.trans h.tick, wake.trans h.wake, fun late => h.prescaler_step run (by omega)⟩, seq⟩
  case life =>
    obtain ⟨e, -⟩ | ⟨-, e⟩ := finish_cases u row
    · exact absurd e not7
    · rw [e]
      simp only
      split
      · nofun
      · exact lifeKept ▸ h.life
  case ready =>
    have wf := ((broughtUp_iff t).1 h.broughtUp).1
    obtain ⟨-, surface, -⟩ := finish_keeps u row
    have peek (r : Reg) : (u.finish row).peek r = u.peek r := by rw [State.peek, surface]; rfl
    obtain ⟨osc, pll, sws⟩ := row_spares_flags wf row mem
    have spared {r : Reg} (initReg : isInitReg r = true) {f : Word} (apart : touched row.op r &&& f = 0) :
        (u.finish row).peek r &&& f = t.peek r &&& f := by
      rw [peek, field_untouched (row_transaction mem) runRow h.formed.canonical initReg apart]
    obtain ⟨oscReady, pllReady, switched⟩ := h.ready
    rw [State.ready, cfg, spared rfl osc, spared rfl pll, spared rfl sws]
    exact ⟨oscReady, pllReady, switched⟩

/-- The last step completes the command. -/
theorem ComingUp.last (h : ComingUp s t) (at_ : t.seq = .t7) : ∃ u, exec .deviceinit t = .next u ∧ CameUp s u := by
  obtain ⟨row, mem, here⟩ := exists_row t.cfg (q := t.seq) (by simp [at_, rank])
  obtain ⟨u, runRow, run⟩ := h.finishes mem here.symm
  obtain ⟨-, e⟩ | ⟨not7, -⟩ := finish_cases u row
  · obtain ⟨⟨cfg, tick, wake, -⟩, -⟩ := deviceinitFrame _ _ run
    refine ⟨_, run, cfg.trans h.cfg, broughtUp_row h.broughtUp h.formed.canonical h.life mem here.symm runRow, ?_, ?_, ?_,
      tick.trans h.tick, wake.trans h.wake, h.prescaler_step run (by simp [at_, rank])⟩ <;> simp [e, statusOk]
  · exact absurd (here.trans at_) not7

/-- From a row `n` short of the last one the command is complete in `n + 1` steps. -/
theorem ComingUp.run (n : Nat) (h : ComingUp s t) (started : 1 ≤ rank t.seq) (left : rank t.seq + n = 27) :
    ∃ u, execRun .deviceinit (n + 1) t = .next u ∧ CameUp s u := by
  induction n generalizing t with
  | zero =>
    obtain ⟨u, run, up⟩ := h.last ((rank_eq_27 _).1 left)
    exact ⟨u, execRun_of_next run 0, up⟩
  | succ n ih =>
    obtain ⟨u, run, coming, seq⟩ := h.step started (by omega)
    obtain ⟨w, rest, up⟩ := ih coming (by omega) (by omega)
    exact ⟨w, (execRun_of_next run _).trans rest, up⟩

end

/-- A DEVICEINIT accepted with the ready flags up is on its way (R140). -/
theorem comingUp_accepted {s : State} (formed : s.formed) (wf : s.cfg.wf = true) (accepting : s.mayAccept = true)
    (unstarted : s.life = .uninitialized) (ready : s.ready) :
    ∃ t, exec .deviceinit s = .next t ∧ t.seq = .s1a ∧ ComingUp s t := by
  obtain ⟨busy, fatal, waiting, fg⟩ := (mayAccept_iff s).1 accepting
  have live := live_of_running (s := s) fatal (by simp [waiting])
  have life : s.life ≠ .running := by simp [unstarted]
  obtain ⟨stalled, -⟩ | ⟨-, e⟩ := accept_cases s .deviceinit .s1a
  · simp [busy] at stalled
  have run : exec .deviceinit s = .next (s.accept .deviceinit .s1a) := exec_accepts rfl live fg waiting fun _ => unstarted
  rw [e] at run
  exact ⟨_, run, rfl, rfl, formed, broughtUp_of_unstarted wf life (by simp [rank]), fatal, fg, life, ready, rfl, rfl,
    by simp [rank]⟩

/-- Settles O36: the run from the acceptance, one row a step. -/
theorem deviceinitCompletesWhenReady : Obligations.DeviceinitCompletesWhenReady := by
  intro s formed wf accepting unstarted osc pll sws
  obtain ⟨t, accepted, seq, coming⟩ := comingUp_accepted formed wf accepting unstarted ⟨osc, pll, sws⟩
  obtain ⟨u, run, cfg, up, life, waiting, ⟨busy, status, dout⟩, tick, wake, prescaler⟩ :=
    coming.run 26 (by simp [seq, rank]) (by simp [seq, rank])
  simp only [State.broughtUp, State.past, life, cfg, true_or, forall_const] at up
  obtain ⟨-, ⟨cgSyscfg, cgPwr, -, latency, oscOn⟩, ⟨-, pllFields, pllOn, pllOen⟩, ⟨-, ahbPre, -, sw, -, apbPre⟩,
    ⟨cgTim, psc, arr, cen, uie⟩, ⟨hReg, hIrq⟩, hPrio, hEn⟩ := up
  exact ⟨u, (execRun_of_next accepted 27).trans run, life, waiting, busy, status, dout, tick, wake, hReg, hIrq, hPrio, hEn, psc,
    arr, prescaler, cgSyscfg, cgPwr, oscOn, pllOn, pllOen, cgTim, cen, uie, latency, pllFields, sw, ahbPre, apbPre⟩

end Sys2Proof.Machine

/-! PROOFS. The Tick unit (42_tick): the services that counted a tick against `TICK`, a service turn by turn, and TICKS and
SLEEPTICKS step by step and over a run. -/
namespace Sys2Proof.Machine

/-! ### The services in the event record (R82, R183)

A service that found the flag set is the entry of its step `I1`; no other agent makes such an entry. -/

/-- The entries of the event record that the service made. -/
def State.isrEvents (s : State) : List Event := s.record.filter (·.agent == .isr)

theorem services_of_isrEvents {s t : State} (cfg : t.cfg = s.cfg) (events : t.isrEvents = s.isrEvents) :
    t.services = s.services := by
  have count (u : State) : u.services =
      u.isrEvents.countP (fun e => e.op == .transaction (.busClearBits .timSr u.cfg.mask.uif)) := by
    simp only [State.isrEvents, List.countP_filter, Bool.and_comm]
    rfl
  rw [count, count, cfg, events]

theorem Opening.record {i : Instr} {s t : State} (h : Opening i s t) : t.record = s.record := by
  cases h <;> simp [*]

theorem isrEvents_of_opening {i : Instr} {s t : State} (h : Opening i s t) : t.isrEvents = s.isrEvents := by
  rw [State.isrEvents, h.record, State.isrEvents]

theorem isrEvents_drivePin {i : Instr} {pin : Byte} {level : Bool} {s t : State} (first : firstStep i = .w0)
    (h : drivePin i pin level s = .next t) : t.isrEvents = s.isrEvents := by
  obtain ⟨-, ⟨-, rfl⟩ | ⟨-, ⟨waiting, rfl⟩ | ⟨check, raised⟩ | ⟨-, rfl⟩ | ⟨-, rfl⟩ | ⟨-, -, -, rfl⟩⟩⟩ := drivePin_cases h
  · rfl
  · exact isrEvents_of_opening (opening_accept i .w0 waiting)
  · exact isrEvents_of_opening (opening_fatalAt (check.trans first.symm) raised)
  · rfl
  · simp [State.isrEvents]
  · rfl

theorem isrEvents_get {pin : Byte} {s t : State} (h : execGet pin s = .next t) : t.isrEvents = s.isrEvents := by
  obtain ⟨-, ⟨-, rfl⟩ | ⟨-, ⟨waiting, rfl⟩ | ⟨check, raised⟩ | ⟨-, rfl⟩ | ⟨-, rfl⟩ | ⟨-, -, -, rfl⟩⟩⟩ := execGet_cases h
  · rfl
  · exact isrEvents_of_opening (opening_accept (.get pin) .g0 waiting)
  · exact isrEvents_of_opening (opening_fatalAt (i := .get pin) check raised)
  · rfl
  · simp [State.isrEvents]
  · rfl

theorem isrEvents_configure {pin mode pull : Byte} {s t : State} (h : execConfigure pin mode pull s = .next t) :
    t.isrEvents = s.isrEvents := by
  cases configureStep h with
  | opening h => exact isrEvents_of_opening h
  | _ => simp [*, State.isrEvents, configureGate]

/-- A row's operation is the foreground's own (R142, R171). -/
theorem isrEvents_deviceinit {s t : State} (run : exec .deviceinit s = .next t) : t.isrEvents = s.isrEvents := by
  obtain rfl | ⟨-, rfl⟩ | rfl | ⟨-, fg, row, mem, -, u, runRow, step⟩ := deviceinit_cases run
  · rfl
  · rfl
  · rfl
  have record : t.record = u.record := by
    obtain ⟨-, rfl⟩ | ⟨-, rfl⟩ := step
    · rfl
    · obtain ⟨-, -, -, -, kept, -⟩ := finish_keeps u row
      exact kept
  obtain ⟨x, issued⟩ := record_transaction (row_transaction mem) runRow
  simp [State.isrEvents, record, issued, State.agent, fg]

theorem isrEvents_ticks {s t : State} (h : execTicks s = .next t) : t.isrEvents = s.isrEvents := by
  obtain ⟨-, ⟨-, rfl⟩ | ⟨-, ⟨waiting, rfl⟩ | ⟨-, rfl⟩ | ⟨-, -, rfl⟩⟩⟩ := execTicks_cases h
  case inr.inl => exact isrEvents_of_opening (opening_accept .ticks .k0 waiting)
  all_goals rfl

theorem isrEvents_sleepticks {d : TimeUnit} {s t : State} (h : execSleepticks d s = .next t) :
    t.isrEvents = s.isrEvents := by
  obtain ⟨-, ⟨-, rfl⟩ | ⟨-, ⟨waiting, rfl⟩ | ⟨-, rfl⟩ | ⟨-, -, rfl⟩ | ⟨-, -, rfl⟩ | ⟨-, -, -, rfl⟩⟩⟩ := execSleepticks_cases h
  case inr.inl => exact isrEvents_of_opening (opening_accept (.sleepticks d) .l0 waiting)
  all_goals rfl

/-- No command counts as a service: what it issues is the foreground's (R82). -/
theorem services_command {i : Instr} {s t : State} (hc : isCommand i = true) (h : exec i s = .next t) :
    t.services = s.services := by
  refine services_of_isrEvents (exec_keeps_cfg h) ?_
  cases i with
  | configure pin mode pull => exact isrEvents_configure h
  | set pin level | high pin | low pin => exact isrEvents_drivePin rfl h
  | get pin => exact isrEvents_get h
  | deviceinit => exact isrEvents_deviceinit h
  | ticks => exact isrEvents_ticks h
  | sleepticks d => exact isrEvents_sleepticks h
  | _ => cases hc

/-- A spurious service finds the flag clear (R216), so no move counts a tick. -/
theorem MoveKind.services {m : Move} {s t : State} (h : MoveKind m s t) (hm : m ≠ .reset) : t.services = s.services := by
  cases h with
  | reset move => exact absurd move hm
  | _ => simp [*, State.pokeField, State.updateEvent, State.noted, State.services]

theorem services_rejectWord (s : State) : (rejectWord s).services = s.services := by
  obtain e | e := rejectWord_cases s <;> simp [e, State.services]

/-- Step `I1` is the one that counts as a service (R180). -/
theorem services_isrStep (s : State) : (isrStep s).services = s.services + if s.iseq = .i1 then 1 else 0 := by
  obtain ⟨h, -, e⟩ | ⟨h, -, e⟩ | ⟨h, e⟩ | ⟨h, e⟩ | ⟨h, e⟩ | ⟨h, e⟩ := isrStep_cases s <;> simp [e, h, State.services]

/-! ### `TICK` counts the services (R183) -/

/-- What leaves `TICK` and the services alone, and neither comes to `I2` nor leaves it, keeps the count. -/
theorem counted_of_kept {s t : State} (hs : s.counted) (cfg : t.cfg = s.cfg) (tick : t.tick = s.tick)
    (services : t.services = s.services) (context : t.iseq = .i2 ↔ s.iseq = .i2) : t.counted := by
  simpa only [State.counted, cfg, tick, services, context] using hs

/-- The service enters its test at `I1`, so that `TICK` is one behind until `I2`. -/
theorem counted_isrStep {s : State} (hs : s.counted) : (isrStep s).counted := by
  obtain ⟨hq, -, e⟩ | ⟨hq, -, e⟩ | ⟨hq, e⟩ | ⟨hq, e⟩ | ⟨hq, e⟩ | ⟨hq, e⟩ := isrStep_cases s
  case inr.inr.inl =>
    have same : s.tick % 2 ^ s.cfg.tickw = s.services % 2 ^ s.cfg.tickw := by simpa [State.counted, hq] using hs
    have more := services_isrStep s
    rw [if_pos hq] at more
    rw [State.counted, isrStep_cfg, more]
    simpa [e, Nat.ModEq] using Nat.ModEq.add_right 1 same
  case inr.inr.inr.inl =>
    have behind : (s.tick + 1) % 2 ^ s.cfg.tickw = s.services % 2 ^ s.cfg.tickw := by simpa [State.counted, hq] using hs
    have more := services_isrStep s
    rw [if_neg (by simp [hq])] at more
    rw [State.counted, isrStep_cfg, more]
    simpa [e, tickSucc] using behind
  all_goals exact counted_of_kept hs (isrStep_cfg s) (by simp [e]) (by simp [services_isrStep, hq]) (by simp [e, hq])

/-- An entry is from outside the service, whose step register then stands at `IDLE` (R28, R210). -/
theorem iseq_of_invocable {s : State} (hs : s.sequenced) (h : s.invocable = true) : s.iseq = .idle := by
  obtain ⟨context, -⟩ := hs
  have outside : s.inIsr = false := by
    simp only [State.invocable, Bool.and_eq_true, Bool.not_eq_true'] at h
    obtain ⟨⟨-, outside⟩, -⟩ := h
    exact outside
  simpa [outside] using context

theorem iseq_of_entryEnabled {s : State} (hs : s.sequenced) (h : s.entryEnabled = true) : s.iseq = .idle :=
  iseq_of_invocable hs (Bool.and_eq_true_iff.1 h).1

/-- No move but a reset comes to `I2` or leaves it: the interrupt enters from outside the service. -/
theorem iseq_applyMove {m : Move} (hm : m ≠ .reset) {s : State} (hs : s.sequenced) :
    (applyMove m s).iseq = .i2 ↔ s.iseq = .i2 := by
  cases m with
  | reset => exact absurd rfl hm
  | enter =>
    obtain ⟨enabled, e⟩ | ⟨-, e⟩ := takeEntry_cases s <;> simp [applyMove, e]
    simp [iseq_of_entryEnabled hs enabled]
  | spurious =>
    obtain ⟨invoked, e⟩ | ⟨-, e⟩ := spuriousService_cases s <;> simp [applyMove, e]
    simp [iseq_of_invocable hs (Bool.and_eq_true_iff.1 invoked).1]
  | updateEvent => obtain ⟨-, e⟩ | ⟨-, e⟩ := periodicUpdate_cases s <;> simp [applyMove, e]
  | pinInput p w => obtain ⟨-, e⟩ | ⟨-, e⟩ := drivePins_cases s p w <;> simp [applyMove, e, State.pokeField]
  | clearWake => obtain ⟨-, e⟩ | ⟨-, e⟩ := clearWake_cases s <;> simp [applyMove, e]
  | _ => simp [applyMove, State.pokeField]

theorem counted_applyMove {s : State} (m : Move) (sequenced : s.sequenced) (hs : s.counted) : (applyMove m s).counted := by
  by_cases reset : m = .reset
  · subst reset
    rfl
  · have kind := moveKind m s
    obtain ⟨tick, -⟩ := kind.counters reset
    exact counted_of_kept hs (applyMove_cfg m s) tick (kind.services reset) (iseq_applyMove reset sequenced)

/-- Settles O58: only the service moves `TICK` or is counted, and at `I2` it makes up for its entry of `I1`. -/
theorem stepKeepsTheTickCount : Obligations.StepKeepsTheTickCount := by
  intro s t sequenced staged hs h
  cases stepKind_of_step h with
  | transaction i port => exact absurd staged.1 port
  | entry moves enabled result =>
    subst result
    exact counted_of_kept hs rfl rfl rfl (by simp [iseq_of_entryEnabled sequenced enabled])
  | service live serving result => subst result; exact counted_isrStep (s := s.consume) hs
  | pause result => subst result; exact hs
  | rejection waiting result =>
    subst result
    obtain ⟨tick, -⟩ := rejectWord_keeps s.consume
    refine counted_of_kept (s := s.consume) hs (rejectWord_cfg _) tick (services_rejectWord _) ?_
    obtain e | e := rejectWord_cases s.consume <;> simp [e]
  | command i live foreground kind decoded run =>
    obtain ⟨⟨-, iseq, -, tick, cfg, -⟩, -⟩ := exec_command_cases kind run
    exact counted_of_kept (s := s.consume) hs cfg tick (services_command kind run) (by rw [iseq])
  | move m port next result =>
    subst result
    exact counted_applyMove (s := s.consume) m sequenced hs

/-! ### Runs of the machine -/

theorem run_of_step {s t : State} (h : step s = .next t) (n : Nat) :
    Host.Core.run Sys2Proof.core (n + 1) s = Host.Core.run Sys2Proof.core n t := by
  have first : Sys2Proof.core.step s = .next t := h
  simp only [Host.Core.run, first]

/-- A run that answers has a first step that answers. -/
theorem step_of_run {n : Nat} {s u : State} (h : Host.Core.run Sys2Proof.core (n + 1) s = .next u) :
    ∃ t, step s = .next t ∧ Host.Core.run Sys2Proof.core n t = .next u := by
  cases first : step s with
  | next t => exact ⟨t, rfl, (run_of_step first n).symm.trans h⟩
  | fault r => simp [Host.Core.run.eq_def, Sys2Proof.core, first] at h
  | refused r => simp [Host.Core.run.eq_def, Sys2Proof.core, first] at h

/-! ### A service, turn by turn (R179 to R182, R255) -/

/-- The service runs in a block that is not halted, with `n` turns of the block to come before the moves `rest`. -/
def State.serves (s : State) (n : Nat) (rest : List Move) : Prop :=
  s.inIsr = true ∧ s.halted = false ∧ s.portReq = none ∧ s.moves = List.replicate n .core ++ rest

@[simp] theorem isrStep_moves (s : State) : (isrStep s).moves = s.moves := by
  obtain ⟨-, -, e⟩ | ⟨-, -, e⟩ | ⟨-, e⟩ | ⟨-, e⟩ | ⟨-, e⟩ | ⟨-, e⟩ := isrStep_cases s <;> simp [e]

section
variable {s : State} {n : Nat} {rest : List Move}

/-- The block's turn is the service's while it runs (R28). -/
theorem step_of_serves (h : s.serves (n + 1) rest) : step s = .next (isrStep s.consume) := by
  obtain ⟨serving, live, port, moves⟩ := h
  have consumed : s.consume = { s with moves := List.replicate n .core ++ rest } := by
    simp [State.consume, moves, List.replicate_succ]
  have live' : s.consume.halted = false := live
  have turn : step s = coreTurn s.consume := by rw [consumed]; exact step_of_turn port (.inl moves)
  rw [turn, coreTurn, live']
  simp [State.consume, serving]

/-- Until it returns, the service is the one to have the next turn. -/
theorem serves_isrStep (h : s.serves (n + 1) rest) (still : (isrStep s.consume).inIsr = true) :
    (isrStep s.consume).serves n rest := by
  obtain ⟨-, live, port, moves⟩ := h
  obtain ⟨-, seq, -, -, -, -, -, ⟨fatal, -⟩, -, -, noPort⟩ := isrStep_keptForeground s.consume
  refine ⟨still, ?_, noPort.trans port, ?_⟩
  · rw [State.halted, fatal, seq]
    exact live
  · simp [State.consume, moves, List.replicate_succ]

/-- How many turns a service takes at most from a step of its own (R255). -/
def turnsLeft : ISeq → Nat
  | .i0 => 4
  | .i1 => 3
  | .i2 => 2
  | .i3 | .idle => 1

/-- A step of the service returns, or goes on to one with fewer turns left. -/
theorem isrStep_returns_or_goes_on (s : State) :
    ((isrStep s).inIsr = false ∧ (isrStep s).iseq = .idle) ∨
    ((isrStep s).inIsr = s.inIsr ∧ turnsLeft (isrStep s).iseq < turnsLeft s.iseq) := by
  obtain ⟨h, -, e⟩ | ⟨h, -, e⟩ | ⟨h, e⟩ | ⟨h, e⟩ | ⟨h, e⟩ | ⟨h, e⟩ := isrStep_cases s <;> simp [e, h, turnsLeft]

/-- Given the turns it has left, the service returns after some of them. -/
theorem service_returns (h : s.serves n rest) (enough : turnsLeft s.iseq ≤ n) :
    ∃ k t, k ≤ n ∧ Host.Core.run Sys2Proof.core k s = .next t ∧ t.inIsr = false ∧ t.iseq = .idle := by
  induction n generalizing s with
  | zero => cases q : s.iseq <;> simp [q, turnsLeft] at enough
  | succ n ih =>
    have turn := step_of_serves h
    obtain ⟨returned, idle⟩ | ⟨still, fewer⟩ := isrStep_returns_or_goes_on s.consume
    · exact ⟨1, _, by omega, run_of_step turn 0, returned, idle⟩
    · have left : turnsLeft (isrStep s.consume).iseq ≤ n := Nat.le_of_lt_succ (Nat.lt_of_lt_of_le fewer enough)
      obtain ⟨k, t, few, run, done⟩ := ih (serves_isrStep h (still.trans h.1)) left
      exact ⟨k + 1, t, by omega, (run_of_step turn k).trans run, done⟩

/-- Settles O39: no step of the service has more than four turns left. -/
theorem tickisrReturnsWithinFourTurns : Obligations.TickisrReturnsWithinFourTurns := by
  intro s rest serving live port moves
  have most : turnsLeft s.iseq ≤ 4 := by cases s.iseq <;> decide
  exact service_returns ⟨serving, live, port, moves⟩ most

/-! What each turn does to the flag, `TICK` and `WAKE`. -/

theorem isrStep_at_i0 {s : State} (at_ : s.iseq = .i0) :
    (s.uif = true ∧ isrStep s = { (s.busHasBits .isr .timSr s.cfg.mask.uif).2 with iseq := .i1 }) ∨
    (s.uif = false ∧ isrStep s = (s.busHasBits .isr .timSr s.cfg.mask.uif).2.leaveIsr) := by
  obtain ⟨-, h⟩ | ⟨-, h⟩ | ⟨q, -⟩ | ⟨q, -⟩ | ⟨q, -⟩ | ⟨q, -⟩ := isrStep_cases s
  · exact .inl h
  · exact .inr h
  all_goals simp [at_] at q

/-- A test that finds no bit of the mask answers 0 (R66). -/
theorem busHasBits_of_clear {s : State} {r : Reg} {m : Word} (a : Agent) (clear : s.readReg r &&& m = 0) :
    ∃ d, (s.busHasBits a r m).2 = s.issued a (.busHasBits r m) (some 0) d :=
  ⟨_, by simp [State.busHasBits, clear]; rfl⟩

theorem turn_of_flag (h : s.serves (n + 1) rest) (at_ : s.iseq = .i0) (flag : s.uif = true) :
    ∃ t, step s = .next t ∧ t.serves n rest ∧ t.iseq = .i1 ∧ t.cfg = s.cfg ∧ t.tick = s.tick ∧ t.surface = s.surface := by
  obtain ⟨-, e⟩ | ⟨clear, -⟩ := isrStep_at_i0 (s := s.consume) at_
  case inr => exact absurd (flag.symm.trans clear) (by decide)
  refine ⟨_, step_of_serves h, serves_isrStep h ?_, ?_⟩ <;> rw [e]
  · exact h.1
  · exact ⟨rfl, rfl, rfl, rfl⟩

theorem turn_at_i1 (h : s.serves (n + 1) rest) (at_ : s.iseq = .i1) (wf : Cells.wf s.surface = true) :
    ∃ t, step s = .next t ∧ t.serves n rest ∧ t.iseq = .i2 ∧ t.cfg = s.cfg ∧ t.tick = s.tick ∧
      t.peek .timSr = s.peek .timSr &&& ~~~s.cfg.mask.uif := by
  have e : isrStep s.consume = { s.consume.busClearBits .isr .timSr s.cfg.mask.uif with iseq := .i2 } := by
    simp [isrStep, State.consume, at_]
  refine ⟨_, step_of_serves h, serves_isrStep h ?_, ?_⟩ <;> rw [e]
  · exact (State.busClearBits_inIsr s.consume .isr _ _).trans h.1
  · exact ⟨rfl, by simp [State.consume], by simp [State.consume],
      peek_busClearBits_timSr s.consume .isr _ wf⟩

theorem turn_at_i2 (h : s.serves (n + 1) rest) (at_ : s.iseq = .i2) :
    ∃ t, step s = .next t ∧ t.serves n rest ∧ t.iseq = .i3 ∧ t.tick = tickSucc s.cfg.tickw s.tick ∧
      t.surface = s.surface := by
  have e : isrStep s.consume = { s.consume with tick := tickSucc s.cfg.tickw s.tick, iseq := .i3 } := by
    simp [isrStep, State.consume, at_]
  refine ⟨_, step_of_serves h, serves_isrStep h ?_, ?_⟩ <;> rw [e]
  · exact h.1
  · exact ⟨rfl, rfl, rfl⟩

theorem turn_at_i3 (h : s.serves (n + 1) rest) (at_ : s.iseq = .i3) :
    ∃ t, step s = .next t ∧ t.tick = s.tick ∧ t.wake = 1 ∧ t.inIsr = false ∧ t.iseq = .idle ∧ t.surface = s.surface ∧
      t.moves = List.replicate n .core ++ rest := by
  have e : isrStep s.consume = { s.consume with wake := 1 }.leaveIsr := by simp [isrStep, State.consume, at_]
  have ⟨_, _, _, moves⟩ := h
  refine ⟨_, step_of_serves h, ?_⟩
  rw [e]
  exact ⟨rfl, rfl, rfl, rfl, rfl, by simp [State.consume, moves, List.replicate_succ]⟩

theorem turn_of_clear (h : s.serves (n + 1) rest) (at_ : s.iseq = .i0) (clear : s.uif = false) :
    ∃ d, step s = .next { s with
      moves := List.replicate n .core ++ rest, inIsr := false, iseq := .idle, rdata := d, draws := s.draws + 3,
      record := s.record ++ [⟨.isr, .transaction (.busHasBits .timSr s.cfg.mask.uif), some 0⟩] } := by
  have ⟨_, _, _, moves⟩ := h
  obtain ⟨flag, -⟩ | ⟨-, e⟩ := isrStep_at_i0 (s := s.consume) at_
  · exact absurd (clear.symm.trans flag) (by decide)
  have unset : s.peek .timSr &&& s.cfg.mask.uif = 0 := by simpa [State.uif, State.flag] using clear
  obtain ⟨d, answer⟩ := busHasBits_of_clear (s := s.consume) (r := .timSr) .isr unset
  have consumed : s.moves.tail = List.replicate n .core ++ rest := by simp [moves, List.replicate_succ]
  refine ⟨d, (step_of_serves h).trans ?_⟩
  rw [e, ← consumed]
  exact congrArg (fun t : State => Host.Outcome.next t.leaveIsr) answer

end

/-- Settles O38: the four turns one after the other, or the one that finds the flag clear. -/
theorem tickisrCountsOneTick : Obligations.TickisrCountsOneTick := by
  intro s rest formed serving at_ live port
  refine ⟨fun flag moves => ?_, fun clear moves => turn_of_clear (n := 0) ⟨serving, live, port, moves⟩ at_ clear⟩
  obtain ⟨t₁, step₁, serves₁, q₁, cfg₁, tick₁, surface₁⟩ := turn_of_flag (n := 3) ⟨serving, live, port, moves⟩ at_ flag
  obtain ⟨t₂, step₂, serves₂, q₂, cfg₂, tick₂, word₂⟩ := turn_at_i1 serves₁ q₁ (by rw [surface₁]; exact formed.1)
  obtain ⟨t₃, step₃, serves₃, q₃, tick₃, surface₃⟩ := turn_at_i2 serves₂ q₂
  obtain ⟨t₄, step₄, tick₄, wake, returned, idle, surface₄, moves₄⟩ := turn_at_i3 serves₃ q₃
  have run : Host.Core.run Sys2Proof.core 4 s = .next t₄ := by
    rw [run_of_step step₁, run_of_step step₂, run_of_step step₃, run_of_step step₄]
    rfl
  refine ⟨t₄, run, ?_, wake, returned, idle, ?_, moves₄⟩
  · rw [tick₄, tick₃, tick₂, tick₁, cfg₂, cfg₁, tickSucc]
  · rw [State.peek, surface₄, surface₃]
    rw [State.peek, State.peek, surface₁, cfg₁] at word₂
    exact word₂

/-! ### TICKS and SLEEPTICKS, step by step (R184 to R187) -/

/-- The tick unit's product, taken in 64 bits (R184). -/
theorem microseconds_eq (t : Nat) : microseconds t = BitVec.ofNat 64 t * 1000 := by
  simp [microseconds, usPerTick, BitVec.ofNat_mul]

/-- Settles O42: `K0` is one read of `TICK` and the response. -/
theorem ticksAnswersMicroseconds : Obligations.TicksAnswersMicroseconds := by
  intro s at_ fatal fg
  have live := live_of_running fatal (by simp [at_])
  rw [← microseconds_eq]
  simp [exec, execTicks, foreground_live, live, fg, at_, State.respond, statusOk]

/-- `ceildiv` is the least natural whose thousandfold is not below the duration (R186). -/
theorem sleepTarget_le_iff (d : TimeUnit) (k : Nat) : sleepTarget d ≤ k ↔ d.toNat ≤ k * 1000 := by
  unfold sleepTarget usPerTick
  omega

/-- Settles O43: `L0` samples the target and `TICK`. -/
theorem sleepSamplesTheCeiling : Obligations.SleepSamplesTheCeiling := by
  intro d s at_ fatal fg
  have live := live_of_running fatal (by simp [at_])
  refine ⟨sleepTarget d, ?_, (sleepTarget_le_iff d _).1 le_rfl, fun k => (sleepTarget_le_iff d k).2⟩
  simp [exec, execSleepticks, foreground_live, live, fg, at_]

/-- The unsigned difference of a reading and one that is, modulo `2^w`, `n` further on is `n` modulo `2^w` (R187, R191). -/
theorem elapsed_of_modEq {w t start n : Nat} (h : t ≡ start + n [MOD 2 ^ w]) : elapsed w t start = n % 2 ^ w := by
  have below : start % 2 ^ w < 2 ^ w := Nat.mod_lt _ (Nat.two_pow_pos w)
  have reading : t ≡ start % 2 ^ w + n [MOD 2 ^ w] := h.trans ((Nat.mod_modEq start _).symm.add_right n)
  calc elapsed w t start
      = (start % 2 ^ w + n + (2 ^ w - start % 2 ^ w)) % 2 ^ w := reading.add_right _
    _ = (n + 2 ^ w) % 2 ^ w := by congr 1; omega
    _ = n % 2 ^ w := Nat.add_mod_right n _

theorem iterate_tickSucc (w t n : Nat) : (tickSucc w)^[n] t ≡ t + n [MOD 2 ^ w] := by
  induction n with
  | zero => exact Nat.ModEq.refl t
  | succ n ih =>
    rw [Function.iterate_succ_apply']
    exact (Nat.mod_modEq _ _).trans (ih.add_right 1)

/-- Settles O46: `n` increments come to a reading `n` further on, and `n` is its own remainder. -/
theorem differenceCountsTheIncrements : Obligations.DifferenceCountsTheIncrements := by
  intro w t n _ few
  rw [elapsed_of_modEq (iterate_tickSucc w t n), Nat.mod_eq_of_lt few]

/-- The unsigned difference over the integers (R187). -/
theorem elapsed_cast (w t start : Nat) : (elapsed w t start : Int) = ((t : Int) - (start : Int)) % (2 : Int) ^ w := by
  have below : start % 2 ^ w ≤ 2 ^ w := (Nat.mod_lt _ (Nat.two_pow_pos w)).le
  have split : (t : Int) + ((2 : Int) ^ w - start % 2 ^ w) = t - start % 2 ^ w + 2 ^ w := by ring
  rw [elapsed]
  push_cast [below]
  rw [split, Int.add_emod_right, Int.sub_emod_emod]

theorem elapsed_lt (w t start : Nat) : elapsed w t start < 2 ^ w := Nat.mod_lt _ (Nat.two_pow_pos w)

section
variable {d : TimeUnit} {s : State}

/-- `L1` while the difference is below the target (R187). -/
theorem exec_sleepticks_spins (at_ : s.seq = .l1) (fatal : s.fatal = false) (fg : s.inIsr = false)
    (early : elapsed s.cfg.tickw s.tick s.slStart < s.slTarget) : exec (.sleepticks d) s = .next s := by
  have live := live_of_running fatal (by simp [at_])
  simp [exec, execSleepticks, foreground_live, live, fg, at_, early]

/-- `L1` once the difference has come to the target (R187). -/
theorem exec_sleepticks_responds (at_ : s.seq = .l1) (fatal : s.fatal = false) (fg : s.inIsr = false)
    (due : s.slTarget ≤ elapsed s.cfg.tickw s.tick s.slStart) :
    exec (.sleepticks d) s = .next (s.respond statusOk 0) := by
  have live := live_of_running fatal (by simp [at_])
  simp [exec, execSleepticks, foreground_live, live, fg, at_, Nat.not_lt.2 due]

end

/-- Settles O44: the model's difference is the one over the integers, and it stays below `2^TICKW`. -/
theorem sleepSpinsOnTheUnsignedDifference : Obligations.SleepSpinsOnTheUnsignedDifference := by
  intro d s at_ fatal fg
  rw [← elapsed_cast, Nat.cast_lt, Nat.cast_le]
  exact ⟨⟨exec_sleepticks_spins at_ fatal fg, exec_sleepticks_responds at_ fatal fg⟩,
    fun never => exec_sleepticks_spins at_ fatal fg ((elapsed_lt _ _ _).trans_le never)⟩

/-! ### A sleep from its sampling to its response (R188) -/

/-- The step from `s` to `t` leaves the foreground and what a sleep sampled alone, and takes no service back. -/
def standsAside (s t : State) : Prop :=
  t.seq = s.seq ∧ t.cw = s.cw ∧ t.din = s.din ∧ t.slStart = s.slStart ∧ t.slTarget = s.slTarget ∧
  t.responses = s.responses ∧ s.services ≤ t.services

theorem standsAside_isrStep (s : State) : standsAside s (isrStep s) := by
  obtain ⟨-, seq, -, cw, din, -⟩ := isrStep_keptForeground s
  obtain ⟨start, target, -, ⟨-, -, -, responses⟩, -⟩ := isrStep_frame s
  exact ⟨seq, cw, din, start, target, responses, by simp [services_isrStep]⟩

theorem MoveKind.sleep {m : Move} {s t : State} (h : MoveKind m s t) (hm : m ≠ .reset) :
    t.slStart = s.slStart ∧ t.slTarget = s.slTarget ∧ t.responses = s.responses := by
  cases h with
  | reset move => exact absurd move hm
  | _ => simp [*, State.pokeField]

theorem standsAside_applyMove {m : Move} (hm : m ≠ .reset) (s : State) : standsAside s (applyMove m s) := by
  have kind := moveKind m s
  obtain ⟨-, seq, -, cw, din, -⟩ := kind.keptForeground hm
  obtain ⟨start, target, responses⟩ := kind.sleep hm
  exact ⟨seq, cw, din, start, target, responses, (kind.services hm).ge⟩

theorem MoveKind.moves {m : Move} {s t : State} (h : MoveKind m s t) : t.moves = s.moves := by
  cases h <;> simp [*, State.pokeField, State.hostReset]

@[simp] theorem rejectWord_moves (s : State) : (rejectWord s).moves = s.moves := by
  obtain e | e := rejectWord_cases s <;> simp [e]

/-- A step takes the next move, or none, from the moves to come (log 2). -/
theorem moves_of_step {s t : State} (h : step s = .next t) : t.moves ⊆ s.moves := by
  have taken {u : State} (same : u.moves = s.consume.moves) : u.moves ⊆ s.moves := by
    rw [same]
    exact List.tail_subset s.moves
  cases stepKind_of_step h with
  | transaction i port kind run =>
    obtain ⟨-, -, -, -, -, -, -, -, -, -, -, -, -, -, -, -, -, -, -, moves, -⟩ := exec_transaction_keeps kind run
    exact fun _ mem => by rwa [moves] at mem
  | entry moves enabled result => subst result; simp
  | service live serving result => subst result; exact taken (isrStep_moves _)
  | pause result => subst result; exact taken rfl
  | rejection waiting result => subst result; exact taken (rejectWord_moves _)
  | command i live foreground kind decoded run =>
    obtain ⟨⟨-, -, -, -, -, -, moves, -⟩, -⟩ := exec_command_cases kind run
    exact taken moves
  | move m port next result => subst result; exact taken (moveKind m _).moves

/-- Without a reset no response is taken back (R264). -/
theorem responses_of_step {s t : State} (h : step s = .next t) (noReset : .reset ∉ s.moves) :
    s.responses <+: t.responses := by
  have same {u : State} (kept : u.responses = s.responses) : s.responses <+: u.responses := kept ▸ List.prefix_rfl
  cases stepKind_of_step h with
  | transaction i port kind run =>
    obtain ⟨-, -, -, -, -, -, -, -, -, -, -, -, -, -, -, -, -, -, responses, -⟩ := exec_transaction_keeps kind run
    exact same responses
  | entry moves enabled result => subst result; exact same rfl
  | service live serving result =>
    subst result
    obtain ⟨-, -, -, ⟨-, -, -, responses⟩, -⟩ := isrStep_frame s.consume
    exact same responses
  | pause result => subst result; exact same rfl
  | rejection waiting result =>
    subst result
    obtain e | e := rejectWord_cases s.consume <;> rw [e]
    · exact same rfl
    · exact List.prefix_append _ _
  | command i live foreground kind decoded run =>
    obtain ⟨-, rfl | ⟨-, hstep⟩⟩ := exec_command_cases kind run
    · exact same rfl
    obtain ⟨-, -, rfl, -⟩ | ⟨-, -, -, -, rfl⟩ | ⟨-, -, _, -, ⟨-, rfl⟩ | ⟨-, -, rfl⟩⟩ |
      ⟨-, -, -, -, -, -, responses, -⟩ | ⟨-, -, -, -, -, -, -, -, -, -, _, responses⟩ := hstep
    · exact same rfl
    · exact List.prefix_append _ _
    · exact same rfl
    · exact same rfl
    · exact same responses
    · rw [responses]
      exact List.prefix_append _ _
  | move m port next result =>
    subst result
    have hm : m ≠ .reset := fun reset => noReset (reset ▸ List.mem_of_mem_head? next)
    obtain ⟨-, -, responses⟩ := (moveKind m s.consume).sleep hm
    exact same responses

theorem responses_of_run {n : Nat} {s t : State} (noReset : .reset ∉ s.moves)
    (h : Host.Core.run Sys2Proof.core n s = .next t) : s.responses <+: t.responses := by
  induction n generalizing s with
  | zero => cases h; exact List.prefix_rfl
  | succ n ih =>
    obtain ⟨u, first, rest⟩ := step_of_run h
    exact (responses_of_step first noReset).trans (ih (fun reset => noReset (moves_of_step first reset)) rest)

/-- While command `i` is in progress and no reset comes, a step is one of `i`, or of another agent. -/
theorem step_inside_command {i : Instr} {s t : State} (port : s.portReq = none) (started : s.seq ≠ .idle)
    (decoded : decodeCommand s.cw s.din = .ok i) (noReset : .reset ∉ s.moves) (h : step s = .next t) :
    standsAside s t ∨ s.inIsr = false ∧ exec i s.consume = .next t := by
  cases stepKind_of_step h with
  | transaction j requested => exact absurd port requested
  | entry moves enabled result => subst result; exact .inl ⟨rfl, rfl, rfl, rfl, rfl, rfl, le_rfl⟩
  | service live serving result => subst result; exact .inl (standsAside_isrStep s.consume)
  | pause result => subst result; exact .inl ⟨rfl, rfl, rfl, rfl, rfl, rfl, le_rfl⟩
  | rejection waiting result => exact absurd waiting started
  | command j live foreground kind decoded' run =>
    obtain rfl : i = j := Except.ok.inj (decoded.symm.trans (decoded' started))
    exact .inr ⟨foreground, run⟩
  | move m noPort next result =>
    subst result
    have hm : m ≠ .reset := fun reset => noReset (reset ▸ List.mem_of_mem_head? next)
    exact .inl (standsAside_applyMove hm s.consume)

/-- The only command with `L0` among its micro-steps is SLEEPTICKS, with the duration in `DIN` (R26, R92). -/
theorem sleepticks_of_l0 {s : State} (hs : s.sequenced) (at_ : s.seq = .l0) :
    decodeCommand s.cw s.din = .ok (.sleepticks s.din) := by
  obtain ⟨-, -, -, -, -, -, command⟩ := hs
  obtain ⟨i, decoded, inside⟩ := command (by simp [at_]) (by simp [at_])
  obtain ⟨-, operand⟩ := commandWord_of_decodeCommand decoded
  rw [at_] at inside
  cases i with
  | sleepticks d => rw [decoded, ← operand]; rfl
  | configure => cases layout : s.cfg.pinLayout <;> simp [inCommand, layout] at inside
  | _ => simp [inCommand, rank] at inside

/-- The invariants of a run without reset. -/
structure Underway (t : State) : Prop where
  sequenced : t.sequenced
  staged : t.staged
  counted : t.counted
  noReset : .reset ∉ t.moves

theorem Underway.step {t u : State} (h : Underway t) (run : step t = .next u) : Underway u where
  sequenced := stepKeepsTheSequencer t u h.sequenced run
  staged := stepKeepsTheLifecycle t u h.staged run
  counted := stepKeepsTheTickCount t u h.sequenced h.staged h.counted run
  noReset := fun reset => h.noReset (moves_of_step run reset)

/-- Where the foreground has its turn, `TICK` is the number of services, modulo `2^TICKW` (R183). -/
theorem Underway.tick {t : State} (h : Underway t) (fg : t.inIsr = false) : t.tick ≡ t.services [MOD 2 ^ t.cfg.tickw] := by
  obtain ⟨context, -⟩ := h.sequenced
  have outside : t.iseq = .idle := by simpa [fg] using context
  simpa [State.counted, outside, Nat.ModEq] using h.counted

/-- The target and a value of `TICK` have been sampled, the latter when the services were `n` (R186). -/
def State.sampled (t : State) (d : TimeUnit) (n : Nat) : Prop :=
  t.seq = .l1 ∧ t.slTarget = sleepTarget d ∧ n ≤ t.services ∧ t.slStart ≡ n [MOD 2 ^ t.cfg.tickw]

/-- The sleep due at `s` is in progress at `t`: its `L0` is still to come, or it has sampled since. -/
structure Sleeping (s t : State) : Prop where
  underway : Underway t
  command : decodeCommand t.cw t.din = .ok (.sleepticks s.din)
  silent : t.responses = s.responses
  phase : t.seq = .l0 ∧ s.services ≤ t.services ∨ ∃ n, s.services ≤ n ∧ t.sampled s.din n

theorem Sleeping.started {s t : State} (h : Sleeping s t) : t.seq ≠ .idle := by
  obtain ⟨at_, -⟩ | ⟨-, -, at_, -⟩ := h.phase <;> simp [at_]

/-- Another agent's step leaves the sleep in progress. -/
theorem Sleeping.of_standsAside {s t u : State} (h : Sleeping s t) (underway : Underway u) (cfg : u.cfg = t.cfg)
    (aside : standsAside t u) : Sleeping s u := by
  obtain ⟨seq, cw, din, start, target, responses, more⟩ := aside
  refine ⟨underway, by rw [cw, din]; exact h.command, responses.trans h.silent, ?_⟩
  obtain ⟨at_, later⟩ | ⟨n, later, at_, goal, before, sampled⟩ := h.phase
  · exact .inl ⟨seq.trans at_, later.trans more⟩
  · exact .inr ⟨n, later, seq.trans at_, target.trans goal, before.trans more, by rw [start, cfg]; exact sampled⟩

/-- A sleep in progress goes on, or it completes, and no sooner than its target of services after `s`. -/
theorem Sleeping.step {s t u : State} (h : Sleeping s t) (run : step t = .next u) :
    Sleeping s u ∨ u.responses = t.responses ++ [⟨0, 0⟩] ∧ u.status = 0 ∧ sleepTarget s.din ≤ u.services - s.services := by
  have underway := h.underway.step run
  have port : t.portReq = none := h.underway.staged.1
  obtain aside | ⟨fg, turn⟩ := step_inside_command port h.started h.command h.underway.noReset run
  · exact .inl (h.of_standsAside underway (step_keeps_cfg run) aside)
  have tick := h.underway.tick fg
  have same : u.services = t.services := services_command (s := t.consume) rfl turn
  obtain ⟨-, ⟨busy, -⟩ | ⟨-, ⟨idle, -⟩ | ⟨-, rfl⟩ | ⟨at_, -, rfl⟩ | ⟨at_, due, rfl⟩ | ⟨-, notL0, notL1, -⟩⟩⟩ :=
    execSleepticks_cases turn
  · exact absurd (fg.symm.trans busy) (by decide)
  · exact absurd idle h.started
  · have later : s.services ≤ t.services := by
      obtain ⟨-, later⟩ | ⟨n, later, -, -, before, -⟩ := h.phase
      · exact later
      · exact later.trans before
    exact .inl ⟨underway, h.command, h.silent, .inr ⟨t.services, later, rfl, rfl, le_rfl, tick⟩⟩
  · exact .inl ⟨underway, h.command, h.silent, h.phase⟩
  · obtain ⟨early, -⟩ | ⟨n, later, -, goal, before, sampled⟩ := h.phase
    · exact absurd (early.symm.trans at_) (by decide)
    have apart : t.tick ≡ t.slStart + (t.services - n) [MOD 2 ^ t.cfg.tickw] := by
      have shifted := sampled.add_right (t.services - n)
      rw [Nat.add_sub_of_le before] at shifted
      exact tick.trans shifted.symm
    have enough : sleepTarget s.din ≤ t.services - n := by
      rw [← goal]
      exact (due.trans_eq (elapsed_of_modEq apart)).trans (Nat.mod_le _ _)
    exact .inr ⟨rfl, rfl, by omega⟩
  · obtain ⟨at_, -⟩ | ⟨-, -, at_, -⟩ := h.phase
    · exact absurd at_ notL0
    · exact absurd at_ notL1

/-- Over a run in which no command responds the sleep stays in progress. -/
theorem Sleeping.run {n : Nat} {s t u : State} (h : Sleeping s t) (run : Host.Core.run Sys2Proof.core n t = .next u)
    (silent : u.responses = s.responses) : Sleeping s u := by
  induction n generalizing t with
  | zero => cases run; exact h
  | succ n ih =>
    obtain ⟨v, first, rest⟩ := step_of_run run
    obtain sleeping | ⟨response, -⟩ := h.step first
    · exact ih sleeping rest
    · have kept := (responses_of_run (h.underway.step first).noReset rest).length_le
      rw [response, silent, h.silent, List.length_append, List.length_singleton] at kept
      omega

/-- Settles O45: at the response the difference has come to the target, and services are counted no fewer than `TICK` shows. -/
theorem sleepIsNeverShort : Obligations.SleepIsNeverShort := by
  intro n s t u _ sequenced staged counted at_ noReset run silent last responds
  have start : Sleeping s s :=
    ⟨⟨sequenced, staged, counted, noReset⟩, sleepticks_of_l0 sequenced at_, rfl, .inl ⟨at_, le_rfl⟩⟩
  have sleeping := start.run run silent
  obtain still | ⟨-, ok, enough⟩ := sleeping.step last
  · exact absurd (still.silent.trans silent.symm) responds
  · exact ⟨ok, enough⟩

end Sys2Proof.Machine

/-! PROOFS. The exceptions (60_exceptions): the interrupt port, interrupt entry, the service that finds the flag clear, and the
halted state. -/
namespace Sys2Proof.Machine

/-! ### The interrupt port (R207 to R209) -/

/-- Outside the halted state a transaction does its own work (R203). -/
theorem portStep_live {s : State} (k : State → Result) (live : s.halted = false) : portStep s k = k s := by
  simp [portStep, live]

/-- Settles O19: past the guard of the halted state each transaction is the facility's one operation. -/
theorem interruptPortTransactions : Obligations.InterruptPortTransactions :=
  fun n _ live =>
    ⟨portStep_live (fun s => .next (s.intcRegister s.agent n)) live,
      portStep_live (fun s => .next (s.intcSetPriority s.agent n)) live,
      portStep_live (fun s => .next (s.intcEnable s.agent)) live⟩

/-! ### The interrupt context under the moves of ENV and of the host (R210, R212, R216) -/

theorem invocable_iff (s : State) :
    s.invocable = true ↔ s.hReg = true ∧ s.hEn = true ∧ s.inIsr = false ∧ s.fatal = false := by
  simp [State.invocable, and_assoc]

/-- Only an entry, a spurious service and a reset have to do with the interrupt context. -/
theorem applyMove_keeps_context {m : Move} (s : State) (noEntry : m ≠ .enter) (noService : m ≠ .spurious)
    (noReset : m ≠ .reset) : (applyMove m s).inIsr = s.inIsr ∧ (applyMove m s).iseq = s.iseq := by
  cases m with
  | enter => exact absurd rfl noEntry
  | spurious => exact absurd rfl noService
  | reset => exact absurd rfl noReset
  | updateEvent => obtain ⟨-, e⟩ | ⟨-, e⟩ := periodicUpdate_cases s <;> simp [applyMove, e]
  | pinInput p w => obtain ⟨-, e⟩ | ⟨-, e⟩ := drivePins_cases s p w <;> simp [applyMove, e, State.pokeField]
  | clearWake => obtain ⟨-, e⟩ | ⟨-, e⟩ := clearWake_cases s <;> simp [applyMove, e]
  | _ => simp [applyMove, State.pokeField]

/-- Where the handler cannot be invoked, there is neither an entry nor a spurious service. -/
theorem context_of_not_invocable {m : Move} {s : State} (blocked : s.invocable = false) (noReset : m ≠ .reset) :
    (applyMove m s).inIsr = s.inIsr ∧ (applyMove m s).iseq = s.iseq := by
  by_cases entry : m = .enter
  · obtain ⟨enabled, -⟩ | ⟨-, e⟩ := takeEntry_cases s
    · simp [State.entryEnabled, blocked] at enabled
    · simp [entry, applyMove, e]
  by_cases service : m = .spurious
  · obtain ⟨invoked, -⟩ | ⟨-, e⟩ := spuriousService_cases s
    · simp [blocked] at invoked
    · simp [service, applyMove, e]
  exact applyMove_keeps_context s entry service noReset

/-- Of the moves only an entry that is enabled makes `IN_ISR` 1: a spurious service has left again (R216). -/
theorem entry_of_applyMove {m : Move} {s : State} (outside : s.inIsr = false) (inside : (applyMove m s).inIsr = true) :
    m = .enter ∧ s.entryEnabled = true ∧ applyMove m s = s.enterIsr := by
  by_cases entry : m = .enter
  · subst entry
    obtain ⟨enabled, e⟩ | ⟨-, e⟩ := takeEntry_cases s
    · exact ⟨rfl, enabled, e⟩
    · simp [applyMove, e, outside] at inside
  by_cases service : m = .spurious
  · subst service
    obtain ⟨-, e⟩ | ⟨-, e⟩ := spuriousService_cases s <;> simp [applyMove, e, outside] at inside
  by_cases reset : m = .reset
  · subst reset
    simp [applyMove, State.hostReset, State.resetOf] at inside
  · obtain ⟨kept, -⟩ := applyMove_keeps_context s entry service reset
    exact absurd (inside.symm.trans (kept.trans outside)) (by decide)

/-! ### Interrupt entry (R205, R210, R211) -/

/-- The six conditions of R210. -/
theorem entryEnabled_iff (s : State) :
    s.entryEnabled = true ↔ s.hReg = true ∧ s.hEn = true ∧ s.peek .timSr &&& s.cfg.mask.uif ≠ 0 ∧
      s.peek .timDier &&& s.cfg.mask.uie ≠ 0 ∧ s.inIsr = false ∧ s.fatal = false := by
  have line : s.irqLine = true ↔ s.peek .timSr &&& s.cfg.mask.uif ≠ 0 ∧ s.peek .timDier &&& s.cfg.mask.uie ≠ 0 := by
    simp [State.irqLine, State.uif, State.uie, State.flag]
  rw [State.entryEnabled, Bool.and_eq_true, invocable_iff, line]
  tauto

@[simp] theorem rejectWord_inIsr (s : State) : (rejectWord s).inIsr = s.inIsr := by
  obtain e | e := rejectWord_cases s <;> simp [e]

/-- A step that makes `IN_ISR` 1 is an enabled entry, listed or by default (R210, log 2). -/
theorem entry_of_step {s t : State} (h : step s = .next t) (outside : s.inIsr = false) (inside : t.inIsr = true) :
    t = s.consume.enterIsr ∧ (s.moves = [] ∨ s.moves.head? = some .enter) ∧ s.entryEnabled = true := by
  have unmoved {claim : Prop} (kept : t.inIsr = s.inIsr) : claim :=
    absurd (inside.symm.trans (kept.trans outside)) (by decide)
  cases stepKind_of_step h with
  | transaction i port kind run =>
    obtain ⟨-, -, -, -, -, -, -, -, -, -, -, -, kept, -⟩ := exec_transaction_keeps kind run
    exact unmoved kept
  | entry moves enabled result =>
    have same : s.consume = s := by rw [State.consume, moves, List.tail_nil, ← moves]
    exact ⟨by rw [same, result], .inl moves, enabled⟩
  | service live serving => exact absurd (outside.symm.trans serving) (by decide)
  | pause result => subst result; exact unmoved rfl
  | rejection waiting result => subst result; exact unmoved (rejectWord_inIsr s.consume)
  | command i live foreground kind decoded run =>
    obtain ⟨⟨kept, -⟩, -⟩ := exec_command_cases kind run
    exact unmoved kept
  | move m port next result =>
    subst result
    obtain ⟨rfl, enabled, e⟩ := entry_of_applyMove (s := s.consume) outside inside
    exact ⟨e, .inr next, enabled⟩

/-! ### A service invoked with the flag clear (R216) -/

theorem spurious_invocable_iff (s : State) :
    (s.invocable && !s.uif) = true ↔
      s.hReg = true ∧ s.hEn = true ∧ s.peek .timSr &&& s.cfg.mask.uif = 0 ∧ s.inIsr = false ∧ s.fatal = false := by
  have clear : (!s.uif) = true ↔ s.peek .timSr &&& s.cfg.mask.uif = 0 := by simp [State.uif, State.flag]
  rw [Bool.and_eq_true, invocable_iff, clear]
  tauto

/-- What a service that finds the flag clear leaves behind, with `d` on the response lines: its two entries in the record (log 31)
and the step register at `IDLE`. -/
def State.afterStutter (s : State) (d : Word) : State :=
  { s with
    iseq := .idle, rdata := d, draws := s.draws + 3,
    record := s.record ++
      [⟨.env, .env .spurious, none⟩, ⟨.isr, .transaction (.busHasBits .timSr s.cfg.mask.uif), some 0⟩] }

theorem spuriousService_of_clear {s : State} (invoked : (s.invocable && !s.uif) = true) :
    ∃ d, s.spuriousService = s.afterStutter d := by
  obtain ⟨-, -, clear, outside, -⟩ := (spurious_invocable_iff s).1 invoked
  obtain ⟨-, e⟩ | ⟨blocked, -⟩ := spuriousService_cases s
  case inr => exact absurd (invoked.symm.trans blocked) (by decide)
  obtain ⟨d, answer⟩ := busHasBits_of_clear (s := (s.noted .spurious).enterIsr) (r := .timSr) .isr clear
  refine ⟨d, ?_⟩
  rw [e, answer]
  simp [State.afterStutter, State.leaveIsr, State.issued, State.enterIsr, State.noted, outside]

/-- Neither entry of a stutter is shown (R216, R264). -/
theorem observe_afterStutter {s₀ s : State} (d : Word) (begun : s₀.record.length ≤ s.record.length) :
    State.observe s₀ (s.afterStutter d) = State.observe s₀ s := by
  have shows : (s.afterStutter d).shows = s.shows := rfl
  have record : ((s.afterStutter d).record.drop s₀.record.length).filter s.shows =
      (s.record.drop s₀.record.length).filter s.shows := by
    rw [State.afterStutter, List.drop_append_of_le_length begun]
    simp [State.shows]
  rw [State.observe, shows, record]
  rfl

/-- Settles O48: an entry is one test of its six conditions, no other step comes to `IN_ISR = 1`, and a service that finds the flag
clear leaves two entries in the record that no observation shows. -/
theorem interruptEntryUnderSixConditions : Obligations.InterruptEntryUnderSixConditions := by
  refine ⟨fun s t h outside inside => ?rise, fun s rest port moves => ⟨fun six => ?entry, fun missing => ?none⟩,
    fun s rest port moves => ⟨fun clear => ?stutter, fun missing => ?nothing⟩⟩
  case rise =>
    obtain ⟨result, move, enabled⟩ := entry_of_step h outside inside
    obtain ⟨hReg, hEn, uif, uie, -, fatal⟩ := (entryEnabled_iff s).1 enabled
    exact ⟨result, move, hReg, hEn, fatal, uif, uie⟩
  case entry =>
    rw [step_of_move port moves nofun]
    exact congrArg _ (if_pos ((entryEnabled_iff s).2 six))
  case none =>
    rw [step_of_move port moves nofun]
    exact congrArg _ (if_neg (mt (entryEnabled_iff s).1 missing))
  case stutter =>
    obtain ⟨d, e⟩ := spuriousService_of_clear (s := { s with moves := rest }) ((spurious_invocable_iff s).2 clear)
    refine ⟨State.afterStutter { s with moves := rest } d, ?_, rfl, fun s₀ => observe_afterStutter d⟩
    rw [step_of_move port moves nofun]
    exact congrArg _ e
  case nothing =>
    rw [step_of_move port moves nofun]
    exact congrArg _ (if_neg (mt (spurious_invocable_iff s).1 missing))

/-! ### The halted state (R203) -/

theorem invocable_of_fatal {s : State} (fatal : s.fatal = true) : s.invocable = false := by
  simp [State.invocable, fatal]

theorem coreTurn_of_fatal {s : State} (fatal : s.fatal = true) : coreTurn s = .fault .halted := by
  simp [coreTurn, State.halted, fatal]

/-- In the halted state a move of ENV or of the host leaves the step registers, the interrupt context, `TICK` and the fatal record
as they are, and `WAKE` but for the host's clearing (R22, R203). -/
theorem applyMove_of_fatal {m : Move} {s : State} (fatal : s.fatal = true) (noReset : m ≠ .reset) :
    (applyMove m s).fatal = true ∧ (applyMove m s).seq = s.seq ∧ (applyMove m s).inIsr = s.inIsr ∧
    (applyMove m s).iseq = s.iseq ∧ (applyMove m s).tick = s.tick ∧
    (m ≠ .clearWake → (applyMove m s).wake = s.wake) := by
  have kind := moveKind m s
  obtain ⟨-, seq, -, -, -, -, -, ⟨kept, -⟩, -⟩ := kind.keptForeground noReset
  obtain ⟨tick, wake⟩ := kind.counters noReset
  obtain ⟨inIsr, iseq⟩ := context_of_not_invocable (m := m) (invocable_of_fatal fatal) noReset
  exact ⟨kept.trans fatal, seq, inIsr, iseq, tick, fun notClear => wake.resolve_right fun ⟨clear, _⟩ => notClear clear⟩

/-- Settles O22: a turn of the block is stopped by its first guard, a move but for a reset cannot invoke the handler, and a reset
is the state of R58. -/
theorem haltedBlockOnlyLeavesByReset : Obligations.HaltedBlockOnlyLeavesByReset := by
  intro s fatal port
  have noEntry : s.entryEnabled = false := by simp [State.entryEnabled, invocable_of_fatal fatal]
  refine ⟨fun moves => ?_, fun rest moves => ?_, fun m rest moves notCore => ?_⟩
  · rw [step_of_turn port (.inr ⟨moves, rfl, noEntry⟩)]
    exact coreTurn_of_fatal fatal
  · rw [step_of_turn port (.inl moves)]
    exact coreTurn_of_fatal fatal
  · refine ⟨_, step_of_move port moves notCore, fun reset => ?_, applyMove_of_fatal fatal⟩
    subst reset
    exact ⟨rfl, rfl⟩

end Sys2Proof.Machine
